-- ==== Sys2Proof/Word.lean ====
section
/-!
DEFINITION. The word types of the D960 and the one sparse table type the state is built from.
A table (`Map`) is a list of key and value pairs; its canonical form (keys strictly rising) is `mwf`.
Its operations stand in Machine/Tables.lean.
-/

namespace Sys2Proof

abbrev Byte := BitVec 8
abbrev Half := BitVec 16
abbrev Word := BitVec 32
abbrev DWord := BitVec 64
/-- A virtual address, R68 and R92. -/
abbrev VAddr := BitVec 57

/-- A sparse table: key and value pairs, keys strictly rising. -/
abbrev Map (α : Type) := List (Nat × α)

end Sys2Proof
end

