-- ==== Sys2Proof/Syntax.lean ====
section
/-!
DEFINITION. The instruction set as data: operand types and `Instr`, one constructor per row of spec/opcode_table.json.
The first 178 constructors are the encoded instructions (R216 to R219, R211); the other 81 are the table's event rows,
which have no encoding and reach `exec` from the agenda (or the fixed scheduler) of `step`.
-/

namespace Sys2Proof


/-- A 7-bit source field that is no reserved pattern, R205: vn, sn, yn or an inline constant code. -/
inductive Src where
  | v (n : BitVec 6)
  | s (n : BitVec 5)
  | y (n : BitVec 2)
  | c (k : BitVec 3)
  deriving DecidableEq, Repr

/-- A vector destination, R208: the suppress bit `!` (R12) and the register. -/
structure Dst where
  sup : Bool
  n   : BitVec 6
  deriving DecidableEq, Repr

/-- Rounding modes with their codes, R71. -/
inductive Rm where
  | rne | rz | ru | rd
  deriving DecidableEq, Repr

/-- Load and store types, M4 codes 0 to F of R17. -/
inductive MemTy where
  | z8 | s8 | z16 | s16 | i32 | f32 | f64 | bf16x2 | f16x2 | e4m3x4 | e5m2x4 | i8x4 | n4p | key64 | b128 | b32
  deriving DecidableEq, Repr

/-- Scopes 0 to 6, R23 and R185. -/
inductive Scope where
  | team | core | cluster | die | package | domain | system
  deriving DecidableEq, Repr

/-- Spaces of objects, blocks and cards, R277. -/
inductive Space where
  | glob | spad | hnd
  deriving DecidableEq, Repr

/-- Atomic operations, M4 codes 0 to E of R287. -/
inductive AtomOp where
  | add | min | max | minu | maxu | and | or | xor | exch | cas | fadd | bfadd2 | add64 | exch64 | cas64
  deriving DecidableEq, Repr

/-- Fence kinds, R285. -/
inductive FenceKind where
  | full | rel | acq
  deriving DecidableEq, Repr

/-- Floating compares of `dcmp`, R260. -/
inductive DCmp where
  | eq | lt | le | un
  deriving DecidableEq, Repr

/-- `csrw` forms, R326. -/
inductive CsrForm where
  | write | set | clr
  deriving DecidableEq, Repr

/-- The mask of the register form of `ctwait`, and of `ctfind`: a pair of uniform registers or all tags (R298). -/
inductive TagMask where
  | pair (m : BitVec 5)
  | all
  deriving DecidableEq, Repr

/-- Where an ECC error falls, R394. -/
inductive EccSite where
  | vreg (thread n : Nat)
  | preg (thread : Nat)
  | sreg (team n : Nat)
  | areg (team n : Nat)
  | spad (core granule : Nat)
  | landing (cluster granule : Nat)
  | mem (granule : Nat)
  /-- A 32-byte granule of memory as a core's L1, or its home's last-level cache, holds it. -/
  | l1 (core granule : Nat)
  | llc (granule : Nat)
  | acc (core granule : Nat)
  | wbuf (core granule : Nat)
  | tlb (level : Nat) (unit : Nat) (index : Nat)
  | tagEntry (core slot : Nat)
  | replica (die page asid : Nat) (va : BitVec 64)
  /-- A replica that no reader had in hand. -/
  | idleReplica (die page : Nat)
  deriving DecidableEq, Repr

/-- A request that arrives over HokuLink from another package, R345: performed at the physical address named. -/
inductive LinkReq where
  | load (pa n : Nat)
  | store (pa : Nat) (bytes : List (BitVec 8))
  | atom (op : AtomOp) (pa : Nat) (b c : BitVec 64)
  | arrive (pa n : Nat)
  | expect (pa : Nat) (bytes : BitVec 32)
  deriving DecidableEq, Repr

/-- What the trusted root finds of one operations-firmware image (R419): signature valid, security version, digest. -/
structure FwImage where
  sigValid : Bool
  version  : Nat
  digest   : Nat
  deriving DecidableEq, Repr

/-- The rows of the opcode table: instructions with their decoded operands, then events with what they name. -/
inductive Instr where
  /-- ADD, R227. -/
  | add (u sat : Bool) (a b : Src) (d : Dst)
  /-- SUB, R227. -/
  | sub (u sat : Bool) (a b : Src) (d : Dst)
  /-- MUL, R227. -/
  | mul (u sat : Bool) (a b : Src) (d : Dst)
  /-- MULH, R227. -/
  | mulh (u : Bool) (a b : Src) (d : Dst)
  /-- AND, R229. -/
  | and (inv : Bool) (a b : Src) (d : Dst)
  /-- OR, R229. -/
  | or (inv : Bool) (a b : Src) (d : Dst)
  /-- XOR, R229. -/
  | xor (inv : Bool) (a b : Src) (d : Dst)
  /-- ANDN, R229. -/
  | andn (inv : Bool) (a b : Src) (d : Dst)
  /-- SHL, R229. -/
  | shl (a b : Src) (d : Dst)
  /-- SHR, R229. -/
  | shr (a b : Src) (d : Dst)
  /-- SAR, R229. -/
  | sar (a b : Src) (d : Dst)
  /-- ROT, R229. -/
  | rot (a b : Src) (d : Dst)
  /-- MIN, R227. -/
  | min (u : Bool) (a b : Src) (d : Dst)
  /-- MAX, R227. -/
  | max (u : Bool) (a b : Src) (d : Dst)
  /-- ABSD, R227. -/
  | absd (u : Bool) (a b : Src) (d : Dst)
  /-- DIV, R227. -/
  | div (u : Bool) (a b : Src) (d : Dst)
  /-- REM, R227. -/
  | rem (u : Bool) (a b : Src) (d : Dst)
  /-- CLZ, R229. -/
  | clz (a : Src) (d : Dst)
  /-- POPC, R229. -/
  | popc (a : Src) (d : Dst)
  /-- BREV, R229. -/
  | brev (a : Src) (d : Dst)
  /-- CMPEQ, R230. -/
  | cmpeq (inv : Bool) (a b : Src) (p : BitVec 3)
  /-- CMPLT, R230. -/
  | cmplt (inv u : Bool) (a b : Src) (p : BitVec 3)
  /-- CMPLE, R230. -/
  | cmple (inv u : Bool) (a b : Src) (p : BitVec 3)
  /-- SEL, R231. -/
  | sel (p : BitVec 2) (a b : Src) (d : Dst)
  /-- ADDA, R235. -/
  | adda (b : Src) (aS aD : BitVec 4)
  /-- MOV, R237. -/
  | mov (a : Src) (d : Dst)
  /-- BCST, R239. -/
  | bcst (a b : Src) (d : Dst)
  /-- SHFL, R239. -/
  | shfl (a b : Src) (d : Dst)
  /-- VOTE_ANY, R240. -/
  | voteAny (a : Src) (p : BitVec 3)
  /-- VOTE_ALL, R240. -/
  | voteAll (a : Src) (p : BitVec 3)
  /-- VOTE_BALLOT, R240. -/
  | voteBallot (a : Src) (d : Dst)
  /-- PRMT, R241. -/
  | prmt (a b : Src) (d : Dst)
  /-- FADD, R257. -/
  | fadd (rm : Rm) (a b : Src) (d : Dst)
  /-- FSUB, R257. -/
  | fsub (rm : Rm) (a b : Src) (d : Dst)
  /-- FMUL, R257. -/
  | fmul (rm : Rm) (a b : Src) (d : Dst)
  /-- FMIN, R257. -/
  | fmin (a b : Src) (d : Dst)
  /-- FMAX, R257. -/
  | fmax (a b : Src) (d : Dst)
  /-- FCMPEQ, R260. -/
  | fcmpeq (a b : Src) (p : BitVec 3)
  /-- FCMPLT, R260. -/
  | fcmplt (a b : Src) (p : BitVec 3)
  /-- FCMPLE, R260. -/
  | fcmple (a b : Src) (p : BitVec 3)
  /-- FRCP, R262. -/
  | frcp (rm : Rm) (a : Src) (d : Dst)
  /-- FRSQ, R262. -/
  | frsq (a : Src) (d : Dst)
  /-- FSQRT, R262. -/
  | fsqrt (rm : Rm) (a : Src) (d : Dst)
  /-- FEX2, R262. -/
  | fex2 (a : Src) (d : Dst)
  /-- FLG2, R262. -/
  | flg2 (a : Src) (d : Dst)
  /-- FSIN, R262. -/
  | fsin (a : Src) (d : Dst)
  /-- FCOS, R262. -/
  | fcos (a : Src) (d : Dst)
  /-- FCLASS, R261. -/
  | fclass (a : Src) (d : Dst)
  /-- DADD, R257. -/
  | dadd (rm : Rm) (a b : Src) (d : Dst)
  /-- DSUB, R257. -/
  | dsub (rm : Rm) (a b : Src) (d : Dst)
  /-- DMUL, R257. -/
  | dmul (rm : Rm) (a b : Src) (d : Dst)
  /-- DMIN, R257. -/
  | dmin (a b : Src) (d : Dst)
  /-- DMAX, R257. -/
  | dmax (a b : Src) (d : Dst)
  /-- DCMP, R260. -/
  | dcmp (t : DCmp) (a b : Src) (p : BitVec 3)
  /-- DRCP, R262. -/
  | drcp (rm : Rm) (a : Src) (d : Dst)
  /-- HADD2, R257. -/
  | hadd2 (rm : Rm) (a b : Src) (d : Dst)
  /-- HMUL2, R257. -/
  | hmul2 (rm : Rm) (a b : Src) (d : Dst)
  /-- HMAX2, R257. -/
  | hmax2 (a b : Src) (d : Dst)
  /-- CVT, R266. -/
  | cvt (rm : Rm) (k : BitVec 7) (a : Src) (d : Dst)
  /-- FTAG, R268. -/
  | ftag (k : BitVec 7) (a : Src) (d : Dst)
  /-- QNT4, R270. -/
  | qnt4 (b : Src) (a : BitVec 6) (d : Dst)
  /-- DQNT4, R271. -/
  | dqnt4 (a b : Src) (d : Dst)
  /-- GETSR, R242. -/
  | getsr (k : BitVec 7) (d : Dst)
  /-- FFMA, R259. -/
  | ffma (a b : Src) (c d : BitVec 6)
  /-- DFMA, R259. -/
  | dfma (a b : Src) (c d : BitVec 6)
  /-- HFMA2, R259. -/
  | hfma2 (a b : Src) (c d : BitVec 6)
  /-- MAD, R232. -/
  | mad (a b : Src) (c d : BitVec 6)
  /-- BFI, R232. -/
  | bfi (a b : Src) (c d : BitVec 6)
  /-- DOT4, R259. -/
  | dot4 (a b : Src) (c d : BitVec 6)
  /-- DOT2H, R259. -/
  | dot2h (a b : Src) (c d : BitVec 6)
  /-- ADDI, R233. -/
  | addi (imm : BitVec 9) (a : Src) (d : Dst)
  /-- ANDI, R233. -/
  | andi (imm : BitVec 9) (a : Src) (d : Dst)
  /-- ORI, R233. -/
  | ori (imm : BitVec 9) (a : Src) (d : Dst)
  /-- XORI, R233. -/
  | xori (imm : BitVec 9) (a : Src) (d : Dst)
  /-- SHLI, R233. -/
  | shli (sh : BitVec 5) (a : Src) (d : Dst)
  /-- SHRI, R233. -/
  | shri (sh : BitVec 5) (a : Src) (d : Dst)
  /-- SARI, R233. -/
  | sari (sh : BitVec 5) (a : Src) (d : Dst)
  /-- CMPEQI, R233. -/
  | cmpeqi (imm : BitVec 9) (a : Src) (p : BitVec 3)
  /-- CMPLTI, R233. -/
  | cmplti (imm : BitVec 9) (a : Src) (p : BitVec 3)
  /-- CMPLEI, R233. -/
  | cmplei (imm : BitVec 9) (a : Src) (p : BitVec 3)
  /-- MOVI, R234. -/
  | movi (imm : BitVec 16) (d : Dst)
  /-- MOVHI, R234. -/
  | movhi (imm : BitVec 16) (d : Dst)
  /-- MOVSI, R234. -/
  | movsi (imm : BitVec 16) (d : BitVec 5)
  /-- MOVHSI, R234. -/
  | movhsi (imm : BitVec 16) (d : BitVec 5)
  /-- ADDAI, R235. -/
  | addai (imm : BitVec 9) (aS aD : BitVec 4)
  /-- BR, R246. -/
  | br (off : BitVec 23)
  /-- BRP, R246. -/
  | brp (off : BitVec 16) (neg : Bool) (p : BitVec 3)
  /-- CALL, R247. -/
  | call (off : BitVec 23)
  /-- RET, R247. -/
  | ret (a : Src)
  /-- JMPI, R247. -/
  | jmpi (a : Src)
  /-- REFORM, R248. -/
  | reform
  /-- JOIN, R248. -/
  | join
  /-- YIELD, R55. -/
  | yield
  /-- EXIT, R249. -/
  | exit
  /-- TRAP, R250. -/
  | trap (code : BitVec 16)
  /-- NOP, R251. -/
  | nop
  /-- ADD_C16, R211. -/
  | addC16 (b : Src) (d : BitVec 6)
  /-- SUB_C16, R211. -/
  | subC16 (b : Src) (d : BitVec 6)
  /-- MUL_C16, R211. -/
  | mulC16 (b : Src) (d : BitVec 6)
  /-- AND_C16, R211. -/
  | andC16 (b : Src) (d : BitVec 6)
  /-- OR_C16, R211. -/
  | orC16 (b : Src) (d : BitVec 6)
  /-- XOR_C16, R211. -/
  | xorC16 (b : Src) (d : BitVec 6)
  /-- SHL_C16, R211. -/
  | shlC16 (b : Src) (d : BitVec 6)
  /-- SHR_C16, R211. -/
  | shrC16 (b : Src) (d : BitVec 6)
  /-- SAR_C16, R211. -/
  | sarC16 (b : Src) (d : BitVec 6)
  /-- MOV_C16, R211. -/
  | movC16 (b : Src) (d : BitVec 6)
  /-- MIN_C16, R211. -/
  | minC16 (b : Src) (d : BitVec 6)
  /-- MAX_C16, R211. -/
  | maxC16 (b : Src) (d : BitVec 6)
  /-- FADD_C16, R272. -/
  | faddC16 (b : Src) (d : BitVec 6)
  /-- FSUB_C16, R272. -/
  | fsubC16 (b : Src) (d : BitVec 6)
  /-- FMUL_C16, R272. -/
  | fmulC16 (b : Src) (d : BitVec 6)
  /-- FMAX_C16, R272. -/
  | fmaxC16 (b : Src) (d : BitVec 6)
  /-- LD, R278. -/
  | ld (t : MemTy) (n : BitVec 4) (o : Src) (d : BitVec 6)
  /-- ST, R279. -/
  | st (t : MemTy) (n : BitVec 4) (o b : Src)
  /-- LDU, R280. -/
  | ldu (t : MemTy) (n : BitVec 4) (o : Src) (d : BitVec 5)
  /-- LDS, R278. -/
  | lds (t : MemTy) (h : Bool) (n : BitVec 4) (o : Src) (d : BitVec 6)
  /-- STS, R279. -/
  | sts (t : MemTy) (h : Bool) (n : BitVec 4) (o b : Src)
  /-- LDBMV, R283. -/
  | ldbmv (t : MemTy) (n : BitVec 4) (p : BitVec 5)
  /-- STBMV, R282. -/
  | stbmv (t : MemTy) (n : BitVec 4) (p : BitVec 5)
  /-- LDACQ, R284. -/
  | ldacq (sc : Scope) (b64 : Bool) (n : BitVec 4) (o : Src) (d : BitVec 6)
  /-- STREL, R284. -/
  | strel (sc : Scope) (b64 : Bool) (n : BitVec 4) (o b : Src)
  /-- ATOM, R288. -/
  | atom (op : AtomOp) (near : Bool) (n : BitVec 4) (b : Src) (d : BitVec 6)
  /-- ATOMU, R288. -/
  | atomu (op : AtomOp) (far : Bool) (n : BitVec 4) (b o : Src)
  /-- FENCE, R285. -/
  | fence (sc : Scope) (k : FenceKind)
  /-- PREF, R286. -/
  | pref (l2 : Bool) (n : BitVec 4) (o : Src)
  /-- TAGLK, R290. -/
  | taglk (n : BitVec 4) (o : Src) (d : BitVec 6)
  /-- TAGSET, R290. -/
  | tagset (n : BitVec 4) (o b : Src)
  /-- TAGCLR, R290. -/
  | tagclr (b : Src)
  /-- BARINIT, R291. -/
  | barinit (sp : Space) (n : BitVec 4) (b c : Src)
  /-- BARARV, R102. -/
  | bararv (sp : Space) (n : BitVec 4)
  /-- BAREXP, R291. -/
  | barexp (sp : Space) (n : BitVec 4) (b : Src)
  /-- BARWAIT, R103. -/
  | barwait (sp : Space) (n : BitVec 4) (k : Src)
  /-- CPY, R295. -/
  | cpy (n : BitVec 4) (t : BitVec 6)
  /-- CPYX, R295. -/
  | cpyx (n : BitVec 4) (t : BitVec 6)
  /-- CPYMMA, R177. -/
  | cpymma (n : BitVec 4) (t : BitVec 6)
  /-- CTWAIT_GROUP, R298. -/
  | ctwaitGroup (all : Bool) (mask : BitVec 8) (g : BitVec 3)
  /-- CTWAIT_MASK, R298. -/
  | ctwaitMask (all : Bool) (m : TagMask)
  /-- CTFIND, R299. -/
  | ctfind (m : TagMask) (d : BitVec 5)
  /-- XFER, R301. -/
  | xfer (spad : Bool) (n : BitVec 4)
  /-- LEASE, R302. -/
  | lease (spad : Bool) (n : BitVec 4)
  /-- UNLEASE, R303. -/
  | unlease (b : Src)
  /-- SURR, R112. -/
  | surr (b c : Src)
  /-- QRES, R305. -/
  | qres (k : BitVec 3) (n : BitVec 4) (d : BitVec 6)
  /-- QPUB, R305. -/
  | qpub (n : BitVec 4) (b : Src)
  /-- QTAKE, R305. -/
  | qtake (n : BitVec 4) (d : BitVec 6)
  /-- SPAWN_T, R306. -/
  | spawnT (try_ : Bool) (g : BitVec 4) (b : Src) (k : BitVec 3)
  /-- SPAWN_K, R307. -/
  | spawnK (try_ : Bool) (n : BitVec 4) (k : BitVec 3)
  /-- CINS, R136. -/
  | cins (n : BitVec 4) (a d : BitVec 6)
  /-- CDEL, R136. -/
  | cdel (n : BitVec 4) (a d : BitVec 6)
  /-- CREL, R136. -/
  | crel (n : BitVec 4) (a d : BitVec 6)
  /-- COPEN, R137. -/
  | copen (settled : Bool) (n : BitVec 4) (a d : BitVec 6)
  /-- CNEXT, R138. -/
  | cnext (c : Src) (d : BitVec 6)
  /-- CCLOSE, R313. -/
  | cclose (c : Src)
  /-- CSTEP, R131. -/
  | cstep (n : BitVec 4) (d : BitVec 5)
  /-- CCNT, R136. -/
  | ccnt (n : BitVec 4) (a d : BitVec 6)
  /-- MMA, R314. -/
  | mma (ty : BitVec 4) (shape : BitVec 5) (wb : Bool) (n : BitVec 5) (tile : BitVec 7)
  /-- MMAS, R175. -/
  | mmas (ty : BitVec 4) (shape : BitVec 5) (wb : Bool) (n : BitVec 5) (tile : BitVec 7)
  /-- MZERO, R316. -/
  | mzero (ty : BitVec 4) (n tile : BitVec 7)
  /-- MLDW, R317. -/
  | mldw (ty : BitVec 4) (n : BitVec 4) (b : Src) (region : BitVec 6)
  /-- MACLD, R318. -/
  | macld (ty : BitVec 4) (n : BitVec 4) (cnt tile : BitVec 7)
  /-- MACST, R318. -/
  | macst (n : BitVec 4) (cnt tile : BitVec 7)
  /-- MWAIT, R319. -/
  | mwait (wb : Bool) (cnt tile : BitVec 7)
  /-- TRAY, R320. -/
  | tray (m n : BitVec 4) (o : Src) (d : BitVec 6)
  /-- TNEXT, R321. -/
  | tnext (b : Src)
  /-- TWAIT, R322. -/
  | twait (b : Src) (d : BitVec 6)
  /-- TRES, R151. -/
  | tres (b : Src)
  /-- RAST, R323. -/
  | rast (k : BitVec 3) (v : BitVec 5) (d : BitVec 6)
  /-- TSIG, R324. -/
  | tsig (n : BitVec 4) (t : BitVec 6)
  /-- CSRR, R325. -/
  | csrr (csr : BitVec 4) (d : BitVec 5)
  /-- CSRW, R326. -/
  | csrw (form : CsrForm) (b : Src) (csr : BitVec 4)
  /-- ERET, R327. -/
  | eret (skip : Bool)
  /-- TLBI_PAGE, R328. -/
  | tlbiPage (n : BitVec 4) (b : Src)
  /-- TLBI_ASID, R328. -/
  | tlbiAsid (b : Src)
  /-- TLBI_ALL, R328. -/
  | tlbiAll
  /-- HARV_ASID, R329. -/
  | harvAsid (b : Src)
  /-- HARV_ALL, R329. -/
  | harvAll
  /-- SYS_MSG, R330. -/
  | sysMsg (b : Src)
  /-- SYS_INFO, R330. -/
  | sysInfo (k : BitVec 2) (d : BitVec 5)
  -- Event rows.
  /-- DECK_AGED, R42. -/
  | deckAged (core : Nat)
  /-- RAFT_FORMATION, R42. -/
  | raftFormation (core pipe : Nat)
  /-- FORCED_FILING, R45. -/
  | forcedFiling (core pipe : Nat)
  /-- THREAD_WAKE, R56. -/
  | threadWake (thread : Nat)
  /-- CLOCK_GATE, R64. -/
  | clockGate (core : Nat)
  /-- CLOCK_WAKE, R64. -/
  | clockWake (core : Nat)
  /-- LOTTERY_DRAW, R335. -/
  | lotteryDraw (slice : Nat)
  /-- TEAM_SAVE, R58. -/
  | teamSave (team : Nat)
  /-- TEAM_RESTORE, R60. -/
  | teamRestore (saved : Nat)
  /-- WATCHDOG_EXPIRY, R378. -/
  | watchdogExpiry (team : Nat)
  /-- TEAM_END, R249. -/
  | teamEnd (team : Nat)
  /-- FAULT_RECORD_POST, R374. -/
  | faultRecordPost (slice : Nat)
  /-- FAULT_REPLY_RETRY, R372. -/
  | faultReplyRetry (slice : Nat) (w : BitVec 64)
  /-- FAULT_REPLY_DELIVER, R372. -/
  | faultReplyDeliver (slice : Nat) (w : BitVec 64)
  /-- FAULT_REPLY_END, R372. -/
  | faultReplyEnd (slice : Nat) (w : BitVec 64)
  /-- REMOTE_TIMEOUT, R369. -/
  | remoteTimeout (thread : Nat)
  /-- POSTED_ACK_TIMEOUT, R369. -/
  | postedAckTimeout (index : Nat)
  /-- LEASE_SETTLEMENT, R108. -/
  | leaseSettlement (cluster : Nat)
  /-- SURRENDER_INJECTION, R111. -/
  | surrenderInjection (cluster index : Nat)
  /-- SURRENDER_OUTCOME, R112. -/
  | surrenderOutcome (cluster index : Nat)
  /-- REFUSAL_HOLDOFF_EXPIRY, R110. -/
  | refusalHoldoffExpiry (cluster index : Nat)
  /-- LOOSE_RECLAIM, R390. -/
  | looseReclaim (cluster index : Nat)
  /-- YARDER_JOB_START, R296. -/
  | yarderJobStart (job : Nat)
  /-- JOB_LANDING, R296. -/
  | jobLanding (job landing : Nat)
  /-- JOB_COMPLETION, R105. -/
  | jobCompletion (job : Nat)
  /-- MATRIX_RUN_START, R173. -/
  | matrixRunStart (core : Nat)
  /-- MATRIX_RUN_END, R174. -/
  | matrixRunEnd (core : Nat)
  /-- MATRIX_COMMAND_COMPLETE, R173. -/
  | matrixCommandComplete (core : Nat)
  /-- SAWYER_COMMIT, R133. -/
  | sawyerCommit (cluster : Nat)
  /-- PASS_START, R154. -/
  | passStart (cluster : Nat)
  /-- PASS_END, R360. -/
  | passEnd (cluster : Nat)
  /-- FRAME_BOUNDARY, R165. -/
  | frameBoundary (pipeline : Nat)
  /-- FENCE_ARRIVAL, R165. -/
  | fenceArrival (pipeline : Nat)
  /-- ENCODER_FRAME, R164. -/
  | encoderFrame (encoder : Nat)
  /-- FLIP, R163. -/
  | flip (pipeline : Nat)
  /-- KEYREQ, R164. -/
  | keyreq (encoder : Nat)
  /-- REGISTER_WRITE, R340. -/
  | registerWrite (off : Nat) (w : BitVec 64)
  /-- RETRAIN_PORT, R341. -/
  | retrainPort (trained : Bool)
  /-- REMOTE_WRITE_APPLY, R191. -/
  | remoteWriteApply (die : Nat)
  /-- REMOTE_ACCESS, R345. -/
  | remoteAccess (req : LinkReq)
  /-- SWITCH_FORWARD_TIMEOUT, R392. -/
  | switchForwardTimeout (index : Nat)
  /-- CXL_MEM_READ, R415. -/
  | cxlMemRead (pa n : Nat)
  /-- ECC_ERROR, R394. -/
  | eccError (site : EccSite) (double : Bool)
  /-- FLIT_REPLAY, R416. -/
  | flitReplay (port : Nat)
  /-- PORT_DOWN, R416. -/
  | portDown (port : Nat)
  /-- PORT_RETRAINED, R416. -/
  | portRetrained (port : Nat) (hardpan : Bool)
  /-- PORT_RETRAIN_EXPIRY, R416. -/
  | portRetrainExpiry (port : Nat)
  /-- CXL_LINK_RETRAINED, R415. -/
  | cxlLinkRetrained (hardpan : Bool)
  /-- DEVICE_RESET, R419. -/
  | deviceReset (primary secondary : FwImage) (minVersion : Nat)
  /-- HEARTBEAT_MISS, R419. -/
  | heartbeatMiss (mcore : Nat) (image : FwImage)
  /-- FIREWALL_VIOLATION, R419. -/
  | firewallViolation (mcore : Nat) (image : FwImage)
  /-- UNASSIGNED_ENCODING, R221. -/
  | unassignedEncoding (len : Nat)
  /-- LOAD_DATA_WRITTEN, R281. -/
  | loadDataWritten (thread : Nat)
  /-- CXL_MEM_WRITE, R339. -/
  | cxlMemWrite (pa : Nat) (bytes : List (BitVec 8))
  /-- REPLICATED_STORE_COMMIT, R193. -/
  | replicatedStoreCommit (index : Nat)
  /-- MESSAGE_RECORD_APPEND, R330. -/
  | messageRecordAppend (slice : Nat)
  /-- CLASS0_BOUND_RESTORED, R416. -/
  | class0BoundRestored (port : Nat)
  -- Rows without operands stand last: compiled code numbers no constructor with operands above 244.
  /-- VERSION, R341. -/
  | version
  /-- ACCEPT_FEATURES, R353. -/
  | acceptFeatures
  /-- CREATE_SLICE, R342. -/
  | createSlice
  /-- RESET_SLICE, R421. -/
  | resetSlice
  /-- FAULT_QUEUE, R347. -/
  | faultQueue
  /-- SET_CONTEXT, R343. -/
  | setContext
  /-- PRE_EMPT, R344. -/
  | preEmpt
  /-- RESTORE, R344. -/
  | restore
  /-- END_TEAMS, R344. -/
  | endTeams
  /-- INVALIDATE, R341. -/
  | invalidate
  /-- HARVEST, R341. -/
  | harvest
  /-- SET_WINDOW, R346. -/
  | setWindow
  /-- DOMAIN, R345. -/
  | domain
  /-- MAILBOX_RESERVED_OP, R418. -/
  | mailboxReservedOp
  /-- MAILBOX_COMPLETION, R341. -/
  | mailboxCompletion
  /-- AD_SWEEP, R117. -/
  | adSweep
  /-- SCRUB, R394. -/
  | scrub
  /-- CXL_LINK_DOWN, R415. -/
  | cxlLinkDown
  /-- SPDM_VERSION, R351. -/
  | spdmVersion
  /-- SPDM_CAPABILITIES, R351. -/
  | spdmCapabilities
  /-- SPDM_CERTIFICATES, R351. -/
  | spdmCertificates
  /-- SPDM_MEASUREMENTS, R351. -/
  | spdmMeasurements
  /-- SPDM_CHALLENGE, R351. -/
  | spdmChallenge
  /-- CXL_FLIT_RETRY, R415. -/
  | cxlFlitRetry
  deriving DecidableEq, Repr

end Sys2Proof
end

