-- ==== Sys2Proof/Config.lean ====
section
/-!
DEFINITION. What one D960 fixes: the numbers of R2, R25 and R26, and the free values. A free value has no body: nothing in the
model or in a proof can tell what it is (log 1).
-/

namespace Sys2Proof.Config

/-- Cores, clusters and dies, R25. -/
def cores : Nat := 640
def coresPerCluster : Nat := 8
def clusters : Nat := 80
def clustersPerDie : Nat := 20
def coresPerDie : Nat := 160
def dies : Nat := 4
def pipes : Nat := 4
def slices : Nat := 8
def clusterOf (core : Nat) : Nat := core / coresPerCluster
def dieOf (core : Nat) : Nat := core / coresPerDie
def dieOfCluster (cl : Nat) : Nat := cl / clustersPerDie

/-- HBM5 stacks, the bytes of one (96 GB, in the decimal units of the notation's capacities: log 59, DEDUCED), and of all (R1, R29). -/
def hbmStacks : Nat := 12
def stackBytes : Nat := 96 * 10 ^ 9
def hbmBytes : Nat := hbmStacks * stackBytes
/-- The stack in which a physical address lies: 4 KiB granules are interleaved across the stacks (R29). -/
def stackOf (pa : Nat) : Nat := pa / 4096 % hbmStacks
/-- The die to which a stack is attached (R29). -/
def dieOfStack (st : Nat) : Nat := st / 3
/-- The die whose last-level cache is the home of a physical address (R29). -/
def homeDie (pa : Nat) : Nat := dieOfStack (stackOf pa)
/-- L1 data cache of a core: lines of 256 bytes, 128 KiB in all (R1, R30). -/
def lineBytes : Nat := 256
def l1Lines : Nat := 512
/-- Lines of a die's last-level cache, 128 MiB in all (R1; their size: log 56, DESIGN CHOICE). -/
def llcLines : Nat := 524288

/-- A byte of what the spec leaves open: an area only an engine interprets, an encoded stream, a message (log 1). -/
opaque freeByte : Nat → BitVec 8
/-- A number of what the spec leaves open: which free block a split takes, a random draw (log 1). -/
opaque freeNat : Nat → Nat
/-- A physical address above HBM lies in host memory, behind the CXL link: the spec places no boundary (log 1). -/
opaque hostAddr : Nat → Bool
/-- A physical address in host memory: never one of HBM. -/
def hostMem (pa : Nat) : Bool := decide (hbmBytes ≤ pa) && hostAddr pa
/-- Whether a port trains when the driver asks for it at a cycle (R341, log 1). -/
opaque portTrains : Nat → Nat → Bool

/-- The results of `frsq`, `fex2`, `flg2`, `fsin` and `fcos` before the bound of R262 and R264 is applied (log 1).
(Log 7, DESIGN CHOICE.) -/
opaque frsqBits : BitVec 32 → BitVec 32
opaque fex2Bits : BitVec 32 → BitVec 32
opaque flg2Bits : BitVec 32 → BitVec 32
opaque fsinBits : BitVec 32 → BitVec 32
opaque fcosBits : BitVec 32 → BitVec 32

/-- What an encoder codes, R164: HEVC Main 10, or AV1 Main profile at 10 bits. -/
inductive Codec where
  | hevcMain10
  | av1Main10
  deriving DecidableEq, Repr

/-- Coding tree blocks of HEVC are 32 × 32, superblocks of AV1 64 × 64 (R164). -/
def Codec.blockSize : Codec → Nat
  | .hevcMain10 => 32
  | .av1Main10 => 64

/-- How a 32 × 32 block is coded, R162: with zero motion against the previous frame, as a skipped coding tree block or as a skip-mode block, or
in full from its samples. -/
inductive BlockCode where
  | skippedTreeBlock
  | skipModeBlock
  | full (samples : List Nat)
  deriving DecidableEq, Repr

def Codec.skip : Codec → BlockCode
  | .hevcMain10 => .skippedTreeBlock
  | .av1Main10 => .skipModeBlock

/-- What an encoder codes a frame under, R164. -/
structure CodeParams where
  codec  : Codec
  qp     : Nat
  rc     : Nat
  target : Nat
  peak   : Nat
  rate   : Nat
  width  : Nat
  height : Nat
  key    : Bool
  deriving DecidableEq, Repr

/-- The NAL units or OBUs in which an encoder codes a frame: of its parameters, its blocks, and what it has coded before (log 50). -/
opaque coded : Nat → CodeParams → List BlockCode → List (List (BitVec 8))

end Sys2Proof.Config
end

