-- ==== Sys2Proof/Machine/State.lean ====
section
/-!
DEFINITION. The machine's state as plain data: threads, teams and pipes (R25 to R64), registers and tags (R65 to R74),
memories and translation (R92 to R119), engines, slices, hub and links; and the state right after device reset.
Sparse tables (`Map`) list only what differs from the default their accessor reads.
-/

namespace Sys2Proof.Machine

/-- A vector register: 32 bits and a format tag, R65 and R74. -/
structure VReg where
  val : Word := 0
  tag : BitVec 4 := 0
  deriving DecidableEq, Repr

/-- One value of a lane's latches, R67. -/
structure Latch where
  val : DWord
  tag : BitVec 4
  deriving DecidableEq, Repr

/-- Where an object or address operand lies, as the program names it (R277): space and the 64-bit value. -/
structure Ref where
  space : Space
  a     : DWord
  deriving DecidableEq, Repr

/-- A load of a blocked thread, performed when its data arrives (R281). `write` says how the data reaches registers. -/
inductive RemoteOp where
  | load (t : MemTy) (d : BitVec 6)
  | acq (b64 : Bool) (d : BitVec 6)
  | atom (op : AtomOp) (b c : DWord) (d : BitVec 6)
  /-- Into the team's uniform registers (R280). -/
  | ldu (t : MemTy) (d : BitVec 5)
  /-- A lane that waits for the access that its raft makes once. -/
  | shared
  deriving DecidableEq, Repr

/-- Wake conditions, R56. -/
inductive Wake where
  | bar (o : Ref) (k : Bool)
  | tags (all : Bool) (mask : DWord)
  | ticket (t : Word) (d : BitVec 6)
  | queue (desc : DWord) (pos : Word) (d : BitVec 6)
  | matrix (wb : Bool) (first cnt : Nat)
  /-- `lead` is the thread whose data comes first: the lanes of an instruction that acts at one address wake together (R195, R280). -/
  | remote (op : RemoteOp) (pa : Nat) (va : DWord) (issued lane lead : Nat)
  | spawnT (entry : DWord) (g : Nat)
  /-- `lead` is the thread that writes the header; the others of its raft wake with it (R307). -/
  | spawnK (addr : DWord) (hdr : List Byte) (lead : Nat)
  deriving DecidableEq, Repr

/-- A cause with its detail and how it was met (R72, R373). -/
structure Fail where
  cause  : Nat
  detail : DWord := 0
  /-- 0x10 of a kind that parks (R368). -/
  park   : Bool := false
  write  : Bool := false
  fetch  : Bool := false
  remote : Bool := false
  deriving DecidableEq, Repr

/-- Where a thread is (R40, R43, R56, R371, R375, R57). `deck` and `spill` hold the filing cycle; `blocked` holds whether the
condition has been met, since a phase or tag may change again before the thread is filed; `waiting` is for the team's pinned
grant (R438). -/
inductive Place where
  | waiting
  | raft
  | deck (since : Nat)
  | spill (since : Nat)
  | blocked (w : Wake) (met : Bool)
  | parked
  | held
  | evicted (w : Option Wake)
  deriving DecidableEq, Repr

/-- The lease an injected thread answers for, by index and generation, and the instructions it has issued (R111, R113). -/
structure Inj where
  lease : Nat
  gen   : Nat
  count : Nat
  deriving DecidableEq, Repr

/-- A thread, R62. -/
structure Thread where
  team  : Nat
  tnum  : Nat
  wid   : DWord := 0
  pc    : VAddr := 0
  sup   : Bool := false
  inj   : Option Inj := none
  place : Place := .raft
  v     : Map VReg := []
  p     : BitVec 8 := 0
  /-- Vector and uniform registers that a load has issued for and not yet written (R281). -/
  busyV : List Nat := []
  busyS : List Nat := []
  /-- Poisoned vector registers, and whether the predicate file is (R394). -/
  psnV  : List Nat := []
  psnP  : Bool := false
  /-- Of a filed thread whose raft was filed by force: since when the access of its instruction has had no answer (R46, R369). -/
  cutAt : Option Nat := none
  deriving DecidableEq, Repr

/-- A copy tag, R105, with the flags of its jobs not yet observed (R377). -/
structure CTag where
  ready  : Bool := true
  count  : Nat := 0
  status : Nat := 0
  flags  : BitVec 7 := 0
  deriving DecidableEq, Repr

/-- A group of threads held until the trap in service ends (R375). -/
structure Held where
  threads : List Nat
  pc      : VAddr
  lane    : Nat
  cause   : Nat
  detail  : DWord
  len     : Nat
  /-- The matrix work whose causes the delivery clears (R407): of the weight buffer or not, first and number. -/
  clears  : Option (Bool × Nat × Nat) := none
  deriving DecidableEq, Repr

/-- A trap record before it has its SEQ (R373). -/
structure Rec where
  kind  : Nat
  cause : Nat
  sup   : Bool := false
  write : Bool := false
  fetch : Bool := false
  rem   : Bool := false
  core  : Nat := 0
  tslot : Nat := 0
  asid  : Nat := 0
  tnum  : Nat := 0x7FF
  lanes : Nat := 0
  pc    : DWord := 0
  addr  : DWord := 0
  /-- Of a parked deck: its team, lowest lane, and the length of the instruction (R372, R327). -/
  team  : Nat := 0
  lane  : Nat := 0
  len   : Nat := 4
  deriving DecidableEq, Repr

/-- A parked deck's record with its SEQ (R371, R372). -/
structure Parked where
  seq  : Nat
  rec_ : Rec
  deriving DecidableEq, Repr

/-- A fault reply held for an evicted team, R372. -/
structure Verdict where
  seq     : Nat
  verdict : Nat
  cause   : Nat
  deriving DecidableEq, Repr

/-- A team (R36, R38, R63). Registers and CSRs are tables by number. (Log 57, DESIGN CHOICE.) -/
structure Team where
  core    : Nat
  slot    : Nat
  asid    : Nat := 0
  slice   : Nat := 0
  queue   : Nat := 0
  /-- The launch it belongs to, its team number and launch size, its extents E0 to E5. -/
  launch  : Nat := 0
  num     : Nat := 0
  size    : Nat := 1
  ext     : List Nat := [1, 1, 1, 1, 1, 1]
  s       : Map Word := []
  a       : Map DWord := []
  csr     : Map DWord := []
  /-- The same as every instruction of the current cycle reads them (R51). -/
  sWas    : Map Word := []
  aWas    : Map DWord := []
  csrWas  : Map DWord := []
  /-- Flags of jobs merged into FLAGS in the current cycle (R326). -/
  merged  : BitVec 7 := 0
  tags    : Map CTag := []
  /-- Length in bytes of the instruction at TRAPPC (R327). -/
  trapLen : Nat := 2
  inService : Bool := false
  heldQ   : List Held := []
  parkedQ : List Parked := []
  verdicts : List Verdict := []
  /-- Scratchpad granules, accumulator tiles, weight-buffer regions: first and number (R95, R166). -/
  spad0   : Nat := 0
  spadN   : Nat := 0
  acc0    : Nat := 0
  accN    : Nat := 0
  wb0     : Nat := 0
  wbN     : Nat := 0
  /-- Pinned tiles asked for and not yet granted (R438); the pinned lease's tiles in the order granted (R106). -/
  pinned  : List Nat := []
  /-- Pinned tiles not yet granted (R438), a lease request outstanding (R108), the lease whose routine runs (R110). -/
  waitPin : Nat := 0
  reqOut  : Bool := false
  routine : Option Nat := none
  ending  : Bool := false
  /-- Named by a pre-emption request (R57), and the request (R344). -/
  preempt : Option Nat := none
  /-- When its save began (R378). -/
  saveAt  : Option Nat := none
  psnS    : List Nat := []
  psnA    : List Nat := []
  deriving DecidableEq, Repr

/-- A raft: its team, the address it issues next, and its active lanes with their threads (R43). -/
structure Raft where
  team  : Nat
  pc    : VAddr
  lanes : List (Nat × Nat)
  deriving DecidableEq, Repr

/-- What holds a pipe after issue (R46): a record for a full fault queue (R374). -/
inductive Hold where
  | record (slice : Nat) (r : Rec)
  deriving DecidableEq, Repr

/-- An issue pipe: its raft, the cycle in which that issued first (R45), the first cycle in which the pipe is free (R44,
R225), the position in the run and the latches by lane, y0 first (R213). -/
structure Pipe where
  raft    : Option Raft := none
  start   : Option Nat := none
  ready   : Nat := 0
  run     : Nat := 0
  latches : Map (List Latch) := []
  hold    : Option Hold := none
  /-- The instruction that stalls has issued, so its hold is not cut short (R46: the wait of `xfer`). -/
  fixed   : Bool := false
  /-- Decks that this pipe has still to pass over once, ranked last by `yield` (R42, R55): team, PC, and whether it is an injected
  thread's. -/
  pass    : List (Nat × VAddr × Bool) := []
  /-- Ray tickets that the lower lanes of a `tray` have taken while it holds the pipe for more (R46, R151). -/
  tickets : List Nat := []
  /-- Since when the access of the instruction in turn has had no answer, no link reaching its memory (R369, R415). -/
  cutAt   : Option Nat := none
  deriving DecidableEq, Repr

/-- A byte range of a footprint (R194): `space` 0 global (unit the ASID), 1 scratchpad, 2 landing, 3 accumulator,
4 weight buffer (unit the core, or the cluster for the landing). -/
structure Rng where
  space : Nat
  unit  : Nat
  lo    : Nat
  n     : Nat
  write : Bool
  deriving DecidableEq, Repr

/-- The fields of a matrix command (R314 to R318); tiles and regions are team-relative. -/
inductive MOp where
  | mma (sparse : Bool) (aty bty : Nat) (wb : Bool) (shape aoff apl boff bpl tile : Nat)
  | mzero (tile n : Nat)
  | mldw (off bytes region : Nat)
  | macld (off tile n : Nat)
  | macst (off tile n : Nat)
  deriving DecidableEq, Repr

/-- A matrix command in a core's queue, R173: the card it follows, whether it runs, and its completion record. -/
structure MCmd where
  id    : Nat
  team  : Nat
  op    : MOp
  reads : List Rng
  cfoot : List Rng
  card  : Option Nat := none
  /-- The cycle it reached the queue, and its last run cycle (R173). -/
  issued : Nat := 0
  last  : Nat := 0
  running : Bool := false
  ran   : Bool := false
  flags : BitVec 7 := 0
  cause : Nat := 0
  deriving DecidableEq, Repr

/-- A completion record that no `mwait` has observed (R319, R407); `first` and `n` in tiles or regions of the team. -/
structure MRec where
  team  : Nat
  id    : Nat
  wb    : Bool
  first : Nat
  n     : Nat
  flags : BitVec 7
  cause : Nat
  deriving DecidableEq, Repr

/-- A deck of more than 32 threads from which a pipe has taken a raft: the others may take of it in the same cycle under the rank and
wait that it had (R43, R357). -/
structure Cut where
  team : Nat
  pc   : VAddr
  rank : Nat
  oldest : Nat
  cycle : Nat
  deriving DecidableEq, Repr

/-- What a core holds beside its threads, teams and pipes (R26). -/
structure Core where
  /-- Tag table entries, R96. -/
  tagTab  : Map DWord := []
  /-- Spilled threads in filing order, R40. -/
  spill   : List Nat := []
  cuts    : List Cut := []
  /-- L1 TLB entries stand in `State.tlb1`; clock gate and the wake cycle, R64. -/
  gated   : Bool := true
  wakeAt  : Nat := 0
  /-- At the end of the last cycle nothing on the core could issue (R64). -/
  idle    : Bool := true
  mq      : List MCmd := []
  mrec    : List MRec := []
  /-- The first cycle in which the array is free (R173). -/
  mfree   : Nat := 0
  deriving DecidableEq, Repr

/-- A TLB entry, R117: ASID, page number and size in log2 bytes, leaf entry and its address, gathered A and D. -/
structure Tlb where
  asid : Nat
  vbase : Nat
  log2 : Nat
  pte  : DWord
  addr : Nat
  a    : Bool
  d    : Bool
  deriving DecidableEq, Repr

/-- A buffer (R94, R99): core within the package, run of granules, generation, originator and holder. -/
structure Buf where
  core  : Nat
  first : Nat
  count : Nat
  gen   : Nat
  orig  : Nat
  holder : Nat
  deriving DecidableEq, Repr

/-- A pending outcome of a lease (R112): the tiles it keeps, and the cycle of its `surr` or `unlease`. -/
structure GiveUp where
  keep   : Nat
  status : Nat
  /-- Whether the block is written with STATUS and HELD. -/
  report : Bool
  since  : Nat
  /-- The record to post then, and its slice (R388). -/
  rec_   : Option (Nat × Rec) := none
  deriving DecidableEq, Repr

/-- A lease (R94, R106 to R114); `team` is none for the Skidder's. -/
structure Lease where
  gen     : Nat
  team    : Option Nat
  loose   : Bool
  tclass  : Nat := 0
  tiles   : List Nat
  held    : Nat
  blk     : Ref
  routine : Nat := 0
  since   : Nat := 0
  order   : Nat := 0
  dead    : Bool := false
  refusals : Nat := 0
  refusedAt : Option Nat := none
  /-- A recall in progress: tiles still needed; whether its thread has been injected. -/
  recalled  : Option Nat := none
  injected : Bool := false
  giveUp  : Option GiveUp := none
  deriving DecidableEq, Repr

/-- A lease request or a pinned request (R108, R438) with the tiles set aside for it. -/
structure LeaseReq where
  team   : Option Nat
  pinned : Bool := false
  count  : Nat
  loose  : Bool := false
  tclass : Nat := 0
  routine : Nat := 0
  blk    : Ref
  aside  : List Nat := []
  /-- The cycle and core of its arrival (R108); the Skidder's come last. -/
  at_    : Nat := 0
  core   : Nat := 0
  deriving DecidableEq, Repr

/-- A cursor, R137. -/
structure Cursor where
  gen    : Nat
  thread : Nat
  /-- The descriptor's address, its physical address, and which collection stood there at the `copen`. -/
  va     : DWord
  coll   : Nat
  ident  : Nat
  settled : Bool
  lo     : Nat
  hi     : Nat
  /-- The position: key, serial and order of the element last returned, none at the start. -/
  pos    : Option (Nat × Nat × Nat) := none
  ended  : Bool := false
  deriving DecidableEq, Repr

/-- An element of a collection with its state words (R124 to R132). `uid` counts the commits that placed elements. -/
structure Elem where
  key    : Nat
  off    : Nat
  serial : Nat
  uid    : Nat
  stamp  : Nat
  rel    : Bool
  pay    : List Word
  deriving DecidableEq, Repr

/-- A drift block: its number in the pool, HSTEP and its elements (R126 to R128). -/
structure Drift where
  blk   : Nat
  hstep : Nat
  elems : List Elem
  deriving DecidableEq, Repr

/-- A collection as a Sawyer knows it (R120 to R132), by its descriptor's physical address: what it recorded at the first
operation (R121) with the index words it wrote there, and the Sawyer-only words it last wrote. -/
structure Coll where
  cluster : Nat
  ident  : Nat
  cellexp : Nat
  q      : Nat
  pw     : Nat
  sen    : Bool
  nblk   : Nat
  broken : Bool := false
  nextUid : Nat := 0
  chain  : List Drift := []
  index  : List Byte := []
  image  : List Byte := []
  deriving DecidableEq, Repr

/-- A card read at issue (R293, R294). -/
structure Card where
  src  : DWord
  dst  : DWord
  fmap : DWord
  tmap : DWord
  kind : Nat
  fsp  : Nat
  tsp  : Nat
  bsp  : Nat
  xop  : Nat
  len  : Nat
  bar  : DWord
  x0   : DWord
  x1   : DWord
  deriving DecidableEq, Repr

/-- A signature block (R324). -/
structure Sig where
  surf  : DWord
  entry : DWord
  src   : Nat
  pitch : Nat
  tcol  : Nat
  trow  : Nat
  deriving DecidableEq, Repr

inductive Work where
  | card (c : Card)
  | tsig (g : Sig)
  deriving DecidableEq, Repr

/-- A job of a cluster's Yarder (R296, R161): its footprint, the landings it has made, and what it will report. (Log 14, DEDUCED.) -/
structure Job where
  cluster : Nat
  core    : Nat
  team    : Nat
  asid    : Nat
  tag     : Nat
  work    : Work
  foot    : List Rng
  started : Bool := false
  /-- Landings in all, and those still to make. -/
  total   : Nat := 0
  todo    : List Nat := []
  landed  : Nat := 0
  barDead : Bool := false
  cause   : Nat := 0
  flags   : BitVec 7 := 0
  /-- Issued in supervisor mode; the cycle of its issue (R112) and of its last progress (R369). -/
  sup     : Bool := false
  issued  : Nat := 0
  at_     : Nat := 0
  /-- The follow-on not yet in the core's queue, with its reads and C footprint (R177); whether it is in the queue. -/
  follow  : Option (MOp × List Rng × List Rng × BitVec 7) := none
  followIn : Bool := false
  deriving DecidableEq, Repr

/-- A hit held of a round in progress (R150): t, primitive id, AUX. -/
structure RayHit where
  t   : Word
  id  : Word
  aux : Word
  deriving DecidableEq, Repr

/-- A ray round's ticket (R151): its slot and scene as named, the mode of the thread that issued the round, the ray record as read
then, the hits found and the subtrees reached so far. -/
structure Ticket where
  gen    : Nat
  team   : Nat
  asid   : Nat
  sup    : Bool
  slot   : DWord
  slotPa : Nat
  scene  : DWord
  ray    : List Byte := []
  /-- The round runs, or has finished. -/
  active : Bool := true
  withdrawn : Bool := false
  /-- Footprint registered with the checker (R142), and its place in the order of registrations. -/
  foot   : List Rng := []
  order  : Nat := 0
  hits   : List RayHit := []
  seen   : List Nat := []
  /-- Subtrees whose table entry could not be read when the footprint was registered, each with its cause. -/
  lost   : List (Nat × Fail) := []
  deriving DecidableEq, Repr

/-- A waiting ray: its ticket, the cycle and the pass count at its arrival, its place in the spill area (R152, R154). -/
structure RayEnt where
  ticket : Nat
  since  : Nat
  starts : Nat
  spill  : Option Nat := none
  deriving DecidableEq, Repr

/-- A queue of rays at one subtree of one scene (R152), oldest first; `head` if it holds one of the 64 heads. -/
structure SubQ where
  asid  : Nat
  scene : DWord
  sub   : Nat
  head  : Bool
  rays  : List RayEnt
  deriving DecidableEq, Repr

/-- The pass chosen (R153 to R155): a cause that all its rays meet, and one that those of user mode meet, or the image's address and size; its
lease once granted; its rays once it has started, each with a cause met at the spill area; whether it is at its end. `sup`: some ray of it is
of supervisor mode (R381). -/
structure Pass where
  asid  : Nat
  sup   : Bool
  scene : DWord
  sub   : Nat
  base  : DWord := 0
  size  : Nat := 0
  nsub  : Nat := 0
  err   : Option Fail := none
  userErr : Option Fail := none
  ended : Bool := false
  lease : Option Nat := none
  started : Bool := false
  rays  : List (Nat × Option Fail) := []
  /-- The cycle in which it asked for its tiles; the rounds that have failed at the spill area since the pass began, for its record (R403). -/
  asked : Nat := 0
  fails : List (Nat × Fail) := []
  rec_  : Option (Nat × Rec) := none
  /-- Set only within a step: at the end of the pass a ray could not be queued for want of a link. -/
  cut   : Bool := false
  deriving DecidableEq, Repr

/-- What waits at the Sawyer (R131, R133): the rewrite of a collection's blocks, with the address space and mode it acts
under, and rafts whose operations arrived behind it. -/
inductive SawyerOp where
  | rewrite (coll asid : Nat) (sup : Bool)
  | arrived (core p : Nat)
  deriving DecidableEq, Repr

/-- A cluster's engines (R27). Generations by index of leases, cursors, tickets, and of buffers by run (R439). -/
structure Cluster where
  leases   : Map Lease := []
  leaseGen : Map Nat := []
  reqs     : List LeaseReq := []
  bufs     : List Buf := []
  bufGen   : Map Nat := []
  cursors  : Map Cursor := []
  curGen   : Map Nat := []
  tickets  : Map Ticket := []
  tickGen  : Map Nat := []
  subqs    : List SubQ := []
  pass     : Option Pass := none
  passes   : Nat := 0
  /-- Teams whose pre-emption is in effect at the Skidder, with the cycle and pass count since when (R156). -/
  skHeld   : List (Nat × Nat × Nat) := []
  sawyerQ  : List SawyerOp := []
  /-- Set only within a step: a round that starts could not be registered or queued for want of a link. -/
  skCut    : Bool := false
  deriving DecidableEq, Repr

/-- A launch in progress (R332 to R337). -/
structure Launch where
  slice : Nat
  queue : Nat
  asid  : Nat
  /-- An entry of the pending-launch store; the record's address, its 128 bytes, register image and placement table. -/
  store : Bool
  addr  : DWord
  hdr   : List Byte
  regs  : List Byte
  place : List Byte
  teams : Nat
  next  : Nat := 0
  ended : Nat := 0
  /-- The cycle in which the last team of each used cluster ended (R337). -/
  ends  : Map Nat := []
  deriving DecidableEq, Repr

/-- A pre-emption, restore or end-teams request (R344): its block, and the teams still to report. -/
structure Request where
  slice : Nat
  blk   : Nat
  kind  : Nat
  done  : Nat
  /-- Context slots named, as core * 16 + slot, still to report. -/
  names : List Nat
  asid  : Nat
  deriving DecidableEq, Repr

/-- A team saved in its context slot (R58 to R63): the device-only part. (Log 39, DESIGN CHOICE.) -/
structure Saved where
  team    : Team
  id      : Nat
  threads : List (Nat × Thread)
  /-- Tag-table entries of its allocation by team-relative index, and the poisoned ones (R98). -/
  tagTab  : Map DWord := []
  psnTag  : List Nat := []
  /-- The restore requests, and the end-teams requests, that name it (R344). -/
  restoring : List Nat := []
  discard : List Nat := []
  deriving DecidableEq, Repr

/-- A slice (R34, R334 to R338, R342, R347). -/
structure Slice where
  created : Bool := false
  asids   : List Nat := []
  qtable  : Nat := 0
  x       : BitVec 32 := 0
  mqBase  : Nat := 0
  mqCtl   : Nat := 0
  mqLog2  : Nat := 0
  /-- Re-plan records that wait to be appended (R337), each with LANES of the notice that it is dropped (R414). -/
  mqWait  : List (Nat × List Byte) := []
  fq      : Bool := false
  fqRing  : Nat := 0
  fqCtl   : Nat := 0
  fqLog2  : Nat := 0
  fqWait  : List (List Byte) := []
  seq     : Nat := 1
  /-- Pending-launch store (R53): the queue, address and header of each entry, oldest first. -/
  store   : List (Nat × DWord × List Byte) := []
  /-- The draw in progress (R335, R336): the queues still in its set with their tickets at its start; the queue drawn and not yet
  served. Queues that were eligible when the last draw started. -/
  draw    : Option (List (Nat × Nat)) := none
  winner  : Option Nat := none
  drawn   : List Nat := []
  /-- A draw may start (R335). -/
  mayDraw : Bool := true
  overfilled : List Nat := []
  deriving DecidableEq, Repr

/-- A write in flight from one die to another (R191): its stamp and bytes. The list of them is in coherence order. -/
structure Lag where
  src   : Nat
  dst   : Nat
  stamp : List Nat
  cells : List (Nat × Byte)
  deriving DecidableEq, Repr

/-- A store to a replicated page that has locked it (R193, R391): the thread and translation it was made under, the die's clock at its
issue (R191), and its bytes. -/
structure Repl where
  page  : Nat
  addr  : Nat
  bytes : List Byte
  tid   : Nat := 0
  asid  : Nat := 0
  va    : Nat := 0
  stamp : List Nat := []
  deriving DecidableEq, Repr

/-- A posted store or `atomu` to another package that the links have not delivered (R369): address, virtual address, issue
cycle, what it does, and the issuing thread, team, slice, ASID, core and slot. -/
structure Posted where
  pa     : Nat
  va     : DWord
  issued : Nat
  tid    : Nat := 0
  team   : Nat
  slice  : Nat
  asid   : Nat := 0
  core   : Nat := 0
  slot   : Nat := 0
  bytes  : List Byte
  op     : Option (AtomOp × DWord) := none
  /-- LANES of its notice: the queue of the team's launch (R414). -/
  lanes  : Nat := 0
  /-- A record of it has been posted. -/
  reported : Bool := false
  deriving DecidableEq, Repr

/-- A contribution held in the switches (R195, R392). -/
structure Contrib where
  pa     : Nat
  op     : AtomOp
  b      : DWord
  issued : Nat
  va     : DWord
  mt     : Nat := 3
  tid    : Nat := 0
  team   : Nat := 0
  slice  : Nat
  asid   : Nat := 0
  core   : Nat := 0
  slot   : Nat := 0
  /-- LANES of its notice, as for a posted store. -/
  lanes  : Nat := 0
  reported : Bool := false
  deriving DecidableEq, Repr

/-- A reduction window, R346. -/
structure Window where
  base : Nat
  size : Nat
  op   : Nat
  deriving DecidableEq, Repr

/-- A HokuLink port, R348 to R350 and R416. -/
structure Port where
  up      : Bool := true
  downAt  : Nat := 0
  failed  : Bool := false
  hardpan : Bool := true
  replays : Nat := 0
  /-- Class 0 is beyond its bound (R416). -/
  bound0  : Bool := false
  /-- The cycles of its last notices 0x72 and 0x73, and the notices counted but not posted (R414). -/
  note72  : Option Nat := none
  note73  : Option Nat := none
  counted : Nat := 0
  deriving DecidableEq, Repr

/-- A mailbox command being carried out (R341, R418). -/
structure Mail where
  op     : Nat
  /-- The minor version it was written for. -/
  minor  : Nat := 0
  hdr    : Nat
  arg    : Nat
  /-- Its argument block, read with the header. -/
  blk    : List Byte
  /-- The status it will complete with, once known. -/
  status : Option Nat := none
  deriving DecidableEq, Repr

/-- A management core, R351 and R419: scheduler, power, RAS and display are cores 0 to 3; cycles of its restarts within the hour. -/
structure Mcore where
  running  : Bool := false
  restarts : List Nat := []
  deriving DecidableEq, Repr

/-- An SPDM answer (R351): versions (0x12 is 1.2), messages whose bytes are open, and the measurements. (Log 49, DESIGN CHOICE.) -/
inductive Spdm where
  | versions (l : List Nat)
  | capabilities (msg : List Byte)
  | certificates (msg : List Byte)
  | measurements (started : Bool) (digests : List Nat)
  | challenge (msg : List Byte)
  deriving DecidableEq, Repr

/-- What a display pipeline shows: the values of its registers that are in range (R163). -/
structure Frame where
  asid   : Nat := 0
  fmt    : Bool := false
  rate   : Nat := 60
  height : Nat := 0
  width  : Nat := 0
  surf   : DWord := 0
  pitch  : Nat := 0
  sigt   : DWord := 0
  fence  : DWord := 0
  deriving DecidableEq, Repr

/-- A display pipeline (R163, R165); its registers as written stand in `Hub.regs`. -/
structure Disp where
  cur     : Frame := {}
  /-- Latched by the last FLIP for the next boundary. -/
  pend    : Option Frame := none
  frames  : Nat := 0
  /-- The cycle of the last frame boundary, and the FENCE of a frame latched by FLIP whose reads are not all performed. -/
  at_     : Nat := 0
  fence   : Option DWord := none
  deriving DecidableEq, Repr

/-- An encoder (R162, R164): the next frame number, whether the next frame handed over is to be a key frame, frames since the last one; the
frame handed over and not yet coded, with the registers it is coded under, its unchanged tiles and whether it is to be a key frame; the tiles
last coded as skipped. -/
structure Enc where
  frame : Nat := 0
  key   : Bool := true
  since : Nat := 0
  todo  : Option (Map DWord × List Bool × Bool) := none
  skipped : List Bool := []
  deriving DecidableEq, Repr

/-- The hub die (R340 to R353, R162 to R165, R415 to R419). -/
structure Hub where
  /-- Register window, by offset, where it differs from the reset value (R340, R163, R164). -/
  regs    : Map DWord := []
  mail    : Option Mail := none
  /-- Vectors signalled, newest first (R340). -/
  msi     : List Nat := []
  offered : BitVec 128 := 0xFF
  accepted : BitVec 128 := 0
  didAccept : Bool := false
  /-- The ASID table: root tables of the valid entries (R115); bases of the context slots as last set (R343). -/
  asids   : Map Nat := []
  ctx     : Map Nat := []
  npkg    : Nat := 1
  pkg     : Nat := 0
  everSlice : Bool := false
  windows : Map Window := []
  contribs : List Contrib := []
  ports   : Map Port := []
  cxlUp   : Bool := true
  cxlHardpan : Bool := true
  cxlDownAt : Nat := 0
  cxlErrors : Nat := 0
  disp    : Map Disp := []
  enc     : Map Enc := []
  mcores  : Map Mcore := []
  rootOk  : Bool := false
  image   : Nat := 0
  measured : List Nat := []
  /-- The fused minimum of security versions; SPDM answers, newest first. -/
  minVersion : Nat := 0
  spdm    : List Spdm := []
  /-- Single-bit errors counted, and poisoned granules of memory that the scrub has reported (R394). -/
  eccCount : Nat := 0
  /-- The count as the RAS core has last reported it through the mailbox (R394, R420). -/
  eccTold : Nat := 0
  scrubbed : List Nat := []
  /-- The stamp of the writes that the host and other packages have read here, taken as one reader (R189, R191). -/
  seen    : List Nat := []
  /-- The cycle of the last background sweep of A and D (R117). -/
  sweptAt : Nat := 0
  deriving DecidableEq, Repr

/-- Who acts next: an issue pipe, or the engines. -/
inductive Turn where
  | pipe (core p : Nat)
  | engines
  deriving DecidableEq, Repr

/-- The machine. -/
structure State where
  now     : Nat := 0
  agenda  : List Instr := []
  turn    : Turn := .engines
  /-- Draws of free values so far (log 1). -/
  free    : Nat := 0
  /-- The next identity of a thread, team, launch, job or command. -/
  fresh   : Nat := 1
  threads : Map Thread := []
  teams   : Map Team := []
  /-- Pipes by 4 * core + pipe. -/
  pipes   : Map Pipe := []
  cores   : Map Core := []
  clusters : Map Cluster := []
  slices  : Map Slice := []
  jobs    : Map Job := []
  launches : Map Launch := []
  saved   : Map Saved := []
  requests : Map Request := []
  colls   : Map Coll := []
  /-- Scratchpad bytes by core * 2^18 + offset, landing bytes by cluster * 2^23 + offset, accumulator bytes by
  core * 2^19 + offset, weight-buffer bytes by core * 2^20 + offset, and the tags of tiles and regions. -/
  spad    : Map Byte := []
  land    : Map Byte := []
  acc     : Map Byte := []
  wbuf    : Map Byte := []
  accTag  : Map (BitVec 4) := []
  wbTag   : Map (BitVec 4) := []
  /-- Memory by physical address; another package's by 2^52 + domain address. -/
  mem     : Map Byte := []
  /-- What die d still sees at a byte, by 4 * address + d, where it differs in origin from `mem`. -/
  stale   : Map Byte := []
  lag     : List Lag := []
  /-- Vector clocks by 4 * die + entry, R191. -/
  vc      : Map Nat := []
  repl    : List Repl := []
  /-- Dropped replicas by 4 * page + die, R391. -/
  dropped : List Nat := []
  posted  : List Posted := []
  /-- Poisoned granules: memory (32 bytes), scratchpad, landing, accumulator, weight buffer (8 bytes). -/
  psnMem  : List Nat := []
  psnSpad : List Nat := []
  psnLand : List Nat := []
  psnAcc  : List Nat := []
  psnWb   : List Nat := []
  /-- Poisoned tag-table entries, core * 1024 + slot (R394). -/
  psnTag  : List Nat := []
  /-- L1 TLB entries by core, L2 by cluster, oldest first. -/
  tlb1    : Map (List Tlb) := []
  /-- Lines of a core's L1 data cache, oldest first, each with the die that supplied it (R30): its home's, or for a replicated page the
  reader's own. A line's bytes are those that the core's die sees (R190). -/
  l1      : Map (List (Nat × Nat)) := []
  /-- Lines of a die's last-level cache, oldest first. -/
  llc     : Map (List Nat) := []
  tlb2    : Map (List Tlb) := []
  hub     : Hub := {}
  /-- Since when an agent of the hub or an engine (`Waiter.key`) waits for a link to what it accesses (R369, R397, R415). -/
  waits   : Map Nat := []
  deriving DecidableEq, Repr

/-- Why a step stops. Neither is a behaviour of the hardware: both say that what was asked for cannot happen here. -/
inductive Fault where
  /-- An instruction was executed while the pipe in turn holds no raft with its threads and team. Raised by every
  encoded instruction. Safe: the hardware issues an instruction only from a raft (R43). -/
  | noRaft
  /-- An event was asked for in a state in which the spec does not let it happen. Raised by every event row. Safe. -/
  | notDue
  deriving DecidableEq, Repr

/-- No meaning for an instruction. -/
inductive Refusal where
  /-- An arm of `exec` not written yet. Safe. -/
  | notModelled (mnemonic : String)
  deriving DecidableEq, Repr

abbrev Out := Host.Outcome State Fault Refusal

/-- The machine right after device reset: no team, no thread, every engine idle, every register at the value the spec gives
or the log names (logs 2, 3, 4), nothing in memory that a run has written. (Log 4, DESIGN CHOICE.) -/
def State.reset : State := {}

end Sys2Proof.Machine
end

