-- ==== Sys2Proof/Machine/Tables.lean ====
section
/-!
DEFINITION. The operations on sparse tables (`Map`): find, put, delete, put with a default, change at a key, change all.
A table that never holds its default and whose keys rise strictly is in canonical form (`mwf`), so equal contents are equal data.
-/

namespace Sys2Proof.Machine

/-- The entry of a key. -/
def mfind {α : Type} (k : Nat) : Map α → Option α
  | [] => none
  | (j, x) :: r => if j = k then some x else mfind k r

/-- The entry of a key, or what an unlisted key reads as. -/
def mget {α : Type} (d : α) (k : Nat) (m : Map α) : α := (mfind k m).getD d

/-- Put an entry, in key order. -/
def mput {α : Type} (k : Nat) (x : α) : Map α → Map α
  | [] => [(k, x)]
  | (j, y) :: r =>
    if j = k then (k, x) :: r
    else if k < j then (k, x) :: (j, y) :: r
    else (j, y) :: mput k x r

/-- Take a key's entries out. -/
def mdel {α : Type} (k : Nat) : Map α → Map α
  | [] => []
  | (j, y) :: r => if j = k then mdel k r else (j, y) :: mdel k r

/-- Write a value: one equal to the default is not listed. -/
def mputD {α : Type} [DecidableEq α] (d : α) (k : Nat) (x : α) (m : Map α) : Map α :=
  if x = d then mdel k m else mput k x m

/-- Change every entry, given its key. -/
def mmap {α : Type} (f : Nat → α → α) : Map α → Map α
  | [] => []
  | (j, y) :: r => (j, f j y) :: mmap f r

/-- Change the entry of one key, where there is one. -/
def mupd {α : Type} (k : Nat) (f : α → α) (m : Map α) : Map α := mmap (fun j y => if j = k then f y else y) m

/-- Keep the entries that satisfy a test of key and value. -/
def mfilter {α : Type} (f : Nat → α → Bool) (m : Map α) : Map α := m.filter fun e => f e.1 e.2

/-- Keys strictly rising from a bound. -/
def msorted {α : Type} : Nat → Map α → Bool
  | _, [] => true
  | lo, (j, _) :: r => lo ≤ j && msorted (j + 1) r

/-- Canonical form: keys strictly rising, no entry equal to the default. -/
def mwf {α : Type} [DecidableEq α] (d : α) (m : Map α) : Bool := msorted 0 m && m.all fun e => e.2 != d

/-- Write consecutive cells from `k`. -/
def mputs {α : Type} [DecidableEq α] (d : α) : Nat → List α → Map α → Map α
  | _, [], m => m
  | k, x :: r, m => mputs d (k + 1) r (mputD d k x m)

/-- Read `n` consecutive cells from `k`. -/
def mgets {α : Type} (d : α) (m : Map α) : Nat → Nat → List α
  | _, 0 => []
  | k, n + 1 => mget d k m :: mgets d m (k + 1) n

/-- Drop the cells of a range. -/
def mclear {α : Type} (k n : Nat) (m : Map α) : Map α := mfilter (fun j _ => !(decide (k ≤ j) && decide (j < k + n))) m

/-- The number of a byte list, little-endian (R10). -/
def leNat : List Byte → Nat
  | [] => 0
  | b :: r => b.toNat + 256 * leNat r

/-- The low `n` bytes of a number, little-endian. -/
def natLe : Nat → Nat → List Byte
  | 0, _ => []
  | n + 1, x => BitVec.ofNat 8 x :: natLe n (x / 256)

/-- Bits `[lo+n-1:lo]` of a number. -/
def bits (x lo n : Nat) : Nat := x / 2 ^ lo % 2 ^ n

end Sys2Proof.Machine
end

