-- ==== Sys2Proof/WellFormed.lean ====
section
/-!
DEFINITION. Which operands an instruction may carry: what R221 calls an odd pair, an unlisted literal or a block past v63,
and the ranges of what an event row names.
-/

namespace Sys2Proof

def evenReg {w : Nat} (n : BitVec w) : Bool := n.toNat % 2 == 0
def quadReg {w : Nat} (n : BitVec w) : Bool := n.toNat % 4 == 0

/-- A 64-bit operand, R252: a v or s pair must start at an even register. -/
def Src.is64 : Src → Bool
  | .v n => evenReg n
  | .s n => evenReg n
  | _ => true

/-- A vector register or latch, as A of `bcst` and `shfl` must be (R239). -/
def Src.isVecOrLatch : Src → Bool
  | .v _ => true
  | .y _ => true
  | _ => false

/-- A source the C16 B field can name, R205. -/
def Src.isC16 : Src → Bool
  | .v n => n.toNat ≤ 27
  | .y _ => true
  | _ => false

/-- A vector register whose number is a multiple of k (R265, R279). -/
def Src.isVecMultiple (k : Nat) : Src → Bool
  | .v n => n.toNat % k == 0
  | _ => false

/-- The codes of `cvt`, R265. -/
def cvtListed (k : Nat) : Bool := k ≤ 0x0B || (0x10 ≤ k && k ≤ 0x17) || (0x20 ≤ k && k ≤ 0x2E)
/-- Codes with a pair destination, an F64 source, and the packing codes with their group size, R265. -/
def cvtPairDst (k : Nat) : Bool := k == 0x06 || k == 0x07 || k == 0x08 || k == 0x0B
def cvtF64Src (k : Nat) : Bool := k == 0x04 || k == 0x05 || k == 0x09 || k == 0x0B
def cvtGroup (k : Nat) : Nat := if k == 0x14 || k == 0x15 then 2 else if 0x2C ≤ k && k ≤ 0x2E then 4 else 1

/-- The selectors of `getsr`, R242. -/
def getsrListed (k : Nat) : Bool := k ≤ 18 || (20 ≤ k && k ≤ 26) || k == 32 || k == 33

/-- Width of an access in bytes, R276. -/
def MemTy.size : MemTy → Nat
  | .z8 => 1 | .s8 => 1 | .z16 => 2 | .s16 => 2 | .f64 => 8 | .key64 => 8 | .b128 => 16 | _ => 4

/-- The first register of a loaded block, R278 and R280. -/
def MemTy.dstOk {w : Nat} (t : MemTy) (d : BitVec w) : Bool :=
  match t with
  | .f64 => evenReg d
  | .key64 => evenReg d
  | .b128 => quadReg d
  | _ => true

/-- The stored operand, R279. -/
def MemTy.srcOk (t : MemTy) (b : Src) : Bool :=
  match t with
  | .f64 => b.is64
  | .key64 => b.is64
  | .b128 => b.isVecMultiple 4
  | _ => true

/-- Element size of a BMV type, R282; none for any other type. -/
def MemTy.bmvSize : MemTy → Option Nat
  | .i32 => some 4 | .f32 => some 4 | .b32 => some 4 | .bf16x2 => some 2 | .f16x2 => some 2
  | .e4m3x4 => some 1 | .e5m2x4 => some 1 | .i8x4 => some 1 | _ => none

/-- 64-bit operations of R287. -/
def AtomOp.wide : AtomOp → Bool
  | .add64 => true | .exch64 => true | .cas64 => true | _ => false

/-- Operations that `atomu` allows, R287. -/
def AtomOp.inAtomu : AtomOp → Bool
  | .exch => false | .cas => false | .exch64 => false | .cas64 => false | _ => true

def TagMask.ok : TagMask → Bool
  | .pair m => evenReg m
  | .all => true

/-- Matrix result types, R316 and R318, and the types of `mldw` and `mma` (R314, R317). -/
def accType (t : BitVec 4) : Bool := t == 1 || t == 3 || t == 4
def mldwType (t : BitVec 4) : Bool := t == 0 || (3 ≤ t.toNat && t.toNat ≤ 10)
def mmaType (t : BitVec 4) : Bool := t.toNat ≤ 11

def c16Ok (b : Src) : Bool := b.isC16

def Instr.wf : Instr → Bool
  | .bcst a _ _ => a.isVecOrLatch
  | .shfl a _ _ => a.isVecOrLatch
  | .dadd _ a b d => a.is64 && b.is64 && evenReg d.n
  | .dsub _ a b d => a.is64 && b.is64 && evenReg d.n
  | .dmul _ a b d => a.is64 && b.is64 && evenReg d.n
  | .dmin a b d => a.is64 && b.is64 && evenReg d.n
  | .dmax a b d => a.is64 && b.is64 && evenReg d.n
  | .dcmp _ a b _ => a.is64 && b.is64
  | .drcp _ a d => a.is64 && evenReg d.n
  | .cvt _ k a d =>
    let k := k.toNat
    cvtListed k && (!cvtPairDst k || evenReg d.n) && (!cvtF64Src k || a.is64) &&
      (cvtGroup k == 1 || a.isVecMultiple (cvtGroup k))
  | .ftag k a d => k.toNat ≤ 11 && (!(k.toNat == 4 || k.toNat == 11) || (a.is64 && evenReg d.n))
  | .qnt4 _ a _ => evenReg a
  | .dqnt4 _ _ d => evenReg d.n
  | .getsr k _ => getsrListed k.toNat
  | .dfma a b c d => a.is64 && b.is64 && evenReg c && evenReg d
  | .addC16 b d => b.isC16 && !(b == .v 0 && d == 0)
  | .subC16 b _ => b.isC16
  | .mulC16 b _ => b.isC16
  | .andC16 b _ => b.isC16
  | .orC16 b _ => b.isC16
  | .xorC16 b _ => b.isC16
  | .shlC16 b _ => b.isC16
  | .shrC16 b _ => b.isC16
  | .sarC16 b _ => b.isC16
  | .movC16 b _ => b.isC16
  | .minC16 b _ => b.isC16
  | .maxC16 b _ => b.isC16
  | .faddC16 b _ => b.isC16
  | .fsubC16 b _ => b.isC16
  | .fmulC16 b _ => b.isC16
  | .fmaxC16 b _ => b.isC16
  | .ld t _ _ d => t.dstOk d
  | .lds t _ _ _ d => t.dstOk d
  | .ldu t _ _ d => t.dstOk d
  | .st t _ _ b => t.srcOk b
  | .sts t _ _ _ b => t.srcOk b
  | .ldbmv t _ p => t.bmvSize.isSome && quadReg p
  | .stbmv t _ p => t.bmvSize.isSome && quadReg p
  | .ldacq _ b64 _ _ d => !b64 || evenReg d
  | .strel _ b64 _ _ b => !b64 || b.is64
  | .atom op _ _ b d => !op.wide || (evenReg d && b.is64)
  | .atomu op _ _ b _ => op.inAtomu && (!op.wide || b.is64)
  | .ctwaitMask _ m => m.ok
  | .ctfind m _ => m.ok
  | .qtake _ d => quadReg d
  | .cins _ a _ => evenReg a
  | .cdel _ a _ => evenReg a && a.toNat + 2 ≤ 63
  | .crel _ a _ => evenReg a && a.toNat + 5 ≤ 63
  | .copen _ _ a _ => evenReg a && a.toNat + 3 ≤ 63
  | .cnext _ d => evenReg d
  | .ccnt _ a d => evenReg a && a.toNat + 3 ≤ 63 && evenReg d
  | .mma ty _ _ n _ => mmaType ty && n.toNat ≤ 30
  | .mmas ty _ _ n _ => mmaType ty && n.toNat ≤ 30
  | .mzero ty _ _ => accType ty
  | .mldw ty _ _ _ => mldwType ty
  | .macld ty _ _ _ => accType ty
  | .rast _ v d => v.toNat ≤ 22 && d.toNat ≤ 60
  | .csrr c d => c.toNat ≤ 10 && evenReg d
  | .csrw _ b c => c.toNat ≤ 10 && b.is64
  | .sysMsg b => b.is64
  | .sysInfo _ d => evenReg d
  | .deckAged core => core < 640
  | .raftFormation core pipe => core < 640 && pipe < 4
  | .forcedFiling core pipe => core < 640 && pipe < 4
  | .clockGate core => core < 640
  | .clockWake core => core < 640
  | .lotteryDraw sl => sl < 8
  | .faultRecordPost sl => sl < 8
  | .faultReplyRetry sl _ => sl < 8
  | .faultReplyDeliver sl _ => sl < 8
  | .faultReplyEnd sl _ => sl < 8
  | .leaseSettlement cl => cl < 80
  | .surrenderInjection cl ix => cl < 80 && ix < 128
  | .surrenderOutcome cl ix => cl < 80 && ix < 128
  | .refusalHoldoffExpiry cl ix => cl < 80 && ix < 128
  | .looseReclaim cl ix => cl < 80 && ix < 128
  | .matrixRunStart core => core < 640
  | .matrixRunEnd core => core < 640
  | .matrixCommandComplete core => core < 640
  | .sawyerCommit cl => cl < 80
  | .passStart cl => cl < 80
  | .passEnd cl => cl < 80
  | .frameBoundary p => p < 8
  | .fenceArrival p => p < 8
  | .encoderFrame e => e < 16
  | .flip p => p < 8
  | .keyreq e => e < 16
  | .registerWrite off _ => off < 0x10000 && off % 8 == 0
  | .remoteWriteApply die => die < 4
  | .flitReplay p => p < 18
  | .portDown p => p < 18
  | .portRetrained p _ => p < 18
  | .portRetrainExpiry p => p < 18
  | .heartbeatMiss m _ => m < 4
  | .firewallViolation m _ => m < 4
  | .unassignedEncoding len => len == 2 || len == 4
  | .messageRecordAppend sl => sl < 8
  | .class0BoundRestored p => p < 18
  | _ => true

end Sys2Proof
end

