-- ==== Sys2Proof/Machine/Operands.lean ====
section
/-!
DEFINITION. Registers and operand forms: threads' and teams' registers, tags (R74 to R78), the inline constants (R206), and
reading a source of 32 or 64 bits (R223, R252).
-/

namespace Sys2Proof.Machine

-- Tag codes, R74.
def tNone : BitVec 4 := 0
def tI32 : BitVec 4 := 1
def tU32 : BitVec 4 := 2
def tF32 : BitVec 4 := 3
def tF64 : BitVec 4 := 4
def tBF16 : BitVec 4 := 5
def tF16 : BitVec 4 := 6
def tE4M3 : BitVec 4 := 7
def tE5M2 : BitVec 4 := 8
def tI8 : BitVec 4 := 9
def tN4P : BitVec 4 := 10
def tKEY : BitVec 4 := 11

/-- A lane of a raft: its number, its thread and its latches, y0 first. -/
structure Ln where
  lane : Nat
  tid  : Nat
  th   : Thread
  lat  : List Latch
  deriving DecidableEq, Repr

def Thread.reg (t : Thread) (n : Nat) : VReg := mget {} n t.v
def Thread.setReg (t : Thread) (n : Nat) (x : Word) (tag : BitVec 4) : Thread :=
  { t with v := mputD {} n ⟨x, tag⟩ t.v, psnV := t.psnV.filter (· != n) }
def Thread.setPair (t : Thread) (n : Nat) (x : DWord) (tag : BitVec 4) : Thread :=
  (t.setReg n (x.setWidth 32) tag).setReg (n + 1) (x.extractLsb' 32 32) tag
def Thread.pair (t : Thread) (n : Nat) : DWord := (t.reg (n + 1)).val ++ (t.reg n).val
def Thread.pred (t : Thread) (k : BitVec 3) : Bool := t.p.getLsbD k.toNat
def Thread.setPred (t : Thread) (k : BitVec 3) (b : Bool) : Thread :=
  let m : BitVec 8 := 1#8 <<< k.toNat
  { t with p := if b then t.p ||| m else t.p &&& ~~~m }

def Team.sreg (t : Team) (n : Nat) : Word := mget 0 n t.s
def Team.areg (t : Team) (n : Nat) : DWord := mget 0 n t.a
def Team.spair (t : Team) (n : Nat) : DWord := t.sreg (n + 1) ++ t.sreg n
def Team.setS (t : Team) (n : Nat) (x : Word) : Team := { t with s := mputD 0 n x t.s, psnS := t.psnS.filter (· != n) }
def Team.setA (t : Team) (n : Nat) (x : DWord) : Team := { t with a := mputD 0 n x t.a, psnA := t.psnA.filter (· != n) }
def Team.csrv (t : Team) (n : Nat) : DWord := mget 0 n t.csr
def Team.setCsr (t : Team) (n : Nat) (x : DWord) : Team := { t with csr := mputD 0 n x t.csr }
/-- The team with its registers as the instructions of this cycle read them (R51). -/
def Team.seen (t : Team) : Team := { t with s := t.sWas, a := t.aWas, csr := t.csrWas }
/-- A cycle ends: what was written is read from the next one on (R51). (Log 25, DEDUCED.) -/
def Team.latch (t : Team) : Team := { t with sWas := t.s, aWas := t.a, csrWas := t.csr, merged := 0 }
def Team.ctag (t : Team) (n : Nat) : CTag := mget {} n t.tags
def Team.setTag (t : Team) (n : Nat) (x : CTag) : Team := { t with tags := mputD {} n x t.tags }

-- CSR numbers, R69.
def cFLAGS : Nat := 0
def cRMODE : Nat := 1
def cTRAPEN : Nat := 2
def cTRAPV : Nat := 3
def cTRAPCAUSE : Nat := 4
def cTRAPPC : Nat := 5
def cTRAPADDR : Nat := 6
def cAGELIM : Nat := 7
def cCODEBASE : Nat := 8
def cWIDSHAPE : Nat := 9
def cSURRBND : Nat := 10

/-- RMODE.RM and RMODE.FTZ, R71. -/
def Team.rm (t : Team) : Rm :=
  match (t.csrv cRMODE).toNat % 4 with
  | 0 => .rne
  | 1 => .rz
  | 2 => .ru
  | _ => .rd
def Team.ftz (t : Team) : Bool := (t.csrv cRMODE).getLsbD 2
def Team.codebase (t : Team) : VAddr := (t.csrv cCODEBASE).setWidth 57

/-- The formats in which a constant can be expected (R206). -/
inductive Col where
  | int | f32 | f64 | bf16 | f16
  deriving DecidableEq, Repr

def Col.const (c : Col) (k : BitVec 3) : DWord :=
  match c, k.toNat with
  | .int, 0 => 0 | .int, 1 => 1 | .int, 2 => 2 | .int, 3 => 4 | .int, 4 => 8 | .int, 5 => 16
  | .int, 6 => 0xFFFFFFFFFFFFFFFF | .int, _ => 0x80000000
  | .f32, 0 => 0 | .f32, 1 => 0x3F800000 | .f32, 2 => 0x40000000 | .f32, 3 => 0x40800000 | .f32, 4 => 0x3F000000
  | .f32, 5 => 0x3E800000 | .f32, 6 => 0xBF800000 | .f32, _ => 0x7F800000
  | .f64, 0 => 0 | .f64, 1 => 0x3FF0000000000000 | .f64, 2 => 0x4000000000000000 | .f64, 3 => 0x4010000000000000
  | .f64, 4 => 0x3FE0000000000000 | .f64, 5 => 0x3FD0000000000000 | .f64, 6 => 0xBFF0000000000000
  | .f64, _ => 0x7FF0000000000000
  | .bf16, 0 => 0 | .bf16, 1 => 0x3F803F80 | .bf16, 2 => 0x40004000 | .bf16, 3 => 0x40804080 | .bf16, 4 => 0x3F003F00
  | .bf16, 5 => 0x3E803E80 | .bf16, 6 => 0xBF80BF80 | .bf16, _ => 0x7F807F80
  | .f16, 0 => 0 | .f16, 1 => 0x3C003C00 | .f16, 2 => 0x40004000 | .f16, 3 => 0x44004400 | .f16, 4 => 0x38003800
  | .f16, 5 => 0x34003400 | .f16, 6 => 0xBC00BC00 | .f16, _ => 0x7C007C00

/-- A source as read: up to 64 bits, and its tag where it carries one (R77). -/
structure Opd where
  val : DWord
  tag : Option (BitVec 4)
  deriving DecidableEq, Repr

def Opd.w (o : Opd) : Word := o.val.setWidth 32

/-- A 32-bit source, R223; an invalid latch is refused before this is read. -/
def src32 (col : Col) (t : Team) (l : Ln) : Src → Opd
  | .v n => let r := l.th.reg n.toNat; ⟨r.val.setWidth 64, some r.tag⟩
  | .s n => ⟨(t.sreg n.toNat).setWidth 64, none⟩
  | .y n => match l.lat[n.toNat]? with
    | some y => ⟨(y.val.setWidth 32).setWidth 64, some y.tag⟩
    | none => ⟨0, none⟩
  | .c k => ⟨((col.const k).setWidth 32).setWidth 64, none⟩

/-- A 64-bit source, R252 and R66: a pair is checked by the even register's tag. (Log 10, DEDUCED.) -/
def src64 (col : Col) (t : Team) (l : Ln) : Src → Opd
  | .v n => ⟨l.th.pair n.toNat, some (l.th.reg n.toNat).tag⟩
  | .s n => ⟨t.spair n.toNat, none⟩
  | .y n => match l.lat[n.toNat]? with
    | some y => ⟨y.val, some y.tag⟩
    | none => ⟨0, none⟩
  | .c k => ⟨col.const k, none⟩

/-- The registers that a source reads, as 64 bits or 32. -/
def Src.vregs (wide : Bool) : Src → List Nat
  | .v n => if wide then [n.toNat, n.toNat + 1] else [n.toNat]
  | _ => []
def Src.sregs (wide : Bool) : Src → List Nat
  | .s n => if wide then [n.toNat, n.toNat + 1] else [n.toNat]
  | _ => []
def Src.latches : Src → List Nat
  | .y n => [n.toNat]
  | _ => []

/-- Classes of R76. -/
def clsInt (t : BitVec 4) : Bool := t == tI32 || t == tU32 || t == tKEY
def clsIs (k t : BitVec 4) : Bool := t == k

/-- The check of one tag against a class (R76, R77): outside the class, and read as NONE. -/
def tagBad (cls : BitVec 4 → Bool) : Option (BitVec 4) → Bool
  | none => false
  | some t => !cls t && t != tNone
def tagFi (cls : BitVec 4 → Bool) : Option (BitVec 4) → Bool
  | none => false
  | some t => !cls t && t == tNone

/-- The lowest failing position, from position `k` (R72). -/
def firstBad (k : Nat) : List (Opd × (BitVec 4 → Bool)) → Option Nat
  | [] => none
  | (o, c) :: r => if tagBad c o.tag then some k else firstBad (k + 1) r
def anyFi (l : List (Opd × (BitVec 4 → Bool))) : Bool := l.any fun x => tagFi x.2 x.1.tag

/-- The tag of a result that takes operand A's (R224). -/
def tagOfA (o : Opd) : BitVec 4 := o.tag.getD tI32

/-- Bits of a Bool. -/
def bit (b : Bool) : BitVec 7 := if b then 1 else 0

end Sys2Proof.Machine
end

