-- ==== Sys2Proof/Machine/Flags.lean ====
section
/-!
DEFINITION. The exception flags (R70): their bits, and the merge into a team's FLAGS (R85).
-/

namespace Sys2Proof.Machine

def fIV : BitVec 7 := 0x01
def fDZ : BitVec 7 := 0x02
def fOF : BitVec 7 := 0x04
def fUF : BitVec 7 := 0x08
def fNX : BitVec 7 := 0x10
def fSAT : BitVec 7 := 0x20
def fFI : BitVec 7 := 0x40

def flag (b : Bool) (f : BitVec 7) : BitVec 7 := if b then f else 0

/-- FLAGS receives the OR of some exceptions. -/
def Team.orFlags (t : Team) (f : BitVec 7) : Team := t.setCsr cFLAGS (t.csrv cFLAGS ||| f.setWidth 64)
/-- FLAGS receives the flags of jobs, R319 and R377. -/
def Team.mergeFlags (t : Team) (f : BitVec 7) : Team := { t.orFlags f with merged := t.merged ||| f }

/-- The enabled exceptions among some raised, R85. -/
def Team.enabled (t : Team) (f : BitVec 7) : BitVec 7 := f &&& (t.csrv cTRAPEN).setWidth 7

end Sys2Proof.Machine
end

