-- ==== Sys2Proof/Machine/Memory.lean ====
section
/-!
DEFINITION. Memory as bytes: the home, the four dies' views (R186, R190, R191), poison (R394, R395), the on-chip memories,
and translation (R115 to R118, R381). Every wider access is built here, so byte order is decided once (R10).
-/

namespace Sys2Proof.Machine

/-- A package's own memory has keys below this; domain address `d` of another package has key `remoteBase + d` (R345). -/
def remoteBase : Nat := 2 ^ 52

/-- What a byte of memory that nothing has written reads as (log 2). -/
def unwritten : Byte := 0

/-- The bytes are in canonical form. -/
def Memory.wf (m : Map Byte) : Bool := mwf unwritten m

/-- A byte as its home L2 has it: the last write in coherence order (R186). -/
def State.home (s : State) (a : Nat) : Byte := mget unwritten a s.mem

/-- A byte as die `d` sees it (R190, R191). -/
def State.view (s : State) (d a : Nat) : Byte := (mfind (4 * a + d) s.stale).getD (s.home a)

def State.homeBytes (s : State) (a : Nat) : Nat → List Byte
  | 0 => []
  | n + 1 => s.home a :: s.homeBytes (a + 1) n

def State.viewBytes (s : State) (d a : Nat) : Nat → List Byte
  | 0 => []
  | n + 1 => s.view d a :: s.viewBytes d (a + 1) n

/-- A little-endian number of `n` bytes at the home. -/
def State.homeNat (s : State) (a n : Nat) : Nat := leNat (s.homeBytes a n)
def State.viewNat (s : State) (d a n : Nat) : Nat := leNat (s.viewBytes d a n)

/-- A write of [a, a+n) clears the poison of the granules it covers whole (R395); `g` is the granule in bytes. -/
def clearPsn (g a n : Nat) (p : List Nat) : List Nat := p.filter fun k => !(decide (a ≤ k * g) && decide (k * g + g ≤ a + n))

/-- Some granule that [a, a+n) touches is poisoned. -/
def hasPsn (g a n : Nat) (p : List Nat) : Bool := p.any fun k => decide (k * g < a + n) && decide (a < k * g + g)

def inRange (a n k : Nat) : Bool := decide (a ≤ k) && decide (k < a + n)

/-- A write into memory as every die sees it from now on: the hub's, the host's, a table walk's OR. -/
def State.putHome (s : State) (a : Nat) (bs : List Byte) : State :=
  let n := bs.length
  { s with
    mem := mputs unwritten a bs s.mem
    stale := mfilter (fun k _ => !inRange a n (k / 4)) s.stale
    lag := s.lag.map fun l => { l with cells := l.cells.filter fun c => !inRange a n c.1 }
    psnMem := clearPsn 32 a n s.psnMem }

def State.putHomeNat (s : State) (a n x : Nat) : State := s.putHome a (natLe n x)

/-- Vector clock of a die, R191. -/
def State.clock (s : State) (d : Nat) : List Nat := (List.range Config.dies).map fun j => mget 0 (4 * d + j) s.vc

def maxList : List Nat → List Nat → List Nat
  | x :: r, y :: q => Nat.max x y :: maxList r q
  | r, [] => r
  | [], q => q

/-- A stamp raised to those of the writes in flight that a write of [a, a+n) follows in coherence order (R191). -/
def State.raised (s : State) (v : List Nat) (a n : Nat) : List Nat :=
  s.lag.foldl (fun v l => if l.cells.any fun c => inRange a n c.1 then maxList v l.stamp else v) v

/-- The stamp of a write by die `d`: its advanced clock, no lower than the stamps of the writes it follows (R191). -/
def State.stampOf (s : State) (d a n : Nat) : List Nat :=
  s.raised ((s.clock d).mapIdx fun j x => if j = d then x + 1 else x) a n

def cellsFrom (a : Nat) : List Byte → List (Nat × Byte)
  | [] => []
  | b :: r => (a, b) :: cellsFrom (a + 1) r

/-- What die `e` keeps seeing of cells about to be written elsewhere. -/
def State.keepOld (s : State) (e : Nat) (cells : List (Nat × Byte)) (st : Map Byte) : Map Byte :=
  cells.foldl (fun st c => if (mfind (4 * c.1 + e) st).isSome then st else mput (4 * c.1 + e) (s.home c.1) st) st

/-- A write by a thread or engine of die `d` (R191): applied at once at the home and in `d`, in flight to the other dies. -/
def State.dieWrite (s : State) (d a : Nat) (bs : List Byte) : State :=
  let n := bs.length
  let cells := cellsFrom a bs
  let v := s.stampOf d a n
  let others := (List.range Config.dies).filter (· != d)
  let st := others.foldl (fun st e => s.keepOld e cells st) s.stale
  { s with
    mem := mputs unwritten a bs s.mem
    stale := mfilter (fun k _ => !(k % 4 == d && inRange a n (k / 4))) st
    lag := (s.lag.map fun l => if l.dst = d then { l with cells := l.cells.filter fun c => !inRange a n c.1 } else l)
      ++ others.map fun e => { src := d, dst := e, stamp := v, cells := cells }
    vc := mput (4 * d + d) (mget 0 (4 * d + d) s.vc + 1) s.vc
    psnMem := clearPsn 32 a n s.psnMem }

/-- Die `e` may apply `l` now: the two conditions of R191. -/
def State.applicable (s : State) (l : Lag) : Bool :=
  let c := s.clock l.dst
  (List.range Config.dies).all fun j =>
    if j = l.src then c.getD j 0 + 1 == l.stamp.getD j 0 else decide (l.stamp.getD j 0 ≤ c.getD j 0)

/-- Apply one write in its die. `rest` is what stays in flight, in coherence order. -/
def State.applyLag (s : State) (l : Lag) (rest : List Lag) : State :=
  let st := l.cells.foldl (fun st c =>
    if (mfind (4 * c.1 + l.dst) st).isSome then
      if rest.any fun m => m.dst == l.dst && m.cells.any fun x => x.1 == c.1 then mput (4 * c.1 + l.dst) c.2 st
      else mdel (4 * c.1 + l.dst) st
    else st) s.stale
  { s with stale := st, lag := rest, vc := mput (4 * l.dst + l.src) (l.stamp.getD l.src 0) s.vc }

/-- The first write in flight to `e` that it may apply, and the others. -/
def State.firstLag (s : State) (e : Nat) : List Lag → Option (Lag × List Lag)
  | [] => none
  | l :: r =>
    if l.dst = e && s.applicable l then some (l, r)
    else (s.firstLag e r).map fun x => (x.1, l :: x.2)

/-- A write in flight is among its die's writes that stamp `v` counts. -/
def Lag.within (l : Lag) (v : List Nat) : Bool := decide (l.stamp.getD l.src 0 ≤ v.getD l.src 0)

/-- The stamp `v` with the stamps of all the writes in flight that come before it, from the latest back: a write may be stamped above the
clock of its die, since it is no lower than the writes it follows in coherence order (R191). -/
def State.past (s : State) (v : List Nat) : List Nat := s.lag.foldr (fun l v => if l.within v then maxList v l.stamp else v) v

/-- Every die applies the writes in flight that come before stamp `v`, in their order: what a write that all dies see at once must follow
(R191). -/
def State.settleLag (s : State) (v : List Nat) : State :=
  (s.lag.filter fun l => l.within (s.past v)).foldl (fun s l => s.applyLag l (s.lag.erase l)) s

/-- A write that every die sees at once: it follows what stamp `v` names and the writes in flight to its bytes (R191). -/
def State.putAll (s : State) (v : List Nat) (a : Nat) (bs : List Byte) : State := (s.settleLag (s.raised v a bs.length)).putHome a bs

/-- The host or another package reads [a, a+n) at the home: its later writes come after what it has read (R189). -/
def State.noted (s : State) (a n : Nat) : State := { s with hub := { s.hub with seen := s.raised s.hub.seen a n } }

/-- The state in which a write or an operation of the host or of another package is performed: every die has applied what those have read
before, so that order carries on through them (R189). The host and the other packages count as one reader (log 78, DEDUCED). -/
def State.forOutside (s : State) : State := s.settleLag s.hub.seen

/-- Every write in flight is applied in every die (R192). -/
def State.drain (s : State) : State :=
  { s with stale := [], lag := [], vc := s.lag.foldl (fun v l => mput (4 * l.dst + l.src) (l.stamp.getD l.src 0) v) s.vc }

/-- Die `e` applies every write in flight to it, as an access at the home makes it do. -/
def State.catchUp (s : State) (e : Nat) : State :=
  { s with
    stale := mfilter (fun k _ => k % 4 != e) s.stale
    lag := s.lag.filter fun l => l.dst != e
    vc := s.lag.foldl (fun v l => if l.dst = e then mput (4 * e + l.src) (l.stamp.getD l.src 0) v else v) s.vc }

-- On-chip memories.

def spadKey (core off : Nat) : Nat := core * 0x40000 + off
def landKey (cl tile off : Nat) : Nat := cl * 0x800000 + tile * 0x10000 + off
def accKey (core tile off : Nat) : Nat := core * 0x80000 + tile * 0x1000 + off
def wbKey (core region off : Nat) : Nat := core * 0x100000 + region * 0x4000 + off

/-- The landing as the checker sees it: by lease index, a pinned lease having its team's (R364). -/
def landUnit (cl lease : Nat) : Nat := lease * Config.clusters + cl
def pinnedLease (team : Nat) : Nat := 128 + team

/-- A place of some bytes: memory by key with its MT, on-chip memory by key, or a reclaimed loose lease (R109). `u` and `off` are the lease
and the offset in it. -/
inductive Loc where
  | mem (pa mt : Nat)
  | spad (k : Nat)
  | land (k u off : Nat)
  | void (u off : Nat)
  deriving DecidableEq, Repr

/-- The address of a place. -/
def Loc.at : Loc → Nat
  | .mem pa _ => pa
  | .spad k => k
  | .land k _ _ => k
  | .void _ _ => 0

/-- The die that serves a read that misses L1: the home's, or for a replicated page the reader's own while it has its replica (R29, R30,
R391). -/
def State.supplier (s : State) (d pa mt : Nat) : Nat :=
  if mt = 1 && !s.dropped.contains (4 * (pa / 0x1000) + d) then d else Config.homeDie pa

/-- One more entry behind the others of a full or filling store of `lim`: the oldest makes room. Which entry a full store gives up the spec does
not say: the choice is the model's (log 56, DESIGN CHOICE). -/
def addNewest {α : Type} (lim : Nat) (x : α) (l : List α) : List α := (l ++ [x]).drop (l.length + 1 - lim)

/-- A line that a core's L1 misses comes from the last-level cache that serves the read, and stands in both from then on (R30). -/
def State.fillLine (s : State) (core pa mt : Nat) (x : Nat) : State :=
  let ls := mget [] core s.l1
  if ls.any fun y => y.1 == x then s
  else
    let d := s.supplier (Config.dieOf core) pa mt
    let ks := mget [] d s.llc
    { s with
      l1 := mput core (addNewest Config.l1Lines (x, d) ls) s.l1
      llc := if ks.contains x then s.llc else mput d (addNewest Config.llcLines x ks) s.llc }

/-- A load of some bytes brings their lines into the core's L1 (R30). Memory beyond a link has no home L2
here, and its lines are not held. Which accesses bring lines in (`ld`, `ldacq`, `ldu`, and the header of `spawn.k`), and
that lines of types 2 and 3 are not held, the spec does not say: the choice is the model's (log 56, DESIGN CHOICE). -/
def State.fillL1 (s : State) (core : Nat) (l : Loc) (n : Nat) : State :=
  match l with
  | .mem pa mt =>
    if 2 ≤ mt then s
    else
      ((List.range ((pa + n - 1) / Config.lineBytes + 1 - pa / Config.lineBytes)).map (pa / Config.lineBytes + ·)).foldl
        (fun s x => s.fillLine core pa mt x) s
  | _ => s

/-- Bytes at a place as a thread or engine of die `d` reads them. -/
def State.readAt (s : State) (d : Nat) (l : Loc) (n : Nat) : List Byte :=
  match l with
  | .mem pa _ => s.viewBytes d pa n
  | .spad k => mgets 0 s.spad k n
  | .land k _ _ => mgets 0 s.land k n
  | .void _ _ => List.replicate n 0

/-- The bytes at a place at their home. -/
def State.readHome (s : State) (l : Loc) (n : Nat) : List Byte :=
  match l with
  | .mem pa _ => s.homeBytes pa n
  | .spad k => mgets 0 s.spad k n
  | .land k _ _ => mgets 0 s.land k n
  | .void _ _ => List.replicate n 0

def State.putSpad (s : State) (k : Nat) (bs : List Byte) : State :=
  { s with spad := mputs 0 k bs s.spad, psnSpad := clearPsn 8 k bs.length s.psnSpad }
def State.putLand (s : State) (k : Nat) (bs : List Byte) : State :=
  { s with land := mputs 0 k bs s.land, psnLand := clearPsn 8 k bs.length s.psnLand }
def State.putAcc (s : State) (k : Nat) (bs : List Byte) : State :=
  { s with acc := mputs 0 k bs s.acc, psnAcc := clearPsn 8 k bs.length s.psnAcc }
def State.putWb (s : State) (k : Nat) (bs : List Byte) : State :=
  { s with wbuf := mputs 0 k bs s.wbuf, psnWb := clearPsn 8 k bs.length s.psnWb }

/-- Who makes a store: its thread, and the address space and virtual address under which it was translated. -/
structure By where
  tid  : Nat := 0
  asid : Nat := 0
  va   : Nat := 0
  deriving DecidableEq, Repr

/-- Some store in progress has locked the replicas of the page (R193). -/
def State.pageLocked (s : State) (pa : Nat) : Bool := s.repl.any fun r => r.page == pa / 0x1000

/-- The store in progress that locks a page's replicas (R193). -/
def State.replOf (s : State) (d pa : Nat) (bs : List Byte) (b : By) : Repl :=
  { page := pa / 0x1000, addr := pa, bytes := bs, tid := b.tid, asid := b.asid, va := b.va, stamp := s.clock d }
def State.lockStore (s : State) (d pa : Nat) (bs : List Byte) (b : By) : State := { s with repl := s.repl ++ [s.replOf d pa bs b] }

/-- A plain store by an agent of die `d`. A store to a replicated page locks its replicas and commits later (R193); memory of another
package is written as its home performs it (R345), after what the issuer's die has applied (R191). -/
def State.storeAt (s : State) (d : Nat) (l : Loc) (bs : List Byte) (b : By) : State :=
  match l with
  | .mem pa mt =>
    if mt = 1 then s.lockStore d pa bs b
    else if mt = 3 then s.putAll (s.clock d) pa bs
    else s.dieWrite d pa bs
  | .spad k => s.putSpad k bs
  | .land k _ _ => s.putLand k bs
  | .void _ _ => s

/-- A write at the home that the die of its issuer sees at once: atomics, barrier objects, queues, lease blocks. Where every die sees
it at once, it follows what the issuer's die has applied (R191). -/
def State.storeHome (s : State) (d : Nat) (l : Loc) (bs : List Byte) : State :=
  match l with
  | .mem pa mt => if mt = 1 || mt = 3 then s.putAll (s.clock d) pa bs else (s.catchUp d).dieWrite d pa bs
  | .spad k => s.putSpad k bs
  | .land k _ _ => s.putLand k bs
  | .void _ _ => s

/-- Poison at a place (R395). -/
def State.poisonAt (s : State) (l : Loc) (n : Nat) : Bool :=
  match l with
  | .mem pa _ => hasPsn 32 pa n s.psnMem
  | .spad k => hasPsn 8 k n s.psnSpad
  | .land k _ _ => hasPsn 8 k n s.psnLand
  | .void _ _ => false

/-- A granule of memory becomes poisoned; one that was not is new to the scrub (R394). -/
def State.addPsn (s : State) (g : Nat) : State :=
  if s.psnMem.contains g then s
  else { s with psnMem := g :: s.psnMem, hub := { s.hub with scrubbed := s.hub.scrubbed.filter (· != g) } }

/-- A page of replicas that a store holds locked (R193), by whichever alias of its frame it is read: a thread reads its own last store
to a location by every alias (R119). -/
def State.lockedAt (s : State) (l : Loc) : Bool :=
  match l with
  | .mem pa mt => (mt == 0 || mt == 1) && s.pageLocked pa
  | _ => false

/-- Memory as a read that waits for its stores finds it: the read waits while a store holds its page locked, and then finds the store
performed (R193). -/
def State.committed (s : State) : State := s.repl.foldl (fun s r => s.putHome r.addr r.bytes) s

-- Translation.

/-- Fields of a table entry, R116. -/
def pteV (e : Nat) : Bool := e.testBit 0
def pteL (e : Nat) : Bool := e.testBit 3
def pteW (e : Nat) : Bool := e.testBit 4
def pteX (e : Nat) : Bool := e.testBit 5
def pteC (e : Nat) : Bool := e.testBit 8
def pteS (e : Nat) : Bool := e.testBit 9
def pteMt (e : Nat) : Nat := bits e 10 2
def ptePfn (e : Nat) : Nat := bits e 12 40
def pteReserved (e : Nat) : Bool := bits e 52 12 != 0 || bits e 1 2 != 0

/-- A table entry, an entry not valid or with a reserved bit set being 0x10, parking only when not valid (R381). -/
def State.entry (s : State) (a : Nat) (det : DWord) : Except Fail Nat :=
  let e := s.homeNat a 8
  if !pteV e then .error { cause := 0x10, detail := det, park := true }
  else if pteReserved e then .error { cause := 0x10, detail := det }
  else .ok e

/-- The package that a domain address names, R345. -/
def domPkg (d : Nat) : Nat := bits d 46 6

/-- A leaf whose MT the machine cannot serve is a reserved value: a package above NPKGM1 (R345), replicated pages not
accepted (R353). A frame of HBM past the 12 stacks is refused in the same way (R1): the spec says nothing of it, and the choice is the
model's (log 59, DESIGN CHOICE). -/
def State.badMt (s : State) (e : Nat) : Bool :=
  (pteMt e == 3 && decide (s.hub.npkg ≤ domPkg (ptePfn e * 0x1000))) || (pteMt e == 1 && !s.hub.accepted.getLsbD 3) ||
  (pteMt e != 2 && decide (Config.hbmBytes ≤ if pteMt e = 3 then ptePfn e * 0x1000 % 2 ^ 46 else ptePfn e * 0x1000))

/-- The bits of an entry that decide who may do what on its page: MT, S, X and W. -/
def pteRights (e : Nat) : Nat := bits e 9 3 * 4 + bits e 4 2

/-- What a level 0 leaf stands for (R115, R116): the entry used and the log2 of its page. A group of sixteen entries with C and
contiguous frames, each a valid leaf, maps one page of 64 KiB from the first of those frames, under the rights of the entry walked, where the sixteen agree in
them. In a group that
disagrees in C or in its frames, each address has a free one of the frames that its valid leaves name (log 6). -/
def State.groupEntry (s : State) (a e : Nat) : Nat × Nat :=
  let g := a / 128 * 128
  let es := (List.range 16).map fun k => s.homeNat (g + 8 * k) 8
  let f0 := ptePfn (es.getD 0 0)
  if es.all fun x => !pteC x then (e, 12)
  else if (List.range 16).all fun k => pteC (es.getD k 0) && ptePfn (es.getD k 0) == f0 + k then
    if es.all fun x => pteV x && pteL x && pteRights x == pteRights e && !pteReserved x then (e - ptePfn e * 0x1000 + f0 * 0x1000, 16) else (e, 12)
  else
    let ok := es.filter fun x => pteV x && pteL x && !pteReserved x
    let x := ok.getD (Config.freeNat (s.free + a) % ok.length) e
    (e - bits e 10 42 * 0x400 + bits x 10 42 * 0x400, 12)

/-- The four-level walk, R115. Table entries are read at any physical address. -/
def State.walk (s : State) (asid root : Nat) (va : Nat) (det : DWord) : Except Fail Tlb := do
  let leaf (e a log2 : Nat) : Except Fail Tlb :=
    if s.badMt e then .error { cause := 0x10, detail := det }
    else .ok { asid := asid, vbase := va / 2 ^ log2, log2 := log2, pte := BitVec.ofNat 64 e, addr := a, a := false, d := false }
  let e3 ← s.entry (root + 8 * bits va 39 18) det
  let a2 := ptePfn e3 * 0x1000 + 8 * bits va 30 9
  let e2 ← s.entry a2 det
  if pteL e2 then leaf e2 a2 30
  else
    let a1 := ptePfn e2 * 0x1000 + 8 * bits va 21 9
    let e1 ← s.entry a1 det
    if pteL e1 then leaf e1 a1 21
    else
      let a0 := ptePfn e1 * 0x1000 + 8 * bits va 12 9
      let e0 ← s.entry a0 det
      if !pteL e0 then .error { cause := 0x10, detail := det } else leaf (s.groupEntry a0 e0).1 a0 (s.groupEntry a0 e0).2

def Tlb.matches (t : Tlb) (asid va : Nat) : Bool := t.asid == asid && t.vbase == va / 2 ^ t.log2

/-- Physical address of a translation: the page frame with the offset in the page. A group's frames may begin at any of 4 KiB (R116); of a
leaf above level 0 the low PFN bits are ignored (log 6). -/
def Tlb.pa (t : Tlb) (va : Nat) : Nat :=
  (if t.log2 = 16 then ptePfn t.pte.toNat * 0x1000 else ptePfn t.pte.toNat * 0x1000 / 2 ^ t.log2 * 2 ^ t.log2) + va % 2 ^ t.log2

/-- The agent that translates: a core with its L1 TLB, or an engine of a cluster with the L2 TLB (R117). -/
structure Who where
  core    : Option Nat
  cluster : Nat
  deriving DecidableEq, Repr

def coreWho (c : Nat) : Who := { core := some c, cluster := Config.clusterOf c }
def engWho (cl : Nat) : Who := { core := none, cluster := cl }
def Who.die (w : Who) : Nat := Config.dieOfCluster w.cluster

def State.tlbOf (s : State) (w : Who) : List Tlb :=
  (match w.core with
   | some c => mget [] c s.tlb1
   | none => []) ++ mget [] w.cluster s.tlb2

/-- Translation of an address under an ASID, from a TLB or by a walk; 0x12 first (R381). -/
def State.xlate (s : State) (w : Who) (asid va : Nat) (det : DWord) : Except Fail Tlb :=
  match mfind asid s.hub.asids with
  | none => .error { cause := 0x12, detail := det }
  | some c =>
    match (s.tlbOf w).find? fun t => t.matches asid va with
    | some t => .ok t
    | none => s.walk asid c va det

/-- How an access uses a page. -/
structure Use where
  write : Bool := false
  fetch : Bool := false
  sup   : Bool := false
  deriving DecidableEq, Repr

/-- Permission, R116 and R381: 0x11. -/
def Tlb.allows (t : Tlb) (u : Use) : Bool :=
  let e := t.pte.toNat
  (!u.write || pteW e) && (!u.fetch || pteX e) && (!pteS e || u.sup)

/-- The place a translated address names: MT 3 of this package is MT 0 at the physical address (R345). -/
def State.locOf (s : State) (t : Tlb) (va : Nat) : Loc :=
  let pa := t.pa va
  let mt := pteMt t.pte.toNat
  if mt = 3 then
    if domPkg pa = s.hub.pkg then .mem (pa % 2 ^ 46) 0 else .mem (remoteBase + pa) 3
  else .mem pa mt

def Loc.mt : Loc → Nat
  | .mem _ mt => mt
  | _ => 0

/-- OR A and D into a table entry (R117, R384). -/
def State.orPte (s : State) (addr : Nat) (a d : Bool) : State :=
  if a || d then
    s.putHome addr [s.home addr ||| (if a then 0x40 else 0) ||| (if d then 0x80 else 0)]
  else s

/-- Put an entry at the end of a TLB of a size; one is written back and dropped when it is full (R384). Which one the spec does not say: the
oldest, in the L1 and the L2 TLB, by the model's choice (log 56, DESIGN CHOICE). -/
def tlbAdd (cap : Nat) (t : Tlb) (l : List Tlb) : List Tlb × List Tlb :=
  if l.length < cap then (l ++ [t], []) else (l.tail ++ [t], l.take 1)

def State.orAll (s : State) (ts : List Tlb) : State := ts.foldl (fun s t => s.orPte t.addr t.a t.d) s

/-- Gather A, and D for a write, in the TLB entry of the access, which it fills where it is absent (R117). They go to the table entry that was
walked; which of the sixteen of a 64 KiB page receives them the spec does not say, and the choice is the model's (log 6, DESIGN CHOICE). -/
def State.touch (s : State) (w : Who) (t : Tlb) (write : Bool) : State :=
  let mark (l : List Tlb) : List Tlb :=
    l.map fun x => if x.asid = t.asid && x.vbase = t.vbase && x.log2 = t.log2 then { x with a := true, d := x.d || write } else x
  let has (l : List Tlb) : Bool := l.any fun x => x.asid = t.asid && x.vbase = t.vbase && x.log2 = t.log2
  let new : Tlb := { t with a := true, d := write }
  let l2 := mget [] w.cluster s.tlb2
  match w.core with
  | some c =>
    let l1 := mget [] c s.tlb1
    let s := if has l2 then s else
      let (l, out) := tlbAdd 8192 { t with a := false, d := false } l2
      { s with tlb2 := mput w.cluster l s.tlb2 }.orAll out
    if has l1 then { s with tlb1 := mput c (mark l1) s.tlb1 }
    else
      let (l, out) := tlbAdd 128 new l1
      { s with tlb1 := mput c l s.tlb1 }.orAll out
  | none =>
    if has l2 then { s with tlb2 := mput w.cluster (mark l2) s.tlb2 }
    else
      let (l, out) := tlbAdd 8192 new l2
      { s with tlb2 := mput w.cluster l s.tlb2 }.orAll out

/-- A global access of [va, va+n) within a page: the checks of R428 up to alignment, with R68 on the base register. -/
structure GAcc where
  loc : Loc
  tlb : Tlb
  deriving DecidableEq, Repr

/-- Bits [63:57] equal to bit 56, R68. -/
def canonical (a : DWord) : Bool := a = (a.setWidth 57).signExtend 64

/-- `noMt`: MT values on which the access raises 0x11 after its other checks (R381, R429). The 57-bit faulting address fills the 64 bits of
TRAPADDR with zeros above: R72 gives no extension (log 63, DESIGN CHOICE). -/
def State.global (s : State) (w : Who) (asid : Nat) (base : DWord) (va : VAddr) (align : Nat) (u : Use) (noMt : List Nat) :
    Except Fail GAcc :=
  let det := va.setWidth 64
  match mfind asid s.hub.asids with
  | none => .error { cause := 0x12, detail := det, write := u.write, fetch := u.fetch }
  | some _ =>
    if !canonical base then .error { cause := 0x10, detail := base, write := u.write, fetch := u.fetch }
    else
      match s.xlate w asid va.toNat det with
      | .error f => .error { f with write := u.write, fetch := u.fetch }
      | .ok t =>
        let l := s.locOf t va.toNat
        if !t.allows u then .error { cause := 0x11, detail := det, write := u.write, fetch := u.fetch }
        else if va.toNat % align != 0 then .error { cause := 0x06, write := u.write }
        else if noMt.contains (pteMt t.pte.toNat) then .error { cause := 0x11, detail := det, write := u.write, fetch := u.fetch }
        else .ok { loc := l, tlb := t }

/-- The pieces of [va, va+n) by page: address and length. -/
def pieces (va n : Nat) : Nat → List (Nat × Nat)
  | 0 => []
  | k + 1 => if n = 0 then [] else
    let m := Nat.min n (0x1000 - va % 0x1000)
    (va, m) :: pieces ((va + m) % 2 ^ 57) (n - m) k

end Sys2Proof.Machine
end

