-- ==== Sys2Proof/Machine/Ops.lean ====
section
/-!
DEFINITION. The named operations that meanings are built from: tables of units, filing (R40, R47), posting records (R373, R374),
taking a cause (R368 to R376), the raft on the pipe in turn, and issue with the checks of R222 that every instruction shares.
-/

namespace Sys2Proof.Machine

-- Units.

def State.core (s : State) (c : Nat) : Core := mget {} c s.cores
def State.updCore (s : State) (c : Nat) (f : Core → Core) : State := { s with cores := mput c (f (s.core c)) s.cores }
def State.pipe (s : State) (c p : Nat) : Pipe := mget {} (4 * c + p) s.pipes
def State.setPipe (s : State) (c p : Nat) (x : Pipe) : State := { s with pipes := mput (4 * c + p) x s.pipes }
def State.cluster (s : State) (k : Nat) : Cluster := mget {} k s.clusters
def State.updCluster (s : State) (k : Nat) (f : Cluster → Cluster) : State :=
  { s with clusters := mput k (f (s.cluster k)) s.clusters }
def State.slice (s : State) (k : Nat) : Slice := mget {} k s.slices
def State.updSlice (s : State) (k : Nat) (f : Slice → Slice) : State := { s with slices := mput k (f (s.slice k)) s.slices }
def State.updThread (s : State) (id : Nat) (f : Thread → Thread) : State := { s with threads := mupd id f s.threads }
def State.updTeam (s : State) (id : Nat) (f : Team → Team) : State := { s with teams := mupd id f s.teams }

/-- The team in a slot of a core. -/
def State.teamAt (s : State) (core slot : Nat) : Option (Nat × Team) :=
  s.teams.find? fun t => t.2.core == core && t.2.slot == slot

/-- The team of an identity. -/
def State.team (s : State) (id : Nat) : Option Team := mfind id s.teams

/-- Live threads of a team. -/
def State.threadsOf (s : State) (team : Nat) : List (Nat × Thread) := s.threads.filter fun t => t.2.team == team

/-- A team by identity, on a core or saved. -/
def State.anyTeam (s : State) (id : Nat) : Option Team :=
  match s.team id with
  | some t => some t
  | none => (s.saved.find? fun x => x.2.id == id).map (·.2.team)

def State.updAny (s : State) (id : Nat) (f : Team → Team) : State :=
  if (s.team id).isSome then s.updTeam id f
  else { s with saved := mmap (fun _ x => if x.id = id then { x with team := f x.team } else x) s.saved }

/-- LANES of a notice that concerns a launch: the queue's index, and bit 6 for an entry of the pending-launch store (R414). -/
def Launch.lanes (l : Launch) : Nat := l.queue + if l.store then 64 else 0
def State.lanesOf (s : State) (t : Team) : Nat :=
  match mfind t.launch s.launches with
  | some l => l.lanes
  | none => t.queue

def State.teamCore (s : State) (team : Nat) : Option Nat := (s.team team).map (·.core)

/-- A surrender routine waits to be injected on a core (R64, R111). -/
def State.injectionDue (s : State) (core : Nat) : Bool :=
  (s.cluster (Config.clusterOf core)).leases.any fun l => l.2.recalled.isSome && !l.2.injected && match l.2.team with
    | some t => s.teamCore t == some core
    | none => false

/-- A thread that can issue only after a wake event (R64). -/
def Place.asleep : Place → Bool
  | .blocked _ _ => true
  | .parked => true
  | .held => true
  | .evicted _ => true
  | _ => false

def Thread.isEvicted (t : Thread) : Bool :=
  match t.place with
  | .evicted _ => true
  | _ => false

/-- Nothing on a core can issue without a wake event (R64). -/
def State.asleep (s : State) (core : Nat) : Bool :=
  (s.threads.all fun t => s.teamCore t.2.team != some core || t.2.place.asleep) && !s.injectionDue core &&
  (List.range Config.pipes).all fun p => (s.pipe core p).raft.isNone && (s.pipe core p).hold.isNone

/-- A cycle ends, and the next one is `t`: what was written is read from then on (R51), and each core notes whether it sleeps (R64). -/
def State.nextCycle (s : State) (t : Nat) : State :=
  { s with
    now := t
    teams := mmap (fun _ x => x.latch) s.teams
    cores := mmap (fun c k => { k with idle := s.asleep c }) s.cores }

/-- Time passes to a later cycle. -/
def State.advance (s : State) (t : Nat) : State := if t ≤ s.now then s else s.nextCycle t

/-- Threads that hold a slot of a core: every thread of its teams but the evicted (R38, R57); injected ones have slots of
their own. -/
def State.slotsUsed (s : State) (core : Nat) : Nat :=
  (s.threads.filter fun t => s.teamCore t.2.team == some core && t.2.inj.isNone &&
    match t.2.place with
    | .evicted _ => false
    | _ => true).length

-- Decks.

/-- The key of a thread's deck (R40), for one that is filed or parked or held. (Log 53, DEDUCED.) -/
def deckKey (t : Thread) : Nat × VAddr × Bool × Nat :=
  (t.team, t.pc, t.inj.isSome, match t.place with
    | .parked => 1
    | .held => 2
    | _ => 0)

def insertNew {α : Type} [DecidableEq α] (x : α) (l : List α) : List α := if x ∈ l then l else x :: l

def inDeck (t : Thread) : Bool :=
  match t.place with
  | .deck _ => true
  | .parked => true
  | .held => true
  | _ => false

/-- The decks of a core in use (R40, R371). -/
def State.decks (s : State) (core : Nat) : List (Nat × VAddr × Bool × Nat) :=
  s.threads.foldl (fun l t => if inDeck t.2 && s.teamCore t.2.team == some core then insertNew (deckKey t.2) l else l) []

def deckLimit : Nat := 128

/-- File a thread at an address: into the deck of its key, a new deck, or the spill list (R40). Its wait starts now. -/
def State.fileThread (s : State) (core tid : Nat) (pc : VAddr) : State :=
  match mfind tid s.threads with
  | none => s
  | some t =>
    let key := deckKey { t with pc := pc, place := .deck 0 }
    let ds := s.decks core
    if key ∈ ds || decide (ds.length < deckLimit) then
      s.updThread tid fun t => { t with pc := pc, place := .deck s.now }
    else
      (s.updThread tid fun t => { t with pc := pc, place := .spill s.now }).updCore core fun c => { c with spill := c.spill ++ [tid] }

def State.fileAll (s : State) (core : Nat) (pc : VAddr) (l : List Nat) : State := l.foldl (fun s t => s.fileThread core t pc) s

/-- The spilled threads of a core with a thread's key. -/
def State.spilledWith (s : State) (core : Nat) (t : Thread) : List Nat :=
  let key := deckKey { t with place := .deck 0 }
  (s.core core).spill.filter fun id =>
    match mfind id s.threads with
    | some x => deckKey { x with place := .deck 0 } == key
    | none => false

/-- A spilled thread goes into a deck, its wait going on. -/
def Thread.toDeck (t : Thread) : Thread :=
  match t.place with
  | .spill c => { t with place := .deck c }
  | _ => t

def State.toDecks (s : State) (l : List Nat) : State := l.foldl (fun s id => s.updThread id Thread.toDeck) s

/-- Give freed decks to the keys of the oldest spilled threads (R40); `n` bounds the number of decks given. -/
def State.unspill (s : State) (core : Nat) : Nat → State
  | 0 => s
  | n + 1 =>
    match (s.core core).spill with
    | [] => s
    | t0 :: _ =>
      match mfind t0 s.threads with
      | none => (s.updCore core fun c => { c with spill := c.spill.tail }).unspill core n
      | some t =>
        if decide ((s.decks core).length < deckLimit) then
          let move := s.spilledWith core t
          ((s.toDecks move).updCore core fun c => { c with spill := c.spill.filter fun id => !move.contains id }).unspill core n
        else s

def State.settle (s : State) (core : Nat) : State := s.unspill core deckLimit

/-- The pipe is free: no raft, latches invalid (R214); it forms the next raft in the next cycle (R44). -/
def State.freePipe (s : State) (core p : Nat) : State :=
  s.setPipe core p { pass := (s.pipe core p).pass, ready := s.now + 1 }

-- Records.

def Rec.bytes (r : Rec) (seq : Nat) : List Byte :=
  natLe 4 0x10000 ++ natLe 4 (r.cause + 0x100 * r.kind) ++
  natLe 4 ((if r.sup then 1 else 0) + (if r.write then 2 else 0) + (if r.fetch then 4 else 0) + (if r.rem then 8 else 0)) ++
  natLe 4 r.core ++ natLe 4 (r.asid + 0x100 * r.tslot + 0x10000 * r.tnum) ++ natLe 4 r.lanes ++
  natLe 8 r.pc.toNat ++ natLe 8 r.addr.toNat ++ natLe 8 seq ++ natLe 16 0

/-- Make a record: it takes the slice's next SEQ and waits for the ring (R374). A KIND 0 record names its parked deck, of a team on its core
or saved meanwhile (R371). -/
def State.post (s : State) (k : Nat) (r : Rec) : State :=
  let sl := s.slice k
  let s := s.updSlice k fun x => { x with fqWait := x.fqWait ++ [r.bytes sl.seq], seq := x.seq + 1 }
  if r.kind = 0 then
    s.updAny r.team fun t =>
      { t with parkedQ := t.parkedQ ++ [{ seq := sl.seq, rec_ := r }] }
  else s

/-- Room in the slice for one more waiting record (R374). -/
def State.roomToPost (s : State) (k : Nat) : Bool := decide ((s.slice k).fqWait.length < 16)

-- Ends.

/-- Take a thread out of the machine with its cursors (R137, R249); a team with no thread left begins to end. -/
def State.dropThread (s : State) (tid : Nat) : State :=
  match mfind tid s.threads with
  | none => s
  | some t =>
    let s := { s with threads := mdel tid s.threads }
    let s := match s.teamCore t.team with
      | none => s
      | some c =>
        (s.updCore c fun x => { x with spill := x.spill.filter (· != tid) }).updCluster (Config.clusterOf c) fun k =>
          { k with cursors := mfilter (fun _ y => y.thread != tid) k.cursors }
    if (s.threadsOf t.team).isEmpty then s.updTeam t.team fun x => { x with ending := true } else s

/-- The pipe without a raft of a team, which ends in cycle `now` (R44). -/
def Pipe.stopTeam (p : Pipe) (now team : Nat) : Pipe :=
  match p.raft with
  | some r => if r.team = team then { pass := p.pass, ready := now + 1 } else p
  | none => p

/-- Stop every raft of a team and end all its threads (R380). -/
def State.killTeam (s : State) (team : Nat) : State :=
  let s := { s with pipes := mmap (fun _ p => p.stopTeam s.now team) s.pipes }
  let s := (s.threadsOf team).foldl (fun s t => s.dropThread t.1) s
  let s := s.updTeam team fun t =>
    { t with
      ending := true, inService := false, heldQ := [], parkedQ := [], routine := none
      tags := mmap (fun _ x => { x with flags := 0 }) t.tags }
  match s.teamCore team with
  | some c => s.settle c
  | none => s

/-- End a team on a fault, with its KIND 1 record (R380). -/
def State.endOnFault (s : State) (team : Nat) (r : Rec) : State :=
  match s.team team with
  | none => s
  | some t => (s.killTeam team).post t.slice { r with kind := 1, lanes := 0 }

/-- The lease an injected thread answers for, while it is held. -/
def State.leaseOf (s : State) (cl : Nat) (i : Inj) : Option Lease :=
  match mfind i.lease (s.cluster cl).leases with
  | some l => if l.gen = i.gen then some l else none
  | none => none

/-- Change the lease an injected thread answers for, while it is held. -/
def State.updLeaseOf (s : State) (cl : Nat) (i : Inj) (f : Lease → Lease) : State :=
  s.updCluster cl fun k => { k with leases := mupd i.lease (fun l => if l.gen = i.gen then f l else l) k.leases }

/-- Release of a lease whose injected thread ended in violation or by a cause: the release waits for engine jobs, then the block is written
and the record posted (R388: SURRENDER_OUTCOME). -/
def State.surrenderEnd (s : State) (team tid : Nat) (i : Inj) (cause : Nat) (pc : VAddr) : State :=
  match s.team team with
  | none => s
  | some t =>
    let cl := Config.clusterOf t.core
    let r : Rec := { kind := 4, cause := cause, core := t.core, tslot := t.slot, asid := t.asid, tnum := 0x400, lanes := s.lanesOf t,
                     pc := pc.setWidth 64, addr := BitVec.ofNat 64 (i.lease * 0x10000 + i.gen) }
    let s' := (s.updTeam team fun x => { x with routine := none }).dropThread tid
    match s.leaseOf cl i with
    | none => s'.post t.slice r
    | some _ => s'.updLeaseOf cl i fun l =>
      { l with
        giveUp := some { keep := 0, status := 6, report := true, since := (l.giveUp.map (·.since)).getD s.now, rec_ := some (t.slice, r) }
        refusals := 0, recalled := none, injected := false }

/-- The injected thread's routine ends with a refusal (R112, R113): the third in a row is carried out as release, with a
KIND 4 record of cause 0x2A (R388). A lease unleased meanwhile changes no further. -/
def State.surrenderRefuse (s : State) (team tid : Nat) (i : Inj) (pc : VAddr) : State :=
  match s.team team with
  | none => s
  | some t =>
    let cl := Config.clusterOf t.core
    let s' := (s.updTeam team fun x => { x with routine := none }).dropThread tid
    match s.leaseOf cl i with
    | none => s'
    | some l =>
      if l.giveUp.isSome then s'
      else if l.refusals + 1 < 3 then
        s'.updLeaseOf cl i fun l => { l with refusals := l.refusals + 1, refusedAt := some s.now, recalled := none, injected := false }
      else s.surrenderEnd team tid i 0x2A pc

/-- The generation after one, R439. -/
def nextGen (g : Nat) : Nat := if g = 0xFFFF then 1 else g + 1

/-- Two ranges of tiles or regions share one. -/
def overlaps (a m b n : Nat) : Bool := decide (a < b + n) && decide (b < a + m)

/-- A completion record of a team that an `mwait` on a range covers (R319). -/
def MRec.covered (r : MRec) (team : Nat) (wb : Bool) (first cnt : Nat) : Bool :=
  r.team == team && r.wb == wb && overlaps r.first r.n first cnt

/-- The delivery of the cause of failed matrix work clears it in every record that the `mwait` covers (R407). -/
def State.clearCauses (s : State) (core team : Nat) (w : Option (Bool × Nat × Nat)) : State :=
  match w with
  | none => s
  | some (wb, first, n) => s.updCore core fun k =>
      { k with mrec := k.mrec.map fun x => if x.covered team wb first n then { x with cause := 0 } else x }

/-- Threads enter the handler (R375): trap CSRs written, supervisor mode, filed at TRAPV.VEC. -/
def State.deliver (s : State) (team : Nat) (ts : List Nat) (pc : VAddr) (lane cause : Nat) (detail : DWord) (len : Nat)
    (clears : Option (Bool × Nat × Nat)) : State :=
  match s.team team with
  | none => s
  | some t =>
    let s := s.clearCauses t.core team clears
    let s := s.updTeam team fun t =>
      { ((t.setCsr cTRAPCAUSE (BitVec.ofNat 64 (cause + 0x100 * lane))).setCsr cTRAPPC (pc.setWidth 64)).setCsr cTRAPADDR detail with
        inService := true, trapLen := len }
    let s := ts.foldl (fun s id => s.updThread id fun x => { x with sup := true }) s
    s.fileAll t.core ((t.csrv cTRAPV).setWidth 57 &&& ~~~1) ts

/-- When no thread of the team is in supervisor mode the trap has ended, and the oldest held deck is delivered (R375); one of which a thread
has been evicted is delivered when the team is restored (R57, R59). -/
def State.trapDone (s : State) (team : Nat) : State :=
  match s.team team with
  | none => s
  | some t =>
    if !t.inService || (s.threadsOf team).any fun x => x.2.sup then s
    else
      match t.heldQ with
      | [] => s.updTeam team fun t => { t with inService := false }
      | h :: r =>
        if (s.threadsOf team).any fun x => h.threads.contains x.1 && x.2.isEvicted then s
        else (s.updTeam team fun t => { t with heldQ := r }).deliver team h.threads h.pc h.lane h.cause h.detail h.len h.clears

-- The raft on the pipe in turn.

/-- The raft in turn with its team and threads, its latches as the instruction sees them. -/
structure Ctx where
  core : Nat
  p    : Nat
  pr   : Pipe
  team : Nat
  tm   : Team
  pc   : VAddr
  lns  : List Ln
  deriving DecidableEq, Repr

def gather (ths : Map Thread) (lat : Map (List Latch)) : List (Nat × Nat) → Option (List Ln)
  | [] => some []
  | (k, id) :: r =>
    match mfind id ths, gather ths lat r with
    | some t, some l => some ({ lane := k, tid := id, th := t, lat := mget [] k lat } :: l)
    | _, _ => none

/-- `alu`: an instruction that is not M-format and not of I codes 10 to 1A, the 17th of which starts a new run (R214). -/
def State.ctx (alu : Bool) (s : State) : Option Ctx :=
  match s.turn with
  | .engines => none
  | .pipe c p =>
    let pr := s.pipe c p
    match pr.raft with
    | none => none
    | some r =>
      match s.team r.team, gather s.threads (if alu && decide (16 ≤ pr.run) then [] else pr.latches) r.lanes with
      | some t, some (l :: ls) => some { core := c, p := p, pr := pr, team := r.team, tm := t.seen, pc := r.pc, lns := l :: ls }
      | _, _ => none

def Ctx.who (c : Ctx) : Who := coreWho c.core
def Ctx.die (c : Ctx) : Nat := Config.dieOf c.core
def Ctx.cluster (c : Ctx) : Nat := Config.clusterOf c.core
def Ctx.tids (c : Ctx) : List Nat := c.lns.map (·.tid)
/-- The elected thread's lane, R50. -/
def Ctx.elected (c : Ctx) : Ln := c.lns.headD { lane := 0, tid := 0, th := { team := 0, tnum := 0 }, lat := [] }
/-- The lane whose cause an instruction raises, of the lanes that meet one: the lowest (R72, R222); but a lane in supervisor mode ends the team
whatever the others meet (R368, R376), so the lowest of those comes first. -/
def Ctx.raiser (c : Ctx) (p : Ln → Bool) : Option Ln := (c.lns.find? fun l => p l && l.th.sup).or (c.lns.find? p)
/-- The lane that raises a cause which every lane meets. -/
def Ctx.whole (c : Ctx) : Ln := (c.raiser fun _ => true).getD c.elected
def maskOf (l : List Ln) : Nat := l.foldl (fun m x => m + 2 ^ x.lane) 0
def Ln.use (l : Ln) (write : Bool) : Use := { write := write, sup := l.th.sup }
def Ctx.recOf (c : Ctx) (l : Ln) (f : Fail) : Rec :=
  { kind := 0, cause := f.cause, sup := l.th.sup, write := f.write, fetch := f.fetch, rem := f.remote, core := c.core,
    tslot := c.tm.slot, asid := c.tm.asid, tnum := if l.th.inj.isSome then 0x400 else l.th.tnum,
    pc := c.pc.setWidth 64, addr := f.detail, team := c.team, lane := l.lane }

/-- A stall before issue: the instruction has had no effect (R46). -/
def State.stall (s : State) (c : Ctx) : State :=
  s.setPipe c.core c.p { c.pr with start := some (c.pr.start.getD s.now), ready := s.now + 1, fixed := false, cutAt := none }

/-- A cause that does not park, raised by lane `l` (R368): surrender violation, end, handler, or held (R375). -/
def State.raiseWith (s : State) (c : Ctx) (l : Ln) (f : Fail) (len : Nat) (clears : Option (Bool × Nat × Nat)) : State :=
  let s := s.freePipe c.core c.p
  match l.th.inj with
  | some i => (s.surrenderEnd c.team l.tid i f.cause c.pc).settle c.core
  | none =>
    if l.th.sup || f.cause = 0x61 || (c.tm.csrv cTRAPV).extractLsb' 1 56 = 0 then s.endOnFault c.team (c.recOf l f)
    else if c.tm.inService then
      let s := c.tids.foldl (fun s id => s.updThread id fun x => { x with place := .held, pc := c.pc }) s
      (s.updTeam c.team fun t =>
        { t with heldQ := t.heldQ ++ [{ threads := c.tids, pc := c.pc, lane := l.lane, cause := f.cause, detail := f.detail, len := len, clears := clears }] }).settle c.core
    else (s.deliver c.team c.tids c.pc l.lane f.cause f.detail len clears).settle c.core

def State.raise (s : State) (c : Ctx) (l : Ln) (f : Fail) (len : Nat) : State := s.raiseWith c l f len none

/-- The threads among some that are still on their raft: neither blocked nor parked nor ended by what was done. -/
def State.onRaft (s : State) (l : List Nat) : List Nat :=
  l.filter fun id => match mfind id s.threads with
    | some t => t.place == .raft
    | none => false

/-- Park some lanes on a cause of the lowest of them, the others being filed at `next` (R370, R371). A raft whose record
finds the fault queue full holds its pipe until there is room (R374). A parked deck is formed even where all 128 decks of the core are in
use, as a held deck is: the spec does not say where such a thread would go, and the choice is the model's (log 60, DESIGN CHOICE). -/
def State.park (s : State) (c : Ctx) (ps : List Ln) (f : Fail) (oks : List Ln) (next : VAddr) (len : Nat) : State :=
  match ps with
  | [] => s
  | l :: _ =>
    let r : Rec := { c.recOf l f with lanes := maskOf ps, len := len }
    let s := ps.foldl (fun s x => s.updThread x.tid fun t => { t with place := .parked, pc := c.pc }) s
    if s.roomToPost c.tm.slice then
      (((s.freePipe c.core c.p).post c.tm.slice r).fileAll c.core next (s.onRaft (oks.map (·.tid)))).settle c.core
    else
      let rest := oks.filter fun x => (s.onRaft [x.tid]).length == 1
      let s := rest.foldl (fun s x => s.updThread x.tid fun t => { t with pc := next }) s
      s.setPipe c.core c.p { raft := some { team := c.team, pc := next, lanes := rest.map fun x => (x.lane, x.tid) },
                             start := some (c.pr.start.getD s.now), ready := s.now + 1,
                             hold := some (.record c.tm.slice r), pass := c.pr.pass }

/-- A cause of the whole raft: a parking one parks every thread (R370), any other is raised by lane `l`. -/
def State.raiseOnce (s : State) (c : Ctx) (l : Ln) (f : Fail) (len : Nat) : State :=
  if f.park && !l.th.sup && l.th.inj.isNone then s.park c c.lns f [] c.pc len else s.raise c l f len

-- Issue.

/-- What an instruction asks of the checks that all share (R222, R423). -/
structure Issue where
  len   : Nat := 4
  /-- R, T, C16, or I codes 00 to 0E. -/
  alu   : Bool := false
  /-- Sources read at 32 bits and at 64, other registers read, whether the predicate file is. -/
  srcs  : List Src := []
  wide  : List Src := []
  vr    : List Nat := []
  sr    : List Nat := []
  ar    : List Nat := []
  pr    : Bool := false
  /-- Only the elected thread's operands are read. -/
  once  : Bool := false
  /-- Supervisor only (R220); not allowed to an injected thread (R113). -/
  priv  : Bool := false
  /-- A store or an atomic, as its record says (R373). -/
  write : Bool := false
  noInj : Bool := false
  deriving DecidableEq, Repr

def Issue.v (o : Issue) : List Nat := o.srcs.flatMap (Src.vregs false) ++ o.wide.flatMap (Src.vregs true) ++ o.vr
def Issue.s (o : Issue) : List Nat := o.srcs.flatMap (Src.sregs false) ++ o.wide.flatMap (Src.sregs true) ++ o.sr
def Issue.y (o : Issue) : List Nat := (o.srcs ++ o.wide).flatMap Src.latches

/-- The detail of a poisoned register, R395. -/
def regDetail (file n : Nat) : DWord := BitVec.ofNat 64 (2 ^ 63 + 0x100 * file + n)

/-- The first poisoned register that a lane reads. -/
def Issue.poisoned (o : Issue) (t : Team) (l : Ln) : Option DWord :=
  match o.v.find? fun n => l.th.psnV.contains n with
  | some n => some (regDetail 0 n)
  | none => match o.s.find? fun n => t.psnS.contains n with
    | some n => some (regDetail 1 n)
    | none => match o.ar.find? fun n => t.psnA.contains n with
      | some n => some (regDetail 2 n)
      | none => if o.pr && l.th.psnP then some (regDetail 3 0) else none

/-- A register that a load has not yet written is read (R281). (Log 56, DEDUCED.) -/
def Issue.busy (o : Issue) (l : Ln) : Bool :=
  (o.v.any fun n => l.th.busyV.contains n) || o.s.any fun n => l.th.busyS.contains n

def Issue.lanes (o : Issue) (c : Ctx) : List Ln := if o.once then c.lns.take 1 else c.lns

/-- The injected thread of a raft, with what it answers for. -/
def Ctx.injected (c : Ctx) : Option Inj := c.elected.th.inj

/-- Count an instruction of an injected thread (R113). -/
def Ctx.counted (c : Ctx) : Ctx :=
  { c with lns := c.lns.map fun l => { l with th := { l.th with inj := l.th.inj.map fun i => { i with count := i.count + 1 } } } }
def State.counted (s : State) (c : Ctx) : State :=
  match c.injected with
  | none => s
  | some _ => s.updThread c.elected.tid fun t => { t with inj := t.inj.map fun i => { i with count := i.count + 1 } }

/-- An injected thread may not issue it, or not one instruction more (R113). -/
def Issue.barred (o : Issue) (c : Ctx) : Bool :=
  match c.injected with
  | some i => o.noInj || decide ((c.tm.csrv cSURRBND).toNat ≤ i.count)
  | none => false
/-- The lowest lane in user mode at a supervisor-only instruction (R220). -/
def Issue.userLane (o : Issue) (c : Ctx) : Option Ln := if o.priv then c.lns.find? fun l => !l.th.sup else none
/-- The lane that raises a latch that is not valid: one in which a latch read is not valid (R213). -/
def Issue.badLatch (o : Issue) (c : Ctx) : Option Ln := c.raiser fun l => o.y.any fun n => decide (l.lat.length ≤ n)
/-- A register read awaits a load (R281). -/
def Issue.waits (o : Issue) (c : Ctx) : Bool := (o.lanes c).any o.busy
/-- The lane that raises a poisoned register which it reads (R395). -/
def Issue.poison (o : Issue) (c : Ctx) : Option Ln :=
  if o.once then (o.lanes c).find? fun l => (o.poisoned c.tm l).isSome else c.raiser fun l => (o.poisoned c.tm l).isSome

/-- The checks before an instruction's own causes, in the order of R222 and R423; `k` is what follows when none is met.
A stall comes before issue and has no effect (R46). (Log 52, DEDUCED.) (Log 55, DESIGN CHOICE.) -/
def State.issue (s : State) (o : Issue) (k : State → Ctx → Out) : Out :=
  match s.ctx o.alu with
  | none => .fault .noRaft
  | some c =>
    if o.barred c then .next (s.raise c c.elected { cause := 0x29 } o.len)
    else
      match o.userLane c with
      | some l => .next (s.raise c l { cause := 0x05 } o.len)
      | none =>
        match o.badLatch c with
        | some l => .next (s.raise c l { cause := 0x03, write := o.write } o.len)
        | none =>
          if o.waits c then .next (s.stall c)
          else
            match o.poison c with
            | some l => .next (s.raise c l { cause := 0x60, detail := (o.poisoned c.tm l).getD 0, write := o.write } o.len)
            | none => k (s.counted c) c.counted

/-- A pattern that no instruction has, or one of a feature that is not accepted: 0x01 comes before every other cause (R221, R222, R423,
R353). -/
def State.unassigned (s : State) (len : Nat) : Out :=
  match s.ctx false with
  | none => .fault .noRaft
  | some c => .next (s.raise c c.whole { cause := 0x01 } len)

/-- A stall found by an instruction's own checks: it has not issued, so an injected thread has not counted it. -/
def State.hold (s : State) (c : Ctx) : State :=
  match c.injected with
  | none => s.stall c
  | some _ => (s.updThread c.elected.tid fun t => { t with inj := t.inj.map fun i => { i with count := i.count - 1 } }).stall c

/-- A hold that follows issue, and that forced filing does not cut short (R46). -/
def State.holdFixed (s : State) (c : Ctx) : State :=
  let s := s.hold c
  s.setPipe c.core c.p { s.pipe c.core c.p with fixed := true }

/-- A remote access without a link ends 80,000 cycles after it began (R369, R397, R415). -/
def remoteLimit : Nat := 80000

/-- What waits for a link outside the threads (R397, R415): draws of a slice, a team's arrival at DONE, display pipelines, encoders, and the
passes of a cluster. -/
inductive Waiter where
  | draw (slice : Nat)
  | teamEnd (team : Nat)
  | fence (pipeline : Nat)
  | frame (pipeline : Nat)
  | encoder (e : Nat)
  | passStart (cl : Nat)
  | passEnd (cl : Nat)
  deriving DecidableEq, Repr

def Waiter.key : Waiter → Nat
  | .draw n => 8 * n
  | .teamEnd n => 8 * n + 1
  | .fence n => 8 * n + 2
  | .frame n => 8 * n + 3
  | .encoder n => 8 * n + 4
  | .passStart n => 8 * n + 5
  | .passEnd n => 8 * n + 6

/-- What waits for a link goes on waiting, from now on where it has not yet; none once 80,000 cycles have passed, as R369 gives a load.
(Log 28, DEDUCED.) -/
def State.linkWait (s : State) (w : Waiter) : Option Out :=
  match mfind w.key s.waits with
  | none => some (.next { s with waits := mput w.key s.now s.waits })
  | some t0 => if s.now < t0 + remoteLimit then some (.fault .notDue) else none

def State.linkDone (s : State) (w : Waiter) : State :=
  if (mfind w.key s.waits).isSome then { s with waits := mdel w.key s.waits } else s

/-- An event that becomes `t`, unless no link reaches what it accesses (`cut`): it then waits for one, and `t` is what comes of it when none
has come in time. -/
def State.orWait (s : State) (w : Waiter) (cut : Bool) (t : State) : Out := ((if cut then s.linkWait w else none)).getD (.next (t.linkDone w))

/-- Host memory at a physical address, while the CXL link is down (R415). -/
def State.physCut (s : State) (pa : Nat) : Bool := !s.hub.cxlUp && Config.hostMem pa

/-- No link carries an access of lane `l` (R369, R415): `held` is the state with the raft on its pipe; once 80,000 cycles have passed, the
cause is 0x10 with REM. (Log 28, DEDUCED.) -/
def State.cutHold (s : State) (c : Ctx) (l : Ln) (f : Fail) (len : Nat) (held : State) : State :=
  let t0 := c.pr.cutAt.getD s.now
  if t0 + remoteLimit ≤ s.now then s.raiseOnce c l f len
  else held.setPipe c.core c.p { held.pipe c.core c.p with cutAt := some t0 }

/-- The hold of an access that cannot be made yet; `cut`: the lane for which that is for want of a link, with its cause. The hold comes before
issue, so forced filing takes it (R45), but for the instructions that R46 names, whose hold follows issue: `fixed`. -/
def State.holdFor (s : State) (c : Ctx) (cut : Option (Ln × Fail)) (fixed : Bool := false) : State :=
  match cut with
  | none => s.hold c
  | some x => s.cutHold c x.1 x.2 4 (if fixed then s.holdFixed c else s.hold c)

/-- The cause of an access that no link has carried, at the address `a` (R369). -/
def cutFail (a : DWord) (write : Bool) : Fail := { cause := 0x10, detail := a, park := true, remote := true, write := write }

/-- What one lane's value is written to. -/
inductive Wr where
  | none
  | v (d : Dst) (x : Word) (tag : BitVec 4)
  | pair (d : Dst) (x : DWord) (tag : BitVec 4)
  | p (k : BitVec 3) (b : Bool)
  deriving DecidableEq, Repr

def Wr.apply (w : Wr) (t : Thread) : Thread :=
  match w with
  | .none => t
  | .v d x tag => if d.sup then t else t.setReg d.n.toNat x tag
  | .pair d x tag => if d.sup then t else t.setPair d.n.toNat x tag
  | .p k b => t.setPred k b

/-- What the latches shift in, R67 and R213. -/
def Wr.latch : Wr → Option Latch
  | .v _ x tag => some ⟨x.setWidth 64, tag⟩
  | .pair _ x tag => some ⟨x, tag⟩
  | _ => Option.none

/-- One lane's outcome: a tag outside its class with the position (0x04), the entry's own cause, exceptions, the write. -/
structure Res where
  bad  : Option Nat := none
  fail : Option Nat := none
  exc  : BitVec 7 := 0
  wr   : Wr := .none
  deriving DecidableEq, Repr

/-- New threads by identity put in place of the old. -/
def putThreads (ws : Map Thread) (m : Map Thread) : Map Thread := mmap (fun id t => (mfind id ws).getD t) m

def shiftLatch (c : Ctx) (rs : List Res) : Map (List Latch) :=
  (c.lns.zip rs).foldl (fun (m : Map (List Latch)) (x : Ln × Res) => match x.2.wr.latch with
    | some y => mput x.1.lane ((y :: x.1.lat).take 4) m
    | none => m) (if 16 ≤ c.pr.run then [] else c.pr.latches)

def runAfter (pr : Pipe) : Nat := if 16 ≤ pr.run then 1 else pr.run + 1

def orAllExc (rs : List Res) : BitVec 7 := rs.foldl (fun e r => e ||| r.exc) 0

/-- The raft goes on at `pc` after `occ` cycles from `now`. -/
def Ctx.pipeAt (c : Ctx) (now : Nat) (pc : VAddr) (occ : Nat) : Pipe :=
  { c.pr with
    raft := c.pr.raft.map fun r => { r with pc := pc }
    start := some (c.pr.start.getD now)
    ready := now + occ
    fixed := false
    tickets := []
    cutAt := none }

/-- Completion of an instruction of the R, T and C16 formats and I codes 00 to 0E: destinations, latches, FLAGS (R85, R213). -/
def State.aluDone (s : State) (c : Ctx) (len occ : Nat) (rs : List Res) : State :=
  let exc := orAllExc rs
  let s := { s with threads := putThreads ((c.lns.zip rs).map fun (x : Ln × Res) => (x.1.tid, x.2.wr.apply x.1.th)) s.threads }
  let s := if exc = 0 then s else s.updTeam c.team fun t => t.orFlags exc
  s.setPipe c.core c.p { c.pipeAt s.now (c.pc + BitVec.ofNat 57 len) occ with latches := shiftLatch c rs, run := runAfter c.pr }

/-- Of some lanes' outcomes that satisfy a test, the one that is raised: that of the lowest lane, those in supervisor mode first (R222,
R376). -/
def firstRes (f : Res → Bool) (l : List (Ln × Res)) : Option (Ln × Res) :=
  (l.find? fun x => f x.2 && x.1.th.sup).or (l.find? fun x => f x.2)

/-- The causes of an arithmetic instruction in order: 0x04, its own, 0x48 (R222, R427); else completion. -/
def State.aluEnd (s : State) (c : Ctx) (len occ : Nat) (rs : List Res) : State :=
  let z := c.lns.zip rs
  match firstRes (fun r => r.bad.isSome) z with
  | some (l, r) => s.raise c l { cause := 0x04, detail := BitVec.ofNat 64 (r.bad.getD 0) } len
  | none =>
    match firstRes (fun r => r.fail.isSome) z with
    | some (l, r) => s.raise c l { cause := r.fail.getD 0 } len
    | none =>
      match firstRes (fun r => c.tm.enabled r.exc != 0) z with
      | some (l, _) => s.raise c l { cause := 0x48, detail := (c.tm.enabled (orAllExc rs)).setWidth 64 } len
      | none => s.aluDone c len occ rs

/-- An instruction that computes a result per lane. -/
def State.alu (s : State) (o : Issue) (occ : Nat) (f : Ctx → List Res) : Out :=
  s.issue { o with alu := true } fun s c => .next (s.aluEnd c o.len occ (f c))

/-- An instruction that executes once and writes team registers (R235): `f` gives the bad position, exceptions and
what becomes of the team. -/
def State.aluOnce (s : State) (o : Issue) (f : Ctx → Ln → Option Nat × BitVec 7 × (Team → Team)) : Out :=
  s.issue { o with alu := true, once := true } fun s c =>
    let l := c.elected
    let (bad, exc, t) := f c l
    match bad with
    | some k => .next (s.raise c l { cause := 0x04, detail := BitVec.ofNat 64 k } o.len)
    | none =>
      if c.tm.enabled exc != 0 then .next (s.raise c l { cause := 0x48, detail := (c.tm.enabled exc).setWidth 64 } o.len)
      else
        let s := s.updTeam c.team fun x => if exc = 0 then t x else (t x).orFlags exc
        .next (s.setPipe c.core c.p { c.pipeAt s.now (c.pc + BitVec.ofNat 57 o.len) 1 with
          latches := if 16 ≤ c.pr.run then [] else c.pr.latches, run := runAfter c.pr })

/-- Completion of an M-format or control instruction without filing: the run ends (R214). -/
def State.goOn (s : State) (c : Ctx) (pc : VAddr) (occ : Nat) : State :=
  s.setPipe c.core c.p { c.pipeAt s.now pc occ with latches := [], run := 0 }

/-- The address after the instruction. -/
def Ctx.after (c : Ctx) (len : Nat) : VAddr := c.pc + BitVec.ofNat 57 len

/-- File the raft, each thread at its own address (R47), and free the pipe. -/
def State.fileRaft (s : State) (c : Ctx) (at_ : List (Nat × VAddr)) : State :=
  let s := s.freePipe c.core c.p
  (at_.foldl (fun s x => s.fileThread c.core x.1 x.2) s).settle c.core

/-- Block a thread on a condition, to be filed at `pc` (R56). -/
def State.block (s : State) (tid : Nat) (pc : VAddr) (w : Wake) : State :=
  s.updThread tid fun t => { t with place := .blocked w false, pc := pc }

/-- The lanes that met a cause and those that did not. -/
def splitLanes {α : Type} : List (Ln × Except Fail α) → List (Ln × Fail) × List (Ln × α)
  | [] => ([], [])
  | (l, .error f) :: r => let x := splitLanes r; ((l, f) :: x.1, x.2)
  | (l, .ok a) :: r => let x := splitLanes r; (x.1, (l, a) :: x.2)

/-- Of two lanes that meet a cause, the one that comes first: one in supervisor mode (R376), then the lower. -/
def Ln.before (x y : Ln) : Bool := (x.th.sup && !y.th.sup) || (x.th.sup == y.th.sup && decide (x.lane < y.lane))

/-- The cause that is raised of those that some lanes meet (R222, R368, R376). -/
def raiserOf (l : List (Ln × Fail)) : Option (Ln × Fail) :=
  l.foldl (fun b x => match b with
    | none => some x
    | some y => if x.1.before y.1 then some x else some y) none

/-- An access per lane after its address checks (R222, R370, R425). Every raising lane met a parking 0x10: the others complete by `some_`
and are filed, they park; else the cause of the raising lane is raised (R222, R376); no cause: `done`. `wait`: a lane must wait on the pipe before its
data is read or written (R46, R194), `cut` its cause where that is for want of a link, and `psn` is what it then finds poisoned (R395); of
lanes above one whose cause does not park none is asked. (Log 58, DEDUCED.) -/
def State.access {α : Type} (s : State) (c : Ctx) (len : Nat) (rs : List (Ln × Except Fail α)) (wait : Ln × α → Bool)
    (psn : Ln × α → Option Fail) (done : State → List (Ln × α) → Out) (some_ : State → List (Ln × α) → State)
    (cut : Ln × α → Option Fail := fun _ => none) : Out :=
  let x := splitLanes rs
  let parks := x.1.all fun y => y.2.park && !y.1.th.sup && y.1.th.inj.isNone
  let below := x.2.filter fun y => parks || x.1.all fun z => decide (y.1.lane < z.1.lane)
  if below.any wait then .next (s.holdFor c (below.findSome? fun y => (cut y).map fun f => (y.1, f)))
  else
    let bad := below.filterMap fun y => (psn y).map fun f => (y.1, f)
    match raiserOf (x.1 ++ bad) with
    | none => done s x.2
    | some (l, f) =>
      if parks && bad.isEmpty then .next ((some_ s x.2).park c (x.1.map (·.1)) f (x.2.map (·.1)) (c.after len) len)
      else .next (s.raise c l f len)

end Sys2Proof.Machine
end

