-- ==== Sys2Proof/Machine/Integer.lean ====
section
/-!
DEFINITION. Integer arithmetic, logic, shifts, compares, three-operand and immediate forms, moves, lane exchange, `getsr`, and
the integer C16 forms (R223 to R244, R211).
-/

namespace Sys2Proof.Machine

/-- A result per lane from the team and the lane alone. -/
def State.perLane (s : State) (o : Issue) (occ : Nat) (f : Team → Ln → Res) : Out :=
  s.alu o occ fun c => c.lns.map (f c.tm)

/-- E(x) of R227. -/
def ex (u : Bool) (x : Word) : Int := if u then (x.toNat : Int) else x.toInt

def loOf (u : Bool) : Int := if u then 0 else -2147483648
def hiOf (u : Bool) : Int := if u then 4294967295 else 2147483647

def anyCls (_ : BitVec 4) : Bool := true

/-- Clamping (R84): the value and whether it was clamped. -/
def clamp (u sat : Bool) (e : Int) : Int × Bool :=
  if sat && (decide (e < loOf u) || decide (hiOf u < e)) then (if e < loOf u then loOf u else hiOf u, true) else (e, false)

/-- One lane of an integer operation; `op` gives the exact result, or a cause. -/
def intLane (u sat : Bool) (op : Int → Int → Except Nat Int) (a b : Opd) (d : Dst) : Res :=
  let ops := [(a, clsInt), (b, clsInt)]
  let bad := firstBad 1 ops
  match op (ex u a.w) (ex u b.w) with
  | .error c => { bad := bad, fail := some c }
  | .ok e =>
    let x := clamp u sat e
    { bad := bad, exc := flag x.2 fSAT ||| flag (anyFi ops) fFI, wr := .v d (BitVec.ofInt 32 x.1) (if u then tU32 else tI32) }

def State.intOp (s : State) (len occ : Nat) (u sat : Bool) (op : Int → Int → Except Nat Int) (a b : Src) (d : Dst) : Out :=
  s.perLane { len := len, srcs := [a, b] } occ fun t l => intLane u sat op (src32 .int t l a) (src32 .int t l b) d

def opAdd (x y : Int) : Except Nat Int := .ok (x + y)
def opSub (x y : Int) : Except Nat Int := .ok (x - y)
def opMul (x y : Int) : Except Nat Int := .ok (x * y)
def opMulh (x y : Int) : Except Nat Int := .ok (Int.fdiv (x * y) 4294967296)
def opMin (x y : Int) : Except Nat Int := .ok (if x < y then x else y)
def opMax (x y : Int) : Except Nat Int := .ok (if y < x then x else y)
def opAbsd (x y : Int) : Except Nat Int := .ok (if x < y then y - x else x - y)
def opDiv (x y : Int) : Except Nat Int := if y = 0 then .error 0x49 else .ok (Int.tdiv x y)
def opRem (x y : Int) : Except Nat Int := if y = 0 then .error 0x49 else .ok (x - y * Int.tdiv x y)

/-- Occupancy of `div` and `rem`, R225. -/
def divOcc : Nat := 12

def execAdd (u sat : Bool) (a b : Src) (d : Dst) (s : State) : Out := s.intOp 4 1 u sat opAdd a b d
def execSub (u sat : Bool) (a b : Src) (d : Dst) (s : State) : Out := s.intOp 4 1 u sat opSub a b d
def execMul (u sat : Bool) (a b : Src) (d : Dst) (s : State) : Out := s.intOp 4 1 u sat opMul a b d
def execMulh (u : Bool) (a b : Src) (d : Dst) (s : State) : Out := s.intOp 4 1 u false opMulh a b d
def execMin (u : Bool) (a b : Src) (d : Dst) (s : State) : Out := s.intOp 4 1 u false opMin a b d
def execMax (u : Bool) (a b : Src) (d : Dst) (s : State) : Out := s.intOp 4 1 u false opMax a b d
def execAbsd (u : Bool) (a b : Src) (d : Dst) (s : State) : Out := s.intOp 4 1 u false opAbsd a b d
def execDiv (u : Bool) (a b : Src) (d : Dst) (s : State) : Out := s.intOp 4 divOcc u false opDiv a b d
def execRem (u : Bool) (a b : Src) (d : Dst) (s : State) : Out := s.intOp 4 divOcc u false opRem a b d

-- Logic, shifts and bit counts, R229.

/-- One lane of an operation of class "any" whose result takes A's tag. -/
def anyLane (op : Word → Word → Word) (a b : Opd) (d : Dst) : Res := { wr := .v d (op a.w b.w) (tagOfA a) }

def State.anyOp (s : State) (len : Nat) (op : Word → Word → Word) (a b : Src) (d : Dst) : Out :=
  s.perLane { len := len, srcs := [a, b] } 1 fun t l => anyLane op (src32 .int t l a) (src32 .int t l b) d

def invIf (inv : Bool) (x : Word) : Word := if inv then ~~~x else x
def opShl (a b : Word) : Word := if b.toNat < 32 then a <<< b.toNat else 0
def opShr (a b : Word) : Word := a >>> b.toNat
def opSar (a b : Word) : Word := a.sshiftRight b.toNat
def opRot (a b : Word) : Word := a.rotateLeft (b.toNat % 32)

/-- Leading zeros of the low `n` bits. -/
def lead (x : Nat) : Nat → Nat
  | 0 => 0
  | n + 1 => if x.testBit n then 0 else lead x n + 1
def pop (x : Nat) : Nat → Nat
  | 0 => 0
  | n + 1 => pop x n + (if x.testBit n then 1 else 0)
def opClz (a : Word) : Word := BitVec.ofNat 32 (lead a.toNat 32)
def opPopc (a : Word) : Word := BitVec.ofNat 32 (pop a.toNat 32)
def opBrev (a : Word) : Word := a.reverse

def execAnd (inv : Bool) (a b : Src) (d : Dst) (s : State) : Out := s.anyOp 4 (fun x y => invIf inv (x &&& y)) a b d
def execOr (inv : Bool) (a b : Src) (d : Dst) (s : State) : Out := s.anyOp 4 (fun x y => invIf inv (x ||| y)) a b d
def execXor (inv : Bool) (a b : Src) (d : Dst) (s : State) : Out := s.anyOp 4 (fun x y => invIf inv (x ^^^ y)) a b d
def execAndn (inv : Bool) (a b : Src) (d : Dst) (s : State) : Out := s.anyOp 4 (fun x y => invIf inv (x &&& ~~~y)) a b d
def execShl (a b : Src) (d : Dst) (s : State) : Out := s.anyOp 4 opShl a b d
def execShr (a b : Src) (d : Dst) (s : State) : Out := s.anyOp 4 opShr a b d
def execSar (a b : Src) (d : Dst) (s : State) : Out := s.anyOp 4 opSar a b d
def execRot (a b : Src) (d : Dst) (s : State) : Out := s.anyOp 4 opRot a b d

/-- A single-source operation of class "any"; `tag` gives the result's tag from A's. -/
def State.anyOne (s : State) (len : Nat) (op : Word → Word) (tag : Opd → BitVec 4) (a : Src) (d : Dst) : Out :=
  s.perLane { len := len, srcs := [a] } 1 fun t l =>
    let x := src32 .int t l a
    { wr := .v d (op x.w) (tag x) }

def execClz (a : Src) (d : Dst) (s : State) : Out := s.anyOne 4 opClz (fun _ => tI32) a d
def execPopc (a : Src) (d : Dst) (s : State) : Out := s.anyOne 4 opPopc (fun _ => tI32) a d
def execBrev (a : Src) (d : Dst) (s : State) : Out := s.anyOne 4 opBrev tagOfA a d
def execMov (a : Src) (d : Dst) (s : State) : Out := s.anyOne 4 id tagOfA a d

-- Compares and select, R230 and R231.

def cmpLane (inv u : Bool) (test : Int → Int → Bool) (a b : Opd) (p : BitVec 3) : Res :=
  let ops := [(a, clsInt), (b, clsInt)]
  { bad := firstBad 1 ops, exc := flag (anyFi ops) fFI, wr := .p p (test (ex u a.w) (ex u b.w) != inv) }

def State.cmpOp (s : State) (inv u : Bool) (test : Int → Int → Bool) (a b : Src) (p : BitVec 3) : Out :=
  s.perLane { srcs := [a, b] } 1 fun t l => cmpLane inv u test (src32 .int t l a) (src32 .int t l b) p

def testEq (x y : Int) : Bool := decide (x = y)
def testLt (x y : Int) : Bool := decide (x < y)
def testLe (x y : Int) : Bool := decide (x ≤ y)

def execCmpeq (inv : Bool) (a b : Src) (p : BitVec 3) (s : State) : Out := s.cmpOp inv false testEq a b p
def execCmplt (inv u : Bool) (a b : Src) (p : BitVec 3) (s : State) : Out := s.cmpOp inv u testLt a b p
def execCmple (inv u : Bool) (a b : Src) (p : BitVec 3) (s : State) : Out := s.cmpOp inv u testLe a b p

def execSel (p : BitVec 2) (a b : Src) (d : Dst) (s : State) : Out :=
  s.perLane { srcs := [a, b], pr := true } 1 fun t l =>
    let x := src32 .int t l a
    let y := src32 .int t l b
    { wr := .v d (if l.th.pred (0#1 ++ p) then x.w else y.w) (tagOfA x) }

-- Three operands, R232.

def execMad (a b : Src) (c d : BitVec 6) (s : State) : Out :=
  s.perLane { srcs := [a, b, .v c] } 1 fun t l =>
    let x := src32 .int t l a
    let y := src32 .int t l b
    let z := src32 .int t l (.v c)
    let ops := [(x, clsInt), (y, clsInt), (z, clsInt)]
    { bad := firstBad 1 ops, exc := flag (anyFi ops) fFI, wr := .v ⟨false, d⟩ (x.w * y.w + z.w) tI32 }

def bfiOf (a b c : Word) : Word :=
  let pos := b.toNat % 32
  let w := Nat.min (bits b.toNat 8 6) 32
  let m : Word := BitVec.ofNat 32 ((2 ^ w - 1) * 2 ^ pos)
  (c &&& ~~~m) ||| ((a <<< pos) &&& m)

def execBfi (a b : Src) (c d : BitVec 6) (s : State) : Out :=
  s.perLane { srcs := [a, b, .v c] } 1 fun t l =>
    let x := src32 .int t l a
    { wr := .v ⟨false, d⟩ (bfiOf x.w (src32 .int t l b).w (src32 .int t l (.v c)).w) (tagOfA x) }

-- Immediate forms, R233 and R234.

def immOpd (imm : BitVec 9) : Opd := ⟨(imm.signExtend 32).setWidth 64, none⟩

def execAddi (imm : BitVec 9) (a : Src) (d : Dst) (s : State) : Out :=
  s.perLane { srcs := [a] } 1 fun t l => intLane false false opAdd (src32 .int t l a) (immOpd imm) d

def State.immAny (s : State) (op : Word → Word → Word) (b : Word) (a : Src) (d : Dst) : Out :=
  s.perLane { srcs := [a] } 1 fun t l => anyLane op (src32 .int t l a) ⟨b.setWidth 64, none⟩ d

def execAndi (imm : BitVec 9) (a : Src) (d : Dst) (s : State) : Out := s.immAny (· &&& ·) (imm.signExtend 32) a d
def execOri (imm : BitVec 9) (a : Src) (d : Dst) (s : State) : Out := s.immAny (· ||| ·) (imm.signExtend 32) a d
def execXori (imm : BitVec 9) (a : Src) (d : Dst) (s : State) : Out := s.immAny (· ^^^ ·) (imm.signExtend 32) a d
def execShli (sh : BitVec 5) (a : Src) (d : Dst) (s : State) : Out := s.immAny opShl (sh.setWidth 32) a d
def execShri (sh : BitVec 5) (a : Src) (d : Dst) (s : State) : Out := s.immAny opShr (sh.setWidth 32) a d
def execSari (sh : BitVec 5) (a : Src) (d : Dst) (s : State) : Out := s.immAny opSar (sh.setWidth 32) a d

def State.immCmp (s : State) (test : Int → Int → Bool) (imm : BitVec 9) (a : Src) (p : BitVec 3) : Out :=
  s.perLane { srcs := [a] } 1 fun t l => cmpLane false false test (src32 .int t l a) (immOpd imm) p

def execCmpeqi (imm : BitVec 9) (a : Src) (p : BitVec 3) (s : State) : Out := s.immCmp testEq imm a p
def execCmplti (imm : BitVec 9) (a : Src) (p : BitVec 3) (s : State) : Out := s.immCmp testLt imm a p
def execCmplei (imm : BitVec 9) (a : Src) (p : BitVec 3) (s : State) : Out := s.immCmp testLe imm a p

def execMovi (imm : BitVec 16) (d : Dst) (s : State) : Out :=
  s.perLane {} 1 fun _ _ => { wr := .v d (imm.signExtend 32) tI32 }

/-- The upper half replaced. -/
def hiHalf (imm : BitVec 16) (x : Word) : Word := imm ++ x.extractLsb' 0 16

def execMovhi (imm : BitVec 16) (d : Dst) (s : State) : Out :=
  s.perLane { vr := [d.n.toNat] } 1 fun _ l =>
    let r := l.th.reg d.n.toNat
    { wr := .v d (hiHalf imm r.val) r.tag }

def execMovsi (imm : BitVec 16) (d : BitVec 5) (s : State) : Out :=
  s.aluOnce {} fun _ _ => (none, 0, fun t => t.setS d.toNat (imm.signExtend 32))

def execMovhsi (imm : BitVec 16) (d : BitVec 5) (s : State) : Out :=
  s.aluOnce { sr := [d.toNat] } fun c _ => (none, 0, fun t => t.setS d.toNat (hiHalf imm (c.tm.sreg d.toNat)))

-- Address arithmetic, R235.

def execAdda (b : Src) (aS aD : BitVec 4) (s : State) : Out :=
  s.aluOnce { srcs := [b], ar := [aS.toNat] } fun c l =>
    let y := src32 .int c.tm l b
    let ops := [(y, clsInt)]
    (firstBad 2 ops, flag (anyFi ops) fFI, fun t => t.setA aD.toNat (c.tm.areg aS.toNat + y.w.signExtend 64))

def execAddai (imm : BitVec 9) (aS aD : BitVec 4) (s : State) : Out :=
  s.aluOnce { ar := [aS.toNat] } fun c _ => (none, 0, fun t => t.setA aD.toNat (c.tm.areg aS.toNat + imm.signExtend 64))

-- Lane exchange, R239 to R241.

def Ctx.laneAt (c : Ctx) (k : Nat) : Option Ln := c.lns.find? fun l => l.lane == k

def execBcst (a b : Src) (d : Dst) (s : State) : Out :=
  s.alu { srcs := [a, b] } 1 fun c =>
    let k := (src32 .int c.tm c.elected b).w.toNat % 32
    c.lns.map fun _ => match c.laneAt k with
      | some l => let x := src32 .int c.tm l a; { wr := .v d x.w (tagOfA x) }
      | none => { wr := .v d 0 tNone }

def execShfl (a b : Src) (d : Dst) (s : State) : Out :=
  s.alu { srcs := [a, b] } 1 fun c =>
    c.lns.map fun l =>
      let k := (src32 .int c.tm l b).w.toNat % 32
      let x := src32 .int c.tm ((c.laneAt k).getD l) a
      { wr := .v d x.w (tagOfA x) }

def Ctx.nonzero (c : Ctx) (a : Src) (l : Ln) : Bool := (src32 .int c.tm l a).w != 0

def execVoteAny (a : Src) (p : BitVec 3) (s : State) : Out :=
  s.alu { srcs := [a] } 1 fun c => c.lns.map fun _ => { wr := .p p (c.lns.any (c.nonzero a)) }
def execVoteAll (a : Src) (p : BitVec 3) (s : State) : Out :=
  s.alu { srcs := [a] } 1 fun c => c.lns.map fun _ => { wr := .p p (c.lns.all (c.nonzero a)) }
def execVoteBallot (a : Src) (d : Dst) (s : State) : Out :=
  s.alu { srcs := [a] } 1 fun c => c.lns.map fun _ =>
    { wr := .v d (BitVec.ofNat 32 (maskOf (c.lns.filter (c.nonzero a)))) tU32 }

/-- One result byte of `prmt`. -/
def prmtByte (a : Word) (sel : BitVec 8) : BitVec 8 :=
  let y := a.extractLsb' (8 * (sel.toNat % 4)) 8
  if sel.getLsbD 7 then 0 else if sel.getLsbD 6 then (if y.getLsbD 7 then 0xFF else 0) else y

def prmtOf (a b : Word) : Word :=
  prmtByte a (b.extractLsb' 24 8) ++ prmtByte a (b.extractLsb' 16 8) ++ prmtByte a (b.extractLsb' 8 8) ++
    prmtByte a (b.extractLsb' 0 8)

def execPrmt (a b : Src) (d : Dst) (s : State) : Out := s.anyOp 4 prmtOf a b d

-- getsr, R242.

/-- Width and place of field wk in the WID, from WIDSHAPE (R35, R73). -/
def widthOf (shape : DWord) (k : Nat) : Nat := bits shape.toNat (6 * k) 6
def fieldAt (shape : DWord) : Nat → Nat
  | 0 => 0
  | k + 1 => fieldAt shape k + widthOf shape k
def widField (shape wid : DWord) (k : Nat) : Nat := bits wid.toNat (fieldAt shape k) (widthOf shape k)

def getsrVal (s : State) (c : Ctx) (l : Ln) (k : Nat) : Nat :=
  let shape := c.tm.csrv cWIDSHAPE
  if k ≤ 5 then widField shape l.th.wid k
  else if 20 ≤ k && k ≤ 25 then c.tm.ext.getD (k - 20) 0
  else match k with
    | 6 => l.th.tnum
    | 7 => c.tm.num
    | 8 => c.tm.num / 2 ^ 32
    | 9 => l.th.wid.toNat
    | 10 => l.th.wid.toNat / 2 ^ 32
    | 11 => l.lane
    | 12 => maskOf c.lns
    | 13 => c.tm.size
    | 14 => (s.threadsOf c.team).length
    | 15 => c.core
    | 16 => c.cluster
    | 17 => c.cluster / 10
    | 18 => c.tm.slot
    | 26 => bits shape.toNat 36 3 + 16 * bits shape.toNat 39 3
    | 32 => s.now
    | 33 => s.now / 2 ^ 32
    | _ => 0

def execGetsr (k : BitVec 7) (d : Dst) (s : State) : Out :=
  s.alu {} 1 fun c => c.lns.map fun l => { wr := .v d (BitVec.ofNat 32 (getsrVal s c l k.toNat)) tU32 }

-- C16 forms, R211 and R244.

def c16d (d : BitVec 6) : Dst := ⟨false, d⟩

def execAddC16 (b : Src) (d : BitVec 6) (s : State) : Out := s.intOp 2 1 false false opAdd (.v d) b (c16d d)
def execSubC16 (b : Src) (d : BitVec 6) (s : State) : Out := s.intOp 2 1 false false opSub (.v d) b (c16d d)
def execMulC16 (b : Src) (d : BitVec 6) (s : State) : Out := s.intOp 2 1 false false opMul (.v d) b (c16d d)
def execMinC16 (b : Src) (d : BitVec 6) (s : State) : Out := s.intOp 2 1 false false opMin (.v d) b (c16d d)
def execMaxC16 (b : Src) (d : BitVec 6) (s : State) : Out := s.intOp 2 1 false false opMax (.v d) b (c16d d)
def execAndC16 (b : Src) (d : BitVec 6) (s : State) : Out := s.anyOp 2 (· &&& ·) (.v d) b (c16d d)
def execOrC16 (b : Src) (d : BitVec 6) (s : State) : Out := s.anyOp 2 (· ||| ·) (.v d) b (c16d d)
def execXorC16 (b : Src) (d : BitVec 6) (s : State) : Out := s.anyOp 2 (· ^^^ ·) (.v d) b (c16d d)
def execShlC16 (b : Src) (d : BitVec 6) (s : State) : Out := s.anyOp 2 opShl (.v d) b (c16d d)
def execShrC16 (b : Src) (d : BitVec 6) (s : State) : Out := s.anyOp 2 opShr (.v d) b (c16d d)
def execSarC16 (b : Src) (d : BitVec 6) (s : State) : Out := s.anyOp 2 opSar (.v d) b (c16d d)
def execMovC16 (b : Src) (d : BitVec 6) (s : State) : Out := s.anyOne 2 id tagOfA b (c16d d)

end Sys2Proof.Machine
end

