-- ==== Sys2Proof/Machine/Float.lean ====
section
/-!
DEFINITION. Floating formats as exact values, and Round (R79 to R83): every result is computed exactly as a dyadic or a
quotient and rounded once.
-/

namespace Sys2Proof.Machine

/-- The formats of R79. -/
inductive Fmt where
  | f64 | f32 | f16 | bf16 | e5m2 | e4m3
  deriving DecidableEq, Repr

def Fmt.eb : Fmt → Nat
  | .f64 => 11 | .f32 => 8 | .f16 => 5 | .bf16 => 8 | .e5m2 => 5 | .e4m3 => 4
def Fmt.fb : Fmt → Nat
  | .f64 => 52 | .f32 => 23 | .f16 => 10 | .bf16 => 7 | .e5m2 => 2 | .e4m3 => 3
/-- The canonical NaN, R81. -/
def Fmt.nan : Fmt → Nat
  | .f64 => 0x7FF8000000000000 | .f32 => 0x7FC00000 | .f16 => 0x7E00 | .bf16 => 0x7FC0 | .e5m2 => 0x7E | .e4m3 => 0x7F
/-- The code of the largest finite magnitude. -/
def Fmt.maxCode : Fmt → Nat
  | .f64 => 0x7FEFFFFFFFFFFFFF | .f32 => 0x7F7FFFFF | .f16 => 0x7BFF | .bf16 => 0x7F7F | .e5m2 => 0x7B | .e4m3 => 0x7E
/-- The code of infinity; E4M3 has none. -/
def Fmt.infCode (f : Fmt) : Nat := f.maxCode + 1
def Fmt.bias (f : Fmt) : Nat := 2 ^ (f.eb - 1) - 1
def Fmt.emin (f : Fmt) : Int := 1 - (f.bias : Int)
def Fmt.signBit (f : Fmt) : Nat := 2 ^ (f.eb + f.fb)
/-- Formats that FTZ acts on (R82). -/
def Fmt.narrow : Fmt → Bool
  | .f64 => false | .f32 => false | _ => true
def Fmt.tag : Fmt → BitVec 4
  | .f64 => tF64 | .f32 => tF32 | .f16 => tF16 | .bf16 => tBF16 | .e5m2 => tE5M2 | .e4m3 => tE4M3
def Fmt.col : Fmt → Col
  | .f64 => .f64 | .f32 => .f32 | .f16 => .f16 | .bf16 => .bf16 | .e5m2 => .f32 | .e4m3 => .f32

/-- A floating value: NaN (signalling or not), infinity, or (-1)^neg * m * 2^e. -/
inductive FVal where
  | nan (sig : Bool)
  | inf (neg : Bool)
  | fin (neg : Bool) (m : Nat) (e : Int)
  deriving DecidableEq, Repr

def FVal.isNan : FVal → Bool
  | .nan _ => true | _ => false
def FVal.isSig : FVal → Bool
  | .nan s => s | _ => false
def FVal.isInf : FVal → Bool
  | .inf _ => true | _ => false
def FVal.isZero : FVal → Bool
  | .fin _ m _ => m == 0 | _ => false
def FVal.neg : FVal → Bool
  | .nan _ => false | .inf s => s | .fin s _ _ => s
def FVal.negate : FVal → FVal
  | .nan s => .nan s | .inf s => .inf (!s) | .fin s m e => .fin (!s) m e

/-- The value of some bits in a format (R79, R81). -/
def Fmt.decode (f : Fmt) (x : Nat) : FVal :=
  let neg := x.testBit (f.eb + f.fb)
  let ex := bits x f.fb f.eb
  let fr := bits x 0 f.fb
  let top := ex == 2 ^ f.eb - 1
  if f = .e4m3 && top && fr == 7 then .nan false
  else if f != .e4m3 && top then (if fr = 0 then .inf neg else .nan (!fr.testBit (f.fb - 1)))
  else if ex = 0 then .fin neg fr (f.emin - f.fb)
  else .fin neg (2 ^ f.fb + fr) ((ex : Int) - f.bias - f.fb)

/-- A quotient n / d * 2^sh rounded to an integer by a mode; the second component tells whether it is inexact. -/
def roundInt (mode : Rm) (neg : Bool) (n d : Nat) (sh : Int) : Nat × Bool :=
  let n' := if 0 ≤ sh then n * 2 ^ sh.toNat else n
  let d' := if 0 ≤ sh then d else d * 2 ^ (-sh).toNat
  let q := n' / d'
  let r := n' % d'
  let up := match mode with
    | .rne => decide (d' < 2 * r) || (decide (d' = 2 * r) && q % 2 == 1)
    | .rz => false
    | .ru => !neg && r != 0
    | .rd => neg && r != 0
  (if up then q + 1 else q, r != 0)

/-- The exponent of the leading bit of n / d * 2^e, n and d not 0. -/
def leadExp (n d : Nat) (e : Int) : Int :=
  let k : Int := (Nat.log2 n : Int) - Nat.log2 d
  let ge := if 0 ≤ k then decide (d * 2 ^ k.toNat ≤ n) else decide (d ≤ n * 2 ^ (-k).toNat)
  (if ge then k else k - 1) + e

/-- A result: its bits and flags. -/
structure FRes where
  bits : Nat
  exc  : BitVec 7 := 0
  deriving DecidableEq, Repr

def Fmt.signed (f : Fmt) (neg : Bool) (code : Nat) : Nat := code + if neg then f.signBit else 0

/-- Overflow (R82 step 3, R83). -/
def Fmt.tooBig (f : Fmt) (mode : Rm) (neg : Bool) : FRes :=
  if f = .e4m3 then { bits := f.signed neg f.maxCode, exc := fOF ||| fNX ||| fSAT }
  else
    let inf := match mode with
      | .rne => true | .rz => false | .ru => !neg | .rd => neg
    { bits := f.signed neg (if inf then f.infCode else f.maxCode), exc := fOF ||| fNX }

/-- Round of a non-zero n / d * 2^e with a sign (R82 steps 2 to 4). -/
def Fmt.round (f : Fmt) (mode : Rm) (ftz neg : Bool) (n d : Nat) (e : Int) : FRes :=
  let lead := leadExp n d e
  let (k, ix) := roundInt mode neg n d (e - (lead - f.fb))
  let carry := k == 2 ^ (f.fb + 1)
  let ex := if carry then lead + 1 else lead
  if ex < f.emin then
    let (k2, ix2) := roundInt mode neg n d (e - (f.emin - f.fb))
    if ftz && f.narrow && decide (0 < k2) && decide (k2 < 2 ^ f.fb) then { bits := f.signed neg 0, exc := fUF ||| fNX }
    else { bits := f.signed neg k2, exc := flag ix2 (fUF ||| fNX) }
  else
    let code := (ex + f.bias).toNat * 2 ^ f.fb + ((if carry then 2 ^ f.fb else k) - 2 ^ f.fb)
    if f.maxCode < code then f.tooBig mode neg else { bits := f.signed neg code, exc := flag ix fNX }

/-- Round of a value that is no zero sum: a zero keeps its sign. An infinity in E4M3 is invalid (R83). -/
def Fmt.ofVal (f : Fmt) (mode : Rm) (ftz : Bool) (v : FVal) : FRes :=
  match v with
  | .nan s => { bits := f.nan, exc := flag s fIV }
  | .inf s => if f = .e4m3 then { bits := f.nan, exc := fIV } else { bits := f.signed s f.infCode }
  | .fin s m e => if m = 0 then { bits := f.signed s 0 } else f.round mode ftz s m 1 e

-- Exact sums and products.

def FVal.mul : FVal → FVal → FVal
  | .nan a, b => .nan (a || b.isSig)
  | a, .nan b => .nan (a.isSig || b)
  | .inf a, b => if b.isZero then .nan false else .inf (a != b.neg)
  | .fin a m _, .inf b => if m = 0 then .nan false else .inf (a != b)
  | .fin a m e, .fin b n g => .fin (a != b) (m * n) (e + g)

/-- A product of zero and infinity. -/
def mulInvalid (a b : FVal) : Bool := (a.isInf && b.isZero) || (a.isZero && b.isInf)

def minExp : List FVal → Int → Int
  | [], k => k
  | .fin _ _ e :: r, k => minExp r (if e < k then e else k)
  | _ :: r, k => minExp r k

/-- The exact sum of the finite terms, in units of 2^k. -/
def sumAt (k : Int) : List FVal → Int
  | [] => 0
  | .fin s m e :: r => (if s then -((m * 2 ^ (e - k).toNat : Nat) : Int) else ((m * 2 ^ (e - k).toNat : Nat) : Int)) + sumAt k r
  | _ :: r => sumAt k r

/-- Infinities of both signs among some terms. -/
def sumInvalid (l : List FVal) : Bool := (l.any fun v => v.isInf && v.neg) && l.any fun v => v.isInf && !v.neg

/-- Round of an exact sum of terms; `iv` tells that an operand was signalling or a product invalid. The sign of a zero sum
follows R255. -/
def Fmt.sum (f : Fmt) (mode : Rm) (ftz iv : Bool) (l : List FVal) : FRes :=
  let bad := iv || sumInvalid l
  if bad || l.any FVal.isNan then { bits := f.nan, exc := flag bad fIV }
  else match l.find? FVal.isInf with
    | some v => f.ofVal mode ftz v
    | none =>
      let k := minExp l 0
      let t := sumAt k l
      if t = 0 then
        if l.all fun v => v.isZero && !v.neg then { bits := 0 }
        else if l.all fun v => v.isZero && v.neg then { bits := f.signBit }
        else { bits := f.signed (mode = .rd) 0 }
      else f.round mode ftz (decide (t < 0)) t.natAbs 1 k

def anySig (l : List FVal) : Bool := l.any FVal.isSig

def Fmt.add (f : Fmt) (mode : Rm) (ftz : Bool) (a b : FVal) : FRes := f.sum mode ftz (anySig [a, b]) [a, b]
def Fmt.sub (f : Fmt) (mode : Rm) (ftz : Bool) (a b : FVal) : FRes := f.sum mode ftz (anySig [a, b]) [a, b.negate]
def Fmt.mul (f : Fmt) (mode : Rm) (ftz : Bool) (a b : FVal) : FRes :=
  if mulInvalid a b || anySig [a, b] then { bits := f.nan, exc := fIV } else f.ofVal mode ftz (a.mul b)

/-- A sum of products and an addend, rounded once (R259). -/
def Fmt.dot (f : Fmt) (mode : Rm) (ftz : Bool) (ps : List (FVal × FVal)) (c : FVal) : FRes :=
  let iv := (ps.any fun p => mulInvalid p.1 p.2 || anySig [p.1, p.2]) || c.isSig
  f.sum mode ftz iv ((ps.map fun p => p.1.mul p.2) ++ [c])

-- Order.

/-- Finite and infinite values compared: a < b. -/
def FVal.lt (a b : FVal) : Bool :=
  match a, b with
  | .nan _, _ => false
  | _, .nan _ => false
  | .inf s, .inf t => s && !t
  | .inf s, .fin _ _ _ => s
  | .fin _ _ _, .inf t => !t
  | .fin s m e, .fin t n g =>
    let k := if e < g then e else g
    decide (sumAt k [.fin s m e] < sumAt k [.fin t n g])

def FVal.eq (a b : FVal) : Bool := !a.isNan && !b.isNan && !a.lt b && !b.lt a
def FVal.le (a b : FVal) : Bool := a.lt b || a.eq b

/-- MinNum and MaxNum, R257: the chosen operand's bits. -/
def Fmt.pick (f : Fmt) (max : Bool) (x y : Nat) : FRes :=
  let a := f.decode x
  let b := f.decode y
  let exc := flag (anySig [a, b]) fIV
  let r :=
    if a.isNan && b.isNan then f.nan
    else if a.isNan then y
    else if b.isNan then x
    else if a.isZero && b.isZero then (if max then (if a.neg then y else x) else (if a.neg then x else y))
    else if (if max then a.lt b else b.lt a) then y else x
  { bits := r, exc := exc }

-- Square root.

/-- The floor of a square root: bits tried from 2^b down. -/
def isqrtGo (n : Nat) : Nat → Nat → Nat
  | 0, r => r
  | b + 1, r => let t := r + 2 ^ b; if t * t ≤ n then isqrtGo n b t else isqrtGo n b r

def isqrt (n : Nat) : Nat := isqrtGo n (Nat.log2 n / 2 + 1) 0

/-- Round of the square root of m * 2^e: the root is taken to more bits than the format has, a half unit standing for what
lies beyond them. -/
def Fmt.sqrt (f : Fmt) (mode : Rm) (m : Nat) (e : Int) : FRes :=
  let e' := if e % 2 = 0 then e - 128 else e - 129
  let n := m * 2 ^ (e - e').toNat
  let r := isqrt n
  if r * r = n then f.round mode false false r 1 (e' / 2) else f.round mode false false (2 * r + 1) 1 (e' / 2 - 1)

/-- Value to integer by a mode, R266 and R267: sign and magnitude, and whether it differs. -/
def FVal.toInt (mode : Rm) (neg : Bool) (m : Nat) (e : Int) : Int × Bool :=
  let (k, ix) := roundInt mode neg m 1 e
  (if neg then -(k : Int) else k, ix)

end Sys2Proof.Machine
end

