-- ==== Sys2Proof/Machine/Trans.lean ====
section
/-!
DEFINITION. `frsq`, `fex2`, `flg2`, `fsin`, `fcos` (R262 to R264). Which result within its bound each returns is left open: it is
a free value of Config where that lies within the bound, else the correctly rounded one, so every result meets the bound (log 1).
The true value is enclosed in an interval at scale 2^-256.
-/

namespace Sys2Proof.Machine

def fxBits : Nat := 256
def fxOne : Int := 2 ^ fxBits

/-- x * 2^k rounded down. -/
def fxShift (x : Int) (k : Int) : Int := if 0 ≤ k then x * 2 ^ k.toNat else Int.fdiv x (2 ^ (-k).toNat)

/-- A finite F32 at scale 2^-256, exact. -/
def fxOf (v : FVal) : Option Int :=
  match v with
  | .fin s m e => some ((if s then -1 else 1) * fxShift m (e + fxBits))
  | _ => none

/-- An F32 near a number at scale 2^-256, to nearest even. -/
def fxRound (x : Int) : Nat := if x = 0 then 0 else (Fmt.f32.round .rne false (decide (x < 0)) x.natAbs 1 (-(fxBits : Int))).bits

/-- One unit in the last place of F32 at a number's magnitude. -/
def fxUlp (x : Int) : Int :=
  let e : Int := (Nat.log2 x.natAbs : Int) - 23
  if e < 256 - 149 then 2 ^ (256 - 149) else 2 ^ e.toNat

/-- The free candidate where it lies within `tol` of [lo, hi] and satisfies `ok`, else the reference. -/
def within (cand : Word) (lo hi tol : Int) (ok : Int → Bool) : Nat :=
  match fxOf (Fmt.f32.decode cand.toNat) with
  | some c => if decide (lo - tol ≤ c) && decide (c ≤ hi + tol) && ok c then cand.toNat else fxRound lo
  | none => fxRound lo

def inexact (b : Nat) : FRes := { bits := b, exc := fNX }
def f32Nan : FRes := { bits := Fmt.f32.nan, exc := fIV }
def f32Inf (neg : Bool) (f : BitVec 7) : FRes := { bits := Fmt.f32.signed neg Fmt.f32.infCode, exc := f }

def frsqFin (x : Word) (m : Nat) (e : Int) : FRes :=
  -- 1 / sqrt(m * 2^e), e made even.
  let (m, e) := if e % 2 = 0 then (m, e) else (2 * m, e - 1)
  let q := 2 ^ 600 / m
  let r := isqrt q
  let lo := fxShift r (-(e / 2) - 300 + fxBits)
  if 2 ^ 600 % m = 0 && r * r = q then { bits := fxRound lo }
  else inexact (within (Config.frsqBits x) lo (lo + 1) (fxUlp lo - 1) fun _ => true)

/-- `frsq`, R262 to R264. -/
def frsqOf (x : Word) : FRes :=
  match Fmt.f32.decode x.toNat with
  | .nan s => { bits := Fmt.f32.nan, exc := flag s fIV }
  | .inf s => if s then f32Nan else { bits := 0 }
  | .fin s m e => if m = 0 then f32Inf s fDZ else if s then f32Nan else frsqFin x m e

/-- ln 2 and pi at scale 2^-100 and 2^-400. -/
def ln2At100 : Nat := 0xb17217f7d1cf79abc9e3b3980
def piAt400 : Nat := 0x3243f6a8885a308d313198a2e03707344a4093822299f31d0082efa98ec4e6c89452821e638d01377be5466cf34e90c6cc0ac

/-- Terms t^k / k! at scale 2^-100 from the k-th on. -/
def expSum (t : Nat) : Nat → Nat → Nat → Nat
  | 0, _, _ => 0
  | n + 1, k, term => term + expSum t n (k + 1) (term * t / 2 ^ 100 / k)

def fex2Fin (x : Word) (s : Bool) (m : Nat) (e : Int) : FRes :=
  let a := fxShift (if s then -(m : Int) else m) (e + fxBits)
  let n := Int.fdiv a fxOne
  let f := (a - n * fxOne).toNat
  if 128 ≤ n then f32Inf false (fOF ||| fNX)
  else if n < -149 then { bits := if n = -150 && f != 0 then 1 else 0, exc := fUF ||| fNX }
  else if f = 0 then { bits := fxRound (fxShift 1 (n + fxBits)) }
  else
    let t := f / 2 ^ 156 * ln2At100 / 2 ^ 100
    let v := expSum t 40 1 (2 ^ 100)
    -- 2^a lies strictly between 2^n and 2^(n+1), and its ulp is that of this binade.
    let one := fxShift 1 (n + fxBits)
    let lo := max one (fxShift (v - 64 : Int) (n - 100 + fxBits))
    let hi := min (2 * one) (fxShift (v + 64 : Int) (n - 100 + fxBits))
    let tol := 2 * fxUlp one
    inexact (within (Config.fex2Bits x) lo hi tol fun c => decide (lo - tol < c) && decide (c < hi + tol))

def fex2Of (x : Word) : FRes :=
  match Fmt.f32.decode x.toNat with
  | .nan s => { bits := Fmt.f32.nan, exc := flag s fIV }
  | .inf s => if s then { bits := 0 } else f32Inf false 0
  | .fin s m e => if m = 0 then { bits := 0x3F800000 } else fex2Fin x s m e

/-- 2 * (z + z^3/3 + ...) at scale 2^-100, `z2` the square of z. -/
def atanhSum (z2 : Nat) : Nat → Nat → Nat → Nat
  | 0, _, _ => 0
  | n + 1, k, zk => 2 * zk / k + atanhSum z2 n (k + 2) (zk * z2 / 2 ^ 100)

def flg2Fin (x : Word) (m : Nat) (e : Int) : FRes :=
  let l := Nat.log2 m
  let ex := e + l
  if m = 2 ^ l then { bits := fxRound (fxShift ex fxBits) }
  else
    let z := (m - 2 ^ l) * 2 ^ 100 / (m + 2 ^ l)
    let ln := atanhSum (z * z / 2 ^ 100) 60 1 z
    let v : Int := ex * 2 ^ 100 + (ln * 2 ^ 100 / ln2At100 : Nat)
    let lo := fxShift (v - 1024) (fxBits - 100)
    let hi := fxShift (v + 1024) (fxBits - 100)
    let tol : Int := if ex = 0 || ex = -1 then 2 ^ (fxBits - 22) else 2 * fxUlp lo
    inexact (within (Config.flg2Bits x) lo hi tol fun _ => true)

def flg2Of (x : Word) : FRes :=
  match Fmt.f32.decode x.toNat with
  | .nan s => { bits := Fmt.f32.nan, exc := flag s fIV }
  | .inf s => if s then f32Nan else f32Inf false 0
  | .fin s m e => if m = 0 then f32Inf true fDZ else if s then f32Nan else flg2Fin x m e

/-- Alternating terms t^k / k! at scale 2^-256, two powers a step. -/
def trigSum (t2 : Int) : Nat → Nat → Int → Int
  | 0, _, _ => 0
  | n + 1, k, term => term + trigSum t2 n (k + 2) (-(term * t2 / fxOne / ((k + 1) * (k + 2) : Nat)))

/-- The argument reduced exactly modulo 2 pi, at scale 2^-256. -/
def reduced (m : Nat) (e : Int) : Int :=
  fxShift ((fxShift m (e + 400)).toNat % (2 * piAt400) : Nat) (fxBits - 400)

def inUnit (c : Int) : Bool := decide (-fxOne ≤ c) && decide (c ≤ fxOne)

def trigFin (cand : Word) (v : Int) : FRes := inexact (within cand (v - 2 ^ 40) (v + 2 ^ 40) (2 ^ (fxBits - 21)) inUnit)

def fsinOf (x : Word) : FRes :=
  match Fmt.f32.decode x.toNat with
  | .nan s => { bits := Fmt.f32.nan, exc := flag s fIV }
  | .inf _ => f32Nan
  | .fin s m e =>
    if m = 0 then { bits := x.toNat }
    else
      let r := reduced m e
      let v := trigSum (r * r / fxOne) 60 1 r
      trigFin (Config.fsinBits x) (if s then -v else v)

def fcosOf (x : Word) : FRes :=
  match Fmt.f32.decode x.toNat with
  | .nan s => { bits := Fmt.f32.nan, exc := flag s fIV }
  | .inf _ => f32Nan
  | .fin _ m e =>
    if m = 0 then { bits := 0x3F800000 }
    else
      let r := reduced m e
      trigFin (Config.fcosBits x) (trigSum (r * r / fxOne) 60 0 fxOne)

-- Correctly rounded functions.

/-- 1 / a, R262 and R263. -/
def Fmt.rcp (f : Fmt) (mode : Rm) (x : Nat) : FRes :=
  match f.decode x with
  | .nan s => { bits := f.nan, exc := flag s fIV }
  | .inf s => { bits := f.signed s 0 }
  | .fin s m e => if m = 0 then { bits := f.signed s f.infCode, exc := fDZ } else f.round mode false s 1 m (-e)

def Fmt.sqrtOf (f : Fmt) (mode : Rm) (x : Nat) : FRes :=
  match f.decode x with
  | .nan s => { bits := f.nan, exc := flag s fIV }
  | .inf s => if s then { bits := f.nan, exc := fIV } else { bits := x }
  | .fin s m e => if m = 0 then { bits := x } else if s then { bits := f.nan, exc := fIV } else f.sqrt mode m e

end Sys2Proof.Machine
end

