-- ==== Sys2Proof/Machine/FloatIns.lean ====
section
/-!
DEFINITION. The floating-point instructions of the R, T and C16 formats (R252 to R264, R272, R210).
-/

namespace Sys2Proof.Machine

/-- Tags of operands, in order, with the class each is checked against. -/
def checks (cls : BitVec 4 → Bool) (os : List Opd) : List (Opd × (BitVec 4 → Bool)) := os.map fun o => (o, cls)

def resOf (ops : List (Opd × (BitVec 4 → Bool))) (exc : BitVec 7) (w : Wr) : Res :=
  { bad := firstBad 1 ops, exc := exc ||| flag (anyFi ops) fFI, wr := w }

/-- A 32-bit result of a format. -/
def wr32 (d : Dst) (f : Fmt) (x : Nat) : Wr := .v d (BitVec.ofNat 32 x) f.tag
def wr64 (d : Dst) (x : Nat) : Wr := .pair d (BitVec.ofNat 64 x) tF64

def cF32 : BitVec 4 → Bool := clsIs tF32
def cF64 : BitVec 4 → Bool := clsIs tF64

-- F32.

def State.f2 (s : State) (len : Nat) (op : Team → Nat → Nat → FRes) (a b : Src) (d : Dst) : Out :=
  s.perLane { len := len, srcs := [a, b] } 1 fun t l =>
    let x := src32 .f32 t l a
    let y := src32 .f32 t l b
    let r := op t x.w.toNat y.w.toNat
    resOf (checks cF32 [x, y]) r.exc (wr32 d .f32 r.bits)

def fop (f : Fmt) (op : Fmt → Rm → Bool → FVal → FVal → FRes) (mode : Rm) (t : Team) (x y : Nat) : FRes :=
  op f mode t.ftz (f.decode x) (f.decode y)

def execFadd (rm : Rm) (a b : Src) (d : Dst) (s : State) : Out := s.f2 4 (fop .f32 Fmt.add rm) a b d
def execFsub (rm : Rm) (a b : Src) (d : Dst) (s : State) : Out := s.f2 4 (fop .f32 Fmt.sub rm) a b d
def execFmul (rm : Rm) (a b : Src) (d : Dst) (s : State) : Out := s.f2 4 (fop .f32 Fmt.mul rm) a b d
def execFmin (a b : Src) (d : Dst) (s : State) : Out := s.f2 4 (fun _ => Fmt.f32.pick false) a b d
def execFmax (a b : Src) (d : Dst) (s : State) : Out := s.f2 4 (fun _ => Fmt.f32.pick true) a b d

def execFaddC16 (b : Src) (d : BitVec 6) (s : State) : Out := s.f2 2 (fun t => fop .f32 Fmt.add t.rm t) (.v d) b (c16d d)
def execFsubC16 (b : Src) (d : BitVec 6) (s : State) : Out := s.f2 2 (fun t => fop .f32 Fmt.sub t.rm t) (.v d) b (c16d d)
def execFmulC16 (b : Src) (d : BitVec 6) (s : State) : Out := s.f2 2 (fun t => fop .f32 Fmt.mul t.rm t) (.v d) b (c16d d)
def execFmaxC16 (b : Src) (d : BitVec 6) (s : State) : Out := s.f2 2 (fun _ => Fmt.f32.pick true) (.v d) b (c16d d)

-- F64: operands of 64 bits, two cycles (R254).

def State.d2 (s : State) (op : Team → Nat → Nat → FRes) (a b : Src) (d : Dst) : Out :=
  s.perLane { wide := [a, b] } 2 fun t l =>
    let x := src64 .f64 t l a
    let y := src64 .f64 t l b
    let r := op t x.val.toNat y.val.toNat
    resOf (checks cF64 [x, y]) r.exc (wr64 d r.bits)

def execDadd (rm : Rm) (a b : Src) (d : Dst) (s : State) : Out := s.d2 (fop .f64 Fmt.add rm) a b d
def execDsub (rm : Rm) (a b : Src) (d : Dst) (s : State) : Out := s.d2 (fop .f64 Fmt.sub rm) a b d
def execDmul (rm : Rm) (a b : Src) (d : Dst) (s : State) : Out := s.d2 (fop .f64 Fmt.mul rm) a b d
def execDmin (a b : Src) (d : Dst) (s : State) : Out := s.d2 (fun _ => Fmt.f64.pick false) a b d
def execDmax (a b : Src) (d : Dst) (s : State) : Out := s.d2 (fun _ => Fmt.f64.pick true) a b d

-- Packed 16-bit forms.

/-- The format that the operands fix, R210. -/
def packedFmt : List Opd → Fmt
  | [] => .bf16
  | o :: r => match o.tag with
    | none => packedFmt r
    | some t => if t = tNone then packedFmt r else if t = tF16 then .f16 else .bf16

/-- Element `j` of 16 bits. -/
def half (x j : Nat) : Nat := bits x (16 * j) 16

/-- Two elements, each computed alone. -/
def pack2 (op : Nat → FRes) : FRes :=
  let r0 := op 0
  let r1 := op 1
  { bits := r0.bits + 0x10000 * r1.bits, exc := r0.exc ||| r1.exc }

def State.h2 (s : State) (op : Fmt → Team → Nat → Nat → FRes) (a b : Src) (d : Dst) : Out :=
  s.perLane { srcs := [a, b] } 1 fun t l =>
    let f := packedFmt [src32 .bf16 t l a, src32 .bf16 t l b]
    let x := src32 f.col t l a
    let y := src32 f.col t l b
    let r := pack2 fun j => op f t (half x.w.toNat j) (half y.w.toNat j)
    resOf (checks (clsIs f.tag) [x, y]) r.exc (wr32 d f r.bits)

def execHadd2 (rm : Rm) (a b : Src) (d : Dst) (s : State) : Out := s.h2 (fun f => fop f Fmt.add rm) a b d
def execHmul2 (rm : Rm) (a b : Src) (d : Dst) (s : State) : Out := s.h2 (fun f => fop f Fmt.mul rm) a b d
def execHmax2 (a b : Src) (d : Dst) (s : State) : Out := s.h2 (fun f _ => f.pick true) a b d

-- Fused and dot-product forms, R258 and R259.

def fma (f : Fmt) (t : Team) (x y z : Nat) : FRes := f.dot t.rm t.ftz [(f.decode x, f.decode y)] (f.decode z)

def execFfma (a b : Src) (c d : BitVec 6) (s : State) : Out :=
  s.perLane { srcs := [a, b, .v c] } 1 fun t l =>
    let x := src32 .f32 t l a
    let y := src32 .f32 t l b
    let z := src32 .f32 t l (.v c)
    let r := fma .f32 t x.w.toNat y.w.toNat z.w.toNat
    resOf (checks cF32 [x, y, z]) r.exc (wr32 (c16d d) .f32 r.bits)

def execDfma (a b : Src) (c d : BitVec 6) (s : State) : Out :=
  s.perLane { wide := [a, b, .v c] } 2 fun t l =>
    let x := src64 .f64 t l a
    let y := src64 .f64 t l b
    let z := src64 .f64 t l (.v c)
    let r := fma .f64 t x.val.toNat y.val.toNat z.val.toNat
    resOf (checks cF64 [x, y, z]) r.exc (wr64 (c16d d) r.bits)

def execHfma2 (a b : Src) (c d : BitVec 6) (s : State) : Out :=
  s.perLane { srcs := [a, b, .v c] } 1 fun t l =>
    let f := packedFmt [src32 .bf16 t l a, src32 .bf16 t l b, src32 .bf16 t l (.v c)]
    let x := src32 f.col t l a
    let y := src32 f.col t l b
    let z := src32 f.col t l (.v c)
    let r := pack2 fun j => fma f t (half x.w.toNat j) (half y.w.toNat j) (half z.w.toNat j)
    resOf (checks (clsIs f.tag) [x, y, z]) r.exc (wr32 (c16d d) f r.bits)

/-- Byte `j` as a signed number. -/
def sbyte (x : Word) (j : Nat) : Int := (x.extractLsb' (8 * j) 8).toInt

def dot4Of (a b c : Word) : Word :=
  BitVec.ofInt 32 (sbyte a 0 * sbyte b 0 + sbyte a 1 * sbyte b 1 + sbyte a 2 * sbyte b 2 + sbyte a 3 * sbyte b 3) + c

def execDot4 (a b : Src) (c d : BitVec 6) (s : State) : Out :=
  s.perLane { srcs := [a, b, .v c] } 1 fun t l =>
    let x := src32 .int t l a
    let y := src32 .int t l b
    let z := src32 .int t l (.v c)
    resOf [(x, clsIs tI8), (y, clsIs tI8), (z, clsInt)] 0 (.v (c16d d) (dot4Of x.w y.w z.w) tI32)

def execDot2h (a b : Src) (c d : BitVec 6) (s : State) : Out :=
  s.perLane { srcs := [a, b, .v c] } 1 fun t l =>
    let f := packedFmt [src32 .bf16 t l a, src32 .bf16 t l b]
    let x := src32 f.col t l a
    let y := src32 f.col t l b
    let z := src32 .f32 t l (.v c)
    let e (o : Opd) (j : Nat) : FVal := f.decode (half o.w.toNat j)
    let r := Fmt.f32.dot t.rm t.ftz [(e x 0, e y 0), (e x 1, e y 1)] (Fmt.f32.decode z.w.toNat)
    resOf (checks (clsIs f.tag) [x, y] ++ [(z, cF32)]) r.exc (wr32 (c16d d) .f32 r.bits)

-- Compares and classification, R260 and R261.

def fcmp (test : FVal → FVal → Bool) (anyNan : Bool) (a b : FVal) : Bool × BitVec 7 :=
  (test a b, flag (if anyNan then a.isNan || b.isNan else anySig [a, b]) fIV)

def State.fcmpOp (s : State) (test : FVal → FVal → Bool) (anyNan : Bool) (a b : Src) (p : BitVec 3) : Out :=
  s.perLane { srcs := [a, b] } 1 fun t l =>
    let x := src32 .f32 t l a
    let y := src32 .f32 t l b
    let r := fcmp test anyNan (Fmt.f32.decode x.w.toNat) (Fmt.f32.decode y.w.toNat)
    resOf (checks cF32 [x, y]) r.2 (.p p r.1)

def execFcmpeq (a b : Src) (p : BitVec 3) (s : State) : Out := s.fcmpOp FVal.eq false a b p
def execFcmplt (a b : Src) (p : BitVec 3) (s : State) : Out := s.fcmpOp FVal.lt true a b p
def execFcmple (a b : Src) (p : BitVec 3) (s : State) : Out := s.fcmpOp FVal.le true a b p

def dcmpTest : DCmp → FVal → FVal → Bool
  | .eq => FVal.eq | .lt => FVal.lt | .le => FVal.le | .un => fun a b => a.isNan || b.isNan
def dcmpAnyNan : DCmp → Bool
  | .eq => false | .lt => true | .le => true | .un => false

def execDcmp (k : DCmp) (a b : Src) (p : BitVec 3) (s : State) : Out :=
  s.perLane { wide := [a, b] } 2 fun t l =>
    let x := src64 .f64 t l a
    let y := src64 .f64 t l b
    let r := fcmp (dcmpTest k) (dcmpAnyNan k) (Fmt.f64.decode x.val.toNat) (Fmt.f64.decode y.val.toNat)
    resOf (checks cF64 [x, y]) r.2 (.p p r.1)

/-- The class bit of a value, R261. -/
def classBit (x : Nat) : Nat :=
  match Fmt.f32.decode x with
  | .nan s => if s then 8 else 9
  | .inf s => if s then 0 else 7
  | .fin s m _ => if m = 0 then (if s then 3 else 4) else if m < 2 ^ 23 then (if s then 2 else 5) else (if s then 1 else 6)

def execFclass (a : Src) (d : Dst) (s : State) : Out :=
  s.perLane { srcs := [a] } 1 fun t l =>
    let x := src32 .f32 t l a
    resOf (checks cF32 [x]) 0 (.v d (BitVec.ofNat 32 (2 ^ classBit x.w.toNat)) tU32)

-- Single-source functions, R262; four cycles, `drcp` eight.

def State.f1 (s : State) (op : Word → FRes) (a : Src) (d : Dst) : Out :=
  s.perLane { srcs := [a] } 4 fun t l =>
    let x := src32 .f32 t l a
    let r := op x.w
    resOf (checks cF32 [x]) r.exc (wr32 d .f32 r.bits)

def execFrcp (rm : Rm) (a : Src) (d : Dst) (s : State) : Out := s.f1 (fun x => Fmt.f32.rcp rm x.toNat) a d
def execFsqrt (rm : Rm) (a : Src) (d : Dst) (s : State) : Out := s.f1 (fun x => Fmt.f32.sqrtOf rm x.toNat) a d
def execFrsq (a : Src) (d : Dst) (s : State) : Out := s.f1 frsqOf a d
def execFex2 (a : Src) (d : Dst) (s : State) : Out := s.f1 fex2Of a d
def execFlg2 (a : Src) (d : Dst) (s : State) : Out := s.f1 flg2Of a d
def execFsin (a : Src) (d : Dst) (s : State) : Out := s.f1 fsinOf a d
def execFcos (a : Src) (d : Dst) (s : State) : Out := s.f1 fcosOf a d

def execDrcp (rm : Rm) (a : Src) (d : Dst) (s : State) : Out :=
  s.perLane { wide := [a] } 8 fun t l =>
    let x := src64 .f64 t l a
    let r := Fmt.f64.rcp rm x.val.toNat
    resOf (checks cF64 [x]) r.exc (wr64 d r.bits)

end Sys2Proof.Machine
end

