-- ==== Sys2Proof/Machine/Convert.lean ====
section
/-!
DEFINITION. Conversions (`cvt`, R265 to R267), `ftag` (R268), and N4P groups with `qnt4` and `dqnt4` (R87 to R89, R269 to R271).
-/

namespace Sys2Proof.Machine

/-- The format in which a source of `cvt` is read, none for integers and I8. -/
def cvtFmt (k : Nat) : Option Fmt :=
  if k ≤ 0x01 || k = 0x08 || k = 0x0A || k = 0x14 || k = 0x15 || k = 0x2C || k = 0x2D then some .f32
  else if k = 0x04 || k = 0x05 || k = 0x09 || k = 0x0B then some .f64
  else if k = 0x10 || k = 0x11 || k = 0x16 then some .bf16
  else if k = 0x12 || k = 0x13 || k = 0x17 then some .f16
  else if 0x20 ≤ k && k ≤ 0x23 then some .e4m3
  else if 0x24 ≤ k && k ≤ 0x27 then some .e5m2
  else none

def cvtCls (k : Nat) : BitVec 4 → Bool :=
  match cvtFmt k with
  | some f => clsIs f.tag
  | none => if 0x28 ≤ k && k ≤ 0x2B then clsIs tI8 else clsInt

/-- The column of an inline constant, R206: E4M3 and E5M2 take the integer one. -/
def cvtCol (k : Nat) : Col :=
  match cvtFmt k with
  | some .f32 => .f32 | some .f64 => .f64 | some .bf16 => .bf16 | some .f16 => .f16 | _ => .int

/-- The format of a floating target. -/
def cvtTo (k : Nat) : Fmt :=
  if k = 0x06 || k = 0x07 || k = 0x08 || k = 0x0B then .f64
  else if k = 0x14 || k = 0x17 then .bf16
  else if k = 0x15 || k = 0x16 then .f16
  else if k = 0x2C then .e4m3
  else if k = 0x2D then .e5m2
  else .f32

def cvtTag (k : Nat) : BitVec 4 :=
  if k = 0x00 || k = 0x04 || (0x28 ≤ k && k ≤ 0x2B) then tI32
  else if k = 0x01 || k = 0x05 then tU32
  else if k = 0x2E then tI8
  else (cvtTo k).tag

def cvtIsPair (k : Nat) : Bool := k == 0x06 || k == 0x07 || k == 0x08 || k == 0x0B
def cvtIsWide (k : Nat) : Bool := k == 0x04 || k == 0x05 || k == 0x09 || k == 0x0B
def cvtRegs (k : Nat) : Nat := if k = 0x14 || k = 0x15 then 2 else if 0x2C ≤ k && k ≤ 0x2E then 4 else 1

/-- To I32 or U32, R267. -/
def toInt32 (mode : Rm) (u : Bool) (v : FVal) : FRes :=
  let lo := loOf u
  let hi := hiOf u
  let put (x : Int) (f : BitVec 7) : FRes := { bits := (BitVec.ofInt 32 x).toNat, exc := f }
  match v with
  | .nan _ => put 0 fIV
  | .inf s => put (if s then lo else hi) fIV
  | .fin s m e =>
    let (x, ix) := FVal.toInt mode s m e
    if x < lo then put lo fIV else if hi < x then put hi fIV else put x (flag ix fNX)

/-- Rounded to an integral value of the same format, without NX (R266). -/
def Fmt.integral (f : Fmt) (mode : Rm) (v : FVal) : FRes :=
  match v with
  | .fin s m e =>
    let (k, _) := roundInt mode s m 1 e
    { bits := (f.ofVal mode false (.fin s k 0)).bits }
  | v => f.ofVal mode false v

def intVal (x : Int) : FVal := .fin (decide (x < 0)) x.natAbs 0

/-- Elements of `w` bits packed, lowest first. -/
def packAll (w : Nat) : List FRes → FRes
  | [] => { bits := 0 }
  | r :: l => let t := packAll w l; { bits := r.bits + 2 ^ w * t.bits, exc := r.exc ||| t.exc }

def satByte (x : Word) : FRes :=
  let v := x.toInt
  let c : Int := if v < -128 then -128 else if 127 < v then 127 else v
  { bits := (BitVec.ofInt 8 c).toNat, exc := flag (c != v) fSAT }

/-- The result of `cvt` from the bits of its source registers (R266). -/
def cvtOf (k : Nat) (mode : Rm) (ftz : Bool) (xs : List DWord) : FRes :=
  let x := xs.headD 0
  let w : Word := x.setWidth 32
  let val : FVal := match cvtFmt k with
    | some f => f.decode x.toNat
    | none => .nan false
  if k = 0x00 || k = 0x04 then toInt32 mode false val
  else if k = 0x01 || k = 0x05 then toInt32 mode true val
  else if k = 0x02 || k = 0x06 then (cvtTo k).ofVal mode ftz (intVal w.toInt)
  else if k = 0x03 || k = 0x07 then (cvtTo k).ofVal mode ftz (intVal (w.toNat : Int))
  else if k = 0x08 || k = 0x09 then (cvtTo k).ofVal mode ftz val
  else if k = 0x0A || k = 0x0B then (cvtTo k).integral mode val
  else if k = 0x10 || k = 0x11 then Fmt.f32.ofVal mode false (Fmt.bf16.decode (half x.toNat (k % 2)))
  else if k = 0x12 || k = 0x13 then Fmt.f32.ofVal mode false (Fmt.f16.decode (half x.toNat (k % 2)))
  else if k = 0x14 || k = 0x15 then packAll 16 (xs.map fun y => (cvtTo k).ofVal mode ftz (Fmt.f32.decode y.toNat))
  else if k = 0x16 then pack2 fun j => Fmt.f16.ofVal mode ftz (Fmt.bf16.decode (half x.toNat j))
  else if k = 0x17 then pack2 fun j => Fmt.bf16.ofVal mode ftz (Fmt.f16.decode (half x.toNat j))
  else if k ≤ 0x23 then Fmt.f32.ofVal mode false (Fmt.e4m3.decode (bits x.toNat (8 * (k % 4)) 8))
  else if k ≤ 0x27 then Fmt.f32.ofVal mode false (Fmt.e5m2.decode (bits x.toNat (8 * (k % 4)) 8))
  else if k ≤ 0x2B then { bits := (BitVec.ofInt 32 (sbyte w (k % 4))).toNat }
  else if k = 0x2E then packAll 8 (xs.map fun y => satByte (y.setWidth 32))
  else packAll 8 (xs.map fun y => (cvtTo k).ofVal mode ftz (Fmt.f32.decode y.toNat))

/-- The source registers of a packing code: `a` names the first. -/
def groupSrcs (n : Nat) : Src → List Src
  | .v r => (List.range n).map fun j => .v (r + BitVec.ofNat 6 j)
  | a => [a]

def execCvt (rm : Rm) (k : BitVec 7) (a : Src) (d : Dst) (s : State) : Out :=
  let n := k.toNat
  let srcs := groupSrcs (cvtRegs n) a
  let o : Issue := if cvtIsWide n then { wide := [a] } else { srcs := srcs }
  s.perLane o (if cvtIsWide n || cvtIsPair n then 2 else 1) fun t l =>
    let xs := if cvtIsWide n then [src64 (cvtCol n) t l a] else srcs.map (src32 (cvtCol n) t l)
    let r := cvtOf n rm t.ftz (xs.map (·.val))
    { bad := if (firstBad 1 (checks (cvtCls n) xs)).isSome then some 1 else none
      exc := r.exc ||| flag (anyFi (checks (cvtCls n) xs)) fFI
      wr := if cvtIsPair n then wr64 d r.bits else .v d (BitVec.ofNat 32 r.bits) (cvtTag n) }

/-- `ftag`, R268: a 64-bit operand is read as R252 reads one. -/
def execFtag (k : BitVec 7) (a : Src) (d : Dst) (s : State) : Out :=
  let tag := k.setWidth 4
  if tag = tF64 || tag = tKEY then
    s.perLane { wide := [a] } 1 fun t l => { wr := .pair d (src64 .f64 t l a).val tag }
  else s.perLane { srcs := [a] } 1 fun t l => { wr := .v d (src32 .int t l a).w tag }

-- N4P.

/-- The class of the scale operand, R269. -/
def clsScale (t : BitVec 4) : Bool := t == tF32 || t == tBF16

/-- The BF16 bits of the scale, from the elected thread's operand; a rounding of one flushes a subnormal result where RMODE.FTZ is set
(R82, R253). -/
def scaleBits (ftz : Bool) (o : Opd) : Nat :=
  if o.tag = some tBF16 || o.tag = some tNone then o.w.toNat % 0x10000
  else (Fmt.bf16.ofVal .rne ftz (Fmt.f32.decode o.w.toNat)).bits

/-- The value of a 4-bit two's complement code. -/
def codeVal (c : Nat) : FVal := intVal (BitVec.ofNat 4 c).toInt

/-- O(h), R88, which calls O(1000) both zero and the value of the E4M3 byte 0x80: it is +0 here, of the sign of the scale once scaled
(log 9, DESIGN CHOICE). -/
def outlierVal (h : Nat) : FVal :=
  if h % 8 = 0 then .fin false 0 0 else .fin (decide (8 ≤ h)) 1 (2 * (h % 8 : Nat) - 7)

/-- A pair of codes read with the outlier rule (R88); none is the lost partner, whose value is 0 whatever the scale. -/
def pairVals (c d : Nat) : Option FVal × Option FVal :=
  if c = 8 then (some (outlierVal d), none)
  else if d = 8 then (none, some (outlierVal c))
  else (some (codeVal c), some (codeVal d))

/-- A code's value times the scale; the scale's NaN makes it NaN. -/
def scaled (sg : FVal) : Option FVal → FVal
  | some v => v.mul sg
  | none => if sg.isNan then sg else .fin false 0 0

/-- How an element is coded before pairing: a code in range, or the sign and magnitude m / d * 2^e of one out of range. -/
inductive Coded where
  | inRange (c : Nat)
  | out (neg : Bool) (mag : Option (Nat × Nat × Int))
  deriving DecidableEq, Repr

/-- v rounds to nearest even; up to 7 it is a code (R89). -/
def codeOf (x : FVal) (m2 : Nat) (e2 : Int) : Coded :=
  match x with
  | .nan _ => .inRange 0
  | .inf s => .out s none
  | .fin s m e =>
    let (r, _) := roundInt .rne s m m2 (e - e2)
    if r ≤ 7 then .inRange (if s then (16 - r) % 16 else r) else .out s (some (m, m2, e - e2))

/-- |v| < n, and |v| > n, for a magnitude; none is infinite. -/
def magLt (v : Option (Nat × Nat × Int)) (n : Nat) : Bool :=
  match v with
  | none => false
  | some (m, d, e) => if 0 ≤ e then decide (m * 2 ^ e.toNat < n * d) else decide (m < n * d * 2 ^ (-e).toNat)
def magGt (v : Option (Nat × Nat × Int)) (n : Nat) : Bool :=
  match v with
  | none => true
  | some (m, d, e) => if 0 ≤ e then decide (n * d < m * 2 ^ e.toNat) else decide (n * d * 2 ^ (-e).toNat < m)

/-- The first magnitude is smaller than the second (both have the scale's divisor). -/
def magLess (a b : Option (Nat × Nat × Int)) : Bool :=
  match a, b with
  | none, _ => false
  | some _, none => true
  | some (m, _, e), some (n, _, g) => (FVal.fin false m e).lt (.fin false n g)

def outCode (neg : Bool) (v : Option (Nat × Nat × Int)) : Nat :=
  (if neg then 8 else 0) + if magLt v 16 then 5 else if magLt v 64 then 6 else 7

/-- The two codes of a pair, and whether its outlier passes 128 (R89). -/
def pairCodes : Coded → Coded → (Nat × Nat) × Bool
  | .inRange c, .inRange d => ((c, d), false)
  | .out s v, .inRange _ => ((8, outCode s v), magGt v 128)
  | .inRange _, .out s v => ((outCode s v, 8), magGt v 128)
  | .out s v, .out t w => if magLess v w then ((outCode t w, 8), magGt w 128) else ((8, outCode s v), magGt v 128)

/-- One lane's pair for `qnt4`: codes and flags. NX compares values, so -0.0, whose code reads back as +0.0, sets none: R270 does not say whether
they differ (log 81, DESIGN CHOICE). -/
def qntPair (sg : FVal) (x0 x1 : FVal) : (Nat × Nat) × BitVec 7 :=
  match sg with
  | .fin _ m e =>
    let r := pairCodes (codeOf x0 m e) (codeOf x1 m e)
    let v := pairVals r.1.1 r.1.2
    let off := !(scaled sg v.1).eq x0 || !(scaled sg v.2).eq x1
    (r.1, flag (x0.isNan || x1.isNan) fIV ||| flag r.2 fSAT ||| flag off fNX)
  | _ => ((0, 0), fIV)

/-- Bits b of some codes as a number, element 0 lowest. -/
def planeOf (b : Nat) : List Nat → Nat
  | [] => 0
  | c :: r => (if c.testBit b then 1 else 0) + 2 * planeOf b r

def goodScale : FVal → Bool
  | .fin s m _ => !s && m != 0
  | _ => false

def execQnt4 (b : Src) (a : BitVec 6) (d : Dst) (s : State) : Out :=
  s.alu { srcs := [.v a, .v (a + 1), b] } 2 fun c =>
    let sg := Fmt.bf16.decode (scaleBits c.tm.ftz (src32 .f32 c.tm c.elected b))
    let good := goodScale sg
    let x (k j : Nat) : FVal := match c.laneAt k with
      | some l => Fmt.f32.decode (l.th.reg (a.toNat + j)).val.toNat
      | none => .fin false 0 0
    let ps : List ((Nat × Nat) × BitVec 7) := (List.range 32).map fun k => qntPair sg (x k 0) (x k 1)
    let codes := if good then ps.flatMap fun p => [p.1.1, p.1.2] else []
    let exc := if good then ps.foldl (fun f p => f ||| p.2) 0 else fIV
    c.lns.map fun l =>
      let os := [src32 .f32 c.tm l (.v a), src32 .f32 c.tm l (.v (a + 1))]
      let cs := checks cF32 os
      let y := [(src32 .f32 c.tm l b, clsScale)]
      let w := if l.lane < 8 then planeOf (l.lane / 2) codes / 2 ^ (32 * (l.lane % 2)) else 0
      { bad := if (firstBad 1 cs).isSome then some 1 else firstBad 2 y
        exc := exc ||| flag (anyFi cs || anyFi y) fFI
        wr := .v d (BitVec.ofNat 32 w) tN4P }

/-- The code of element e from the planes. -/
def codeAt (plane : Nat → Nat) (e : Nat) : Nat :=
  (if (plane 0).testBit e then 1 else 0) + (if (plane 1).testBit e then 2 else 0) +
  (if (plane 2).testBit e then 4 else 0) + (if (plane 3).testBit e then 8 else 0)

/-- One element decoded: its value in F32, infinity times zero being invalid (R271). (Log 9, DEDUCED.) -/
def decodeElem (sg : FVal) (v : Option FVal) : FRes :=
  let iv := sg.isSig || (match v with
    | some x => mulInvalid x sg
    | none => false)
  if iv then { bits := Fmt.f32.nan, exc := fIV } else Fmt.f32.ofVal .rne false (scaled sg v)

def execDqnt4 (a b : Src) (d : Dst) (s : State) : Out :=
  s.alu { srcs := [a, b] } 2 fun c =>
    let sg := Fmt.bf16.decode (scaleBits c.tm.ftz (src32 .f32 c.tm c.elected b))
    let word (k : Nat) : Nat := match c.laneAt k with
      | some l => (src32 .int c.tm l a).w.toNat
      | none => 0
    let plane (k : Nat) : Nat := word (2 * k) + 2 ^ 32 * word (2 * k + 1)
    c.lns.map fun l =>
      let v := pairVals (codeAt plane (2 * l.lane)) (codeAt plane (2 * l.lane + 1))
      let r0 := decodeElem sg v.1
      let r1 := decodeElem sg v.2
      let ops := [(src32 .int c.tm l a, clsIs tN4P), (src32 .f32 c.tm l b, clsScale)]
      resOf ops (r0.exc ||| r1.exc) (.pair d (BitVec.ofNat 64 (r0.bits + 2 ^ 32 * r1.bits)) tF32)

end Sys2Proof.Machine
end

