-- ==== Sys2Proof/Machine/Access.lean ====
section
/-!
DEFINITION. Addresses and places of accesses (R93, R276, R277, R385, R106), the footprint checker (R194), and ranges over pages.
-/

namespace Sys2Proof.Machine

/-- EA(i) of R276. -/
def eaOf (base : DWord) (o : Word) : VAddr := base.setWidth 57 + o.signExtend 57

/-- The 32-bit offset of R93. -/
def offOf (base : DWord) (o : Word) : Nat := (base.setWidth 32 + o).toNat

-- Handles, R94.

def hndOf (base : DWord) : Nat := (base.extractLsb' 32 32).toNat
def pinnedHandle : Nat := 0x40000000
def leaseHandle (idx gen : Nat) : Nat := idx * 0x10000 + gen
def bufHandle (b : Buf) : Nat :=
  0x80000000 + b.core % 8 * 0x10000000 + b.first * 0x400000 + (b.count - 1) * 0x10000 + b.gen

/-- An outcome bars what it gives up from the cycle after its `surr` or `unlease` (R112, R114). -/
def GiveUp.bars (g : GiveUp) (now : Nat) : Bool := decide (g.since < now)

/-- Tiles that a lease's handle reaches for an access that issues now. -/
def Lease.reach (l : Lease) (now : Nat) : List Nat :=
  match l.giveUp with
  | some g => if g.bars now then l.tiles.take g.keep else l.tiles
  | none => l.tiles

/-- A lease that a team holds by handle, with its index. -/
def State.heldLease (s : State) (cl team h : Nat) : Option (Nat × Lease) :=
  (s.cluster cl).leases.find? fun x => leaseHandle x.1 x.2.gen == h && x.2.team == some team &&
    (match x.2.giveUp with
     | some g => g.keep != 0 || !g.bars s.now
     | none => true)

/-- The state as an access that was issued or registered in cycle `t` finds its leases: an outcome bars those from the cycle after its own
(R112). -/
def State.asIssued (s : State) (t : Nat) : State := { s with now := t }

def State.bufBy (s : State) (cl h : Nat) : Option Buf := (s.cluster cl).bufs.find? fun b => bufHandle b == h

/-- A granule of a core's scratchpad that its team has transferred out (R95). -/
def State.transferred (s : State) (cl core team g : Nat) : Bool :=
  (s.cluster cl).bufs.any fun b => b.core == core && b.orig == team && b.holder != team && inRange b.first b.count g

/-- A place in the landing through a handle: 0x2B where it is not held or the offset lies beyond (R106, R112). -/
def State.landAt (s : State) (cl team : Nat) (t : Team) (h off : Nat) (write : Bool) : Except Fail Loc :=
  let tiles (i : Nat) (ts : List Nat) : Except Fail Loc :=
    match ts[off / 0x10000]? with
    | some k => .ok (.land (landKey cl k (off % 0x10000)) (landUnit cl i) off)
    | none => .error { cause := 0x2B, write := write }
  if h = pinnedHandle then tiles (pinnedLease team) t.pinned
  else match s.heldLease cl team h with
    | none => .error { cause := 0x2B, write := write }
    | some (i, l) => if l.dead then .ok (.void (landUnit cl i) off) else tiles i (l.reach s.now)

/-- A place in scratchpad or landing: own form or handle form, with the checks of R428 after alignment. `team` runs on
`core`. -/
def State.localAt (s : State) (core team : Nat) (t : Team) (hnd : Bool) (base : DWord) (off n : Nat) (write : Bool) :
    Except Fail Loc :=
  let cl := Config.clusterOf core
  if !hnd then
    let det : DWord := BitVec.ofNat 64 off
    if s.transferred cl core team (t.spad0 + off / 0x1000) then .error { cause := 0x13, detail := det, write := write }
    else if t.spadN * 0x1000 < off + n then .error { cause := 0x14, detail := det, write := write }
    else .ok (.spad (spadKey core (t.spad0 * 0x1000 + off)))
  else
    let h := hndOf base
    let det : DWord := BitVec.ofNat 64 (h * 2 ^ 32 + off)
    if h.testBit 31 then
      match s.bufBy cl h with
      | none => .error { cause := 0x13, detail := det, write := write }
      | some b =>
        if b.holder != team then .error { cause := 0x13, detail := det, write := write }
        else if b.count * 0x1000 < off + n then .error { cause := 0x14, detail := det, write := write }
        else .ok (.spad (spadKey b.core (b.first * 0x1000 + off)))
    else s.landAt cl team t h off write

/-- The same with the alignment check first. -/
def State.local (s : State) (core team : Nat) (t : Team) (hnd : Bool) (base : DWord) (off n : Nat) (write : Bool) : Except Fail Loc :=
  if n != 0 && off % n != 0 then .error { cause := 0x06, write := write } else s.localAt core team t hnd base off n write

/-- The range a local place covers, for the checker. -/
def Loc.rng (l : Loc) (n : Nat) (write : Bool) : List Rng :=
  match l with
  | .spad k => [{ space := 1, unit := k / 0x40000, lo := k % 0x40000, n := n, write := write }]
  | .land _ u off => [{ space := 2, unit := u, lo := off, n := n, write := write }]
  | .void u off => [{ space := 2, unit := u, lo := off, n := n, write := write }]
  | .mem _ _ => []

def gRng (asid va n : Nat) (write : Bool) : Rng := { space := 0, unit := asid, lo := va, n := n, write := write }

-- The checker, R194.

def Rng.meets (x y : Rng) : Bool :=
  x.space == y.space && x.unit == y.unit && decide (x.lo < y.lo + y.n) && decide (y.lo < x.lo + x.n)

def Rng.conflicts (x y : Rng) : Bool := (x.write || y.write) && x.meets y

/-- What a matrix command still holds: its reads to the end of its run, the rest until it completes (R174). -/
def MCmd.foot (m : MCmd) : List Rng := (if m.ran then [] else m.reads) ++ m.cfoot

/-- Cores of a cluster. -/
def coresOf (cl : Nat) : List Nat := (List.range Config.coresPerCluster).map (cl * Config.coresPerCluster + ·)

/-- Registered footprints of a cluster's jobs, matrix commands and ray rounds, each with its place in the order. -/
def State.registered (s : State) (cl : Nat) : List (Nat × List Rng) :=
  (s.jobs.filter fun j => j.2.cluster == cl).map (fun j => (j.1, j.2.foot)) ++
  (coresOf cl).flatMap (fun k => (s.core k).mq.map fun m => (m.id, m.foot)) ++
  ((s.cluster cl).tickets.filter fun t => t.2.active).map fun t => (t.2.order, t.2.foot)

def checkerLimit : Nat := 256

/-- Jobs registered with a cluster's checker: a card and its follow-on are one. -/
def State.entries (s : State) (cl : Nat) : Nat :=
  (s.jobs.filter fun j => j.2.cluster == cl).length +
  ((coresOf cl).flatMap fun k => (s.core k).mq.filter fun m => m.card.isNone).length +
  ((s.cluster cl).tickets.filter fun t => t.2.active).length

/-- The checker is full, R411. -/
def State.checkerFull (s : State) (cl : Nat) : Bool := decide (checkerLimit ≤ s.entries cl)

/-- Some registered footprint conflicts with an access. (Log 54, DEDUCED.) -/
def State.conflict (s : State) (cl : Nat) (rs : List Rng) : Bool :=
  (s.registered cl).any fun f => f.2.any fun x => rs.any fun y => x.conflicts y

/-- Some footprint registered before `id` conflicts with `rs`. -/
def State.conflictBefore (s : State) (cl id : Nat) (rs : List Rng) : Bool :=
  (s.registered cl).any fun f => decide (f.1 < id) && f.2.any fun x => rs.any fun y => x.conflicts y

-- Ranges of global memory.

structure Piece where
  loc : Loc
  tlb : Tlb
  va  : Nat
  n   : Nat
  deriving DecidableEq, Repr

/-- Check every page of [va, va+n), R428 without alignment; the first that fails gives the cause. -/
def State.pages (s : State) (w : Who) (asid : Nat) (base : DWord) (u : Use) (noMt : List Nat) :
    List (Nat × Nat) → Except Fail (List Piece)
  | [] => .ok []
  | (va, n) :: r =>
    match s.global w asid base (BitVec.ofNat 57 va) 1 u noMt with
    | .error f => .error f
    | .ok g =>
      match s.pages w asid base u noMt r with
      | .error f => .error f
      | .ok l => .ok ({ loc := g.loc, tlb := g.tlb, va := va, n := n } :: l)

def State.range (s : State) (w : Who) (asid : Nat) (base : DWord) (va n : Nat) (u : Use) (noMt : List Nat) :
    Except Fail (List Piece) := s.pages w asid base u noMt (pieces va n (n / 0x1000 + 2))

def State.touchAll (s : State) (w : Who) (ps : List Piece) (write : Bool) : State := ps.foldl (fun s p => s.touch w p.tlb write) s
def State.readPieces (s : State) (d : Nat) (ps : List Piece) : List Byte := ps.flatMap fun p => s.readAt d p.loc p.n
def State.poisonIn (s : State) (ps : List Piece) : Option Nat := (ps.find? fun p => s.poisonAt p.loc p.n).map (·.va)

def State.writePieces (s : State) (d : Nat) (b : By) : List Piece → List Byte → State
  | [], _ => s
  | p :: r, bs => (s.storeAt d p.loc (bs.take p.n) { b with va := p.va }).writePieces d b r (bs.drop p.n)

/-- Bytes of a range at their homes, and a write there that the issuer's die sees at once. -/
def State.homePieces (s : State) (ps : List Piece) : List Byte := ps.flatMap fun p => s.readHome p.loc p.n
def State.putPieces (s : State) (d : Nat) : List Piece → List Byte → State
  | [], _ => s
  | p :: r, bs => (s.storeHome d p.loc (bs.take p.n)).putPieces d r (bs.drop p.n)

/-- The place `o` bytes further. -/
def Loc.plus (l : Loc) (o : Nat) : Loc :=
  match l with
  | .mem pa mt => .mem (pa + o) mt
  | .spad k => .spad (k + o)
  | .land k u off => .land (k + o) u (off + o)
  | .void u off => .void u (off + o)

/-- The part of a range of `n` bytes from offset `o`. -/
def subPieces : List Piece → Nat → Nat → List Piece
  | [], _, _ => []
  | p :: r, o, n =>
    if n = 0 then []
    else if p.n ≤ o then subPieces r (o - p.n) n
    else
      let k := Nat.min n (p.n - o)
      { p with loc := p.loc.plus o, va := p.va + o, n := k } :: subPieces r 0 (n - k)

-- Objects and blocks in a space, R277.

/-- Where an object or block of `n` bytes lies, aligned to `al`, with the checks its space makes (R428, R429). A landing object
of a reclaimed loose lease is 0x2B (R387). (Log 12, DEDUCED.) -/
def State.object (s : State) (core team : Nat) (t : Team) (sup : Bool) (r : Ref) (n al : Nat) (write : Bool) (noMt : List Nat) :
    Except Fail (Loc × Option Tlb) :=
  match r.space with
  | .glob =>
    match s.global (coreWho core) t.asid r.a (r.a.setWidth 57) al { write := write, sup := sup } noMt with
    | .error f => .error f
    | .ok g => .ok (g.loc, some g.tlb)
  | .spad =>
    let off := (r.a.setWidth 32).toNat
    if off % al != 0 then .error { cause := 0x06, write := write }
    else match s.localAt core team t false r.a off n write with
      | .error f => .error f
      | .ok l => .ok (l, none)
  | .hnd =>
    let off := (r.a.setWidth 32).toNat
    if off % al != 0 then .error { cause := 0x06, write := write }
    else match s.localAt core team t true r.a off n write with
      | .error _ => .error { cause := 0x2B, write := write }
      | .ok (.void _ _) => .error { cause := 0x2B, write := write }
      | .ok l => .ok (l, none)

/-- The footprint of an object or block (R275). -/
def Ref.rngs (r : Ref) (asid : Nat) (l : Loc) (n : Nat) (write : Bool) : List Rng :=
  match r.space with
  | .glob => [gRng asid (r.a.toNat % 2 ^ 57) n write]
  | _ => l.rng n write

/-- The address of an object or block as TRAPADDR names it (R72, R385, R395), with zeros above a 57-bit one (log 63, DESIGN CHOICE). -/
def Ref.detail (r : Ref) : DWord :=
  match r.space with
  | .glob => (r.a.setWidth 57).setWidth 64
  | .spad => (r.a.setWidth 32).setWidth 64
  | .hnd => r.a

/-- Poison where an object lies: 0x60 with its address. -/
def State.objectRead (s : State) (core team : Nat) (t : Team) (sup : Bool) (r : Ref) (n al : Nat) (write : Bool) (noMt : List Nat) :
    Except Fail (Loc × Option Tlb) :=
  match s.object core team t sup r n al write noMt with
  | .error f => .error f
  | .ok x => if s.poisonAt x.1 n then .error { cause := 0x60, detail := r.detail, write := write } else .ok x

def State.touchOpt (s : State) (w : Who) (t : Option Tlb) (write : Bool) : State :=
  match t with
  | some t => s.touch w t write
  | none => s

/-- Some link carries an access to another package (R345, R416). -/
def State.linkUp (s : State) : Bool := (List.range 18).any fun k => (mget {} k s.hub.ports).up

def isRemote (l : Loc) : Bool := l.mt == 3

/-- No access to a place gets through: another package without a link (R369, R416), host memory while the CXL link is down (R415).
(Log 28, DEDUCED.) -/
def State.cutOff (s : State) (l : Loc) : Bool := (isRemote l && !s.linkUp) || (l.mt == 2 && !s.hub.cxlUp)

/-- The cause that cutting off gives an access once it has lasted (R369). -/
def State.cutOf (s : State) (l : Loc) (a : DWord) (write : Bool) : Option Fail := if s.cutOff l then some (cutFail a write) else none
def State.cutIn (s : State) (ps : List Piece) (write : Bool) : Option Fail :=
  (ps.find? fun p => s.cutOff p.loc).map fun p => cutFail (BitVec.ofNat 64 p.va) write
/-- It is lane `l`'s. -/
def Ln.cut (l : Ln) (f : Option Fail) : Option (Ln × Fail) := f.map fun f => (l, f)

/-- The same of a physical address that an access was waiting at. -/
def State.cutPa (s : State) (pa : Nat) : Bool := if remoteBase ≤ pa then !s.linkUp else !s.hub.cxlUp

/-- A read of a place cannot be made yet: no link to it, or a store has locked its replicas (R193, R200). -/
def State.shut (s : State) (l : Loc) : Bool := s.cutOff l || s.lockedAt l

/-- A 32-bit word at a place, as die `d` sees it (R191). -/
def State.wordAt (s : State) (d : Nat) (l : Loc) (off : Nat) : Nat := leNat ((s.readAt d l (off + 4)).drop off)

end Sys2Proof.Machine
end

