-- ==== Sys2Proof/Machine/LoadStore.lean ====
section
/-!
DEFINITION. Loads and stores of global memory, scratchpad and landing, BMV streams, acquire and release, fences, prefetch and
the tag table (R274 to R286, R290, R282, R283).
-/

namespace Sys2Proof.Machine

/-- The tag a load gives, R75. -/
def memTag : MemTy → BitVec 4
  | .z8 => tU32 | .z16 => tU32 | .s8 => tI32 | .s16 => tI32 | .i32 => tI32 | .f32 => tF32 | .f64 => tF64
  | .bf16x2 => tBF16 | .f16x2 => tF16 | .e4m3x4 => tE4M3 | .e5m2x4 => tE5M2 | .i8x4 => tI8 | .n4p => tN4P
  | .key64 => tKEY | .b128 => tNone | .b32 => tNone

/-- A loaded value of up to four bytes, extended (R278). -/
def memExtend (t : MemTy) (m : Nat) : Word :=
  match t with
  | .s8 => (BitVec.ofNat 8 m).signExtend 32
  | .s16 => (BitVec.ofNat 16 m).signExtend 32
  | _ => BitVec.ofNat 32 m

/-- The words a load of some bytes writes, from the first register up (R278, R280). -/
def memWords (t : MemTy) (bs : List Byte) : List Word :=
  let m := leNat bs
  match t with
  | .f64 => [BitVec.ofNat 32 m, BitVec.ofNat 32 (m / 2 ^ 32)]
  | .key64 => [BitVec.ofNat 32 m, BitVec.ofNat 32 (m / 2 ^ 32)]
  | .b128 => (List.range 4).map fun j => BitVec.ofNat 32 (m / 2 ^ (32 * j))
  | _ => [memExtend t m]

def memRegs (t : MemTy) (d : Nat) : List Nat := (List.range (memWords t []).length).map (d + ·)

def setRegs (d : Nat) (tag : BitVec 4) : List Word → Thread → Thread
  | [], t => t
  | w :: r, t => setRegs (d + 1) tag r (t.setReg d w tag)

/-- What arrives in a thread for a load, at once or when its data comes (R278, R284). -/
def RemoteOp.size : RemoteOp → Nat
  | .load t _ => t.size
  | .acq b64 _ => if b64 then 8 else 4
  | .atom op _ _ _ => if op.wide then 8 else 4
  | .ldu t _ => t.size
  | .shared => 0

/-- It writes the location, and needs W (R381). -/
def RemoteOp.writes : RemoteOp → Bool
  | .atom _ _ _ _ => true
  | _ => false

def RemoteOp.regs : RemoteOp → List Nat
  | .load t d => memRegs t d.toNat
  | .acq b64 d => if b64 then [d.toNat, d.toNat + 1] else [d.toNat]
  | .atom op _ _ d => if op.wide then [d.toNat, d.toNat + 1] else [d.toNat]
  | .ldu _ _ => []
  | .shared => []

def RemoteOp.into (o : RemoteOp) (bs : List Byte) (t : Thread) : Thread :=
  match o with
  | .load ty d => setRegs d.toNat (memTag ty) (memWords ty bs) t
  | .acq true d => t.setPair d.toNat (BitVec.ofNat 64 (leNat bs)) tNone
  | .acq false d => t.setReg d.toNat (BitVec.ofNat 32 (leNat bs)) tI32
  | .atom _ _ _ _ => t
  | .ldu _ _ => t
  | .shared => t

def Thread.addBusy (t : Thread) (rs : List Nat) : Thread := { t with busyV := rs ++ t.busyV }

/-- One lane's global access for a load or store of `n` bytes at base + o: the address checks of R428. -/
def State.laneAddr (s : State) (c : Ctx) (l : Ln) (base : DWord) (o : Word) (n : Nat) (write : Bool) (noMt : List Nat) :
    Except Fail (GAcc × VAddr) :=
  let ea := eaOf base o
  match s.global c.who c.tm.asid base ea n (l.use write) noMt with
  | .error f => .error f
  | .ok g => .ok (g, ea)

/-- What a read finds poisoned: 0x60 with its address (R395). -/
def State.lanePsn (s : State) (n : Nat) (write : Bool) (x : GAcc × VAddr) : Option Fail :=
  if s.poisonAt x.1.loc n then some { cause := 0x60, detail := x.2.setWidth 64, write := write } else none

/-- The same with the poison that a read meets (R428). -/
def State.laneGlob (s : State) (c : Ctx) (l : Ln) (base : DWord) (o : Word) (n : Nat) (write : Bool) (noMt : List Nat) :
    Except Fail (GAcc × VAddr) :=
  match s.laneAddr c l base o n write noMt with
  | .error f => .error f
  | .ok x => match if write then none else s.lanePsn n write x with
    | some f => .error f
    | none => .ok x

/-- One lane must wait: for the checker (R194), or for replicas that a store has locked (R193); another store to a replicated page follows
that one, and a store by another alias of its frame waits (R119). -/
def State.laneWait (s : State) (c : Ctx) (n : Nat) (write : Bool) (x : GAcc × VAddr) : Bool :=
  ((!write || x.1.loc.mt == 0) && s.lockedAt x.1.loc) || s.conflict c.cluster [gRng c.tm.asid x.2.toNat n write]

/-- Some lane must wait. -/
def State.mustWait (s : State) (c : Ctx) (n : Nat) (write : Bool) (xs : List (Ln × (GAcc × VAddr))) : Bool :=
  xs.any fun x => s.laneWait c n write x.2

/-- Some lane's address lies in another package, so that the instruction can block (R56); an injected thread may not issue it (R113,
R423). -/
def State.reachesOut (s : State) (c : Ctx) (eas : List VAddr) : Bool :=
  c.injected.isSome && eas.any fun ea => match s.xlate c.who c.tm.asid ea.toNat 0 with
    | .ok t => isRemote (s.locOf t ea.toNat)
    | .error _ => false

/-- An instruction that can block at some of its addresses: an injected thread may not issue it there, and that comes before every other cause
(R56, R113, R423). -/
def State.issueOut (s : State) (o : Issue) (eas : Ctx → List VAddr) (k : State → Ctx → Out) : Out :=
  match s.ctx false with
  | none => .fault .noRaft
  | some c => if s.reachesOut c (eas c) then .next (s.raise c c.elected { cause := 0x29 } o.len) else s.issue o k

/-- Loads of some lanes: data of local lanes is written, remote lanes, and those cut off, block until it arrives (R281,
R369, R415). -/
def State.loadLanes (s : State) (c : Ctx) (op : RemoteOp) (xs : List (Ln × (GAcc × VAddr))) : State :=
  let s1 := xs.foldl (fun s x => (s.touch c.who x.2.1.tlb false).fillL1 c.core x.2.1.loc op.size) s
  let near := xs.filter fun x => !(isRemote x.2.1.loc || s.cutOff x.2.1.loc)
  let far := xs.filter fun x => isRemote x.2.1.loc || s.cutOff x.2.1.loc
  let ws := near.map fun (x : Ln × (GAcc × VAddr)) =>
    (x.1.tid, (op.into (s.readAt c.die x.2.1.loc op.size) x.1.th).addBusy op.regs)
  let s2 := { s1 with threads := putThreads ws s1.threads }
  far.foldl (fun s x => match x.2.1.loc with
    | .mem pa _ => s.block x.1.tid (c.after 4) (.remote op pa (x.2.2.setWidth 64) s.now x.1.lane x.1.tid)
    | _ => s) s2

/-- Block the raft on one access at one address (R281): `first` is what the elected thread waits with, `op` what each other does. -/
def State.blockAll (s : State) (c : Ctx) (x : GAcc × VAddr) (first : RemoteOp) (op : Ln → RemoteOp) : State :=
  c.lns.foldl (fun s l => s.block l.tid (c.after 4)
    (.remote (if l.tid = c.elected.tid then first else op l) x.1.loc.at (x.2.setWidth 64) s.now l.lane c.elected.tid)) s

def State.loadDone (s : State) (c : Ctx) (op : RemoteOp) (xs : List (Ln × (GAcc × VAddr))) : Out :=
  if xs.any fun x => isRemote x.2.1.loc || s.cutOff x.2.1.loc then
    if c.injected.isSome then .next (s.raise c c.elected { cause := 0x10, remote := true } 4)
    else
      let s := s.loadLanes c op xs
      .next (s.fileRaft c ((s.onRaft c.tids).map fun id => (id, c.after 4)))
  else .next ((s.loadLanes c op xs).goOn c (c.after 4) 1)

/-- A load per lane at base + o. (Log 5, DESIGN CHOICE.) -/
def State.loadOp (s : State) (op : RemoteOp) (n : BitVec 4) (o : Src) : Out :=
  s.issueOut { srcs := [o], ar := [n.toNat] } (fun c => c.lns.map fun l => eaOf (c.tm.areg n.toNat) (src32 .int c.tm l o).w) fun s c =>
    let base := c.tm.areg n.toNat
    s.access c 4 (c.lns.map fun l => (l, s.laneAddr c l base (src32 .int c.tm l o).w op.size false []))
      (fun x => s.laneWait c op.size false x.2) (fun x => s.lanePsn op.size false x.2)
      (fun s xs => s.loadDone c op xs) (fun s xs => s.loadLanes c op xs)

def execLd (t : MemTy) (n : BitVec 4) (o : Src) (d : BitVec 6) (s : State) : Out := s.loadOp (.load t d) n o
def execLdacq (_sc : Scope) (b64 : Bool) (n : BitVec 4) (o : Src) (d : BitVec 6) (s : State) : Out := s.loadOp (.acq b64 d) n o

/-- The bytes a lane stores from operand B, R279. -/
def storeBytes (n : Nat) (t : Team) (l : Ln) (b : Src) : List Byte :=
  if n = 16 then
    match b with
    | .v k => (List.range 4).flatMap fun j => natLe 4 (l.th.reg (k.toNat + j)).val.toNat
    | _ => []
  else if n = 8 then natLe 8 (src64 .int t l b).val.toNat
  else natLe n (src32 .int t l b).w.toNat

/-- Who makes a lane's store. -/
def Ctx.by (c : Ctx) (l : Ln) (va : VAddr) : By := { tid := l.tid, asid := c.tm.asid, va := va.toNat }

/-- A store or `atomu` that no link delivers: it is posted and waits (R369). -/
def State.postedBy (s : State) (c : Ctx) (l : Ln) (x : GAcc × VAddr) (bs : List Byte) (op : Option (AtomOp × DWord)) : Posted :=
  { pa := x.1.loc.at, va := x.2.setWidth 64, issued := s.now, tid := l.tid, team := c.team, slice := c.tm.slice, asid := c.tm.asid,
    core := c.core, slot := c.tm.slot, bytes := bs, op := op, lanes := s.lanesOf c.tm }

/-- A lane's store goes to a page of replicas, by its own translation or by that of another lane's alias of the frame (R193, R119). -/
def lockingStore (xs : List (Ln × (GAcc × VAddr))) (x : GAcc × VAddr) : Bool :=
  x.1.loc.mt == 1 || (x.1.loc.mt == 0 && xs.any fun y => y.2.1.loc.mt == 1 && y.2.1.loc.at / 0x1000 == x.1.loc.at / 0x1000)

/-- Stores of some lanes in ascending order (R279): the highest lane's byte remains. A store that the links cannot deliver
is posted and waits (R369). -/
def State.storeLanes (s : State) (c : Ctx) (n : Nat) (b : Src) (xs : List (Ln × (GAcc × VAddr))) : State :=
  xs.foldl (fun s x =>
    let bs := storeBytes n c.tm x.1 b
    let s := s.touch c.who x.2.1.tlb true
    if s.cutOff x.2.1.loc then { s with posted := s.posted ++ [s.postedBy c x.1 x.2 bs none] }
    else if lockingStore xs x.2 then s.lockStore c.die x.2.1.loc.at bs (c.by x.1 x.2.2)
    else s.storeAt c.die x.2.1.loc bs (c.by x.1 x.2.2)) s

/-- Stores and contributions of the raft's threads that are still on their way beyond the package (R192, R188). -/
def State.unsent (s : State) (tids : List Nat) : Bool :=
  (s.posted.any fun p => tids.contains p.tid) || s.hub.contribs.any fun p => tids.contains p.tid

/-- Stores of the raft's threads that a release at domain or system scope waits for, so that other packages, the host and the hub see them
(R188): those, and the stores that have locked replicas and are not at their home yet. -/
def State.sending (s : State) (tids : List Nat) : Bool := s.unsent tids || s.repl.any fun p => tids.contains p.tid

/-- Registers that a stored operand reads. -/
def storeIssue (n : Nat) (b o : Src) (a : Nat) : Issue :=
  if n = 16 then
    { srcs := [o], vr := (Src.vregs false b).flatMap fun k => [k, k + 1, k + 2, k + 3], ar := [a], write := true }
  else if n = 8 then { srcs := [o], wide := [b], ar := [a], write := true }
  else { srcs := [o, b], ar := [a], write := true }

/-- Contributions of the raft's threads to this package's memory that the switches still hold: in no die yet (R195). -/
def State.unmerged (s : State) (tids : List Nat) : Bool := s.hub.contribs.any fun p => tids.contains p.tid && decide (p.pa < remoteBase)

def scopeFar : Scope → Bool
  | .domain => true | .system => true | _ => false

/-- What a release at a scope still waits for: what its raft's threads have sent to this package's memory through the switches, and at domain
and system scope all that they have sent which is not at its home yet (R188, R185). -/
def State.relWait (s : State) (rel : Option Scope) (tids : List Nat) : Bool :=
  match rel with
  | none => false
  | some sc => s.unmerged tids || (scopeFar sc && s.sending tids)

def State.storeOp (s : State) (rel : Option Scope) (size : Nat) (n : BitVec 4) (o b : Src) : Out :=
  s.issue (storeIssue size b o n.toNat) fun s c =>
    let base := c.tm.areg n.toNat
    s.access c 4 (c.lns.map fun l => (l, s.laneAddr c l base (src32 .int c.tm l o).w size true []))
      (fun x => s.relWait rel c.tids || s.laneWait c size true x.2) (fun _ => none)
      (fun s xs => .next ((s.storeLanes c size b xs).goOn c (c.after 4) 1)) (fun s xs => s.storeLanes c size b xs)

def execSt (t : MemTy) (n : BitVec 4) (o b : Src) (s : State) : Out := s.storeOp none t.size n o b
def execStrel (sc : Scope) (b64 : Bool) (n : BitVec 4) (o b : Src) (s : State) : Out :=
  s.storeOp (some sc) (if b64 then 8 else 4) n o b

/-- `ldu`: once, into uniform registers (R280). -/
def setSregs (d : Nat) : List Word → Team → Team
  | [], t => t
  | w :: r, t => setSregs (d + 1) r (t.setS d w)

def execLdu (t : MemTy) (n : BitVec 4) (o : Src) (d : BitVec 5) (s : State) : Out :=
  s.issueOut { srcs := [o], ar := [n.toNat], once := true } (fun c => [eaOf (c.tm.areg n.toNat) (src32 .int c.tm c.elected o).w]) fun s c =>
    let l := c.elected
    let base := c.tm.areg n.toNat
    let off := (src32 .int c.tm l o).w
    match s.laneAddr c l base off t.size false [] with
    | .error f => .next (s.raiseOnce c l f 4)
    | .ok x =>
      if s.laneWait c t.size false x then .next (s.hold c)
      else match s.lanePsn t.size false x with
      | some f => .next (s.raise c l f 4)
      | none =>
        let s := (s.touch c.who x.1.tlb false).fillL1 c.core x.1.loc t.size
        if isRemote x.1.loc || s.cutOff x.1.loc then
          if c.injected.isSome then .next (s.raise c l { cause := 0x10, remote := true } 4)
          else .next ((s.blockAll c x (.ldu t d) fun _ => .shared).fileRaft c [])
        else
        let ws := memWords t (s.readAt c.die x.1.loc t.size)
        let s := s.updTeam c.team fun tm => setSregs d.toNat ws tm
        let s := s.updThread l.tid fun th => { th with busyS := (memRegs t d.toNat) ++ th.busyS }
        .next (s.goOn c (c.after 4) 1)

-- Scratchpad and landing, R278, R279, R93.

/-- One lane's local access: the address checks in the order of R428. -/
def State.laneSpot (s : State) (c : Ctx) (base : DWord) (hnd : Bool) (o : Word) (n : Nat) (write : Bool) : Except Fail Loc :=
  s.local c.core c.team c.tm hnd base (offOf base o) n write

/-- What a local read finds poisoned. -/
def State.spotPsn (s : State) (base : DWord) (hnd : Bool) (o : Word) (n : Nat) (x : Loc) : Option Fail :=
  if s.poisonAt x n then some { cause := 0x60, detail := BitVec.ofNat 64 ((if hnd then hndOf base * 2 ^ 32 else 0) + offOf base o) } else none

/-- The same with the poison that a read meets. -/
def State.laneLocal (s : State) (c : Ctx) (base : DWord) (hnd : Bool) (o : Word) (n : Nat) (write : Bool) : Except Fail Loc :=
  match s.laneSpot c base hnd o n write with
  | .error f => .error f
  | .ok x => match if write then none else s.spotPsn base hnd o n x with
    | some f => .error f
    | none => .ok x

def State.localWait (s : State) (c : Ctx) (n : Nat) (write : Bool) (xs : List (Ln × Loc)) : Bool :=
  xs.any fun x => s.conflict c.cluster (x.2.rng n write)

def execLds (t : MemTy) (h : Bool) (n : BitVec 4) (o : Src) (d : BitVec 6) (s : State) : Out :=
  s.issue { srcs := [o], ar := [n.toNat] } fun s c =>
    let base := c.tm.areg n.toNat
    let op := RemoteOp.load t d
    let go (s : State) (xs : List (Ln × Loc)) : State :=
      { s with threads := putThreads (xs.map fun (x : Ln × Loc) => (x.1.tid, (op.into (s.readAt c.die x.2 t.size) x.1.th).addBusy op.regs)) s.threads }
    s.access c 4 (c.lns.map fun l => (l, s.laneSpot c base h (src32 .int c.tm l o).w t.size false))
      (fun x => s.conflict c.cluster (x.2.rng t.size false)) (fun x => s.spotPsn base h (src32 .int c.tm x.1 o).w t.size x.2) (fun s xs => .next ((go s xs).goOn c (c.after 4) 1)) go

def execSts (t : MemTy) (h : Bool) (n : BitVec 4) (o b : Src) (s : State) : Out :=
  s.issue (storeIssue t.size b o n.toNat) fun s c =>
    let base := c.tm.areg n.toNat
    let go (s : State) (xs : List (Ln × Loc)) : State :=
      xs.foldl (fun s x => s.storeAt c.die x.2 (storeBytes t.size c.tm x.1 b) {}) s
    s.access c 4 (c.lns.map fun l => (l, s.laneSpot c base h (src32 .int c.tm l o).w t.size true))
      (fun x => s.conflict c.cluster (x.2.rng t.size true)) (fun _ => none) (fun s xs => .next ((go s xs).goOn c (c.after 4) 1)) go

-- BMV streams, R282, R283, R182.

/-- Elements of `k` bytes. -/
def chunks (k : Nat) : List Byte → Nat → List (List Byte)
  | _, 0 => []
  | bs, n + 1 => bs.take k :: chunks k (bs.drop k) n

def nonzero (e : List Byte) : Bool := e.any (· != 0)

/-- The mask of some presence bits, whole bytes. -/
def maskBytes : List Bool → Nat → List Byte
  | _, 0 => []
  | l, n + 1 => BitVec.ofNat 8 ((l.take 8).foldr (fun b m => 2 * m + (if b then 1 else 0)) 0) :: maskBytes (l.drop 8) n

def round8 (n : Nat) : Nat := (n + 7) / 8 * 8
def maskLen (n : Nat) : Nat := (n + 63) / 64 * 8
def bmvOcc (n k : Nat) : Nat := 4 + (n * k + 127) / 128

/-- The stream of some elements: LENGTH, COUNT, mask, values, padding (R182). -/
def bmvStream (k n : Nat) (es : List (List Byte)) : List Byte :=
  let present := es.filter nonzero
  let need := 8 + maskLen n + present.length * k
  natLe 4 need ++ natLe 4 n ++ maskBytes (es.map nonzero) (maskLen n) ++ present.flatten ++ List.replicate (round8 need - need) 0

/-- Some granule of a range of the team's scratchpad has been transferred out (R95). -/
def State.transferredIn (s : State) (c : Ctx) (off n : Nat) : Bool :=
  (List.range (n / 0x1000 + 2)).any fun g => decide (g * 0x1000 < off % 0x1000 + n) &&
    s.transferred c.cluster c.core c.team (c.tm.spad0 + off / 0x1000 + g)

def execStbmv (t : MemTy) (n : BitVec 4) (p : BitVec 5) (s : State) : Out :=
  s.issue { ar := [n.toNat], sr := [p.toNat, p.toNat + 1, p.toNat + 2], once := true, write := true } fun s c =>
    let l := c.elected
    let k := (t.bmvSize).getD 4
    let src := (c.tm.sreg p.toNat).toNat
    let cnt := (c.tm.sreg (p.toNat + 1)).toNat
    let res := (c.tm.sreg (p.toNat + 2)).toNat
    let base := c.tm.areg n.toNat
    let dst := base.setWidth 57
    let fail (f : Fail) : Out := .next (s.raiseOnce c l { f with write := true } 4)
    if src % 4 != 0 || res % 8 != 0 || dst.toNat % 8 != 0 then fail { cause := 0x06 }
    else if cnt == 0 || decide (65536 < cnt) then fail { cause := 0x18, detail := dst.setWidth 64 }
    else if s.transferredIn c src (cnt * k) then fail { cause := 0x13, detail := BitVec.ofNat 64 src }
    else if decide (c.tm.spadN * 0x1000 < src + cnt * k) then fail { cause := 0x14, detail := BitVec.ofNat 64 src }
    else if s.conflict c.cluster ((Loc.spad (spadKey c.core (c.tm.spad0 * 0x1000 + src))).rng (cnt * k) false) then .next (s.hold c)
    else
      let key := spadKey c.core (c.tm.spad0 * 0x1000 + src)
      let es := chunks k (mgets 0 s.spad key (cnt * k)) cnt
      let out := bmvStream k cnt es
      let beyond := decide (res < out.length)
      let bytes := if beyond then natLe 4 (0x80000000 + out.length) ++ natLe 4 cnt else out
      match s.range c.who c.tm.asid base dst.toNat bytes.length (l.use true) [] with
      | .error f => fail f
      | .ok ps =>
        if s.conflict c.cluster [gRng c.tm.asid dst.toNat bytes.length true] ||
            (ps.any fun p => p.loc.mt != 1 && s.shut p.loc) then .next (s.holdFor c (l.cut (s.cutIn ps true)) true)
        else if hasPsn 8 key (cnt * k) s.psnSpad then fail { cause := 0x60, detail := BitVec.ofNat 64 src }
        else
          let s' := (s.touchAll c.who ps true).writePieces c.die (c.by l dst) ps bytes
          if beyond then .next (s'.raiseOnce c l { cause := 0x18, detail := dst.setWidth 64, write := true } 4)
          else
            let s' := s'.updTeam c.team fun tm => tm.setS (p.toNat + 3) (BitVec.ofNat 32 out.length)
            .next (s'.goOn c (c.after 4) (bmvOcc cnt k))

/-- Dense elements of a stream's mask and values. -/
def bmvDense (k : Nat) : List Bool → List Byte → List Byte
  | [], _ => []
  | true :: r, vs => vs.take k ++ bmvDense k r (vs.drop k)
  | false :: r, vs => List.replicate k 0 ++ bmvDense k r vs

def maskBits (bs : List Byte) : List Bool := bs.flatMap fun b => (List.range 8).map b.getLsbD

def execLdbmv (t : MemTy) (n : BitVec 4) (p : BitVec 5) (s : State) : Out :=
  s.issue { ar := [n.toNat], sr := [p.toNat, p.toNat + 1], once := true } fun s c =>
    let l := c.elected
    let k := (t.bmvSize).getD 4
    let off := (c.tm.sreg p.toNat).toNat
    let cap := (c.tm.sreg (p.toNat + 1)).toNat
    let base := c.tm.areg n.toNat
    let a := base.setWidth 57
    let det := a.setWidth 64
    let fail (f : Fail) : Out := .next (s.raiseOnce c l f 4)
    if off % 4 != 0 || a.toNat % 8 != 0 then fail { cause := 0x06 }
    else match s.range c.who c.tm.asid base a.toNat 8 (l.use false) [] with
    | .error f => fail f
    | .ok hp =>
      let key := spadKey c.core (c.tm.spad0 * 0x1000 + off)
      if s.transferredIn c off (cap * k) then fail { cause := 0x13, detail := BitVec.ofNat 64 off }
      else if decide (c.tm.spadN * 0x1000 < off + cap * k) then fail { cause := 0x14, detail := BitVec.ofNat 64 off }
      else if s.conflict c.cluster [gRng c.tm.asid a.toNat 8 false] || (hp.any fun p => s.shut p.loc) then
        .next (s.holdFor c (l.cut (s.cutIn hp false)) true)
      else if (s.poisonIn hp).isSome then fail { cause := 0x60, detail := det }
      else
        let hdr := s.readPieces c.die hp
        let len := leNat (hdr.take 4)
        let cnt := leNat (hdr.drop 4)
        if decide (0x80000000 ≤ len) || cnt == 0 || decide (65536 < cnt) || decide (cap < cnt) || decide (len < 8 + maskLen cnt) ||
            decide (8 + maskLen cnt + cnt * k < len) then fail { cause := 0x18, detail := det }
        else match s.range c.who c.tm.asid base a.toNat len (l.use false) [] with
        | .error f => fail f
        | .ok ps =>
          if s.conflict c.cluster (gRng c.tm.asid a.toNat len false :: (Loc.spad key).rng (cnt * k) true) ||
              (ps.any fun p => s.shut p.loc) then .next (s.holdFor c (l.cut (s.cutIn ps false)) true)
          else match s.poisonIn ps with
          | some va => fail { cause := 0x60, detail := BitVec.ofNat 64 va }
          | none =>
            let body := (s.readPieces c.die ps).drop 8
            let mask := maskBits (body.take (maskLen cnt))
            let present := (mask.filter id).length
            if len != 8 + maskLen cnt + present * k || (mask.drop cnt).any id then fail { cause := 0x18, detail := det }
            else
              let s' := (s.touchAll c.who ps false).putSpad key (bmvDense k (mask.take cnt) (body.drop (maskLen cnt)))
              let s' := s'.updTeam c.team fun tm => tm.setS (p.toNat + 2) (BitVec.ofNat 32 present)
              .next (s'.goOn c (c.after 4) (bmvOcc cnt k))

-- Fences and prefetch, R285, R286, R192.

def scopeWide : Scope → Bool
  | .package => true | .domain => true | .system => true | _ => false

/-- What the wait of R192 is for: stores that have locked replicas, what the raft's threads have sent to this package's memory through the
switches, and at domain and system scope stores and contributions that no link has delivered. (Log 62, DEDUCED.) -/
def State.fenceWaits (s : State) (sc : Scope) (tids : List Nat) : Bool :=
  scopeWide sc && (!s.repl.isEmpty || s.unmerged tids || (scopeFar sc && !(s.posted.isEmpty && s.hub.contribs.isEmpty)))

/-- A fence below package scope that orders stores has not issued while the switches hold what its raft has sent to this package's memory, which
is in no die yet (R188): a release at such a scope waits for it too. -/
def State.fenceStalls (s : State) (sc : Scope) (k : FenceKind) (tids : List Nat) : Bool :=
  !scopeWide sc && k != .acq && s.unmerged tids

/-- `fence`: the raft holds its pipe, after issue, while the wait of R192 lasts; it ends with every write applied in every die. -/
def execFence (sc : Scope) (k : FenceKind) (s : State) : Out :=
  s.issue {} fun s c =>
    if s.fenceWaits sc c.tids then .next (s.holdFixed c)
    else if s.fenceStalls sc k c.tids then .next (s.hold c)
    else
      let s := if scopeWide sc then s.drain else s
      .next (s.goOn c (c.after 4) 1)

def execPref (_l2 : Bool) (n : BitVec 4) (o : Src) (s : State) : Out :=
  s.issue { srcs := [o], ar := [n.toNat] } fun s c => .next (s.goOn c (c.after 4) 1)

-- The tag table, R96 to R98, R290.

def tagV (e : DWord) : Bool := e.getLsbD 63
def tagLine (e : DWord) : BitVec 49 := e.extractLsb' 8 49
def tagOf (line : BitVec 49) : DWord := 1#1 ++ 0#6 ++ line ++ 0#8
/-- First core slot and number of slots of a team's allocation. -/
def Team.tag0 (t : Team) : Nat := t.spad0 * 16
def Team.tagN (t : Team) : Nat := t.spadN * 16

/-- The first slot of the team that is poisoned, or valid with a line: searched in ascending order. -/
def tagSearch (tab : Map DWord) (psn : List Nat) (psn0 first : Nat) (line : BitVec 49) : Nat → Nat → Option (Nat × Bool)
  | _, 0 => none
  | k, n + 1 =>
    if psn.contains (psn0 + first + k) then some (k, true)
    else
      let e := mget 0 (first + k) tab
      if tagV e && tagLine e == line then some (k, false) else tagSearch tab psn psn0 first line (k + 1) n

def execTaglk (n : BitVec 4) (o : Src) (d : BitVec 6) (s : State) : Out :=
  s.issue { srcs := [o], ar := [n.toNat] } fun s c =>
    let base := c.tm.areg n.toNat
    let tab := (s.core c.core).tagTab
    let look (l : Ln) : Option (Nat × Bool) :=
      tagSearch tab s.psnTag (c.core * 1024) c.tm.tag0 ((eaOf base (src32 .int c.tm l o).w).extractLsb' 8 49) 0 c.tm.tagN
    match c.raiser fun l => match look l with
      | some (_, b) => b
      | none => false with
    | some l =>
      let slot := match look l with
        | some (k, _) => c.tm.tag0 + k
        | none => 0
      -- The entry reads V = 0 from then on, with a KIND 4 record (R428, R394).
      let s := { s with psnTag := s.psnTag.filter (· != c.core * 1024 + slot) }
      let s := s.updCore c.core fun x => { x with tagTab := mdel slot x.tagTab }
      let s := s.post c.tm.slice { kind := 4, cause := 0x60, core := c.core, tslot := c.tm.slot, asid := c.tm.asid, lanes := s.lanesOf c.tm,
                                   addr := BitVec.ofNat 64 slot }
      .next (s.raise c l { cause := 0x60, detail := (eaOf base (src32 .int c.tm l o).w).setWidth 64 } 4)
    | none =>
      let val (l : Ln) : Word := match look l with
        | some (k, _) => BitVec.ofNat 32 k
        | none => 0xFFFFFFFF
      let s := { s with threads := putThreads (c.lns.map fun (l : Ln) => (l.tid, l.th.setReg d.toNat (val l) tU32)) s.threads }
      .next (s.goOn c (c.after 4) 1)

/-- Clear V in every other slot of the team that holds the line, and set the slot (R97). -/
def tagPut (first n slot : Nat) (line : BitVec 49) (tab : Map DWord) : Map DWord :=
  mput (first + slot) (tagOf line)
    (mfilter (fun k e => !(inRange first n k && tagV e && tagLine e == line)) tab)

/-- `tagset`. Its 0x14 is given the slot number, zero-extended, in TRAPADDR: R72 asks for a faulting address, and none is formed from the
slot operand (log 63, DESIGN CHOICE; so in `tagclr`). -/
def execTagset (n : BitVec 4) (o b : Src) (s : State) : Out :=
  s.issue { srcs := [o, b], ar := [n.toNat] } fun s c =>
    let base := c.tm.areg n.toNat
    match c.raiser fun l => decide (c.tm.tagN ≤ (src32 .int c.tm l b).w.toNat) with
    | some l => .next (s.raise c l { cause := 0x14, detail := (src32 .int c.tm l b).w.setWidth 64 } 4)
    | none =>
      let put (s : State) (l : Ln) : State :=
        let slot := (src32 .int c.tm l b).w.toNat
        let s := { s with psnTag := s.psnTag.filter (· != c.core * 1024 + c.tm.tag0 + slot) }
        s.updCore c.core fun x =>
          { x with tagTab := tagPut c.tm.tag0 c.tm.tagN slot ((eaOf base (src32 .int c.tm l o).w).extractLsb' 8 49) x.tagTab }
      .next ((c.lns.foldl put s).goOn c (c.after 4) 1)

def execTagclr (b : Src) (s : State) : Out :=
  s.issue { srcs := [b] } fun s c =>
    match c.raiser fun l => decide (c.tm.tagN ≤ (src32 .int c.tm l b).w.toNat) with
    | some l => .next (s.raise c l { cause := 0x14, detail := (src32 .int c.tm l b).w.setWidth 64 } 4)
    | none =>
      let clr (s : State) (l : Ln) : State :=
        s.updCore c.core fun x => { x with tagTab := mdel (c.tm.tag0 + (src32 .int c.tm l b).w.toNat) x.tagTab }
      .next ((c.lns.foldl clr s).goOn c (c.after 4) 1)

/-- LOAD_DATA_WRITTEN: the data of a thread's loads is in its registers (R281). -/
def execLoadDataWritten (thread : Nat) (s : State) : Out :=
  match mfind thread s.threads with
  | none => .fault .notDue
  | some t =>
    if t.busyV.isEmpty && t.busyS.isEmpty then .fault .notDue
    else .next (s.updThread thread fun t => { t with busyV := [], busyS := [] })

/-- REMOTE_WRITE_APPLY: die `die` applies the first write in flight to it whose conditions hold (R191). -/
def execRemoteWriteApply (die : Nat) (s : State) : Out :=
  match s.firstLag die s.lag with
  | none => .fault .notDue
  | some (l, rest) => .next (s.applyLag l rest)

end Sys2Proof.Machine
end

