-- ==== Sys2Proof/Machine/Atomic.lean ====
section
/-!
DEFINITION. Atomics (R195, R287 to R289) with reduction windows (R346, R349, R392).
-/

namespace Sys2Proof.Machine

def opCode : AtomOp → Nat
  | .add => 0 | .min => 1 | .max => 2 | .minu => 3 | .maxu => 4 | .and => 5 | .or => 6 | .xor => 7 | .exch => 8 | .cas => 9
  | .fadd => 10 | .bfadd2 => 11 | .add64 => 12 | .exch64 => 13 | .cas64 => 14

def atomTag : AtomOp → BitVec 4
  | .minu => tU32 | .maxu => tU32 | .exch => tNone | .cas => tNone | .fadd => tF32 | .bfadd2 => tBF16
  | .add64 => tNone | .exch64 => tNone | .cas64 => tNone | _ => tI32

/-- The new memory value, R287: m the old one, b the operand, c the compare value. -/
def atomNew (op : AtomOp) (m b c : DWord) : DWord :=
  let m32 : Word := m.setWidth 32
  let b32 : Word := b.setWidth 32
  let w (x : Word) : DWord := x.setWidth 64
  match op with
  | .add => w (m32 + b32)
  | .min => w (if b32.toInt < m32.toInt then b32 else m32)
  | .max => w (if m32.toInt < b32.toInt then b32 else m32)
  | .minu => w (if b32.toNat < m32.toNat then b32 else m32)
  | .maxu => w (if m32.toNat < b32.toNat then b32 else m32)
  | .and => w (m32 &&& b32)
  | .or => w (m32 ||| b32)
  | .xor => w (m32 ^^^ b32)
  | .exch => w b32
  | .cas => w (if m32 = c.setWidth 32 then b32 else m32)
  | .fadd => BitVec.ofNat 64 (Fmt.f32.add .rne false (Fmt.f32.decode m32.toNat) (Fmt.f32.decode b32.toNat)).bits
  | .bfadd2 => BitVec.ofNat 64 (pack2 fun j => Fmt.bf16.add .rne false (Fmt.bf16.decode (half m32.toNat j))
      (Fmt.bf16.decode (half b32.toNat j))).bits
  | .add64 => m + b
  | .exch64 => b
  | .cas64 => if m = c then b else m

def atomSize (op : AtomOp) : Nat := if op.wide then 8 else 4

/-- One indivisible operation at the home (R195), with the old value. (Log 17, DEDUCED.) -/
def State.atomAt (s : State) (d : Nat) (l : Loc) (op : AtomOp) (b c : DWord) : State × DWord :=
  let m : DWord := BitVec.ofNat 64 (leNat (s.readHome l (atomSize op)))
  (s.storeHome d l (natLe (atomSize op) (atomNew op m b c).toNat), m)

def Thread.setAtom (t : Thread) (op : AtomOp) (d : Nat) (m : DWord) : Thread :=
  if op.wide then t.setPair d m (atomTag op) else t.setReg d (m.setWidth 32) (atomTag op)

def atomRegs (op : AtomOp) (d : Nat) : List Nat := if op.wide then [d, d + 1] else [d]

/-- Operand B of an atomic, class "any" (R275). -/
def atomB (op : AtomOp) (t : Team) (l : Ln) (b : Src) : DWord := if op.wide then (src64 .int t l b).val else (src32 .int t l b).val

/-- Operations of one raft at one address in ascending lane order (R288). -/
def State.atomLanes (s : State) (die : Nat) (loc : Loc) (op : AtomOp) (b : Team → Ln → DWord) (tm : Team) (d : Nat) : List Ln → State
  | [] => s
  | l :: r =>
    let (s', m) := s.atomAt die loc op (b tm l) (if op.wide then l.th.pair d else (l.th.reg d).val.setWidth 64)
    (s'.updThread l.tid fun t => (t.setAtom op d m).addBusy (atomRegs op d)).atomLanes die loc op b tm d r

/-- Registers that an atomic reads: vD only where it compares (R287). -/
def atomIssue (op : AtomOp) (n : BitVec 4) (b : Src) (d : BitVec 6) : Issue :=
  let vr := match op with
    | .cas => [d.toNat]
    | .cas64 => [d.toNat, d.toNat + 1]
    | _ => []
  if op.wide then { wide := [b], vr := vr, ar := [n.toNat], write := true } else { srcs := [b], vr := vr, ar := [n.toNat], write := true }

def execAtom (op : AtomOp) (_near : Bool) (n : BitVec 4) (b : Src) (d : BitVec 6) (s : State) : Out :=
  s.issueOut (atomIssue op n b d) (fun c => [(c.tm.areg n.toNat).setWidth 57]) fun s c =>
    let l := c.elected
    let k := atomSize op
    match s.laneAddr c l (c.tm.areg n.toNat) 0 k true [2] with
    | .error f => .next (s.raiseOnce c l f 4)
    | .ok x =>
      if s.lockedAt x.1.loc || s.laneWait c k true x then .next (s.hold c)
      else match s.lanePsn k true x with
      | some f => .next (s.raise c l f 4)
      | none =>
        let s := s.touch c.who x.1.tlb true
        if isRemote x.1.loc then
          let wait (y : Ln) : RemoteOp :=
            .atom op (atomB op c.tm y b) (if op.wide then y.th.pair d.toNat else (y.th.reg d.toNat).val.setWidth 64) d
          .next ((s.blockAll c x (wait l) wait).fileRaft c [])
        else .next ((s.atomLanes c.die x.1.loc op (fun t l => atomB op t l b) c.tm d.toNat c.lns).goOn c (c.after 4) 1)

/-- The domain address of a physical one (R345). -/
def State.domAddr (s : State) (pa mt : Nat) : Nat := if mt = 3 then pa - remoteBase else s.hub.pkg * 2 ^ 46 + pa % 2 ^ 46

/-- A registered window with this operation holds the address, and the switches merge (R346, R195, R353). -/
def State.inWindow (s : State) (pa mt : Nat) (op : AtomOp) : Bool :=
  let a := s.domAddr pa mt
  s.hub.accepted.getLsbD 2 && s.hub.windows.any fun w => w.2.op == opCode op && inRange w.2.base w.2.size a

/-- Contributions combined into one, two at a time in an order that the switches choose (R349, log 1). -/
def mergeContribs (op : AtomOp) (seed : Nat) : Nat → List DWord → DWord
  | 0, l => l.headD 0
  | n + 1, l =>
    match l with
    | [] => 0
    | [x] => x
    | l =>
      let i := Config.freeNat seed % l.length
      let r := l.eraseIdx i
      let j := Config.freeNat (seed + 1) % r.length
      mergeContribs op (seed + 2) n (atomNew op (l.getD i 0) (r.getD j 0) 0 :: r.eraseIdx j)

/-- One read-modify-write that reaches the home from the links: every die sees it at once, after what stamp `v` names (R191, R195). -/
def State.atomAll (s : State) (v : List Nat) (pa : Nat) (op : AtomOp) (b : DWord) : State :=
  s.putAll v pa (natLe (atomSize op) (atomNew op (BitVec.ofNat 64 (s.homeNat pa (atomSize op))) b 0).toNat)

/-- What the dies that issued some contributions have applied: their writes come after it (R191). -/
def State.clocksOf (s : State) (l : List Contrib) : List Nat := l.foldl (fun v c => maxList v (s.clock (Config.dieOf c.core))) []

/-- The switches deliver to one location what they hold for it: one merged read-modify-write at its home (R195). -/
def State.deliverContribs (s : State) (c : Contrib) : State :=
  let mine (x : Contrib) : Bool := x.pa == c.pa && x.op == c.op
  let l := s.hub.contribs.filter mine
  let v := mergeContribs c.op s.free l.length (l.map (·.b))
  let s1 : State := { s with free := s.free + 2 * l.length, hub := { s.hub with contribs := s.hub.contribs.filter fun x => !mine x } }
  s1.atomAll (s.clocksOf l) c.pa c.op v

/-- The contributions that the links can deliver now are delivered, once each; one to a page whose replicas are locked waits for the store
that locks it (R391, R392). -/
def State.flushContribs (s : State) : State :=
  if s.linkUp then
    s.hub.contribs.foldl (fun s c =>
      if s.hub.contribs.contains c && !s.lockedAt (.mem c.pa c.mt) then s.deliverContribs c else s) s
  else s

/-- The contribution of one lane, held in the switches. -/
def State.contribOf (s : State) (c : Ctx) (op : AtomOp) (v : DWord) (x : Ln × (GAcc × VAddr)) : Contrib :=
  { pa := x.2.1.loc.at, mt := x.2.1.loc.mt, op := op, b := v, issued := s.now, lanes := s.lanesOf c.tm, va := x.2.2.setWidth 64, tid := x.1.tid, team := c.team,
    slice := c.tm.slice, asid := c.tm.asid, core := c.core, slot := c.tm.slot }

/-- One lane of `atomu`: given to the switches, posted, or at the home. Without a link a contribution stays in the switches
and a posted one waits (R392, R369). -/
def State.atomuLane (s : State) (c : Ctx) (op : AtomOp) (far : Bool) (b : Src) (x : Ln × (GAcc × VAddr)) : State :=
  let s := s.touch c.who x.2.1.tlb true
  let v := atomB op c.tm x.1 b
  if far && s.inWindow x.2.1.loc.at x.2.1.loc.mt op then
    { s with hub := { s.hub with contribs := s.hub.contribs ++ [s.contribOf c op v x] } }
  else if s.cutOff x.2.1.loc then { s with posted := s.posted ++ [s.postedBy c x.1 x.2 [] (some (op, v))] }
  else (s.atomAt c.die x.2.1.loc op v 0).1

/-- The lanes of an `atomu` in ascending order, and what the switches then deliver of them (R195). -/
def State.atomuLanes (s : State) (c : Ctx) (op : AtomOp) (far : Bool) (b : Src) (xs : List (Ln × (GAcc × VAddr))) : State :=
  let s := xs.foldl (fun s x => s.atomuLane c op far b x) s
  if far then s.flushContribs else s

def execAtomu (op : AtomOp) (far : Bool) (n : BitVec 4) (b o : Src) (s : State) : Out :=
  let iss : Issue := if op.wide then { srcs := [o], wide := [b], ar := [n.toNat], write := true } else { srcs := [b, o], ar := [n.toNat], write := true }
  s.issue iss fun s c =>
    s.access c 4 (c.lns.map fun l => (l, s.laneAddr c l (c.tm.areg n.toNat) (src32 .int c.tm l o).w (atomSize op) true [2]))
      (fun x => s.lockedAt x.2.1.loc || s.laneWait c (atomSize op) true x.2) (fun x => s.lanePsn (atomSize op) true x.2)
      (fun s xs => .next ((s.atomuLanes c op far b xs).goOn c (c.after 4) 1)) (fun s xs => s.atomuLanes c op far b xs)

/-- REPLICATED_STORE_COMMIT: the replicas of the page named by the `index`-th locked store are written and unlocked (R193);
stores to one page commit in order (R391), and each after what its die had applied when it was issued (R191). Contributions that waited
for the page then reach it. -/
def execReplicatedStoreCommit (index : Nat) (s : State) : Out :=
  match s.repl[index]? with
  | none => .fault .notDue
  | some r =>
    if (s.repl.take index).any fun x => x.page == r.page then .fault .notDue
    else
      let s1 : State := { s with repl := s.repl.eraseIdx index }
      .next (s1.putAll r.stamp r.addr r.bytes).flushContribs

end Sys2Proof.Machine
end

