-- ==== Sys2Proof/Machine/Hardpan.lean ====
section
/-!
DEFINITION. Data formats that the Yarder carries: Hardpan tiles (R178 to R180), top-k blocks (R184), CRC-64 (R161).
-/

namespace Sys2Proof.Machine

/-- A Hardpan tile as it stands at its source: its map byte, its record, its 256 bytes expanded. -/
structure HTile where
  map  : Nat
  rec_ : List Byte
  data : List Byte
  deriving DecidableEq, Repr

def tileBytes : Nat := 256

/-- The 64 words of a tile. -/
def wordList (n : Nat) (f : Nat → Word) : List Byte := (List.range n).flatMap fun i => natLe 4 (f i).toNat

/-- Values of a zero-run body given to the halfwords whose bitmap bit is set, in order (R179). -/
def zeroRun (bitmap : Nat) : Nat → Nat → List Byte → List Byte
  | 0, _, _ => []
  | n + 1, i, vs =>
    if bitmap.testBit i then vs.take 2 ++ zeroRun bitmap n (i + 1) (vs.drop 2) else [0, 0] ++ zeroRun bitmap n (i + 1) vs

def round8up (n : Nat) : Nat := (n + 7) / 8 * 8

/-- Delta i of `w` bits from a body, sign-extended. -/
def deltaAt (w : Nat) (body : Nat) (i : Nat) : Word :=
  match w with
  | 4 => (BitVec.ofNat 4 (body / 2 ^ (4 * i))).signExtend 32
  | 8 => (BitVec.ofNat 8 (body / 2 ^ (8 * i))).signExtend 32
  | _ => (BitVec.ofNat 16 (body / 2 ^ (16 * i))).signExtend 32

def deltaWidth (mode : Nat) : Nat := if mode = 1 then 4 else if mode = 2 then 8 else 16

/-- The decoded size of a record's body with its header, by mode (R179). -/
def recSize (mode : Nat) (r : List Byte) : Nat :=
  match mode with
  | 0 => round8up (24 + 2 * pop (leNat ((r.drop 8).take 16)) 128)
  | 1 => 40 | 2 => 72 | 3 => 136 | _ => 8

/-- Check and expand a record (R179): the cause 0x19 or 0x1A, or the tile. `r` holds 160 bytes of the slot, `slot` its 256. -/
def htileOf (map : Nat) (slot : List Byte) : Except Nat HTile :=
  let kind := map / 64
  let len8 := map % 64
  if kind = 0 then (if len8 = 0 then .ok { map := map, rec_ := slot, data := slot } else .error 0x19)
  else if kind = 3 then .error 0x19
  else
    let h := leNat (slot.take 8)
    let explen := bits h 0 16
    let srclen := bits h 16 8
    let mode := bits h 24 4
    let base : Word := BitVec.ofNat 32 (bits h 32 32)
    let agree := if kind = 2 then mode = 4 && srclen == 8 && len8 == 0 else decide (mode ≤ 3) && srclen == 8 * len8
    if 160 < srclen || 4 < mode || bits h 28 4 != 0 || !agree || (mode == 0 && base != 0) then .error 0x19
    else
      let r := slot.take srclen
      if explen != 256 || srclen != recSize mode (slot.take 160) then .error 0x1A
      else
        let n := pop (leNat ((r.drop 8).take 16)) 128
        if mode = 0 && (r.drop (24 + 2 * n)).any (· != 0) then .error 0x19
        else
          let data := match mode with
            | 0 => zeroRun (leNat ((r.drop 8).take 16)) 128 0 (r.drop 24)
            | 4 => wordList 64 fun _ => base
            | m => wordList 64 fun i => base + deltaAt (deltaWidth m) (leNat (r.drop 8)) i
          .ok { map := map, rec_ := r, data := data }

def tileWord (data : List Byte) (i : Nat) : Word := BitVec.ofNat 32 (leNat ((data.drop (4 * i)).take 4))
def tileHalf (data : List Byte) (i : Nat) : Nat := leNat ((data.drop (2 * i)).take 2)

/-- Every delta from word 0 fits in `w` bits. -/
def deltasFit (w : Nat) (data : List Byte) : Bool :=
  (List.range 64).all fun i =>
    let d := (tileWord data i - tileWord data 0).toInt
    decide (-(2 ^ (w - 1) : Nat) ≤ d) && decide (d < (2 ^ (w - 1) : Nat))

def packDeltas (w : Nat) (data : List Byte) : Nat :=
  (List.range 64).foldl (fun x i => x + (tileWord data i - tileWord data 0).toNat % 2 ^ w * 2 ^ (w * i)) 0

def hheader (mode size : Nat) (base : Word) : List Byte := natLe 8 (256 + size * 2 ^ 16 + mode * 2 ^ 24 + base.toNat * 2 ^ 32)

def deltaRec (mode : Nat) (data : List Byte) : List Byte :=
  let w := deltaWidth mode
  hheader mode (8 + 8 * w) (tileWord data 0) ++ natLe (8 * w) (packDeltas w data)

/-- The zero-run record of a tile. -/
def zeroRec (data : List Byte) : List Byte :=
  let nz := (List.range 128).filter fun i => tileHalf data i != 0
  let size := round8up (24 + 2 * nz.length)
  hheader 0 size 0 ++ natLe 16 (nz.foldl (fun x i => x + 2 ^ i) 0) ++ nz.flatMap (fun i => natLe 2 (tileHalf data i)) ++
    List.replicate (size - (24 + 2 * nz.length)) 0

/-- The compress transform: the first form that fits within 160 bytes (R180). -/
def compress (data : List Byte) : HTile :=
  let coded (r : List Byte) : HTile := { map := 64 + r.length / 8, rec_ := r, data := data }
  if (List.range 64).all fun i => tileWord data i == tileWord data 0 then
    { map := 128, rec_ := hheader 4 8 (tileWord data 0), data := data }
  else if deltasFit 4 data then coded (deltaRec 1 data)
  else if deltasFit 8 data then coded (deltaRec 2 data)
  else if (zeroRec data).length ≤ 160 then coded (zeroRec data)
  else if deltasFit 16 data then coded (deltaRec 3 data)
  else { map := 0, rec_ := data, data := data }

-- Top-k, R184.

/-- Elements ranked: NaN above every number, then magnitude, ties to the lower index: `a` ranks before `b`. -/
def ranksBefore (a b : Nat × FVal) : Bool :=
  let mag (v : FVal) : FVal := if v.neg then v.negate else v
  if a.2.isNan != b.2.isNan then a.2.isNan
  else if !a.2.isNan && (mag b.2).lt (mag a.2) then true
  else if !a.2.isNan && (mag a.2).lt (mag b.2) then false
  else decide (a.1 < b.1)

/-- One block: its sums y with flags, from inputs and residuals. -/
def topkSums (bf16 : Bool) (ins res : List Nat) : List FRes :=
  (ins.zip res).map fun x =>
    Fmt.f32.add .rne false (if bf16 then Fmt.bf16.decode x.1 else Fmt.f32.decode x.1) (Fmt.f32.decode x.2)

/-- Element i is kept when fewer than k elements rank before it. -/
def topkKeeps (k : Nat) (vs : List (Nat × FVal)) (x : Nat × FVal) : Bool := decide ((vs.filter fun y => ranksBefore y x).length < k)

/-- The output pairs of a block whose first index is `base`, its new residual, and its flags. -/
def topkBlock (base k : Nat) (ys : List FRes) : List Byte × List Byte × BitVec 7 :=
  let vs := ys.mapIdx fun i y => (i, Fmt.f32.decode y.bits)
  let kept := vs.map (topkKeeps k vs)
  let z := ys.zip kept
  ((z.mapIdx fun i x => if x.2 then natLe 4 (base + i) ++ natLe 4 x.1.bits else []).flatten,
   z.flatMap (fun x => natLe 4 (if x.2 then 0 else x.1.bits)),
   ys.foldl (fun f y => f ||| y.exc) 0)

-- CRC-64/ECMA-182, R161.

def crcPoly : BitVec 64 := 0x42F0E1EBA9EA3693

def crcBits : Nat → BitVec 64 → BitVec 64
  | 0, c => c
  | n + 1, c => crcBits n (if c.getLsbD 63 then (c <<< 1) ^^^ crcPoly else c <<< 1)

def crc64 (bs : List Byte) : BitVec 64 := bs.foldl (fun (c : DWord) (b : Byte) => crcBits 8 (c ^^^ ((b.setWidth 64 : DWord) <<< (56 : Nat)))) 0

end Sys2Proof.Machine
end

