-- ==== Sys2Proof/Machine/Sync.lean ====
section
/-!
DEFINITION. Barrier objects (R101 to R104, R291), copy tags (R105, R298, R299, R377), queues (R304, R305) and spawning
(R52, R53, R306, R307).
-/

namespace Sys2Proof.Machine

-- Barrier objects.

/-- The words of a barrier object, R101. -/
structure BarObj where
  phase : Bool
  arr   : Nat
  arrExp : Nat
  byt   : BitVec 32
  bytExp : BitVec 32
  deriving DecidableEq, Repr

def barOf (bs : List Byte) : BarObj :=
  let w0 := leNat (bs.take 4)
  { phase := w0.testBit 31, arr := w0 % 2 ^ 31, arrExp := leNat ((bs.drop 4).take 4) % 2 ^ 31,
    byt := BitVec.ofNat 32 (leNat ((bs.drop 8).take 4)), bytExp := BitVec.ofNat 32 (leNat ((bs.drop 12).take 4)) }

/-- Word 1 [31] is reserved: an update that finds it 1 ignores it and writes it 0. The spec does not say what becomes of it (log 70, DESIGN
CHOICE). -/
def BarObj.bytes (b : BarObj) : List Byte :=
  natLe 4 (b.arr + if b.phase then 2 ^ 31 else 0) ++ natLe 4 b.arrExp ++ natLe 4 b.byt.toNat ++ natLe 4 b.bytExp.toNat

/-- The completion check that ends every update (R102). -/
def BarObj.check (b : BarObj) : BarObj :=
  if b.arr = 0 && b.byt = 0 then { b with phase := !b.phase, arr := b.arrExp, byt := b.bytExp } else b

def BarObj.arrive (b : BarObj) : BarObj := { b with arr := b.arr - 1 }.check
def BarObj.expect (n : Word) (b : BarObj) : BarObj := { b with byt := b.byt + n }.check
/-- A landing of `n` bytes. -/
def BarObj.landed (n : Nat) (b : BarObj) : BarObj := { b with byt := b.byt - BitVec.ofNat 32 n }.check

def arrivals : Nat → BarObj → BarObj
  | 0, b => b
  | n + 1, b => arrivals n b.arrive

def State.barAt (s : State) (l : Loc) : BarObj := barOf (s.readHome l 16)

/-- MT values that no barrier object or block may have (R381, R429). -/
def noBarMt : List Nat := [1, 2]

/-- A waiting thread's phase has completed. -/
def State.barMet (s : State) (t : Thread) (o : Ref) (k : Bool) : Bool :=
  match s.team t.team with
  | none => false
  | some tm =>
    match (s.asIssued 0).object tm.core t.team tm t.sup o 16 16 false noBarMt with
    | .ok (l, _) => (s.barAt l).phase != k
    | .error _ => false

/-- Note at once which waits an update has met (R56). -/
def State.markBars (s : State) : State :=
  { s with threads := mmap (fun _ t => match t.place with
      | .blocked (.bar o k) false => if s.barMet t o k then { t with place := .blocked (.bar o k) true } else t
      | _ => t) s.threads }

/-- An update at an object's home, atomic (R102). -/
def State.barUpdate (s : State) (d : Nat) (l : Loc) (f : BarObj → BarObj) : State :=
  (s.storeHome d l (f (s.barAt l)).bytes).markBars

def refOf (c : Ctx) (sp : Space) (n : BitVec 4) : Ref := { space := sp, a := c.tm.areg n.toNat }

/-- The scope of the release that an update of a barrier object is: cluster on chip, domain in global memory (R104). -/
def barScope (sp : Space) : Scope :=
  match sp with
  | .glob => .domain
  | _ => .cluster

/-- An instruction on the barrier object at [aN]; `f` gives its updates, applied one at a time (R102), after what the release waits for
(R104). -/
def State.barOp (s : State) (o : Issue) (sp : Space) (n : BitVec 4) (f : Ctx → List (BarObj → BarObj)) : Out :=
  s.issue { o with ar := [n.toNat] } fun s c =>
    let l := c.elected
    match s.objectRead c.core c.team c.tm l.th.sup (refOf c sp n) 16 16 true noBarMt with
    | .error g => .next (s.raiseOnce c l g 4)
    | .ok (x, t) =>
      if s.cutOff x || s.relWait (some (barScope sp)) c.tids then .next (s.holdFor c (l.cut (s.cutOf x (refOf c sp n).detail true)))
      else .next (((f c).foldl (fun s u => s.barUpdate c.die x u) (s.touchOpt c.who t true)).goOn c (c.after 4) 1)

def execBarinit (sp : Space) (n : BitVec 4) (b cc : Src) (s : State) : Out :=
  s.issue { srcs := [cc, b], ar := [n.toNat], once := true } fun s c =>
    let l := c.elected
    match s.objectRead c.core c.team c.tm l.th.sup (refOf c sp n) 16 16 true noBarMt with
    | .error g => .next (s.raiseOnce c l g 4)
    | .ok (x, t) =>
      let arr := (src32 .int c.tm l cc).w.toNat % 2 ^ 31
      let byt := BitVec.ofNat 32 ((src32 .int c.tm l b).w.toNat % 2 ^ 31)
      let obj : BarObj := { phase := false, arr := arr, arrExp := arr, byt := byt, bytExp := byt }
      match s.cutOf x (refOf c sp n).detail true with
      | some f => .next (s.holdFor c (some (l, f)))
      | none => .next ((((s.touchOpt c.who t true).storeHome c.die x obj.bytes).markBars).goOn c (c.after 4) 1)

def execBararv (sp : Space) (n : BitVec 4) (s : State) : Out := s.barOp {} sp n fun c => c.lns.map fun _ => BarObj.arrive

def execBarexp (sp : Space) (n : BitVec 4) (b : Src) (s : State) : Out :=
  s.barOp { srcs := [b], once := true } sp n fun c => [BarObj.expect (src32 .int c.tm c.elected b).w]

/-- A return from a wait is an acquire: the die sees every write the release carried (R104, R189). -/
def State.acquire (s : State) (d : Nat) : State := s.catchUp d

def execBarwait (sp : Space) (n : BitVec 4) (k : Src) (s : State) : Out :=
  s.issue { srcs := [k], ar := [n.toNat], noInj := true } fun s c =>
    let l := c.elected
    let r := refOf c sp n
    match s.objectRead c.core c.team c.tm l.th.sup r 16 16 false noBarMt with
    | .error g => .next (s.raiseOnce c l g 4)
    | .ok (x, t) =>
      match s.cutOf x r.detail false with
      | some f => .next (s.holdFor c (some (l, f)))
      | none =>
        let s := s.touchOpt c.who t false
        let ph := (s.barAt x).phase
        let kOf (l : Ln) : Bool := (src32 .int c.tm l k).w.getLsbD 0
        let go := c.lns.filter fun l => ph != kOf l
        let stay := c.lns.filter fun l => ph == kOf l
        let s := stay.foldl (fun s l => s.block l.tid (c.after 4) (.bar r (kOf l))) s
        let s := if go.isEmpty then s else s.acquire c.die
        .next (s.fileRaft c (go.map fun l => (l.tid, c.after 4)))

-- Copy tags.

def maskHas (m : DWord) (k : Nat) : Bool := m.getLsbD k
def tagNums : List Nat := List.range 64

/-- `.any` or `.all` of a mask is met; an empty mask is (R298). -/
def Team.tagsMet (t : Team) (all : Bool) (m : DWord) : Bool :=
  m == 0 || (if all then tagNums.all fun k => !maskHas m k || (t.ctag k).ready
    else tagNums.any fun k => maskHas m k && (t.ctag k).ready)

/-- Flags of the ready tags of a mask are merged into FLAGS once (R377). -/
def Team.observe (t : Team) (m : DWord) : Team :=
  let seen := tagNums.filter fun k => maskHas m k && (t.ctag k).ready && (t.ctag k).flags != 0
  let f := seen.foldl (fun f k => f ||| (t.ctag k).flags) 0
  let t := if f = 0 then t else t.mergeFlags f
  seen.foldl (fun t k => t.setTag k { t.ctag k with flags := 0 }) t

/-- Note at once which waits of a team's threads its tags have met. -/
def State.markTags (s : State) (team : Nat) : State :=
  match s.team team with
  | none => s
  | some tm =>
    { s with threads := mmap (fun _ t => match t.place with
        | .blocked (.tags all m) false =>
          if t.team == team && tm.tagsMet all m then { t with place := .blocked (.tags all m) true } else t
        | _ => t) s.threads }

def Team.maskOf (t : Team) : TagMask → DWord
  | .pair m => t.spair m.toNat
  | .all => 0xFFFFFFFFFFFFFFFF

def State.waitTags (s : State) (c : Ctx) (all : Bool) (m : DWord) : State :=
  if c.tm.tagsMet all m then
    ((s.updTeam c.team fun t => t.observe m).acquire c.die).fileRaft c (c.lns.map fun l => (l.tid, c.after 4))
  else (c.lns.foldl (fun s l => s.block l.tid (c.after 4) (.tags all m)) s).fileRaft c []

def execCtwaitGroup (all : Bool) (mask : BitVec 8) (g : BitVec 3) (s : State) : Out :=
  s.issue { noInj := true } fun s c => .next (s.waitTags c all (mask.setWidth 64 <<< (8 * g.toNat)))

def maskRegs : TagMask → List Nat
  | .pair m => [m.toNat, m.toNat + 1]
  | .all => []

def execCtwaitMask (all : Bool) (m : TagMask) (s : State) : Out :=
  s.issue { sr := maskRegs m, noInj := true } fun s c => .next (s.waitTags c all (c.tm.maskOf m))

/-- The word of `ctfind`, R105. -/
def Team.findTag (t : Team) (m : DWord) : Word :=
  match tagNums.find? fun k => maskHas m k && (t.ctag k).ready with
  | some k => BitVec.ofNat 32 (k + 0x100 * (t.ctag k).status)
  | none => 0xFFFFFFFF

def execCtfind (m : TagMask) (d : BitVec 5) (s : State) : Out :=
  s.issue { sr := maskRegs m, once := true } fun s c =>
    let mask := c.tm.maskOf m
    let s := s.updTeam c.team fun t => (t.observe mask).setS d.toNat (t.findTag mask)
    .next (s.goOn c (c.after 4) 1)

/-- A job is issued on a tag (R105). -/
def CTag.take (t : CTag) : CTag := { t with ready := false, count := t.count + 1, status := 0 }

/-- A job on a tag completes with a cause (0 for success) and its flags (R105, R377). -/
def CTag.finish (t : CTag) (cause : Nat) (f : BitVec 7) : CTag :=
  { ready := t.ready || decide (t.count ≤ 1), count := t.count - 1,
    status := if t.status = 0 then cause else t.status, flags := t.flags ||| f }

-- Queues.

/-- A queue's descriptor, R304, where it lies, and what of its entries and state bytes a lane has used so far: each with whether it is
written. -/
structure Queue where
  desc : List Piece
  base : Nat
  cap  : Nat
  size : Nat
  resv : Word
  pubf : Word
  take : Word
  free : Word
  used : List (Bool × Piece) := []
  deriving DecidableEq, Repr

/-- The queue that a descriptor's bytes give (R304). ESIZE 3 is taken as 16 bytes and a LOG2CAP above 16 as 2^16 entries: R304 leaves the effect of
such a descriptor open within the pages it names (log 30, DESIGN CHOICE). -/
def queueOf (ps : List Piece) (bs : List Byte) : Queue :=
  let f (o n : Nat) : Nat := leNat ((bs.drop o).take n)
  { desc := ps, base := f 0 8 % 2 ^ 57, cap := 2 ^ Nat.min 16 (f 8 4 % 32), size := 4 * 2 ^ Nat.min 2 (f 8 4 / 256 % 4),
    resv := BitVec.ofNat 32 (f 0x10 4), pubf := BitVec.ofNat 32 (f 0x14 4), take := BitVec.ofNat 32 (f 0x18 4),
    free := BitVec.ofNat 32 (f 0x1C 4) }

def Queue.frontiers (q : Queue) : List Byte := [q.resv, q.pubf, q.take, q.free].flatMap fun w => natLe 4 w.toNat

/-- p < q in positions, R304. -/
def before (p q : Word) : Bool := let d := (q - p).toNat; decide (1 ≤ d) && decide (d < 2 ^ 31)

def Queue.entryVa (q : Queue) (p : Word) : Nat := q.base + p.toNat % q.cap * q.size
def Queue.stateVa (q : Queue) (p : Word) : Nat := q.base + q.cap * q.size + p.toNat % q.cap

/-- A step on a queue: the state, and the descriptor as it then stands; a cause stops it with no change. -/
abbrev QStep := Except Fail (State × Queue)

/-- Who acts on a queue: translator, ASID, mode. -/
structure QWho where
  w    : Who
  asid : Nat
  sup  : Bool
  deriving DecidableEq, Repr

/-- `n` bytes of a queue at an address, page by page: an operation reaches nothing but what R304 names, wherever a descriptor that breaks
its table puts it. `base` is the register or field that names the address. -/
def State.qspan (s : State) (u : QWho) (base : DWord) (va n : Nat) (write : Bool) : Except Fail (List Piece) :=
  s.range u.w u.asid base (va % 2 ^ 57) n { write := write, sup := u.sup } [2]

/-- The same of an entry or a state byte; `wr`: it is written. -/
def State.quse (s : State) (u : QWho) (q : Queue) (va n : Nat) (write wr : Bool) : Except Fail (List Piece × Queue) :=
  match s.qspan u ((BitVec.ofNat 57 va).signExtend 64) va n write with
  | .error f => .error f
  | .ok ps => .ok (ps, { q with used := q.used ++ ps.map fun p => (wr, p) })

def State.qstate (s : State) (u : QWho) (q : Queue) (p : Word) : Except Fail (Nat × Queue) := do
  let (ps, q) ← s.quse u q (q.stateVa p) 1 true false
  return (leNat (s.homePieces ps), q)

def State.qput (s : State) (u : QWho) (q : Queue) (p : Word) (x : Nat) : QStep := do
  let (ps, q) ← s.quse u q (q.stateVa p) 1 true true
  return ((s.touchAll u.w ps true).putPieces u.w.die ps (natLe 1 x), q)

/-- `while PUBF != RESV and state(PUBF) == 2`. -/
def State.qpubf (s : State) (u : QWho) (q : Queue) : Nat → Except Fail Queue
  | 0 => .ok q
  | n + 1 => do
    if q.pubf == q.resv then return q
    let (x, q) ← s.qstate u q q.pubf
    if x = 2 then s.qpubf u { q with pubf := q.pubf + 1 } n else return q

/-- `while FREEF != PUBF and state(FREEF) == 3`. -/
def State.qfree (s : State) (u : QWho) (q : Queue) : Nat → QStep
  | 0 => .ok (s, q)
  | n + 1 => do
    if q.free == q.pubf then return (s, q)
    let (x, q) ← s.qstate u q q.free
    if x = 3 then
      let (s, q) ← s.qput u q q.free 0
      s.qfree u { q with free := q.free + 1 } n
    else return (s, q)

/-- Take the entry at a published position (R305): its bytes, state 3, the free frontier. -/
def State.qreceive (s : State) (u : QWho) (q : Queue) (p : Word) : Except Fail (State × Queue × List Byte) := do
  let (ps, q) ← s.quse u q (q.entryVa p) q.size false false
  let (s1, q) ← (s.touchAll u.w ps false).qput u q p 3
  let (s2, q) ← s1.qfree u q q.cap
  return (s2, q, s.homePieces ps)

/-- The frontiers are written back to the descriptor. -/
def State.qsave (s : State) (d : Nat) (q : Queue) : State := s.putPieces d (subPieces q.desc 0x10 16) q.frontiers

def wordsOf : Nat → List Byte → List Word
  | 0, _ => []
  | n + 1, bs => BitVec.ofNat 32 (leNat (bs.take 4)) :: wordsOf n (bs.drop 4)

/-- One lane of a queue instruction: what its thread becomes, whether it blocks, and what it used. -/
structure QLane where
  tid   : Nat
  th    : Thread
  block : Option Word := none
  used  : List (Bool × Piece) := []
  deriving DecidableEq, Repr

def qresLane (k : BitVec 3) (d : BitVec 6) (u : QWho) (s : State) (q : Queue) (l : Ln) : Except Fail (State × Queue × QLane) := do
  if q.cap ≤ (q.resv - q.free).toNat then return (s, q, { tid := l.tid, th := l.th.setPred k false })
  let p := q.resv
  let (s, q) ← s.qput u q p 1
  return (s, { q with resv := p + 1 }, { tid := l.tid, th := (l.th.setReg d.toNat p tU32).setPred k true })

def qpubLane (b : Team → Ln → Word) (t : Team) (u : QWho) (s : State) (q : Queue) (l : Ln) : Except Fail (State × Queue × QLane) := do
  let p := b t l
  let (x, q) ← s.qstate u q p
  let (s, q) ← if x = 1 && (p == q.pubf || before q.pubf p) && before p q.resv then s.qput u q p 2 else .ok (s, q)
  let q ← s.qpubf u q (Nat.min q.cap (q.resv - q.pubf).toNat)
  return (s, q, { tid := l.tid, th := l.th })

def qtakeLane (d : BitVec 6) (u : QWho) (s : State) (q : Queue) (l : Ln) : Except Fail (State × Queue × QLane) := do
  let p := q.take
  let q := { q with take := p + 1 }
  let th := l.th.setReg d.toNat p tNone
  if before p q.pubf then
    let (s, q, bs) ← s.qreceive u q p
    return (s, q, { tid := l.tid, th := setRegs d.toNat tNone (wordsOf (q.size / 4) bs) th })
  else return (s, q, { tid := l.tid, th := th, block := some p })

/-- The lanes of one instruction in ascending order (R304); one that meets a cause changes nothing, and the others go on (R370). -/
def qLanes (f : State → Queue → Ln → Except Fail (State × Queue × QLane)) :
    State → Queue → List Ln → State × Queue × List (Ln × Except Fail QLane)
  | s, q, [] => (s, q, [])
  | s, q, l :: r =>
    match f s { q with used := [] } l with
    | .error e =>
      let (s, q, xs) := qLanes f s q r
      (s, q, (l, .error e) :: xs)
    | .ok (s, q, x) =>
      let (s, q', xs) := qLanes f s q r
      (s, q', (l, .ok { x with used := q.used }) :: xs)

def Ctx.qwho (c : Ctx) : QWho := { w := c.who, asid := c.tm.asid, sup := c.elected.th.sup }

/-- An entry or a state byte that a lane used must be waited for: for the checker, or because it cannot be reached yet. -/
def State.qwait (s : State) (c : Ctx) (x : QLane) : Bool :=
  x.used.any fun y => s.shut y.2.loc || s.conflict c.cluster [gRng c.tm.asid y.2.va y.2.n y.1]

/-- What no link reaches of them. -/
def State.qcut (s : State) (x : QLane) : Option Fail := x.used.findSome? fun y => s.cutIn [y.2] true

/-- Poison found at some pieces that a queue operation reads (R395). -/
def State.queuePoison (s : State) (ps : List Piece) : Option Fail :=
  (s.poisonIn ps).map fun va => { cause := 0x60, detail := BitVec.ofNat 64 va, write := true }

/-- Of the pieces used, those read. -/
def readsOf (l : List (Bool × Piece)) : List Piece := (l.filter fun y => !y.1).map (·.2)

/-- What a lane read of them is poisoned. -/
def State.qpoison (s : State) (x : QLane) : Option Fail := s.queuePoison (readsOf x.used)

/-- A queue instruction on the descriptor at [aN]: one atomic step at its home per lane; `rel`: it is a release (R305). -/
def State.queueOp (s : State) (o : Issue) (n : BitVec 4) (rel : Option Scope) (f : Ctx → State → Queue → Ln → Except Fail (State × Queue × QLane))
    (done : State → Ctx → List QLane → Out) (some_ : State → Ctx → List QLane → State) : Out :=
  s.issue { o with ar := [n.toNat] } fun s c =>
    let a := c.tm.areg n.toNat
    let l := c.elected
    match s.qspan c.qwho a (a.toNat % 2 ^ 57) 64 true with
    | .error g => .next (s.raiseOnce c l g 4)
    | .ok ps =>
      if (ps.any fun p => s.shut p.loc) || s.conflict c.cluster [gRng c.tm.asid (a.toNat % 2 ^ 57) 64 true] || s.relWait rel c.tids then
        .next (s.holdFor c (l.cut (s.cutIn ps true)))
      else match s.queuePoison ps with
      | some f => .next (s.raise c l f 4)
      | none =>
        let (s1, q, xs) := qLanes (f c) (s.touchAll c.who ps true) (queueOf ps (s.homePieces ps)) c.lns
        let commit (ys : List (Ln × QLane)) : State :=
          let s2 := s1.qsave c.die q
          { s2 with threads := putThreads (ys.map fun (y : Ln × QLane) => (y.2.tid, y.2.th)) s2.threads }
        s.access c 4 xs (fun x => s.qwait c x.2) (fun x => s.qpoison x.2) (fun _ ys => done (commit ys) c (ys.map (·.2)))
          (fun _ ys => some_ (commit ys) c (ys.map (·.2))) (fun x => s.qcut x.2)

def execQres (k : BitVec 3) (n : BitVec 4) (d : BitVec 6) (s : State) : Out :=
  s.queueOp {} n none (fun c => qresLane k d c.qwho) (fun s c _ => .next (s.goOn c (c.after 4) 1)) fun s _ _ => s

def execQpub (n : BitVec 4) (b : Src) (s : State) : Out :=
  s.queueOp { srcs := [b] } n (some .domain) (fun c => qpubLane (fun t l => (src32 .int t l b).w) c.tm c.qwho)
    (fun s c _ => .next (s.goOn c (c.after 4) 1)) fun s _ _ => s

/-- Threads whose position is not published block; a return is an acquire (R305). -/
def State.qtakeEnd (s : State) (c : Ctx) (n : BitVec 4) (d : BitVec 6) (xs : List QLane) : State :=
  let s := xs.foldl (fun s x => match x.block with
    | some p => s.block x.tid (c.after 4) (.queue (c.tm.areg n.toNat) p d)
    | none => s) s
  if xs.all fun x => x.block.isSome then s else s.acquire c.die

def execQtake (n : BitVec 4) (d : BitVec 6) (s : State) : Out :=
  s.queueOp { noInj := true } n none (fun c => qtakeLane d c.qwho)
    (fun s c xs => .next ((s.qtakeEnd c n d xs).fileRaft c ((xs.filter fun x => x.block.isNone).map fun x => (x.tid, c.after 4))))
    fun s c xs => s.qtakeEnd c n d xs

-- Spawning.

/-- Threads other than injected ones that a core can hold, R38. -/
def threadLimit : Nat := 2032
def teamLimit : Nat := 1024

/-- The lowest number that is in no list, from `k` up. -/
def lowestFree (used : List Nat) : Nat → Nat → Nat
  | k, 0 => k
  | k, n + 1 => if used.contains k then lowestFree used (k + 1) n else k

def State.teamCount (s : State) (team : Nat) : Nat := ((s.threadsOf team).filter fun t => t.2.inj.isNone).length

/-- A thread can be created (R52). -/
def State.canSpawn (s : State) (core team : Nat) : Bool :=
  decide (s.slotsUsed core < threadLimit) && decide (s.teamCount team < teamLimit)

/-- Create one thread for a spawner: number of R39, WID of the spawner, v0 to v3 from vG (R306). -/
def State.spawnOne (s : State) (core team : Nat) (sp : Thread) (pc : VAddr) (g : Nat) : State :=
  let used := (s.threadsOf team).map (·.2.tnum)
  let regs := (List.range 4).foldl (fun (m : Map VReg) j => mputD {} j (sp.reg (g + j)) m) []
  let t : Thread := { team := team, tnum := lowestFree used 0 teamLimit, wid := sp.wid, pc := pc, v := regs }
  { s with threads := mput s.fresh t s.threads, fresh := s.fresh + 1 }.fileThread core s.fresh pc

/-- Lanes in ascending order: once one finds no room it and the later ones create nothing (R306). -/
def State.spawnLanes (s : State) (c : Ctx) (pc : Ln → VAddr) (g : Nat) : List Ln → State × List (Ln × Bool)
  | [] => (s, [])
  | l :: r =>
    if s.canSpawn c.core c.team then
      let (s', xs) := (s.spawnOne c.core c.team l.th (pc l) g).spawnLanes c pc g r
      (s', (l, true) :: xs)
    else (s, (l :: r).map fun l => (l, false))

def execSpawnT (try_ : Bool) (g : BitVec 4) (b : Src) (k : BitVec 3) (s : State) : Out :=
  let gr := 4 * g.toNat
  s.issue { srcs := [b], vr := [gr, gr + 1, gr + 2, gr + 3], noInj := true } fun s c =>
    let pc (l : Ln) : VAddr := c.tm.codebase + (src32 .int c.tm l b).w.setWidth 57
    match c.raiser fun l => (src32 .int c.tm l b).w.getLsbD 0 with
    | some l => .next (s.raise c l { cause := 0x06 } 4)
    | none =>
      let (s, xs) := s.spawnLanes c pc gr c.lns
      if try_ then
        let s := { s with threads := putThreads (xs.map fun (x : Ln × Bool) => (x.1.tid, x.1.th.setPred k x.2)) s.threads }
        .next (s.goOn c (c.after 4) 1)
      else if xs.all (·.2) then .next (s.goOn c (c.after 4) 1)
      else
        let s := xs.foldl (fun s x => if x.2 then s else
          s.block x.1.tid (c.after 4) (.spawnT ((pc x.1).setWidth 64) gr)) s
        .next (s.fileRaft c ((xs.filter (·.2)).map fun x => (x.1.tid, c.after 4)))

def storeLimit : Nat := 256

/-- An entry into the slice's pending-launch store, for the queue that launched the spawning kernel (R53, R334). -/
def State.pend (s : State) (t : Team) (addr : DWord) (hdr : List Byte) : State :=
  s.updSlice t.slice fun x => { x with store := x.store ++ [(t.queue, addr, hdr)] }

def State.storeRoom (s : State) (k : Nat) : Bool := decide ((s.slice k).store.length < storeLimit)

/-- Feature bits accepted by the driver, R353. -/
def State.feature (s : State) (k : Nat) : Bool := s.hub.accepted.getLsbD k

/-- `spawn.k`: a release at system scope (R307). -/
def execSpawnK (try_ : Bool) (n : BitVec 4) (k : BitVec 3) (s : State) : Out :=
  if !s.feature 5 then s.unassigned 4
  else s.issue { ar := [n.toNat], noInj := true } fun s c =>
    let a := c.tm.areg n.toNat
    let l := c.elected
    match s.laneAddr c l a 0 128 false [] with
    | .error f => .next (s.raiseOnce c l f 4)
    | .ok x =>
      if s.laneWait c 128 false x || s.cutOff x.1.loc || s.sending c.tids then .next (s.holdFor c (l.cut (s.cutOf x.1.loc (x.2.setWidth 64) false)))
      else match s.lanePsn 128 false x with
      | some f => .next (s.raise c l f 4)
      | none =>
        let ea := x.2.setWidth 64
        let hdr := s.readAt c.die x.1.loc 128
        let s := (s.touch c.who x.1.tlb false).fillL1 c.core x.1.loc 128
        let room := s.storeRoom c.tm.slice
        let s := if room then s.pend c.tm ea hdr else s
        if try_ then
          let s := { s with threads := putThreads (c.lns.map fun (l : Ln) => (l.tid, l.th.setPred k room)) s.threads }
          .next (s.goOn c (c.after 4) 1)
        else if room then .next (s.goOn c (c.after 4) 1)
        else
          let s := c.lns.foldl (fun s x => s.block x.tid (c.after 4) (.spawnK ea (if x.tid = l.tid then hdr else []) l.tid)) s
          .next (s.fileRaft c [])

end Sys2Proof.Machine
end

