-- ==== Sys2Proof/Machine/Matrix.lean ====
section
/-!
DEFINITION. Matrix arrays: issue checks (R166 to R172, R314 to R318), the queue and its runs (R173 to R176, R315, R406), the sums
(R91), and `mwait` (R319, R407).
-/

namespace Sys2Proof.Machine

-- Combinations and shapes, R170.

/-- What a combination of type codes fixes: G, K0, and the tag of C. -/
structure Combo where
  g  : Nat
  k0 : Nat
  c  : BitVec 4
  deriving DecidableEq, Repr

def comboOf (a b : Nat) : Option Combo :=
  match a, b with
  | 4, 4 => some ⟨1, 16, tF64⟩
  | 3, 3 => some ⟨4, 32, tF32⟩
  | 5, 5 => some ⟨16, 64, tF32⟩
  | 6, 6 => some ⟨16, 64, tF32⟩
  | 7, 7 => some ⟨32, 128, tF32⟩
  | 8, 7 => some ⟨32, 128, tF32⟩
  | 7, 8 => some ⟨32, 128, tF32⟩
  | 9, 9 => some ⟨32, 128, tI32⟩
  | 10, 10 => some ⟨64, 256, tF32⟩
  | 5, 10 => some ⟨16, 64, tF32⟩
  | 7, 10 => some ⟨32, 128, tF32⟩
  | _, _ => none

def shapeM (u : Nat) : Nat := 32 * 2 ^ (u / 8 % 4)
def shapeN (u : Nat) : Nat := 32 * 2 ^ (u / 2 % 4)
def shapeK (u k0 : Nat) : Nat := k0 * (u % 2 + 1)

/-- Bytes of n elements of a type, with its group scales for N4P (R168). -/
def opBytes (ty n : Nat) : Nat :=
  match ty with
  | 4 => 8 * n | 3 => 4 * n | 5 => 2 * n | 6 => 2 * n | 10 => n / 2 + n / 64 * 2 | _ => n

/-- Bytes of A under `mmas`: headed lines of 128 bytes (R175). -/
def lineElems (ty : Nat) : Nat := if ty = 5 || ty = 6 then 64 else 128
def sparseBytes (ty m k : Nat) : Nat := 128 * m * (k / lineElems ty)

/-- Tiles per block of C: two for F64 (R167). -/
def blockTiles (c : BitVec 4) : Nat := if c = tF64 then 2 else 1

def regionSize : Nat := 0x4000
def tileSize : Nat := 0x1000
def regionsFor (n : Nat) : Nat := (n + regionSize - 1) / regionSize

-- Ranges.

def spadRng (core : Nat) (t : Team) (off n : Nat) (w : Bool) : Rng :=
  { space := 1, unit := core, lo := t.spad0 * 0x1000 + off, n := n, write := w }
def tileRng (core : Nat) (t : Team) (d n : Nat) (w : Bool) : Rng :=
  { space := 3, unit := core, lo := (t.acc0 + d) * tileSize, n := n * tileSize, write := w }
def regionRng (core : Nat) (t : Team) (d n : Nat) (w : Bool) : Rng :=
  { space := 4, unit := core, lo := (t.wb0 + d) * regionSize, n := n * regionSize, write := w }

def State.tileTag (s : State) (core : Nat) (t : Team) (d : Nat) : BitVec 4 := mget tNone (core * 128 + t.acc0 + d) s.accTag
def State.regionTag (s : State) (core : Nat) (t : Team) (d : Nat) : BitVec 4 := mget tNone (core * 64 + t.wb0 + d) s.wbTag

/-- A command that passed its checks: its fields, what it reads, its C footprint, its first tile or region, the flag FI. -/
structure MPass where
  op    : MOp
  reads : List Rng
  cfoot : List Rng
  flags : BitVec 7
  deriving DecidableEq, Repr

def mfail (cause : Nat) (detail : Nat) : Except Fail MPass := .error { cause := cause, detail := BitVec.ofNat 64 detail }

/-- The checks of R172 for `mma` and `mmas`; `sa` and `sb` are the words of R168. (Log 11, DEDUCED.) B's type is the tag of the region named,
also where that lies beyond the grant, whoever holds it: the checks of types come before 0x22, and the spec does not say which type such a B
has (log 76, DESIGN CHOICE). -/
def State.mmaCheck (s : State) (core : Nat) (t : Team) (sparse : Bool) (aty shape : Nat) (wb : Bool) (tile sa sb : Nat) :
    Except Fail MPass :=
  let apl := bits sa 30 2
  let bpl := bits sb 30 2
  let aoff := bits sa 0 18
  let boff := bits sb 0 18
  let reg := bits sb 0 6
  let rtag := s.regionTag core t reg
  let bty := if wb && rtag != tNone then rtag.toNat else aty
  if 12 ≤ aty || bits sa 18 12 != 0 || bits sb 18 12 != 0 || apl = 1 || bpl = 1 || (apl != 0 && aty != 10) ||
      (bpl != 0 && bty != 10) || (wb && bits sb 6 12 != 0) then mfail 0x01 0
  else
    let m := shapeM shape
    let n := shapeN shape
    if shape / 8 % 4 = 3 || shape / 2 % 4 = 3 || (aty = 4 && (decide (64 < m) || decide (64 < n))) then mfail 0x21 0
    else
      match comboOf aty bty with
      | none => mfail 0x20 0
      | some k =>
        if sparse && !(aty == 5 || aty == 6 || aty == 7 || aty == 8 || aty == 9) then mfail 0x20 0
        else
          let kk := shapeK shape k.k0
          let tiles := m / 32 * (n / 32) * blockTiles k.c
          let asz := if sparse then sparseBytes aty m kk else opBytes aty (m * kk)
          let bsz := opBytes bty (n * kk)
          let regs := if wb then regionsFor bsz else 0
          if t.accN < tile + tiles || (wb && decide (t.wbN < reg + regs)) then mfail 0x22 0
          else
            let ct := (List.range tiles).map fun j => s.tileTag core t (tile + j)
            if wb && (List.range regs).any fun j => s.regionTag core t (reg + j) != rtag then mfail 0x04 2
            else if ct.any fun x => x != k.c && x != tNone then mfail 0x04 3
            else if aoff % 64 != 0 || (!wb && boff % 64 != 0) then mfail 0x06 0
            else if t.spadN * 0x1000 < aoff + asz then mfail 0x14 aoff
            else if !wb && decide (t.spadN * 0x1000 < boff + bsz) then mfail 0x14 boff
            else .ok {
              op := .mma sparse aty bty wb shape aoff apl (if wb then reg else boff) bpl tile
              reads := [spadRng core t aoff asz false, if wb then regionRng core t reg regs false else spadRng core t boff bsz false]
              cfoot := [tileRng core t tile tiles true]
              flags := flag (ct.any (· == tNone) || (wb && rtag == tNone)) fFI }

/-- C tiles and weight-buffer regions that a command names, first and number, team-relative. -/
def MOp.tiles : MOp → Nat × Nat
  | .mma _ a b _ shape _ _ _ _ tile => (tile, shapeM shape / 32 * (shapeN shape / 32) * blockTiles ((comboOf a b).map (·.c) |>.getD tF32))
  | .mzero tile n => (tile, n)
  | .mldw _ _ _ => (0, 0)
  | .macld _ tile n => (tile, n)
  | .macst _ tile n => (tile, n)
def MOp.regions : MOp → Nat × Nat
  | .mldw _ n r => (r, regionsFor n)
  | _ => (0, 0)

/-- A command is covered by a range of tiles, or of regions for `.wb` (R319). -/
def MOp.covered (o : MOp) (wb : Bool) (first cnt : Nat) : Bool :=
  let x := if wb then o.regions else o.tiles
  overlaps x.1 x.2 first cnt

-- The queue.

def queueLimit : Nat := 8

def MCmd.order (m : MCmd) : Nat := m.id

/-- Put a command in the queue at its issue position, after those that run (R173, R177). -/
def mqInsert (m : MCmd) : List MCmd → List MCmd
  | [] => [m]
  | x :: r => if x.running || decide (x.id < m.id) then x :: mqInsert m r else m :: x :: r

/-- Places of a core's queue that are taken (R173): by its commands, and by the follow-ons of its cards, each of which keeps a place from the
issue of its card, so that it enters in the cycle that R177 names. (Log 77, DEDUCED.) -/
def State.mPlaces (s : State) (core : Nat) : Nat :=
  (s.core core).mq.length + (s.jobs.filter fun j => j.2.core == core && j.2.follow.isSome).length

/-- No place is left. -/
def State.mFull (s : State) (core : Nat) : Bool := decide (queueLimit ≤ s.mPlaces core)

/-- Issue a command: it holds its pipe where the queue or the checker is full (R173, R411). -/
def State.mIssue (s : State) (c : Ctx) (p : Except Fail MPass) (tags : State → State) : Out :=
  match p with
  | .error f => .next (s.raise c c.elected f 4)
  | .ok x =>
    if s.mFull c.core || s.checkerFull c.cluster then .next (s.hold c)
    else
      let m : MCmd := { id := s.fresh, team := c.team, op := x.op, reads := x.reads, cfoot := x.cfoot, issued := s.now, flags := x.flags }
      let s : State := { s with fresh := s.fresh + 1 }
      let s := tags (s.updCore c.core fun k => { k with mq := mqInsert m k.mq })
      .next (s.goOn c (c.after 4) 1)

def State.mmaIssue (s : State) (sparse : Bool) (ty : BitVec 4) (shape : BitVec 5) (wb : Bool) (n : BitVec 5) (tile : BitVec 7) : Out :=
  s.issue { sr := [n.toNat, n.toNat + 1], once := true } fun s c =>
    s.mIssue c (s.mmaCheck c.core c.tm sparse ty.toNat shape.toNat wb tile.toNat (c.tm.sreg n.toNat).toNat
      (c.tm.sreg (n.toNat + 1)).toNat) id

def execMma (ty : BitVec 4) (shape : BitVec 5) (wb : Bool) (n : BitVec 5) (tile : BitVec 7) (s : State) : Out :=
  s.mmaIssue false ty shape wb n tile
def execMmas (ty : BitVec 4) (shape : BitVec 5) (wb : Bool) (n : BitVec 5) (tile : BitVec 7) (s : State) : Out :=
  s.mmaIssue true ty shape wb n tile

/-- Tags of tiles or regions set at issue (R315). -/
def State.tagTiles (s : State) (core : Nat) (t : Team) (d n : Nat) (tag : BitVec 4) : State :=
  { s with accTag := (List.range n).foldl (fun m j => mputD tNone (core * 128 + t.acc0 + d + j) tag m) s.accTag }
def State.tagRegions (s : State) (core : Nat) (t : Team) (d n : Nat) (tag : BitVec 4) : State :=
  { s with wbTag := (List.range n).foldl (fun m j => mputD tNone (core * 64 + t.wb0 + d + j) tag m) s.wbTag }

/-- `mzero.type accD, n`: the fields hold n - 1 (R316). -/
def execMzero (ty : BitVec 4) (n tile : BitVec 7) (s : State) : Out :=
  s.issue { once := true } fun s c =>
    let k := n.toNat + 1
    let p := if c.tm.accN < tile.toNat + k then mfail 0x22 0
      else .ok { op := .mzero tile.toNat k, reads := [], cfoot := [tileRng c.core c.tm tile.toNat k true], flags := 0 }
    s.mIssue c p fun s => s.tagTiles c.core c.tm tile.toNat k ty

def execMldw (ty : BitVec 4) (n : BitVec 4) (b : Src) (region : BitVec 6) (s : State) : Out :=
  s.issue { srcs := [b], ar := [n.toNat], once := true } fun s c =>
    let len := (src32 .int c.tm c.elected b).w.toNat
    let off := ((c.tm.areg n.toNat).setWidth 32).toNat
    let regs := regionsFor len
    let p :=
      if c.tm.wbN < region.toNat + regs then mfail 0x22 0
      else if len = 0 || len % 64 != 0 || decide (0x100000 < len) || off % 64 != 0 then mfail 0x06 0
      else if c.tm.spadN * 0x1000 < off + len then mfail 0x14 off
      else .ok { op := .mldw off len region.toNat, reads := [spadRng c.core c.tm off len false],
                 cfoot := [regionRng c.core c.tm region.toNat regs true], flags := 0 }
    s.mIssue c p fun s => s.tagRegions c.core c.tm region.toNat regs ty

def macCheck (c : Ctx) (n : BitVec 4) (tile k : Nat) (store : Bool) : Except Fail MPass :=
  let off := ((c.tm.areg n.toNat).setWidth 32).toNat
  if c.tm.accN < tile + k then mfail 0x22 0
  else if off % 64 != 0 then mfail 0x06 0
  else if c.tm.spadN * 0x1000 < off + k * tileSize then mfail 0x14 off
  else if store then .ok { op := .macst off tile k, reads := [],
                           cfoot := [tileRng c.core c.tm tile k false, spadRng c.core c.tm off (k * tileSize) true], flags := 0 }
  else .ok { op := .macld off tile k, reads := [spadRng c.core c.tm off (k * tileSize) false],
             cfoot := [tileRng c.core c.tm tile k true], flags := 0 }

def execMacld (ty : BitVec 4) (n : BitVec 4) (cnt tile : BitVec 7) (s : State) : Out :=
  s.issue { ar := [n.toNat], once := true } fun s c =>
    let k := cnt.toNat + 1
    s.mIssue c (macCheck c n tile.toNat k false) fun s => s.tagTiles c.core c.tm tile.toNat k ty

def execMacst (n : BitVec 4) (cnt tile : BitVec 7) (s : State) : Out :=
  s.issue { ar := [n.toNat], once := true } fun s c => s.mIssue c (macCheck c n tile.toNat (cnt.toNat + 1) true) id

-- Sums, R91.

/-- An exact value, and whether forming it was invalid. -/
abbrev Term := FVal × Bool

def tyFmt (ty : Nat) : Fmt :=
  match ty with
  | 4 => .f64 | 5 => .bf16 | 6 => .f16 | 7 => .e4m3 | 8 => .e5m2 | _ => .f32

def bytesAt (f : Nat → Byte) (off : Nat) : Nat → List Byte
  | 0 => []
  | n + 1 => f off :: bytesAt f (off + 1) n

/-- The codes of an N4P pair from the planes read: without the low ones there is no outlier rule (R90). -/
def n4pVal (planes c d : Nat) (odd : Bool) : Option FVal :=
  if planes = 0 then (if odd then (pairVals c d).2 else (pairVals c d).1)
  else
    let mask := if planes = 2 then 12 else 14
    some (codeVal ((if odd then d else c) &&& mask))

/-- Element k of row r of an operand of K columns held densely (R168); an N4P operand has `rows` rows before its scales. -/
def denseTerm (ty planes rows : Nat) (f : Nat → Byte) (kk r k : Nat) : Term :=
  if ty = 10 then
    let grp := r * (kk / 64) + k / 64
    let plane (b : Nat) : Nat := leNat (bytesAt f (grp * 32 + 8 * b) 8)
    let e := k % 64
    let sg := Fmt.bf16.decode (leNat (bytesAt f (rows * kk / 2 + 2 * grp) 2))
    let v := n4pVal planes (codeAt plane (e / 2 * 2)) (codeAt plane (e / 2 * 2 + 1)) (e % 2 == 1)
    (scaled sg v, sg.isSig || (match v with
      | some x => mulInvalid x sg
      | none => false))
  else if ty = 9 then (intVal (f (r * kk + k)).toInt, false)
  else
    let w := opBytes ty 1
    let v := (tyFmt ty).decode (leNat (bytesAt f ((r * kk + k) * w) w))
    (v, v.isSig)

/-- A headed line (R175): mask bits, capacity in values, and how many are present before element i. -/
def maskBit (f : Nat → Byte) (line i : Nat) : Bool := (f (128 * line + i / 8)).getLsbD (i % 8)
def presentBefore (f : Nat → Byte) (line : Nat) : Nat → Nat
  | 0 => 0
  | i + 1 => presentBefore f line i + if maskBit f line i then 1 else 0
def lineCap (ty : Nat) : Nat := if ty = 5 || ty = 6 then 60 else 112

def sparseTerm (ty : Nat) (f : Nat → Byte) (kk r k : Nat) : Term :=
  let per := lineElems ty
  let line := r * (kk / per) + k / per
  let i := k % per
  let at_ := presentBefore f line i
  if maskBit f line i && decide (at_ < lineCap ty) then
    let w := opBytes ty 1
    let x := leNat (bytesAt f (128 * line + per / 8 + at_ * w) w)
    if ty = 9 then (intVal (BitVec.ofNat 8 x).toInt, false) else let v := (tyFmt ty).decode x; (v, v.isSig)
  else (.fin false 0 0, false)

/-- Some line holds more mask bits than values (R175). -/
def overfull (ty : Nat) (f : Nat → Byte) (lines : Nat) : Bool :=
  (List.range lines).any fun l => decide (lineCap ty < presentBefore f l (lineElems ty))

/-- Every aligned group of 4 elements of every line has at most 2 present (R176). -/
def halfRate (ty : Nat) (f : Nat → Byte) (lines : Nat) : Bool :=
  (List.range lines).all fun l => (List.range (lineElems ty / 4)).all fun g =>
    decide (presentBefore f l (4 * g + 4) - presentBefore f l (4 * g) ≤ 2)

def Term.mul (a b : Term) : Term := (a.1.mul b.1, a.2 || b.2 || mulInvalid a.1 b.1)

/-- The exact sum of a group as a value, with IV. -/
def groupSum (l : List Term) : FVal × Bool :=
  let vs := l.map (·.1)
  let iv := (l.any (·.2)) || sumInvalid vs
  if iv || vs.any FVal.isNan then (.nan false, iv)
  else match vs.find? FVal.isInf with
    | some v => (v, false)
    | none =>
      let k := minExp vs 0
      let t := sumAt k vs
      if t = 0 then (.fin (vs.all fun v => v.isZero && v.neg) 0 0, false) else (.fin (decide (t < 0)) t.natAbs k, false)

/-- Group by group in ascending K (R91): the accumulator's bits and flags. `n` groups remain from k. -/
def accumulate (f : Fmt) (g : Nat) (t : Nat → Term) : Nat → Nat → FRes → FRes
  | 0, _, acc => acc
  | n + 1, k, acc =>
    let x := groupSum ((List.range g).map fun j => t (k + j))
    let r := f.add .rne false (f.decode acc.bits) x.1
    accumulate f g t n (k + g) { bits := r.bits, exc := acc.exc ||| r.exc ||| flag x.2 fIV }

/-- Integer group sums wrap (R91). -/
def intSum (t : Nat → Term) : Nat → Int
  | 0 => 0
  | n + 1 => intSum t n + sumAt 0 [(t n).1]

/-- Byte offset of C(m, n) from the first tile of the command (R167). -/
def cOffset (shapeNn : Nat) (c : BitVec 4) (m n : Nat) : Nat :=
  let w := blockTiles c
  let blk := (m / 32 * (shapeNn / 32) + n / 32) * w
  if w = 2 then (blk + m % 32 / 16) * tileSize + 8 * (32 * (m % 16) + n % 32) else blk * tileSize + 4 * (32 * (m % 32) + n % 32)

-- Runs.

def aKey (core : Nat) (t : Team) (off : Nat) : Nat := spadKey core (t.spad0 * 0x1000 + off)
def tKey (core : Nat) (t : Team) (tile : Nat) : Nat := accKey core (t.acc0 + tile) 0
def rKey (core : Nat) (t : Team) (reg : Nat) : Nat := wbKey core (t.wb0 + reg) 0

def State.aByte (s : State) (core : Nat) (t : Team) (off i : Nat) : Byte := mget 0 (aKey core t off + i) s.spad
def State.bByte (s : State) (core : Nat) (t : Team) (wb : Bool) (off i : Nat) : Byte :=
  if wb then mget 0 (rKey core t off + i) s.wbuf else mget 0 (aKey core t off + i) s.spad

/-- The lines that `mmas` reads. -/
def linesOf (aty shape k0 : Nat) : Nat := shapeM shape * (shapeK shape k0 / lineElems aty)

/-- Run cycles, R171, R176, R316 to R318. -/
def State.runCycles (s : State) (core : Nat) (t : Team) : MOp → Nat
  | .mma sparse aty bty _ shape aoff apl _ bpl _ =>
    match comboOf aty bty with
    | none => 1
    | some k =>
      let n := shapeM shape / 32 * (shapeN shape / 32) * (shapeK shape k.k0 / k.g)
      let pl (x : Nat) : Nat := if x = 0 then 4 else x
      if aty = 10 && bty = 10 then n * Nat.max (pl apl) (pl bpl) / 4
      else if sparse && halfRate aty (s.aByte core t aoff) (linesOf aty shape k.k0) then (n + 1) / 2
      else n
  | .mzero _ n => (n + 3) / 4
  | .mldw _ n _ => (n + 127) / 128
  | .macld _ _ n => 32 * n
  | .macst _ _ n => 32 * n

/-- The result of a multiply: C's bytes by offset from its first tile, and the flags. -/
def State.mmaRun (s : State) (core : Nat) (t : Team) (sparse : Bool) (aty bty : Nat) (wb : Bool) (shape aoff apl boff bpl tile : Nat)
    (k : Combo) : State × BitVec 7 :=
  let m := shapeM shape
  let n := shapeN shape
  let kk := shapeK shape k.k0
  let fa := s.aByte core t aoff
  let fb := s.bByte core t wb boff
  let a (i j : Nat) : Term := if sparse then sparseTerm aty fa kk i j else denseTerm aty apl m fa kk i j
  let b (i j : Nat) : Term := denseTerm bty bpl n fb kk i j
  let w := if k.c = tF64 then 8 else 4
  let f : Fmt := if k.c = tF64 then .f64 else .f32
  let key := tKey core t tile
  let cell (x : Nat) : Nat × FRes :=
    let i := x / n
    let j := x % n
    let off := key + cOffset n k.c i j
    let old := leNat (mgets 0 s.acc off w)
    let p (q : Nat) : Term := (a i q).mul (b j q)
    if k.c = tI32 then (off, { bits := ((BitVec.ofNat 32 old : Word) + BitVec.ofInt 32 (intSum p kk)).toNat })
    else (off, accumulate f k.g p (kk / k.g) 0 { bits := old })
  let rs := (List.range (m * n)).map cell
  let s' := rs.foldl (fun s r => s.putAcc r.1 (natLe w r.2.bits)) s
  (s', rs.foldl (fun f r => f ||| r.2.exc) (flag (sparse && overfull aty fa (linesOf aty shape k.k0)) fFI))

/-- Granules of a range of C tiles become poisoned (R406). -/
def State.poisonTiles (s : State) (core : Nat) (t : Team) (d n : Nat) : State :=
  let g0 := tKey core t d / 8
  { s with psnAcc := (List.range (n * 512)).foldl (fun p j => insertNew (g0 + j) p) s.psnAcc }

/-- A granule that a range lies in is poisoned. -/
def State.rngPoison (s : State) (r : Rng) : Bool :=
  match r.space with
  | 1 => hasPsn 8 (spadKey r.unit r.lo) r.n s.psnSpad
  | 3 => hasPsn 8 (accKey r.unit 0 r.lo) r.n s.psnAcc
  | 4 => hasPsn 8 (wbKey r.unit 0 r.lo) r.n s.psnWb
  | _ => false

/-- A range of a scratchpad meets a granule that its team has transferred out (R95). (Log 16, DEDUCED.) -/
def State.rngGone (s : State) (cl core team : Nat) (r : Rng) : Bool :=
  r.space == 1 && (List.range (r.n / 0x1000 + 2)).any fun g =>
    decide ((r.lo / 0x1000 + g) * 0x1000 < r.lo + r.n) && s.transferred cl core team (r.lo / 0x1000 + g)

/-- Poison that `macst` carries from tiles to scratchpad (R406). -/
def State.carryPoison (s : State) (src dst n : Nat) : State :=
  let ks := (s.psnAcc.filter fun g => inRange (src / 8) (n / 8) g).map fun g => g - src / 8 + dst / 8
  { s with psnSpad := ks.foldl (fun p g => insertNew g p) s.psnSpad }

/-- The bytes of an operand that a run reads, by offset and length: of an N4P operand the planes asked for, and its scales (R90, R168). -/
def operandSpans (ty rows kk planes : Nat) : List (Nat × Nat) :=
  if ty = 10 && planes != 0 then
    (rows * kk / 2, rows * kk / 32) :: (List.range (rows * kk / 64)).map fun g => (32 * g + 8 * (4 - planes), 8 * planes)
  else [(0, opBytes ty (rows * kk))]

/-- A granule of A, B or C that a run reads is poisoned (R406). -/
def State.runPoison (s : State) (core : Nat) (t : Team) (m : MCmd) : Bool :=
  match m.op with
  | .mma sparse a b wb shape aoff apl boff bpl _ =>
    match comboOf a b with
    | none => false
    | some k =>
      let kk := shapeK shape k.k0
      let as := if sparse then [(0, sparseBytes a (shapeM shape) kk)] else operandSpans a (shapeM shape) kk apl
      (as.any fun x => hasPsn 8 (aKey core t aoff + x.1) x.2 s.psnSpad) ||
      ((operandSpans b (shapeN shape) kk bpl).any fun x =>
        if wb then hasPsn 8 (rKey core t boff + x.1) x.2 s.psnWb else hasPsn 8 (aKey core t boff + x.1) x.2 s.psnSpad) ||
      m.cfoot.any s.rngPoison
  | _ => m.reads.any s.rngPoison

/-- What a command does to memory at the end of its run: the state, its flags and its cause. -/
def State.runOp (s : State) (core : Nat) (t : Team) (m : MCmd) : State × BitVec 7 × Nat :=
  if (m.reads ++ m.cfoot).any fun r => s.rngGone (Config.clusterOf core) core m.team r then (s, 0, 0x13)
  else if s.runPoison core t m then
    let x := m.op.tiles
    match m.op with
    | .mma sparse a b wb shape aoff apl boff bpl tile =>
      match comboOf a b with
      | none => (s, 0, 0x60)
      | some k => (s.poisonTiles core t x.1 x.2, (s.mmaRun core t sparse a b wb shape aoff apl boff bpl tile k).2, 0x60)
    | .macld .. => (s.poisonTiles core t x.1 x.2, 0, 0x60)
    | _ => (s, 0, 0x60)
  else
    match m.op with
    | .mma sparse a b wb shape aoff apl boff bpl tile =>
      match comboOf a b with
      | none => (s, 0, 0)
      | some k => let r := s.mmaRun core t sparse a b wb shape aoff apl boff bpl tile k; (r.1, r.2, 0)
    | .mzero tile n =>
      ({ s with
         acc := mclear (tKey core t tile) (n * tileSize) s.acc
         psnAcc := clearPsn 8 (tKey core t tile) (n * tileSize) s.psnAcc }, 0, 0)
    | .mldw off n r =>
      let bs := mgets 0 s.spad (aKey core t off) n
      (s.putWb (rKey core t r) (bs ++ List.replicate (regionsFor n * regionSize - n) 0), 0, 0)
    | .macld off tile n => (s.putAcc (tKey core t tile) (mgets 0 s.spad (aKey core t off) (n * tileSize)), 0, 0)
    | .macst off tile n =>
      let src := tKey core t tile
      let dst := aKey core t off
      ((s.putSpad dst (mgets 0 s.acc src (n * tileSize))).carryPoison src dst (n * tileSize), 0, 0)

def State.updCmd (s : State) (core id : Nat) (f : MCmd → MCmd) : State :=
  s.updCore core fun k => { k with mq := k.mq.map fun m => if m.id = id then f m else m }

/-- The next command may start (R173): the array is free, and the checker lets it. Commands of one queue run in its order, so
tiles and regions of this core hold it only for a card's follow-on. -/
def State.startable (s : State) (core : Nat) (m : MCmd) : Bool :=
  let k := s.core core
  let all := m.reads ++ m.cfoot
  let local_ := all.filter fun r => r.space == 1
  let others := (s.registered (Config.clusterOf core)).filter fun f => decide (f.1 < m.id) && !(k.mq.any fun x => x.id == f.1)
  decide (m.issued + 2 ≤ s.now) && decide (k.mfree ≤ s.now) &&
  !(others.any fun f => f.2.any fun x => all.any fun y => x.conflicts y) &&
  !(k.mq.any fun x => decide (x.id < m.id) && x.foot.any fun r => local_.any fun y => r.conflicts y)

/-- MATRIX_RUN_START, R173. -/
def execMatrixRunStart (core : Nat) (s : State) : Out :=
  let k := s.core core
  if k.mq.any fun m => m.running && !m.ran then .fault .notDue
  else match k.mq.find? fun m => !m.running with
    | none => .fault .notDue
    | some m =>
      match s.anyTeam m.team with
      | none => .fault .notDue
      | some t =>
        if !s.startable core m then .fault .notDue
        else
          let n := s.runCycles core t m.op
          .next (s.updCmd core m.id fun x => { x with running := true, last := s.now + n - 1 })

/-- MATRIX_RUN_END: at the end of the last run cycle, so from the next one on the reads are released and the array is free (R174). -/
def execMatrixRunEnd (core : Nat) (s : State) : Out :=
  match (s.core core).mq.find? fun m => m.running && !m.ran with
  | none => .fault .notDue
  | some m =>
    match s.anyTeam m.team with
    | none => .fault .notDue
    | some t =>
      if s.now < m.last then .fault .notDue
      else
        let (s', f, cause) := s.runOp core t m
        let s' := s'.updCmd core m.id fun x => { x with ran := true, flags := x.flags ||| f, cause := cause }
        .next (s'.updCore core fun k => { k with mfree := m.last + 1 })

/-- The follow-on of a card whose copy has landed enters the queue in the cycle after, at the card's position, in the place kept for it
(R173, R177); the ranges of the copy stay registered until the job completes (R194, R112), those of the command go with it. -/
def State.enterFollow (s : State) (job : Nat) : State :=
  match mfind job s.jobs with
  | none => s
  | some x =>
    match x.follow with
    | none => s
    | some (op, rs, cf, fl) =>
      if x.started && x.todo.isEmpty && x.cause == 0 then
        let m : MCmd := { id := job, team := x.team, op := op, reads := rs, cfoot := cf, card := some job, issued := s.now + 1, flags := fl }
        let s := s.updCore x.core fun k => { k with mq := mqInsert m k.mq }
        let upd (x : Job) : Job := { x with follow := none, followIn := true, foot := x.foot.take (x.foot.length - (rs.length + cf.length)) }
        { s with jobs := mupd job upd s.jobs }
      else s

/-- Work of a team that covers a range is outstanding, follow-ons of its cards included (R319). -/
def State.mBusy (s : State) (core team : Nat) (wb : Bool) (first cnt : Nat) : Bool :=
  ((s.core core).mq.any fun m => m.team == team && m.op.covered wb first cnt) ||
  s.jobs.any fun j => j.2.team == team && match j.2.follow with
    | some (op, _, _, _) => op.covered wb first cnt
    | none => false

/-- Note at once which `mwait`s completions have met. -/
def State.markMatrix (s : State) : State :=
  { s with threads := mmap (fun _ t => match t.place with
      | .blocked (.matrix wb f n) false =>
        match s.teamCore t.team with
        | some core => if s.mBusy core t.team wb f n then t else { t with place := .blocked (.matrix wb f n) true }
        | none => t
      | _ => t) s.threads }

/-- MATRIX_COMMAND_COMPLETE: 6 cycles after the last run cycle (R173). Its record waits for `mwait`; a follow-on reports to its
card; records of a team that has begun to end are discarded (R249). -/
def execMatrixCommandComplete (core : Nat) (s : State) : Out :=
  match (s.core core).mq.find? (·.ran) with
  | none => .fault .notDue
  | some m =>
    if s.now < m.last + 6 then .fault .notDue
    else
      let s := s.updCore core fun k => { k with mq := k.mq.filter fun x => x.id != m.id }
      let s := match m.card with
        | some j =>
          let upd (x : Job) : Job :=
            { x with followIn := false, cause := if x.cause = 0 then m.cause else x.cause, flags := x.flags ||| m.flags }
          { s with jobs := mupd j upd s.jobs }
        | none =>
          let live := match s.anyTeam m.team with
            | some t => !t.ending
            | none => false
          if live && (m.flags != 0 || m.cause != 0) then
            let wb := m.op.tiles.2 == 0
            let x := if wb then m.op.regions else m.op.tiles
            let r : MRec := { team := m.team, id := m.id, wb := wb, first := x.1, n := x.2, flags := m.flags, cause := m.cause }
            s.updCore core fun k => { k with mrec := k.mrec ++ [r] }
          else s
      .next s.markMatrix

/-- The failed covered command that `mwait` reports: the lowest-numbered (R407). -/
def failedRec (team : Nat) (wb : Bool) (first cnt : Nat) (l : List MRec) : Option MRec :=
  l.foldl (fun b r => if r.covered team wb first cnt && r.cause != 0 then
    match b with
    | some x => if r.id < x.id then some r else b
    | none => some r
    else b) none

/-- Covered flags are merged into FLAGS, once (R319). -/
def State.mMerge (s : State) (core team : Nat) (wb : Bool) (first cnt : Nat) : State :=
  let cov := (s.core core).mrec.filter fun r => r.covered team wb first cnt
  let f := cov.foldl (fun f r => f ||| r.flags) 0
  let s := if f = 0 then s else s.updTeam team fun t => t.mergeFlags f
  s.updCore core fun k => { k with mrec := k.mrec.filter fun r => !r.covered team wb first cnt }

def execMwait (wb : Bool) (cnt tile : BitVec 7) (s : State) : Out :=
  s.issue { noInj := true } fun s c =>
    let n := cnt.toNat + 1
    let first := tile.toNat
    let lim := if wb then c.tm.wbN else c.tm.accN
    if lim < first + n then .next (s.raise c c.whole { cause := 0x22 } 4)
    else if s.mBusy c.core c.team wb first n then
      .next ((c.lns.foldl (fun s l => s.block l.tid (c.after 4) (.matrix wb first n)) s).fileRaft c [])
    else
      match failedRec c.team wb first n (s.core c.core).mrec with
      | some r =>
        .next (s.raiseWith c c.whole { cause := r.cause, detail := BitVec.ofNat 64 r.first } 4 (some (wb, first, n)))
      | none => .next (((s.mMerge c.core c.team wb first n).acquire c.die).fileRaft c (c.lns.map fun l => (l.tid, c.after 4)))

end Sys2Proof.Machine
end

