-- ==== Sys2Proof/Machine/Cards.lean ====
section
/-!
DEFINITION. Card jobs of the Yarder: the checks at issue (R293 to R295), starting, landing and completing (R296, R105, R177, R194,
R397, R398, R408, R409), and `tsig` (R161, R324, R405).
-/

namespace Sys2Proof.Machine

def spOf (k : Nat) : Option Space :=
  match k with
  | 0 => some .glob | 1 => some .spad | 2 => some .hnd | _ => none

def spaceOf (k : Nat) : Space := (spOf k).getD .glob

def cardOf (bs : List Byte) : Card :=
  let q (o : Nat) : DWord := BitVec.ofNat 64 (leNat ((bs.drop o).take 8))
  let ctl := leNat ((bs.drop 0x20).take 4)
  { src := q 0, dst := q 8, fmap := q 0x10, tmap := q 0x18, kind := bits ctl 0 2, fsp := bits ctl 6 2, tsp := bits ctl 8 2,
    bsp := bits ctl 10 2, xop := bits ctl 12 4, len := leNat ((bs.drop 0x24).take 4) % 2 ^ 31, bar := q 0x28, x0 := q 0x30, x1 := q 0x38 }

/-- Reserved fields and space codes of a card (R293, R294). -/
def cardReserved (bs : List Byte) (c : Card) : Bool :=
  let ctl := leNat ((bs.drop 0x20).take 4)
  let x1 := c.x1.toNat
  bits ctl 2 4 != 0 || bits ctl 16 16 != 0 || (leNat ((bs.drop 0x24).take 4)).testBit 31 || c.fsp == 3 || c.tsp == 3 || c.bsp == 3 ||
  match c.kind with
  | 1 => c.xop != 0 || c.x0 != 0 || x1 != 0
  | 2 => !(c.xop == 1 || c.xop == 2) || (c.xop == 1 && (c.x0 != 0 || x1 != 0)) || (c.xop == 2 && bits x1 9 55 != 0)
  | _ => c.xop != 0 || bits x1 32 32 != 0 || bits x1 21 11 != 0 || bits x1 13 3 != 0

def Card.topk (c : Card) : Bool := c.kind == 2 && c.xop == 2
def Card.compress (c : Card) : Bool := c.kind == 2 && c.xop == 1
def Card.k (c : Card) : Nat := c.x1.toNat % 256
def Card.bf16 (c : Card) : Bool := c.x1.getLsbD 8
def Card.blockBytes (c : Card) : Nat := if c.bf16 then 512 else 1024
/-- Bytes written at TO in all, counted expanded (R296). -/
def Card.outLen (c : Card) : Nat := if c.topk then c.len / c.blockBytes * c.k * 8 else c.len
/-- The destination is a Hardpan region: slots and map bytes land (R181, R296). -/
def Card.hardpanDst (c : Card) : Bool := c.tmap != 0 && !c.topk
def Card.hardpanSrc (c : Card) : Bool := c.fmap != 0

def addrOff (sp : Nat) (a : DWord) : Nat := if sp = 0 then a.toNat % 2 ^ 57 else (a.setWidth 32).toNat

/-- FROM and TO overlap in one space (R295). -/
def Card.overlap (c : Card) : Bool :=
  c.fsp == c.tsp && (c.fsp != 2 || hndOf c.src == hndOf c.dst) &&
    decide (addrOff c.fsp c.src < addrOff c.tsp c.dst + c.outLen) && decide (addrOff c.tsp c.dst < addrOff c.fsp c.src + c.len)

/-- A handle in FROM or TO that is not held (R429). -/
def State.handleHeld (s : State) (cl team : Nat) (t : Team) (h : Nat) : Bool :=
  if h.testBit 31 then
    match s.bufBy cl h with
    | some b => b.holder == team
    | none => false
  else if h = pinnedHandle then !t.pinned.isEmpty
  else (s.heldLease cl team h).isSome

-- Footprints.

/-- The ranges that an operand of a job covers; in the landing by lease and offset (R364). -/
def State.operandRngs (s : State) (core team : Nat) (t : Team) (sp : Nat) (a : DWord) (n : Nat) (w : Bool) : List Rng :=
  let cl := Config.clusterOf core
  let off := addrOff sp a
  match sp with
  | 0 => [gRng t.asid off n w]
  | 1 => [spadRng core t off n w]
  | _ =>
    let h := hndOf a
    if h.testBit 31 then
      match s.bufBy cl h with
      | some b => [{ space := 1, unit := b.core, lo := b.first * 0x1000 + off, n := n, write := w }]
      | none => []
    else if h = pinnedHandle then [{ space := 2, unit := landUnit cl (pinnedLease team), lo := off, n := n, write := w }]
    else match s.heldLease cl team h with
      | some (i, _) => [{ space := 2, unit := landUnit cl i, lo := off, n := n, write := w }]
      | none => []

/-- The footprint of a card (R296). TMAP of a top-k card has no effect and no place in it (log 13, DEDUCED). -/
def State.cardFoot (s : State) (core team : Nat) (t : Team) (c : Card) : List Rng :=
  s.operandRngs core team t c.fsp c.src c.len false ++
  (if c.fmap != 0 then [gRng t.asid (addrOff 0 c.fmap) (c.len / 256) false] else []) ++
  s.operandRngs core team t c.tsp c.dst c.outLen true ++
  (if c.hardpanDst then [gRng t.asid (addrOff 0 c.tmap) (c.len / 256) true] else []) ++
  (if c.topk then [gRng t.asid (addrOff 0 c.x0) (c.len / c.blockBytes * 1024) true] else [])

-- Issue.

/-- The field checks of R295 between the card's own address and BAR, in order; all are 0x01. -/
def Card.bad (want : Nat) (bs : List Byte) (c : Card) : Bool :=
  c.kind != want || cardReserved bs c || c.len == 0 ||
  (c.fmap != 0 && (c.fsp != 0 || c.len % 256 != 0)) || (c.tmap != 0 && (c.tsp != 0 || c.len % 256 != 0)) ||
  (c.kind != 2 && c.tmap != 0 && c.fmap == 0) || c.overlap

def Card.barRef (c : Card) : Ref := { space := spaceOf c.bsp, a := c.bar }

/-- The checks after the card's address, in the order of R295 and R429; a copymma's follow-on comes last. -/
def State.cardCheck (s : State) (c : Ctx) (sup : Bool) (want : Nat) (bs : List Byte) (k : Card) : Except Fail (Option MPass) :=
  if k.bad want bs then .error { cause := 0x01 }
  else
    let bar : Except Fail Unit :=
      if k.bar = 0 then .ok ()
      else if k.bar.toNat % 16 != 0 then .error { cause := 0x06, write := true }
      else match s.object c.core c.team c.tm sup k.barRef 16 16 true noBarMt with
        | .error f => .error f
        | .ok _ => .ok ()
    match bar with
    | .error f => .error f
    | .ok () =>
      if (k.fsp = 2 && !s.handleHeld c.cluster c.team c.tm (hndOf k.src)) || (k.tsp = 2 && !s.handleHeld c.cluster c.team c.tm (hndOf k.dst)) then
        .error { cause := 0x2B }
      else if k.topk && (k.len % k.blockBytes != 0 || k.k == 0 || decide (64 < k.k)) then .error { cause := 0x01 }
      else if k.kind = 3 then
        let x := k.x1.toNat
        match s.mmaCheck c.core c.tm (x.testBit 20) (bits x 16 4) (bits x 8 5) (x.testBit 7) (bits x 0 7) (k.x0.toNat % 2 ^ 32)
            (k.x0.toNat / 2 ^ 32) with
        | .error f => .error f
        | .ok p => .ok (some p)
      else .ok none

/-- Put a job on tag `t` in its cluster (R105). -/
def State.addJob (s : State) (c : Ctx) (tag : Nat) (w : Work) (foot : List Rng) (p : Option MPass) : State :=
  let j : Job := { cluster := c.cluster, core := c.core, team := c.team, asid := c.tm.asid, tag := tag, work := w,
                   foot := foot ++ (match p with
                     | some x => x.reads ++ x.cfoot
                     | none => []),
                   sup := c.elected.th.sup, at_ := s.now, issued := s.now,
                   follow := p.map fun x => (x.op, x.reads, x.cfoot, x.flags) }
  let s : State := { s with jobs := mput s.fresh j s.jobs, fresh := s.fresh + 1 }
  s.updTeam c.team fun t => t.setTag tag (t.ctag tag).take

/-- A job waits on its pipe for its tag's count or the checker (R105, R411). -/
def State.jobWait (s : State) (c : Ctx) (tag : Nat) : Bool := (c.tm.ctag tag).count == 255 || s.checkerFull c.cluster

/-- A card is read, checked and put on its tag. Its issue is a release (R194, R200), so it waits for what its raft has sent to this package's
memory. -/
def State.cardIssue (s : State) (want : Nat) (n : BitVec 4) (t : BitVec 6) : Out :=
  s.issue { ar := [n.toNat], once := true } fun s c =>
    let l := c.elected
    let a := c.tm.areg n.toNat
    match s.global c.who c.tm.asid a (a.setWidth 57) 64 (l.use false) [] with
    | .error f => .next (s.raiseOnce c l f 4)
    | .ok g =>
      if s.shut g.loc || s.conflict c.cluster [gRng c.tm.asid (a.toNat % 2 ^ 57) 64 false] || s.relWait (some .cluster) c.tids then
        .next (s.holdFor c (l.cut (s.cutOf g.loc ((a.setWidth 57).setWidth 64) false)))
      else if s.poisonAt g.loc 64 then .next (s.raise c l { cause := 0x60, detail := (a.setWidth 57).setWidth 64 } 4)
      else
        let bs := s.readAt c.die g.loc 64
        let k := cardOf bs
        match s.cardCheck c l.th.sup want bs k with
        | .error f => .next (s.raiseOnce c l f 4)
        | .ok p =>
          if s.jobWait c t.toNat || (p.isSome && s.mFull c.core) then .next (s.hold c)
          else
            let s := s.touch c.who g.tlb false
            let s := s.addJob c t.toNat (.card k) (s.cardFoot c.core c.team c.tm k) p
            .next (s.goOn c (c.after 4) 1)

def execCpy (n : BitVec 4) (t : BitVec 6) (s : State) : Out := s.cardIssue 1 n t
def execCpyx (n : BitVec 4) (t : BitVec 6) (s : State) : Out := s.cardIssue 2 n t
def execCpymma (n : BitVec 4) (t : BitVec 6) (s : State) : Out := s.cardIssue 3 n t

def sigOf (bs : List Byte) : Sig :=
  let q (o n : Nat) : Nat := leNat ((bs.drop o).take n)
  { surf := BitVec.ofNat 64 (q 0 8), entry := BitVec.ofNat 64 (q 8 8), src := q 0x10 4, pitch := q 0x14 4, tcol := q 0x18 2, trow := q 0x1A 2 }

/-- Where row r of a tile, of 128 bytes, lies from the surface's base. -/
def Sig.rowOff (g : Sig) (r : Nat) : Nat := (32 * g.trow + r) * g.pitch + 128 * g.tcol

def State.sigFoot (core : Nat) (t : Team) (g : Sig) : List Rng :=
  spadRng core t g.src 4096 false :: gRng t.asid (addrOff 0 g.entry) 16 true :: (List.range 32).map fun r => gRng t.asid ((g.surf.toNat + g.rowOff r) % 2 ^ 57) 128 true

/-- `tsig ctT, [aN]`, R324. -/
def execTsig (n : BitVec 4) (t : BitVec 6) (s : State) : Out :=
  s.issue { ar := [n.toNat], once := true } fun s c =>
    let l := c.elected
    let a := c.tm.areg n.toNat
    match s.global c.who c.tm.asid a (a.setWidth 57) 32 (l.use false) [] with
    | .error f => .next (s.raiseOnce c l f 4)
    | .ok x =>
      if s.shut x.loc || s.conflict c.cluster [gRng c.tm.asid (a.toNat % 2 ^ 57) 32 false] || s.relWait (some .cluster) c.tids then
        .next (s.holdFor c (l.cut (s.cutOf x.loc ((a.setWidth 57).setWidth 64) false)))
      else if s.poisonAt x.loc 32 then .next (s.raise c l { cause := 0x60, detail := (a.setWidth 57).setWidth 64 } 4)
      else
        let bs := s.readAt c.die x.loc 32
        let g := sigOf bs
        if leNat (bs.drop 0x1C) != 0 || g.pitch == 0 || g.pitch % 128 != 0 then .next (s.raise c l { cause := 0x01 } 4)
        else if g.entry.toNat % 16 != 0 || g.surf.toNat % 128 != 0 then .next (s.raise c l { cause := 0x06 } 4)
        else if c.tm.spadN * 0x1000 < g.src + 4096 then .next (s.raise c l { cause := 0x14, detail := BitVec.ofNat 64 g.src } 4)
        else if s.jobWait c t.toNat then .next (s.hold c)
        else
          let s := (s.touch c.who x.tlb false).addJob c t.toNat (.tsig g) (State.sigFoot c.core c.tm g) none
          .next (s.goOn c (c.after 4) 1)

-- Accesses of a running job.

/-- A piece of a job's access: its place, the translation to note, its bytes, the address for a cause. -/
structure JPiece where
  loc  : Loc
  tlb  : Option Tlb
  n    : Nat
  addr : DWord
  deriving DecidableEq, Repr

def Job.who (j : Job) : Who := engWho j.cluster
def Job.die (j : Job) : Nat := Config.dieOfCluster j.cluster

/-- Local pieces within 4 KiB granules of the operand's own offsets. -/
def localPieces (off n : Nat) : Nat → List (Nat × Nat)
  | 0 => []
  | k + 1 => if n = 0 then [] else
    let m := Nat.min n (0x1000 - off % 0x1000)
    (off, m) :: localPieces (off + m) (n - m) k

def State.localJ (s : State) (j : Job) (t : Team) (hnd : Bool) (a : DWord) (write : Bool) :
    List (Nat × Nat) → Except Fail (List JPiece)
  | [] => .ok []
  | (off, n) :: r =>
    match (s.asIssued j.issued).localAt j.core j.team t hnd a off n write with
    | .error f => .error f
    | .ok l => match s.localJ j t hnd a write r with
      | .error f => .error f
      | .ok ps => .ok ({ loc := l, tlb := none, n := n, addr := BitVec.ofNat 64 ((if hnd then hndOf a * 2 ^ 32 else 0) + off) } :: ps)

/-- `n` bytes at offset `o` of an operand of a job (R397). -/
def State.jobAt (s : State) (j : Job) (sp : Nat) (a : DWord) (o n : Nat) (write : Bool) : Except Fail (List JPiece) :=
  match s.anyTeam j.team with
  | none => .error { cause := 0x12 }
  | some t =>
    if sp = 0 then
      match s.range j.who j.asid a ((a.toNat + o) % 2 ^ 57) n { write := write, sup := j.sup } [] with
      | .error f => .error f
      | .ok ps => .ok (ps.map fun p => { loc := p.loc, tlb := some p.tlb, n := p.n, addr := BitVec.ofNat 64 p.va })
    else s.localJ j t (sp = 2) a write (localPieces ((a.setWidth 32).toNat + o) n (n / 0x1000 + 2))

def State.jTouch (s : State) (w : Who) (ps : List JPiece) (write : Bool) : State :=
  ps.foldl (fun s p => s.touchOpt w p.tlb write) s

/-- What keeps a job from its pieces now: no link to them, a cause once it has lasted (R369), or replicas that a store has locked, which it
waits for (R193, R200; cause 0: not yet). A store by the pages' own translation follows the one that locked them. -/
def jobLater : Fail := { cause := 0 }
def State.jStuck (s : State) (ps : List JPiece) (write : Bool) : Option Fail :=
  if ps.any fun p => s.cutOff p.loc then some { cause := 0x10, remote := true }
  else if ps.any fun p => s.lockedAt p.loc && !(write && p.loc.mt == 1) then some jobLater
  else none
def State.jPoison (s : State) (ps : List JPiece) : Option DWord := (ps.find? fun p => s.poisonAt p.loc p.n).map (·.addr)

/-- Read some bytes: the causes of translation, a timed-out remote access, poison. -/
def State.jobRead (s : State) (j : Job) (sp : Nat) (a : DWord) (o n : Nat) : Except Fail (State × List Byte) :=
  match s.jobAt j sp a o n false with
  | .error f => .error f
  | .ok ps =>
    match s.jStuck ps false with
    | some f => .error f
    | none => match s.jPoison ps with
      | some d => .error { cause := 0x60, detail := d }
      | none => .ok (s.jTouch j.who ps false, ps.flatMap fun p => s.readAt j.die p.loc p.n)

def State.jPut (s : State) (j : Job) : List JPiece → List Byte → State
  | [], _ => s
  | p :: r, bs => (s.storeAt j.die p.loc (bs.take p.n) { asid := j.asid, va := p.addr.toNat }).jPut j r (bs.drop p.n)

/-- Write some bytes, after the checks of all of them. -/
def State.jobWrite (s : State) (j : Job) (sp : Nat) (a : DWord) (o : Nat) (bs : List Byte) : Except Fail State :=
  match s.jobAt j sp a o bs.length true with
  | .error f => .error f
  | .ok ps =>
    match s.jStuck ps true with
    | some f => .error f
    | none => .ok ((s.jTouch j.who ps true).jPut j ps bs)

-- Hardpan at a job's source.

/-- The feature that carries records over a link is accepted (R353): bit 0 for host memory, bit 1 for another package. -/
def State.carries (s : State) (l : Loc) : Bool :=
  match l.mt with
  | 2 => s.feature 0
  | 3 => s.feature 1
  | _ => true

/-- A hop on the way to a place expands records (R33, R181, R350, R353): HokuLink to another package, CXL to host memory. Which port
carries an access where several are up is left to the firmware's routes (R345): a record is expanded where the neighbour of any port that is
up has not advertised, and that is the model's choice (log 65, DESIGN CHOICE). -/
def State.expands (s : State) (l : Loc) : Bool :=
  !s.carries l || match l.mt with
    | 2 => !s.hub.cxlHardpan
    | 3 => (List.range 18).any fun k => let p := mget {} k s.hub.ports; p.up && !p.hardpan
    | _ => false

/-- Tile `k` of a region (R178, R408): only the record's bytes are read. One that comes over a link whose feature is not accepted
arrives raw (R353); else the downstream neighbour of that hop is this device, and it passes unchanged (R33). -/
def State.readTile (s : State) (j : Job) (c : Card) (k : Nat) : Except Fail (State × HTile) := do
  let (s, mb) ← s.jobRead j 0 c.fmap k 1
  let map := leNat mb
  let need : Nat := if map / 64 = 0 then 256 else 8
  let (s, h) ← s.jobRead j c.fsp c.src (256 * k) need
  let size := if map / 64 = 0 then 256 else Nat.min 160 (bits (leNat h) 16 8)
  let (s, r) ← s.jobRead j c.fsp c.src (256 * k) (Nat.max need size)
  match htileOf map (r ++ List.replicate (256 - r.length) 0) with
  | .error x => .error { cause := x }
  | .ok t =>
    let ps ← s.jobAt j c.fsp c.src (256 * k) need false
    return (s, if ps.any fun p => !s.carries p.loc then { map := 0, rec_ := t.data, data := t.data } else t)

/-- The bytes [o, o + n) of the source, expanded where it is a Hardpan region; a cause leaves the bytes before its tile. -/
def State.sourceTiles (s : State) (j : Job) (c : Card) (k : Nat) : Nat → State × List Byte × Option Fail
  | 0 => (s, [], none)
  | n + 1 =>
    match s.readTile j c k with
    | .error f => (s, [], some f)
    | .ok (s, t) =>
      let (s, bs, f) := s.sourceTiles j c (k + 1) n
      (s, t.data ++ bs, f)

def State.sourceBytes (s : State) (j : Job) (c : Card) (o n : Nat) : State × List Byte × Option Fail :=
  if c.hardpanSrc then
    let k := o / 256
    let cnt := (o + n - 1) / 256 - k + 1
    let (s, bs, f) := s.sourceTiles j c k cnt
    (s, (bs.drop (o % 256)).take n, f)
  else
    match s.jobRead j c.fsp c.src o n with
    | .error f => (s, [], some f)
    | .ok (s, bs) => (s, bs, none)

-- Landings.

/-- Landings of a job: Hardpan slots, top-k blocks, one for `tsig`, else aligned 256-byte lines (R296). -/
def Work.landings : Work → Nat
  | .tsig _ => 1
  | .card c =>
    if c.topk then c.len / c.blockBytes
    else if c.hardpanDst then c.len / 256
    else (addrOff c.tsp c.dst % 256 + c.len + 255) / 256

/-- Landings happen in ascending order where tiles are checked or blocks committed in order (R408, R409). -/
def Work.ordered : Work → Bool
  | .tsig _ => true
  | .card c => c.topk || c.hardpanSrc

/-- What landing `k` did: bytes landed at TO, flags, and the cause that ends the job. -/
structure Landed where
  s     : State
  n     : Nat := 0
  exc   : BitVec 7 := 0
  fail  : Option Fail := none

def landFail (s : State) (f : Fail) : Landed := { s := s, fail := some f }

/-- A line of a copy: the bytes before a failing tile land. -/
def State.landLine (s : State) (j : Job) (c : Card) (k : Nat) : Landed :=
  let a0 := addrOff c.tsp c.dst % 256
  let o := 256 * k - a0
  let n := Nat.min c.len (256 * (k + 1) - a0) - o
  let (s, bs, f) := s.sourceBytes j c o n
  if bs.isEmpty then { s := s, fail := f }
  else match s.jobWrite j c.tsp c.dst o bs with
    | .error g => landFail s g
    | .ok s => { s := s, n := bs.length, fail := f }

/-- What lands of a tile in slot `k`: its record with its map byte, or its bytes raw where a hop to them expands; only the bytes written are
accessed (R178, R181). -/
def State.slotRecord (s : State) (j : Job) (c : Card) (k : Nat) (t : HTile) : Except Fail (List Byte × Nat × List JPiece) :=
  match s.jobAt j c.tsp c.dst (256 * k) t.rec_.length true with
  | .error f => .error f
  | .ok ps =>
    if ps.any fun p => s.expands p.loc then
      match s.jobAt j c.tsp c.dst (256 * k) 256 true with
      | .error f => .error f
      | .ok qs => .ok (t.data, 0, qs)
    else .ok (t.rec_, t.map, ps)

/-- A slot of a Hardpan destination with its map byte. (Log 13, DEDUCED.) -/
def State.landSlot (s : State) (j : Job) (c : Card) (k : Nat) : Landed :=
  let tile : Except Fail (State × HTile) :=
    if c.hardpanSrc && !c.compress then s.readTile j c k
    else
      let (s, bs, f) := s.sourceBytes j c (256 * k) 256
      match f with
      | some f => .error f
      | none => .ok (s, if c.compress then compress bs else { map := 0, rec_ := bs, data := bs })
  match tile with
  | .error f => landFail s f
  | .ok (s, t) =>
    match s.slotRecord j c k t with
    | .error f => landFail s f
    | .ok (rec_, map, ps) =>
      match s.jobAt j 0 c.tmap k 1 true with
      | .error f => landFail s f
      | .ok ms =>
        match s.jStuck (ps ++ ms) true with
        | some f => landFail s f
        | none =>
          let s := ((s.jTouch j.who ps true).jPut j ps rec_).jTouch j.who ms true
          { s := s.jPut j ms (natLe 1 map), n := 256 }

/-- A block of a top-k job: output pairs and residual together (R409). A RES that is not 4-byte aligned is used as it stands: R294 gives the
alignment and no check of it (log 73, DESIGN CHOICE). -/
def State.landBlock (s : State) (j : Job) (c : Card) (b : Nat) : Landed :=
  let (s, ins, f) := s.sourceBytes j c (b * c.blockBytes) c.blockBytes
  match f with
  | some f => landFail s f
  | none =>
    match s.jobRead j 0 c.x0 (1024 * b) 1024 with
    | .error f => landFail s f
    | .ok (s, rs) =>
      let w := if c.bf16 then 2 else 4
      let ys := topkSums c.bf16 ((chunks w ins 256).map leNat) ((chunks 4 rs 256).map leNat)
      let (out, res, exc) := topkBlock (256 * b) c.k ys
      match s.jobAt j 0 c.x0 (1024 * b) 1024 true with
      | .error f => landFail s f
      | .ok ps =>
        match s.jStuck ps true with
        | some f => landFail s f
        | none => match s.jobWrite j c.tsp c.dst (b * c.k * 8) out with
          | .error f => landFail s f
          | .ok s => { s := (s.jTouch j.who ps true).jPut j ps res, n := c.k * 8, exc := exc }

/-- A write at the homes of some pieces. -/
def State.putHomes (s : State) (d : Nat) : List JPiece → List Byte → State
  | [], _ => s
  | p :: r, bs => (s.storeHome d p.loc (bs.take p.n)).putHomes d r (bs.drop p.n)

def State.putRows (s : State) (j : Job) (g : Sig) (img : List Byte) : List Nat → Except (State × Fail) State
  | [] => .ok s
  | r :: rest =>
    match s.jobWrite j 0 g.surf (g.rowOff r) ((img.drop (128 * r)).take 128) with
    | .error f => .error (s, f)
    | .ok s => s.putRows j g img rest

/-- `tsig`'s commit, R161; a cause leaves the entry with V and UNCH 0 where it can be written (R405). Which rows were written
before a cause is open: those before the failing row. (Log 15, DESIGN CHOICE.) -/
def State.landSig (s : State) (j : Job) (g : Sig) : Landed :=
  match s.jobAt j 0 g.entry 0 16 true with
  | .error f => landFail s f
  | .ok ps =>
    match s.jStuck ps false with
    | some f => landFail s f
    | none =>
      let put (s : State) (lo hi : List Byte) : State := (s.jTouch j.who ps true).putHomes j.die ps (lo ++ hi)
      let e := ps.flatMap fun p => s.readHome p.loc p.n
      let spoil (s : State) (f : Fail) : Landed := if f.cause = 0 then landFail s f else landFail (put s (e.take 8) (natLe 8 0)) f
      match s.jobRead j 1 (BitVec.ofNat 64 g.src) 0 4096 with
      | .error f => spoil s f
      | .ok (s, img) =>
        match s.jPoison ps with
        | some d => spoil s { cause := 0x60, detail := d }
        | none =>
          let crc := (crc64 img).toNat
          if (leNat (e.drop 8)).testBit 0 && leNat (e.take 8) = crc then { s := put s (natLe 8 crc) (natLe 8 3) }
          else match s.putRows j g img (List.range 32) with
            | .error (s', f) => if f.cause = 0 then landFail s f else spoil s' f
            | .ok s => { s := put s (natLe 8 crc) (natLe 8 1) }

def State.land1 (s : State) (j : Job) (k : Nat) : Landed :=
  match j.work with
  | .tsig g => s.landSig j g
  | .card c => if c.topk then s.landBlock j c k else if c.hardpanDst then s.landSlot j c k else s.landLine j c k

/-- Subtract `n` bytes from a job's BAR (R296); a failing update is the job's cause, and no later one is made. -/
def State.jobBar (s : State) (j : Job) (n : Nat) : State × Option Fail :=
  match j.work with
  | .tsig _ => (s, none)
  | .card c =>
    if c.bar = 0 || j.barDead || n = 0 then (s, none)
    else match s.anyTeam j.team with
      | none => (s, none)
      | some t =>
        match (s.asIssued j.issued).objectRead j.core j.team t j.sup c.barRef 16 16 true noBarMt with
        | .error f => (s, some f)
        | .ok (l, tlb) => ((s.touchOpt (coreWho j.core) tlb true).barUpdate j.die l (BarObj.landed n), none)

def State.updJob (s : State) (id : Nat) (f : Job → Job) : State := { s with jobs := mupd id f s.jobs }

/-- Jobs of a cluster start in issue order, after what conflicts with them (R296, R194). -/
def State.jobStartable (s : State) (id : Nat) (j : Job) : Bool :=
  !j.started && !(s.jobs.any fun x => x.2.cluster == j.cluster && decide (x.1 < id) && !x.2.started) &&
  !s.conflictBefore j.cluster id j.foot

/-- YARDER_JOB_START. -/
def execYarderJobStart (job : Nat) (s : State) : Out :=
  match mfind job s.jobs with
  | none => .fault .notDue
  | some j =>
    if !s.jobStartable job j then .fault .notDue
    else
      let n := j.work.landings
      .next (s.updJob job fun x => { x with started := true, total := n, todo := List.range n, at_ := s.now })

/-- JOB_LANDING: landing `landing` of a started job. -/
def execJobLanding (job landing : Nat) (s : State) : Out :=
  match mfind job s.jobs with
  | none => .fault .notDue
  | some j =>
    if !j.started || !j.todo.contains landing || (j.work.ordered && j.todo.head? != some landing) then .fault .notDue
    else
      let r := s.land1 j landing
      let early := match r.fail with
        | some f => f.cause == 0 || (f.remote && decide (s.now < j.at_ + remoteLimit))
        | none => false
      if early then .fault .notDue
      else
        let (s1, bf) := r.s.jobBar j r.n
        let upd (x : Job) : Job :=
          let cause := match r.fail, bf with
            | some f, _ => f.cause
            | none, some f => f.cause
            | none, none => 0
          { x with
            todo := if cause = 0 then x.todo.filter (· != landing) else []
            landed := x.landed + r.n, flags := x.flags ||| r.exc, barDead := x.barDead || bf.isSome
            cause := if x.cause = 0 then cause else x.cause
            follow := if cause = 0 then x.follow else none, at_ := s.now }
        .next ((s1.updJob job upd).enterFollow job)

/-- JOB_COMPLETION: the bytes a failed job would still have landed are subtracted (R398), then its tag completes (R105). -/
def execJobCompletion (job : Nat) (s : State) : Out :=
  match mfind job s.jobs with
  | none => .fault .notDue
  | some j =>
    if !j.started || !j.todo.isEmpty || j.follow.isSome || j.followIn then .fault .notDue
    else
      let rest := match j.work with
        | .tsig _ => 0
        | .card c => if j.cause = 0 then 0 else c.outLen - j.landed
      let s1 := (s.jobBar j rest).1
      let s2 : State := { s1 with jobs := mdel job s1.jobs }
      let s3 := s2.updAny j.team fun t => t.setTag j.tag ((t.ctag j.tag).finish j.cause (if t.ending then 0 else j.flags))
      .next ((s3.markTags j.team).markMatrix)

end Sys2Proof.Machine
end

