-- ==== Sys2Proof/Machine/Collections.lean ====
section
/-!
DEFINITION. Keyed collections and their Sawyer: drift blocks (R126 to R128), order and age (R129 to R132), the descriptor and its
checks (R120 to R122, R400), commits in arrival order (R133, R134), cursors (R137, R138), and the instructions (R310 to R313, R399,
R430).
-/

namespace Sys2Proof.Machine

-- The model of a collection.

/-- Element order, R129: key, then serial, then the order of the commits that placed them. -/
def posBefore (x y : Nat × Nat × Nat) : Bool :=
  decide (x.1 < y.1) || (x.1 == y.1 && (decide (x.2.1 < y.2.1) || (x.2.1 == y.2.1 && decide (x.2.2 < y.2.2))))

def Elem.pos (e : Elem) : Nat × Nat × Nat := (e.key, e.serial, e.uid)

/-- Age, R132. -/
def ageOf (step hstep stamp : Nat) : Nat :=
  Nat.min 2 ((step % 2 ^ 18 + 2 ^ 18 - hstep) % 2 ^ 18 + (hstep + 4 - stamp) % 4)

/-- A write of a block sets HSTEP and rewrites the stamps whose age is 2 (R132). -/
def Drift.touch (step : Nat) (b : Drift) : Drift :=
  { b with
    hstep := step % 2 ^ 18
    elems := b.elems.map fun e => if ageOf step b.hstep e.stamp = 2 then { e with stamp := (step + 2) % 4 } else e }

/-- Bits needed for a number below 2^64. -/
def bitsOf (x : Nat) : Nat := ((List.range 64).filter fun k => decide (2 ^ k ≤ x)).length

def gaps : List Elem → List Nat
  | x :: y :: r => (y.key - x.key) :: gaps (y :: r)
  | _ => []

/-- The smallest gap width of a block, R127. -/
def gapWidth (es : List Elem) : Nat := (gaps es).foldl (fun g x => Nat.max g (bitsOf x)) 0

/-- Bits of an entry beside its gap, R127. -/
def Coll.entryBits (k : Coll) : Nat := 3 + 3 * k.q + (if k.sen then 32 else 0) + 32 * k.pw

def Coll.fits (k : Coll) (es : List Elem) : Bool :=
  decide (es.length ≤ 640) && decide (es.length * (gapWidth es + k.entryBits) ≤ 1920)

/-- Fields of given widths, low to high. -/
def packFields : List (Nat × Nat) → Nat
  | [] => 0
  | (x, w) :: r => x % 2 ^ w + 2 ^ w * packFields r

def Coll.entryFields (k : Coll) (g prev : Nat) (e : Elem) : List (Nat × Nat) :=
  [(e.key - prev, g), (e.stamp, 2), (if e.rel then 1 else 0, 1), (e.off, 3 * k.q)] ++
  (if k.sen then [(e.serial, 32)] else []) ++ e.pay.map fun w => (w.toNat, 32)

def Coll.entries (k : Coll) (g : Nat) : Nat → List Elem → List (Nat × Nat)
  | _, [] => []
  | prev, e :: r => k.entryFields g prev e ++ k.entries g e.key r

def endOfChain : Nat := 0xFFFFFF

/-- The 256 bytes of a block, R126 and R127. -/
def Coll.encode (k : Coll) (b : Drift) (next : Nat) : List Byte :=
  let g := gapWidth b.elems
  let base := (b.elems.map (·.key)).headD 0
  natLe 8 base ++ natLe 8 (packFields [(b.hstep, 18), (0, 2), (k.q, 4), (g, 6), (b.elems.length, 10), (next, 24)]) ++
  natLe 240 (packFields (k.entries g base b.elems))

/-- Blocks with what their NEXT names. -/
def linked : List Drift → List (Drift × Nat)
  | [] => []
  | b :: r => (b, match r with
    | n :: _ => n.blk
    | [] => endOfChain) :: linked r

/-- The lists into which the entries of a block that do not fit are split, each in two halves (R128). -/
def Coll.split (k : Coll) : Nat → List Elem → List (List Elem)
  | 0, es => [es]
  | n + 1, es =>
    if k.fits es then [es]
    else
      let h := (es.length + 1) / 2
      k.split n (es.take h) ++ k.split n (es.drop h)

/-- A free block: one of the pool not in `used`, from a free choice on (log 1). (Log 19, DESIGN CHOICE.) -/
def freeBlock (nblk : Nat) (used : List Nat) : Nat → Nat → Option Nat
  | _, 0 => none
  | k, n + 1 => if used.contains (k % nblk) then freeBlock nblk used (k + 1) n else some (k % nblk)

/-- Put the parts of a split into a block and blocks from the pool (R128). -/
def placeParts (nblk step pick : Nat) (used : List Nat) (b : Drift) : List (List Elem) → Option (List Drift)
  | [] => some []
  | es :: r =>
    match r with
    | [] => some [{ b with elems := es }]
    | _ =>
      match freeBlock nblk used pick (used.length + 1) with
      | none => none
      | some n =>
        if nblk ≤ used.length then none
        else (placeParts nblk step (pick + 1) (n :: used) { blk := n, hstep := step % 2 ^ 18, elems := [] } r).map
          ({ b with elems := es } :: ·)

def Coll.settle (k : Coll) (step pick : Nat) (used : List Nat) (b : Drift) : Option (List Drift) :=
  placeParts k.nblk step pick used b (k.split 12 b.elems)

def insertElem (e : Elem) : List Elem → List Elem
  | [] => [e]
  | x :: r => if posBefore e.pos x.pos then e :: x :: r else x :: insertElem e r

/-- The element falls into the block after this one. -/
def fallsBeyond (e : Elem) : List Drift → Bool
  | [] => false
  | b :: _ => match b.elems with
    | [] => false
    | x :: _ => posBefore x.pos e.pos

/-- Insert into the block that R128 names; none when no block is free. -/
def Coll.insert (k : Coll) (step pick : Nat) (used : List Nat) (e : Elem) : List Drift → Option (List Drift)
  | [] =>
    if k.nblk ≤ used.length then none
    else (freeBlock k.nblk used pick (used.length + 1)).map fun n => [{ blk := n, hstep := step % 2 ^ 18, elems := [e] }]
  | b :: r =>
    if fallsBeyond e r then (k.insert step pick used e r).map (b :: ·)
    else
      let b := b.touch step
      (k.settle step pick used { b with elems := insertElem e b.elems }).map (· ++ r)

/-- Take an element out of its block; an empty block leaves the chain (R128). A block that no longer fits, because the gap across the place is
wider, is split like one that an insert overfills, with 0x31 when no block is free: R128 speaks of splits at inserts only, and the choice is
the model's (log 67, DESIGN CHOICE). -/
def Coll.remove (k : Coll) (step pick : Nat) (used : List Nat) (e : Elem) : List Drift → Option (List Drift)
  | [] => some []
  | b :: r =>
    if b.elems.any fun x => x.pos == e.pos then
      let b := b.touch step
      let es := b.elems.filter fun x => x.pos != e.pos
      if es.isEmpty then some r else (k.settle step pick used { b with elems := es }).map (· ++ r)
    else (k.remove step pick used e r).map (b :: ·)

def Coll.elems (k : Coll) : List Elem := k.chain.flatMap (·.elems)

/-- The element that a key and serial select (R130). Of elements that share both, which a repeated SERIAL allows (R122), the model takes the
first in its order: the spec names none (log 68, DESIGN CHOICE). -/
def Coll.select (k : Coll) (key serial : Nat) : Option Elem :=
  let run := k.elems.filter fun e => e.key == key
  if k.sen && serial != 0 then run.find? fun e => e.serial == serial else run.getLast?

/-- Blocks that the write of a commit concerns: any whose content or NEXT changed, refreshed (R132), with new index entries. -/
def Coll.written (step : Nat) (old : List (Drift × Nat)) (new : List (Drift × Nat)) : List (Drift × Nat × Bool) :=
  new.map fun x => if old.contains x then (x.1, x.2, false) else (x.1.touch step, x.2, true)

-- The descriptor.

/-- A descriptor as read, R120. -/
structure Desc where
  va   : VAddr
  loc  : Loc
  tlb  : Tlb
  pa   : Nat
  root : Nat
  pool : Nat
  nblk : Nat
  sen  : Bool
  pw   : Nat
  q    : Nat
  cellexp : Nat
  step : Nat
  serial : Nat
  cache : Nat
  count : Nat
  own  : List Byte
  deriving DecidableEq, Repr

/-- Who acts: the Sawyer of a cluster, for a team's ASID and a mode (R122); no team where it only rewrites. -/
structure SawWho where
  cluster : Nat
  asid : Nat
  sup : Bool
  team : Nat := 0
  deriving DecidableEq, Repr

def Ctx.saw (c : Ctx) (l : Ln) : SawWho := { cluster := c.cluster, asid := c.tm.asid, sup := l.th.sup, team := c.team }

/-- An access of the Sawyer: the causes of translation, and 0x10 for another package without a link (R399). -/
def State.sawAt (s : State) (u : SawWho) (va : Nat) (write : Bool) : Except Fail GAcc :=
  let a := BitVec.ofNat 57 va
  match s.global (engWho u.cluster) u.asid (a.signExtend 64) a 1 { write := write, sup := u.sup } [] with
  | .error f => .error f
  | .ok g =>
    if s.cutOff g.loc then .error { cause := 0x10, detail := a.setWidth 64, park := true, remote := true, write := write }
    else .ok g

def bad33 : Fail := { cause := 0x33 }

/-- Read a descriptor and check it against R120 and R121; the page's type is that of its entry (R116). `write`: the operation always writes the
descriptor, so it needs W on its page with the other causes of its address (R122, R430). TRAPADDR of its
0x60 is the 57-bit address with zeros above (log 63, DESIGN CHOICE). -/
def State.desc (s : State) (u : SawWho) (a : DWord) (write : Bool := false) : Except Fail Desc :=
  match s.global (engWho u.cluster) u.asid a (a.setWidth 57) 1 { write := write, sup := u.sup } [] with
  | .error f => .error f
  | .ok g =>
    match g.loc with
    | .mem pa _ =>
      let s := s.committed
      if a.toNat % 64 != 0 || pteMt g.tlb.pte.toNat != 0 then .error bad33
      else if s.poisonAt g.loc 64 then .error { cause := 0x60, detail := (a.setWidth 57).setWidth 64 }
      else
        let f (o n : Nat) : Nat := s.homeNat (pa + o) n
        let w := f 0x14 4
        let d : Desc := { va := a.setWidth 57, loc := g.loc, tlb := g.tlb, pa := pa, root := f 0 8, pool := f 8 8, nblk := f 0x10 4,
                          sen := w.testBit 0, pw := bits w 1 3, q := bits w 4 4, cellexp := bits w 8 8, step := f 0x18 8,
                          serial := f 0x20 4, cache := f 0x24 4, count := f 0x28 8, own := s.homeBytes (pa + 0x30) 16 }
        if bits w 23 9 != 0 || decide (10 < d.q) || decide (6 < d.pw) || d.nblk = 0 || decide (0xFFFFFE < d.nblk) ||
            d.pool % 256 != 0 || decide (2 ^ 57 ≤ d.pool) || d.root % 0x1000 != 0 || decide (2 ^ 57 ≤ d.root) ||
            bits w 16 7 != u.cluster then .error bad33
        else .ok d
    | _ => .error bad33

/-- Sixteen bytes of a form only the Sawyer knows: eight are free (log 1), the others tell them from all that a Sawyer has written
before, as R128 asks. -/
def State.ownBytes (s : State) : List Byte := natLe 8 s.fresh ++ (List.range 8).map fun k => Config.freeByte (s.free + k)


def Desc.fresh (d : Desc) (s : State) (u : SawWho) : Coll :=
  { cluster := u.cluster, ident := s.fresh, cellexp := d.cellexp, q := d.q, pw := d.pw, sen := d.sen, nblk := d.nblk }

/-- What an operation of the Sawyer does in one lane: the state, and the cause if it commits nothing. -/
abbrev SawOut := State × Option Fail

/-- A lane meets the cause `f`, and the Sawyer marks the collection broken in the Sawyer-only words (R400); it writes them as it writes a
descriptor, with W on the page and D set in it (R122). -/
def State.breakColl (s : State) (u : SawWho) (d : Desc) (k : Coll) (f : Fail) : SawOut :=
  match s.sawAt u d.va.toNat true with
  | .error g => (s, some g)
  | .ok _ =>
    let bs := s.ownBytes
    let s := s.touch (engWho u.cluster) d.tlb true
    ({ s with free := s.free + 16, fresh := s.fresh + 1, colls := mput d.pa { k with broken := true, image := bs } s.colls }.storeHome
      (Config.dieOfCluster u.cluster) (.mem (d.pa + 0x30) 0) bs, some f)

/-- The collection at a descriptor: `first` when the Sawyer-only words are zero, which the operation then writes (R122). Words that this Sawyer did not last write, and
recorded fields that disagree, are 0x33 (R121, R128, R400). -/
def State.withColl (s : State) (u : SawWho) (d : Desc) (k : Coll → Bool → SawOut) : SawOut :=
  if d.own.all (· == 0) then
    match s.sawAt u d.va.toNat true with
    | .error g => (s, some g)
    | .ok _ => k (d.fresh s u) true
  else
    match mfind d.pa s.colls with
    | none => s.breakColl u d (d.fresh s u) bad33
    | some x =>
      if x.image != d.own || x.cluster != u.cluster then s.breakColl u d x bad33
      else if x.broken || x.cellexp != d.cellexp || x.q != d.q || x.pw != d.pw || x.sen != d.sen || x.nblk != d.nblk then (s, some bad33)
      else k x false

-- A commit.

/-- How a read or write of a block ends. -/
inductive BlkErr where
  | fail (f : Fail)
  | broken (f : Fail)
  deriving DecidableEq, Repr

/-- A read of the Sawyer that must find what it last wrote there (R128), unpoisoned (R400). (Log 18, DESIGN CHOICE.) -/
def State.readBack (s : State) (u : SawWho) (va n : Nat) (want : List Byte) : Except BlkErr State :=
  match s.sawAt u va false with
  | .error f => .error (.fail f)
  | .ok g =>
    if s.committed.poisonAt g.loc n then .error (.broken { cause := 0x60, detail := BitVec.ofNat 64 va })
    else if s.committed.readHome g.loc n != want then .error (.broken bad33)
    else .ok (s.touch (engWho u.cluster) g.tlb false)

def State.readBlks (s : State) (u : SawWho) (d : Desc) (k : Coll) : List (Drift × Nat) → Except BlkErr State
  | [] => .ok s
  | (b, nx) :: r =>
    match s.readBack u (d.pool + 256 * b.blk) 256 (k.encode b nx) with
    | .error f => .error f
    | .ok s => s.readBlks u d k r

/-- The index record, which the first operation has yet to write, and some blocks. -/
def State.readColl (s : State) (u : SawWho) (d : Desc) (k : Coll) (first : Bool) (bs : List (Drift × Nat)) : Except BlkErr State :=
  if first then s.readBlks u d k bs
  else match s.readBack u d.root 16 k.index with
    | .error f => .error f
    | .ok s => s.readBlks u d k bs

/-- Check that blocks may be written. -/
def State.mayWrite (s : State) (u : SawWho) (d : Desc) : List (Drift × Nat × Bool) → Except Fail Unit
  | [] => .ok ()
  | (b, _, w) :: r =>
    if w then
      match s.sawAt u (d.pool + 256 * b.blk) true with
      | .error f => .error f
      | .ok _ => s.mayWrite u d r
    else s.mayWrite u d r

def State.sawPut (s : State) (u : SawWho) (va : Nat) (bs : List Byte) : State :=
  match s.sawAt u va true with
  | .error _ => s
  | .ok g => (s.touch (engWho u.cluster) g.tlb true).storeHome (Config.dieOfCluster u.cluster) g.loc bs

/-- Write the blocks that changed. -/
def State.writeBlks (s : State) (u : SawWho) (d : Desc) (k : Coll) : List (Drift × Nat × Bool) → State
  | [] => s
  | (b, nx, w) :: r => (if w then s.sawPut u (d.pool + 256 * b.blk) (k.encode b nx) else s).writeBlks u d k r

/-- Tiles of the lease that CACHE names, where the team holds it (R123). -/
def State.cacheTiles (s : State) (u : SawWho) (d : Desc) : List Nat :=
  match s.heldLease u.cluster u.team d.cache with
  | some (_, l) => l.reach s.now
  | none => []

/-- Copies of blocks stand in the tiles of CACHE, at places of the Sawyer's own choice (R123): which, is free. -/
def State.cacheBlks (s : State) (u : SawWho) (tiles : List Nat) (k : Coll) : List (Drift × Nat) → State
  | [] => s
  | (b, nx) :: r =>
    let i := Config.freeNat s.free % (tiles.length * 256)
    (({ s with free := s.free + 1 }).putLand (landKey u.cluster (tiles.getD (i / 256) 0) (i % 256 * 256)) (k.encode b nx)).cacheBlks u tiles k r

/-- Blocks that hold keys between two bounds. -/
def near (lo hi : Nat) (b : Drift) : Bool :=
  (match b.elems.head? with
   | some e => decide (e.key ≤ hi)
   | none => false) &&
  match b.elems.getLast? with
  | some e => decide (lo ≤ e.key)
  | none => false

/-- A change of a collection that a commit makes: the chain, and the descriptor's counters. -/
structure Change where
  chain : List Drift
  nextUid : Nat
  step : Nat
  serial : Nat
  count : Nat
  /-- The operation is one that writes the descriptor (R122). -/
  writes : Bool := true

/-- Commit (R121, R122, R133): read the index record, the blocks of keys from `lo` to `hi` and those that change, check every page, write.
The first operation also writes the index and the Sawyer-only words. Copies of the blocks go into the tiles of CACHE. What is kept of the
chain is what was written, with the HSTEP and stamps of the blocks written for their NEXT alone (R132). -/
def State.commit (s : State) (u : SawWho) (d : Desc) (k : Coll) (first : Bool) (lo hi : Nat) (x : Change) (done : State → State) :
    SawOut :=
  let old := linked k.chain
  let new := Coll.written x.step old (linked x.chain)
  let gone (b : Drift × Nat) : Bool := !(new.any fun y => y.1 == b.1 && y.2.1 == b.2 && !y.2.2)
  let used := old.filter fun b => near lo hi b.1 || gone b
  match s.readColl u d k first used with
  | .error (.fail f) => (s, some f)
  | .error (.broken f) => s.breakColl u d k f
  | .ok s1 =>
    let writes := first || x.writes
    let wr : Except Fail Unit :=
      match (if writes then s.sawAt u d.va.toNat true else .ok { loc := d.loc, tlb := d.tlb }) with
      | .error f => .error f
      | .ok _ =>
        match (if first then s.sawAt u d.root true else .ok { loc := d.loc, tlb := d.tlb }) with
        | .error f => .error f
        | .ok _ => s.mayWrite u d new
    match wr with
    | .error f => (s, some f)
    | .ok _ =>
      let s2 := s1.touch (engWho u.cluster) d.tlb writes
      let index := if first then s2.ownBytes else k.index
      let s3 := if first then { s2.sawPut u d.root index with free := s2.free + 16 } else s2
      let s4 := s3.writeBlks u d k new
      let own := if first then s4.ownBytes else d.own
      let s5 : State := { s4 with
        free := s4.free + 16
        fresh := if first then s4.fresh + 1 else s4.fresh
        colls := mput d.pa { k with chain := new.map (·.1), nextUid := x.nextUid, index := index, image := own } s4.colls }
      let put (s : State) (b : Bool) (o n v : Nat) : State :=
        if b then s.storeHome (Config.dieOfCluster u.cluster) (.mem (d.pa + o) 0) (natLe n v) else s
      let s6 := put (put (put s5 (x.step != d.step) 0x18 8 x.step) (x.serial != d.serial) 0x20 4 x.serial) (x.count != d.count) 0x28 8 x.count
      let s7 := if first then s6.storeHome (Config.dieOfCluster u.cluster) (.mem (d.pa + 0x30) 0) own else s6
      let tiles := s7.cacheTiles u d
      let s8 := if tiles.isEmpty then s7 else
        s7.cacheBlks u tiles k (used.filter (fun b => !gone b) ++ (new.filter (·.2.2)).map fun y => (y.1, y.2.1))
      (done s8, none)

def Coll.same (k : Coll) (d : Desc) : Change := { chain := k.chain, nextUid := k.nextUid, step := d.step, serial := d.serial, count := d.count, writes := false }

-- Operations of one lane (R310).

def Ln.key (l : Ln) (n : Nat) : Nat := (l.th.pair n).toNat
def keyBad (k : Nat) : Bool := decide (2 ^ 63 ≤ k)
def usedBlks (c : List Drift) : List Nat := c.map (·.blk)

def setWord (tid n : Nat) (x : Nat) (tag : BitVec 4) (s : State) : State :=
  s.updThread tid fun t => t.setReg n (BitVec.ofNat 32 x) tag

/-- A lane on the collection of a descriptor. -/
def State.onColl (s : State) (c : Ctx) (l : Ln) (a : DWord) (k : SawWho → Desc → Coll → Bool → SawOut) (write : Bool := false) : SawOut :=
  match s.desc (c.saw l) a write with
  | .error f => (s, some f)
  | .ok d => s.withColl (c.saw l) d fun x first => k (c.saw l) d x first

/-- `cins`. The payload registers are known once the descriptor is read; poison in one comes before the other causes (R423). -/
def cinsLane (a dst : Nat) (c : Ctx) (adr : DWord) (s : State) (l : Ln) : SawOut :=
  match s.desc (c.saw l) adr true with
  | .error f => (s, some f)
  | .ok d =>
    let pays := (List.range d.pw).map (a + 3 + ·)
    match pays.find? fun n => l.th.psnV.contains n with
    | some n => (s, some { cause := 0x60, detail := regDetail 0 n })
    | none =>
      s.withColl (c.saw l) d fun k first =>
        let key := l.key a
        if 64 < a + 3 + k.pw then (s, some bad33)
        else if keyBad key then (s, some { cause := 0x30 })
        else if d.serial = 0 then (s, some { cause := 0x31 })
        else
          let serial := if k.sen then d.serial else 0
          let e : Elem := { key := key, off := (l.th.reg (a + 2)).val.toNat % 2 ^ (3 * k.q), serial := serial, uid := k.nextUid,
                            stamp := d.step % 4, rel := false, pay := pays.map fun n => (l.th.reg n).val }
          match k.insert d.step (Config.freeNat s.free) (usedBlks k.chain) e k.chain with
          | none => (s, some { cause := 0x31 })
          | some ch =>
            s.commit (c.saw l) d k first key key
              { chain := ch, nextUid := k.nextUid + 1, step := d.step, serial := if k.sen then (d.serial + 1) % 2 ^ 32 else d.serial,
                count := (d.count + 1) % 2 ^ 64 } (setWord l.tid dst serial tU32)

def cdelLane (a dst : Nat) (c : Ctx) (adr : DWord) (s : State) (l : Ln) : SawOut :=
  s.onColl c l adr fun u d k first =>
    let key := l.key a
    if keyBad key then (s, some { cause := 0x30 })
    else
      match k.select key (l.th.reg (a + 2)).val.toNat with
      | none => s.commit u d k first key key (k.same d) (setWord l.tid dst 0 tU32)
      | some e =>
        match k.remove d.step (Config.freeNat s.free) (usedBlks k.chain) e k.chain with
        | none => (s, some { cause := 0x31 })
        | some ch => s.commit u d k first key key { k.same d with chain := ch, count := (d.count + (2 ^ 64 - 1)) % 2 ^ 64, writes := true }
            (setWord l.tid dst 1 tU32)

/-- The place in a run that a relocated element takes (R129): with serials it keeps its own, else it is the last. -/
def Coll.moved (k : Coll) (e : Elem) : Nat := if k.sen then e.uid else k.nextUid

def crelLane (a dst : Nat) (c : Ctx) (adr : DWord) (s : State) (l : Ln) : SawOut :=
  s.onColl c l adr fun u d k first =>
    let key := l.key a
    let key' := l.key (a + 2)
    if keyBad key || keyBad key' then (s, some { cause := 0x30 })
    else
      match k.select key (l.th.reg (a + 4)).val.toNat with
      | none => s.commit u d k first key key (k.same d) (setWord l.tid dst 0 tU32)
      | some e =>
        let pick := Config.freeNat s.free
        let e' : Elem := { e with key := key', off := (l.th.reg (a + 5)).val.toNat % 2 ^ (3 * k.q), uid := k.moved e, stamp := d.step % 4, rel := true }
        match k.remove d.step pick (usedBlks k.chain) e k.chain with
        | none => (s, some { cause := 0x31 })
        | some ch =>
          match k.insert d.step pick (usedBlks ch) e' ch with
          | none => (s, some { cause := 0x31 })
          | some ch => s.commit u d k first key key { k.same d with chain := ch, nextUid := k.nextUid + 1, writes := true }
              (setWord l.tid dst 1 tU32)

def ccntLane (a dst : Nat) (c : Ctx) (adr : DWord) (s : State) (l : Ln) : SawOut :=
  s.onColl c l adr fun u d k first =>
    let lo := l.key a
    let hi := l.key (a + 2)
    if keyBad lo || keyBad hi || decide (hi < lo) then (s, some { cause := 0x30 })
    else
      let n := (k.elems.filter fun e => decide (lo ≤ e.key) && decide (e.key ≤ hi)).length
      s.commit u d k first lo hi (k.same d) fun s => setWord l.tid (dst + 1) (n / 2 ^ 32) tU32 (setWord l.tid dst n tU32 s)

def cursorLimit : Nat := 256

def copenLane (settled : Bool) (a dst : Nat) (c : Ctx) (adr : DWord) (s : State) (l : Ln) : SawOut :=
  s.onColl c l adr fun u d k first =>
    let lo := l.key a
    let hi := l.key (a + 2)
    let used := (s.cluster u.cluster).cursors.map (·.1)
    if keyBad lo || keyBad hi || decide (hi < lo) then (s, some { cause := 0x30 })
    else
      match (List.range cursorLimit).find? fun n => !used.contains n with
      | none => (s, some { cause := 0x31 })
      | some i =>
        let gen := nextGen (mget 0 i (s.cluster u.cluster).curGen)
        let cur : Cursor := { gen := gen, thread := l.tid, va := adr, coll := d.pa, ident := k.ident, settled := settled, lo := lo, hi := hi }
        s.commit u d k first 1 0 (k.same d) fun s =>
          setWord l.tid dst (i + 0x100 * gen) tU32 (s.updCluster u.cluster fun x =>
            { x with cursors := mput i cur x.cursors, curGen := mput i gen x.curGen })

/-- The cursor of a handle, when it is open and the thread's own (R137). -/
def State.cursorOf (s : State) (cl tid : Nat) (h : Word) : Option (Nat × Cursor) :=
  let i := h.toNat % 256
  match mfind i (s.cluster cl).cursors with
  | none => none
  | some x => if h.toNat / 2 ^ 8 = x.gen && x.thread = tid then some (i, x) else none

def State.updCursor (s : State) (cl i : Nat) (f : Cursor → Cursor) : State :=
  s.updCluster cl fun x => { x with cursors := mupd i f x.cursors }

/-- The first element after a position with its key in bounds, with its age (R138). -/
def Coll.next (k : Coll) (step : Nat) (x : Cursor) : Option (Elem × Nat) :=
  (k.chain.flatMap fun b => b.elems.map fun e => (e, ageOf step b.hstep e.stamp)).find? fun (y : Elem × Nat) =>
    (match x.pos with
     | some p => posBefore p y.1.pos
     | none => true) && decide (x.lo ≤ y.1.key) && decide (y.1.key ≤ x.hi) && !(x.settled && y.2 == 0)

/-- The record of R312: register values and tags from vD. -/
def recordRegs (pw : Nat) : Option (Elem × Nat) → List (Nat × BitVec 4)
  | none => [(0, tKEY), (0, tKEY), (0, tU32), (0, tU32), (0x80000000, tU32)] ++ List.replicate pw (0, tNone)
  | some (e, age) =>
    [(e.key % 2 ^ 32, tKEY), (e.key / 2 ^ 32, tKEY), (e.off, tU32), (e.serial, tU32), (age + (if e.rel then 4 else 0), tU32)] ++
    e.pay.map fun w => (w.toNat, tNone)

def putRecord (tid : Nat) : Nat → List (Nat × BitVec 4) → State → State
  | _, [], s => s
  | n, (x, tag) :: r, s => putRecord tid (n + 1) r (setWord tid n x tag s)

/-- A cursor whose collection has been written afresh since its `copen` (R400): the Sawyer-only words are zero again, or another collection
has begun there. -/
def State.staleCursor (s : State) (x : Cursor) : Bool :=
  (match mfind x.coll s.colls with
   | some k => k.ident != x.ident
   | none => true) ||
  (!s.committed.poisonAt (.mem (x.coll + 0x30) 0) 16 && (s.committed.homeBytes (x.coll + 0x30) 16).all (· == 0))

/-- `cnext`: 0x32 of its cursor comes before the causes of the collection (R430). -/
def cnextLane (h : Ln → Word) (dst : Nat) (c : Ctx) (s : State) (l : Ln) : SawOut :=
  match s.cursorOf c.cluster l.tid (h l) with
  | none => (s, some { cause := 0x32 })
  | some (i, x) =>
    if s.staleCursor x then (s, some { cause := 0x32 })
    else s.onColl c l x.va fun u d k first =>
      if first || k.ident != x.ident then (s, some { cause := 0x32 })
      else if 64 < dst + 5 + k.pw then (s, some bad33)
      else
        let r := if x.ended then none else k.next d.step x
        let lo := match x.pos with
          | some p => Nat.max x.lo p.1
          | none => x.lo
        let hi := match r with
          | some y => y.1.key
          | none => x.hi
        let bounds : Nat × Nat := if x.ended then (1, 0) else (lo, hi)
        s.commit u d k first bounds.1 bounds.2 (k.same d) fun s =>
          putRecord l.tid dst (recordRegs k.pw r) (s.updCursor c.cluster i fun y => match r with
            | some z => { y with pos := some z.1.pos }
            | none => { y with ended := true })

def ccloseLane (h : Ln → Word) (c : Ctx) (s : State) (l : Ln) : SawOut :=
  match s.cursorOf c.cluster l.tid (h l) with
  | none => (s, some { cause := 0x32 })
  | some (i, _) => (s.updCluster c.cluster fun x => { x with cursors := mdel i x.cursors }, none)

/-- `cstep`: STEP advances; one that leaves a multiple of 65,536 has every block rewritten (R131), whose pages are checked now. -/
def cstepLane (dst : Nat) (c : Ctx) (adr : DWord) (s : State) (l : Ln) : SawOut :=
  s.onColl c l adr (fun u d k first =>
    let step := (d.step + 1) % 2 ^ 64
    let turn := step % 65536 == 0
    match (if turn then s.mayWrite u d ((linked k.chain).map fun x => (x.1, x.2, true)) else .ok ()) with
    | .error f => (s, some f)
    | .ok _ =>
      let bounds : Nat × Nat := if turn then (0, 2 ^ 63) else (1, 0)
      s.commit u d k first bounds.1 bounds.2 { k.same d with step := step, writes := true } (fun s =>
        let s := s.updTeam c.team fun t => t.setS dst (BitVec.ofNat 32 step)
        if turn then s.updCluster u.cluster fun x => { x with sawyerQ := .rewrite d.pa u.asid u.sup :: x.sawyerQ } else s))
    (write := true)

-- The Sawyer in arrival order.

/-- The lanes of an instruction in arrival order (R311): up to the first that meets a cause. -/
def sawWalk (f : State → Ln → SawOut) : State → List Ln → State × Option (Ln × Fail × List Ln)
  | s, [] => (s, none)
  | s, l :: r =>
    match f s l with
    | (s, none) => sawWalk f s r
    | (s, some g) => (s, some (l, g, l :: r))

/-- Whether the raft in turn may commit now, with its entry taken out of the queue; an operation that arrives at a busy Sawyer
waits behind what has arrived (R133). -/
def State.sawyerTurn (s : State) (c : Ctx) : State × Bool :=
  let me : SawyerOp := .arrived c.core c.p
  let q := (s.cluster c.cluster).sawyerQ
  let setQ (q : List SawyerOp) : State := s.updCluster c.cluster fun k => { k with sawyerQ := q }
  match q with
  | [] => (s, true)
  | x :: r => if x = me then (setQ r, true) else if q.contains me then (s, false) else (setQ (q ++ [me]), false)

/-- The raft in turn keeps its turn at the Sawyer: no link carries what its operation reads or writes, and nothing is committed (R399). -/
def State.sawyerStays (s : State) (c : Ctx) : State :=
  s.updCluster c.cluster fun k => { k with sawyerQ := .arrived c.core c.p :: k.sawyerQ }

/-- A collection instruction: the lanes below a failing one stay committed; a parking 0x10 parks that lane and those above it
(R311, R399, R430). -/
def State.collOp (s : State) (o : Issue) (busy : State → Ctx → Bool) (f : Ctx → State → Ln → SawOut) : Out :=
  s.issue o fun s c =>
    if busy s c then .next (s.hold c)
    else
      match s.sawyerTurn c with
      | (s, false) => .next (s.holdFixed c)  -- R134
      | (s, true) =>
        let ls := o.lanes c
        match sawWalk (f c) s ls with
        | (s, none) => .next (s.goOn c (c.after 4) (20 + ls.length))
        | (s1, some (l, g, up)) =>
          if g.park && g.remote && decide (s.now < c.pr.cutAt.getD s.now + remoteLimit) then .next ((s.sawyerStays c).holdFor c (some (l, g)) true)
          else
          let s := s1
          if g.park && !l.th.sup && l.th.inj.isNone then
            if o.once then .next (s.park c c.lns g [] c.pc 4)
            else .next (s.park c up g (c.lns.take (c.lns.length - up.length)) (c.after 4) 4)
          else .next (s.raise c l g 4)

def noBusy : State → Ctx → Bool := fun _ _ => false

/-- The payload registers of some lane are still to be written by a load (R281). -/
def payBusy (a : Nat) (n : BitVec 4) (s : State) (c : Ctx) : Bool :=
  c.lns.any fun l => match s.desc (c.saw l) (c.tm.areg n.toNat) true with
    | .ok d => (List.range d.pw).any fun j => l.th.busyV.contains (a + 3 + j)
    | .error _ => false

def regsFrom (a n : Nat) : List Nat := (List.range n).map (a + ·)

def execCins (n : BitVec 4) (a d : BitVec 6) (s : State) : Out :=
  s.collOp { vr := regsFrom a.toNat 3, ar := [n.toNat] } (payBusy a.toNat n) fun c => cinsLane a.toNat d.toNat c (c.tm.areg n.toNat)

def execCdel (n : BitVec 4) (a d : BitVec 6) (s : State) : Out :=
  s.collOp { vr := regsFrom a.toNat 3, ar := [n.toNat] } noBusy fun c => cdelLane a.toNat d.toNat c (c.tm.areg n.toNat)

def execCrel (n : BitVec 4) (a d : BitVec 6) (s : State) : Out :=
  s.collOp { vr := regsFrom a.toNat 6, ar := [n.toNat] } noBusy fun c => crelLane a.toNat d.toNat c (c.tm.areg n.toNat)

def execCopen (settled : Bool) (n : BitVec 4) (a d : BitVec 6) (s : State) : Out :=
  s.collOp { vr := regsFrom a.toNat 4, ar := [n.toNat] } noBusy fun c => copenLane settled a.toNat d.toNat c (c.tm.areg n.toNat)

def execCcnt (n : BitVec 4) (a d : BitVec 6) (s : State) : Out :=
  s.collOp { vr := regsFrom a.toNat 4, ar := [n.toNat] } noBusy fun c => ccntLane a.toNat d.toNat c (c.tm.areg n.toNat)

def execCnext (h : Src) (d : BitVec 6) (s : State) : Out :=
  s.collOp { srcs := [h] } noBusy fun c => cnextLane (fun l => (src32 .int c.tm l h).w) d.toNat c

def execCclose (h : Src) (s : State) : Out :=
  s.collOp { srcs := [h] } noBusy fun c => ccloseLane (fun l => (src32 .int c.tm l h).w) c

def execCstep (n : BitVec 4) (d : BitVec 5) (s : State) : Out :=
  s.collOp { ar := [n.toNat], once := true } noBusy fun c => cstepLane d.toNat c (c.tm.areg n.toNat)

/-- A raft no longer waits at the Sawyer. -/
def State.leftSawyer (s : State) (core p : Nat) : Bool := !(s.pipe core p).fixed || (s.pipe core p).raft.isNone

/-- The page of a block takes the Sawyer's write now; for want of a link it waits. -/
def State.blkTakes (s : State) (u : SawWho) (d : Desc) (b : Drift) : Bool :=
  match s.sawAt u (d.pool + 256 * b.blk) true with
  | .ok _ => true
  | .error _ => false
def State.blkCut (s : State) (u : SawWho) (d : Desc) (b : Drift) : Bool :=
  match s.sawAt u (d.pool + 256 * b.blk) true with
  | .ok _ => false
  | .error f => f.remote

/-- SAWYER_COMMIT: the Sawyer rewrites every block of a collection (R131), or passes over a raft that is gone. The `cstep` checked the pages;
where one of them has been taken away since, the block keeps the header that it has, there and in what the Sawyer knows of it, and for one that
no link reaches the rewrite waits (log 18, DESIGN CHOICE). -/
def execSawyerCommit (cluster : Nat) (s : State) : Out :=
  let pop (s : State) : State := s.updCluster cluster fun k => { k with sawyerQ := k.sawyerQ.tail }
  match (s.cluster cluster).sawyerQ with
  | [] => .fault .notDue
  | .arrived core p :: _ => if s.leftSawyer core p then .next (pop s) else .fault .notDue
  | .rewrite pa asid sup :: _ =>
    match mfind pa s.colls with
    | none => .next (pop s)
    | some k =>
      let u : SawWho := { cluster := cluster, asid := asid, sup := sup }
      let f (o n : Nat) : Nat := s.homeNat (pa + o) n
      let d : Desc := { va := 0, loc := .mem pa 0, tlb := { asid := asid, vbase := 0, log2 := 12, pte := 0, addr := 0, a := false, d := false },
                        pa := pa, root := f 0 8, pool := f 8 8, nblk := k.nblk, sen := k.sen, pw := k.pw, q := k.q, cellexp := k.cellexp,
                        step := f 0x18 8, serial := 0, cache := 0, count := 0, own := [] }
      let new := (linked k.chain).map fun x => if s.blkTakes u d x.1 then (x.1.touch d.step, x.2, true) else (x.1, x.2, false)
      if k.chain.any (s.blkCut u d) then .fault .notDue
      else
      let s1 := (pop s).writeBlks u d k new
      .next { s1 with colls := mput pa { k with chain := new.map (·.1) } s1.colls }

end Sys2Proof.Machine
end

