-- ==== Sys2Proof/Machine/Control.lean ====
section
/-!
DEFINITION. Control transfer, filing, ends, `trap` and `nop` (R245 to R251, R55).
-/

namespace Sys2Proof.Machine

/-- The byte offset of a signed halfword offset. -/
def halfwords {w : Nat} (off : BitVec w) : VAddr := BitVec.ofInt 57 (2 * off.toInt)

/-- A control instruction that goes on at `pc`: occupancy 2 (R225). -/
def State.jump (s : State) (c : Ctx) (pc : VAddr) : State := s.goOn c pc 2

/-- A target for each lane: go on at the common one where the outcome is the same in every lane, or file each thread at its own (R47). -/
def State.jumpEach (s : State) (c : Ctx) (same : Bool) (f : Ln → VAddr) : State :=
  if same then s.jump c (f c.elected) else s.fileRaft c (c.lns.map fun l => (l.tid, f l))

def execBr (off : BitVec 23) (s : State) : Out := s.issue {} fun s c => .next (s.jump c (c.pc + halfwords off))

def execBrp (off : BitVec 16) (neg : Bool) (p : BitVec 3) (s : State) : Out :=
  s.issue { pr := true } fun s c =>
    .next (s.jumpEach c (c.lns.all fun l => l.th.pred p == c.elected.th.pred p) fun l =>
      if l.th.pred p != neg then c.pc + halfwords off else c.after 4)

def execCall (off : BitVec 23) (s : State) : Out :=
  s.issue {} fun s c =>
    let link : Word := (c.after 4 - c.tm.codebase).setWidth 32
    let s := { s with threads := putThreads (c.lns.map fun (l : Ln) => (l.tid, l.th.setReg 63 link tU32)) s.threads }
    .next (s.jump c (c.pc + halfwords off))

/-- The target of `ret` and `jmpi`, R247. -/
def targetOf (c : Ctx) (a : Src) (l : Ln) : VAddr := c.tm.codebase + (src32 .int c.tm l a).w.setWidth 57

def State.jumpIndirect (s : State) (a : Src) : Out :=
  s.issue { srcs := [a] } fun s c =>
    match c.raiser fun l => (targetOf c a l).getLsbD 0 with
    | some l => .next (s.raise c l { cause := 0x06 } 4)
    | none => .next (s.jumpEach c (c.lns.all fun l => targetOf c a l == targetOf c a c.elected) (targetOf c a))

def execRet (a : Src) (s : State) : Out := s.jumpIndirect a
def execJmpi (a : Src) (s : State) : Out := s.jumpIndirect a

/-- File every thread at the following instruction. -/
def State.fileNext (s : State) (c : Ctx) : State := s.fileRaft c (c.lns.map fun l => (l.tid, c.after 4))

def execReform (s : State) : Out := s.issue {} fun s c => .next (s.fileNext c)
def execJoin (s : State) : Out := s.issue {} fun s c => .next (s.fileNext c)

/-- Every pipe of the core passes the raft's own deck over at its next formation (R42, R55). -/
def State.rankLast (s : State) (core team : Nat) (pc : VAddr) (inj : Bool) : State :=
  (List.range Config.pipes).foldl (fun s p =>
    s.setPipe core p { s.pipe core p with pass := insertNew (team, pc, inj) (s.pipe core p).pass }) s

def execYield (s : State) : Out :=
  s.issue {} fun s c => .next ((s.fileNext c).rankLast c.core c.team (c.after 4) c.injected.isSome)

/-- End of a thread by `exit`; an injected one has refused (R113). -/
def State.exitThread (s : State) (c : Ctx) (l : Ln) : State :=
  match l.th.inj with
  | some i => s.surrenderRefuse c.team l.tid i c.pc
  | none => s.dropThread l.tid

def execExit (s : State) : Out :=
  s.issue {} fun s c =>
    let s := s.freePipe c.core c.p
    .next (((c.lns.foldl (fun s l => s.exitThread c l) s).trapDone c.team).settle c.core)

def execTrap (_code : BitVec 16) (s : State) : Out := s.issue {} fun s c => .next (s.raise c c.whole { cause := 0x50 } 4)

def execNop (s : State) : Out := s.issue {} fun s c => .next (s.goOn c (c.after 4) 1)

end Sys2Proof.Machine
end

