-- ==== Sys2Proof/Decode.lean ====
section
/-!
DEFINITION. The decoder, total on any bytes and refusing by name (R201 to R212, R216 to R221), and the encoder written
from the same tables. A field coding has one decoder (`src`, `dst`, `memty`, …) and one encoder (`srcEnc`, …).
-/

namespace Sys2Proof

/-- Why bytes are no instruction. Every one but `truncated` raises 0x01 (R221). -/
inductive DecodeError where
  /-- Fewer bytes than the first parcel says the instruction has. -/
  | truncated
  /-- The parcel 0x0000, R212. -/
  | zeroParcel
  /-- An operation code that the maps of R216 to R219 leave free. -/
  | freeCode
  /-- A reserved source pattern, R205. -/
  | reservedSource
  /-- An M2 value that R209 does not allow. -/
  | forbiddenM2
  /-- A bit that must be zero is not, or a reserved M4 code (R204, R207, R208, R274, R308). -/
  | reservedBit
  /-- A shift immediate outside 0 to 31, R204. -/
  | shiftRange
  /-- Operands the instruction's entry does not allow: an odd pair, an unlisted literal, a block past v63 (R221). -/
  | badOperand
  deriving DecidableEq, Repr

abbrev Dec := Except DecodeError Instr

/-- The fields of an instruction word by format, R203. -/
inductive Fields where
  | c (b : BitVec 5) (d : BitVec 6) (op : BitVec 4)
  | r (m : BitVec 2) (b a d : BitVec 7) (op : BitVec 6)
  | t (c : BitVec 6) (b a : BitVec 7) (d : BitVec 6) (op : BitVec 3)
  | i (i : BitVec 9) (a d : BitVec 7) (op : BitVec 6)
  | m (m : BitVec 4) (x : BitVec 5) (a d : BitVec 7) (op : BitVec 6)
  deriving DecidableEq, Repr

-- Field codings, each a decoder that hands the operand on and an encoder.

/-- R205. -/
def srcOf (f : BitVec 7) : Option Src :=
  if f.extractLsb' 6 1 = 0#1 then some (.v (f.extractLsb' 0 6))
  else if f.extractLsb' 5 2 = 0b10#2 then some (.s (f.extractLsb' 0 5))
  else if f.extractLsb' 2 5 = 0b11000#5 then some (.y (f.extractLsb' 0 2))
  else if f.extractLsb' 3 4 = 0b1101#4 then some (.c (f.extractLsb' 0 3))
  else none

def srcEnc : Src → BitVec 7
  | .v n => 0#1 ++ n
  | .s n => 0b10#2 ++ n
  | .y n => 0b11000#5 ++ n
  | .c k => 0b1101#4 ++ k

def src (f : BitVec 7) (k : Src → Dec) : Dec :=
  match srcOf f with
  | some s => k s
  | none => .error .reservedSource

/-- A field read as it stands. -/
def raw {w : Nat} (f : BitVec w) (k : BitVec w → Dec) : Dec := k f

/-- A field that must be zero. -/
def zero {w : Nat} (f : BitVec w) (k : Dec) : Dec := if f = 0#w then k else .error .reservedBit

/-- R208, vector class. -/
def dst (f : BitVec 7) (k : Dst → Dec) : Dec := k ⟨f.getLsbD 6, f.extractLsb' 0 6⟩
def dstEnc (d : Dst) : BitVec 7 := BitVec.ofBool d.sup ++ d.n

/-- R208, predicate class. -/
def pred (f : BitVec 7) (k : BitVec 3 → Dec) : Dec :=
  if f.extractLsb' 3 4 = 0#4 then k (f.extractLsb' 0 3) else .error .reservedBit
def predEnc (p : BitVec 3) : BitVec 7 := 0#4 ++ p

/-- R208, address register class, and the source of `adda` (R207). -/
def areg (f : BitVec 7) (k : BitVec 4 → Dec) : Dec :=
  if f.extractLsb' 4 3 = 0#3 then k (f.extractLsb' 0 4) else .error .reservedBit
def aregEnc (n : BitVec 4) : BitVec 7 := 0#3 ++ n

/-- R208, uniform register class. -/
def sreg (f : BitVec 7) (k : BitVec 5 → Dec) : Dec :=
  if f.extractLsb' 5 2 = 0#2 then k (f.extractLsb' 0 5) else .error .reservedBit
def sregEnc (n : BitVec 5) : BitVec 7 := 0#2 ++ n

/-- A vector register with bit 6 zero, R274. -/
def vreg (f : BitVec 7) (k : BitVec 6 → Dec) : Dec :=
  if f.extractLsb' 6 1 = 0#1 then k (f.extractLsb' 0 6) else .error .reservedBit
def vregEnc (n : BitVec 6) : BitVec 7 := 0#1 ++ n

/-- A source field that must name a uniform register (R282, R323). -/
def usrc (f : BitVec 7) (k : BitVec 5 → Dec) : Dec :=
  if f.extractLsb' 5 2 = 0b10#2 then k (f.extractLsb' 0 5) else .error .badOperand
def usrcEnc (n : BitVec 5) : BitVec 7 := 0b10#2 ++ n

/-- M2 with `.u` in bit 0 and a second modifier in bit 1, R209. -/
def flag2 (f : BitVec 2) (k : Bool → Bool → Dec) : Dec := k (f.getLsbD 0) (f.getLsbD 1)
def flag2Enc (lo hi : Bool) : BitVec 2 := BitVec.ofBool hi ++ BitVec.ofBool lo
def flagLo (f : BitVec 2) (k : Bool → Dec) : Dec := if f.getLsbD 1 then .error .forbiddenM2 else k (f.getLsbD 0)
def flagLoEnc (lo : Bool) : BitVec 2 := 0#1 ++ BitVec.ofBool lo
def flagHi (f : BitVec 2) (k : Bool → Dec) : Dec := if f.getLsbD 0 then .error .forbiddenM2 else k (f.getLsbD 1)
def flagHiEnc (hi : Bool) : BitVec 2 := BitVec.ofBool hi ++ 0#1

/-- R71. -/
def rmOf (f : BitVec 2) : Rm :=
  match f.toNat with
  | 0 => .rne
  | 1 => .rz
  | 2 => .ru
  | _ => .rd
def rm (f : BitVec 2) (k : Rm → Dec) : Dec := k (rmOf f)
def rmEnc : Rm → BitVec 2
  | .rne => 0
  | .rz => 1
  | .ru => 2
  | .rd => 3

/-- R209, `dcmp`. -/
def dcmp (f : BitVec 2) (k : DCmp → Dec) : Dec :=
  match f.toNat with
  | 0 => k .eq
  | 1 => k .lt
  | 2 => k .le
  | _ => k .un
def dcmpEnc : DCmp → BitVec 2
  | .eq => 0
  | .lt => 1
  | .le => 2
  | .un => 3

/-- A shift immediate, R204. -/
def shift (f : BitVec 9) (k : BitVec 5 → Dec) : Dec :=
  if f.extractLsb' 5 4 = 0#4 then k (f.extractLsb' 0 5) else .error .shiftRange
def shiftEnc (n : BitVec 5) : BitVec 9 := 0#4 ++ n

/-- D7 of `brp`, R204. -/
def brp (f : BitVec 7) (k : Bool → BitVec 3 → Dec) : Dec :=
  if f.extractLsb' 4 3 = 0#3 then k (f.getLsbD 3) (f.extractLsb' 0 3) else .error .reservedBit
def brpEnc (neg : Bool) (p : BitVec 3) : BitVec 7 := 0#3 ++ BitVec.ofBool neg ++ p

/-- R17. -/
def memtyOf (f : BitVec 4) : MemTy :=
  match f.toNat with
  | 0 => .z8 | 1 => .s8 | 2 => .z16 | 3 => .s16 | 4 => .i32 | 5 => .f32 | 6 => .f64 | 7 => .bf16x2
  | 8 => .f16x2 | 9 => .e4m3x4 | 10 => .e5m2x4 | 11 => .i8x4 | 12 => .n4p | 13 => .key64 | 14 => .b128 | _ => .b32
def memty (f : BitVec 4) (k : MemTy → Dec) : Dec := k (memtyOf f)
def memtyEnc : MemTy → BitVec 4
  | .z8 => 0 | .s8 => 1 | .z16 => 2 | .s16 => 3 | .i32 => 4 | .f32 => 5 | .f64 => 6 | .bf16x2 => 7
  | .f16x2 => 8 | .e4m3x4 => 9 | .e5m2x4 => 10 | .i8x4 => 11 | .n4p => 12 | .key64 => 13 | .b128 => 14 | .b32 => 15

/-- X5 with bit 4 zero and the base address register. -/
def base (f : BitVec 5) (k : BitVec 4 → Dec) : Dec :=
  if f.extractLsb' 4 1 = 0#1 then k (f.extractLsb' 0 4) else .error .reservedBit
def baseEnc (n : BitVec 4) : BitVec 5 := 0#1 ++ n
def flagBase (f : BitVec 5) (k : Bool → BitVec 4 → Dec) : Dec := k (f.getLsbD 4) (f.extractLsb' 0 4)
def flagBaseEnc (h : Bool) (n : BitVec 4) : BitVec 5 := BitVec.ofBool h ++ n

/-- R23. -/
def scope (f : BitVec 4) (k : Scope → Dec) : Dec :=
  match f.toNat with
  | 0 => k .team | 1 => k .core | 2 => k .cluster | 3 => k .die | 4 => k .package | 5 => k .domain | 6 => k .system
  | _ => .error .reservedBit
def scopeEnc : Scope → BitVec 4
  | .team => 0 | .core => 1 | .cluster => 2 | .die => 3 | .package => 4 | .domain => 5 | .system => 6

/-- R287. -/
def aop (f : BitVec 4) (k : AtomOp → Dec) : Dec :=
  match f.toNat with
  | 0 => k .add | 1 => k .min | 2 => k .max | 3 => k .minu | 4 => k .maxu | 5 => k .and | 6 => k .or | 7 => k .xor
  | 8 => k .exch | 9 => k .cas | 10 => k .fadd | 11 => k .bfadd2 | 12 => k .add64 | 13 => k .exch64 | 14 => k .cas64
  | _ => .error .reservedBit
def aopEnc : AtomOp → BitVec 4
  | .add => 0 | .min => 1 | .max => 2 | .minu => 3 | .maxu => 4 | .and => 5 | .or => 6 | .xor => 7
  | .exch => 8 | .cas => 9 | .fadd => 10 | .bfadd2 => 11 | .add64 => 12 | .exch64 => 13 | .cas64 => 14

/-- D7 of `fence`, R285. -/
def fkind (f : BitVec 7) (k : FenceKind → Dec) : Dec :=
  match f.toNat with
  | 0 => k .full | 1 => k .rel | 2 => k .acq
  | _ => .error .reservedBit
def fkindEnc : FenceKind → BitVec 7
  | .full => 0 | .rel => 1 | .acq => 2

/-- One modifier in bit 0 of M4. -/
def bit0 (f : BitVec 4) (k : Bool → Dec) : Dec :=
  if f.extractLsb' 1 3 = 0#3 then k (f.getLsbD 0) else .error .reservedBit
def bit0Enc (b : Bool) : BitVec 4 := 0#3 ++ BitVec.ofBool b
def low3 (f : BitVec 4) (k : BitVec 3 → Dec) : Dec :=
  if f.extractLsb' 3 1 = 0#1 then k (f.extractLsb' 0 3) else .error .reservedBit
def low3Enc (p : BitVec 3) : BitVec 4 := 0#1 ++ p

/-- R277. -/
def space (f : BitVec 4) (k : Space → Dec) : Dec :=
  match f.toNat with
  | 0 => k .glob | 1 => k .spad | 2 => k .hnd
  | _ => .error .reservedBit
def spaceEnc : Space → BitVec 4
  | .glob => 0 | .spad => 1 | .hnd => 2

/-- The mask operand of R298: sM, or the inline constant −1 (0x6E). -/
def tmask (f : BitVec 7) (k : TagMask → Dec) : Dec :=
  if f.extractLsb' 5 2 = 0b10#2 then k (.pair (f.extractLsb' 0 5))
  else if f = 0x6E#7 then k .all else .error .badOperand
def tmaskEnc : TagMask → BitVec 7
  | .pair m => 0b10#2 ++ m
  | .all => 0x6E#7

/-- A7 of `mma` and `mmas`, R308. -/
def mmaA (f : BitVec 7) (k : Bool → BitVec 5 → Dec) : Dec :=
  if f.getLsbD 5 then .error .reservedBit else k (f.getLsbD 6) (f.extractLsb' 0 5)
def mmaAEnc (wb : Bool) (n : BitVec 5) : BitVec 7 := BitVec.ofBool wb ++ 0#1 ++ n

/-- A CSR number, R69: 11 to 127 raise 0x01 (11 to 15 by the operand check). -/
def csr (f : BitVec 7) (k : BitVec 4 → Dec) : Dec :=
  if f.extractLsb' 4 3 = 0#3 then k (f.extractLsb' 0 4) else .error .badOperand
def csrEnc (n : BitVec 4) : BitVec 7 := 0#3 ++ n

/-- M4 of `csrw`, R308. -/
def cform (f : BitVec 4) (k : CsrForm → Dec) : Dec :=
  match f.toNat with
  | 0 => k .write | 1 => k .set | 2 => k .clr
  | _ => .error .reservedBit
def cformEnc : CsrForm → BitVec 4
  | .write => 0 | .set => 1 | .clr => 2

/-- k of `sys.info`, R330. -/
def info (f : BitVec 7) (k : BitVec 2 → Dec) : Dec :=
  if f.extractLsb' 2 5 = 0#5 then k (f.extractLsb' 0 2) else .error .badOperand
def infoEnc (n : BitVec 2) : BitVec 7 := 0#5 ++ n

/-- The C16 B field, R205: v0 to v27, then y0 to y3. -/
def bfieldOf (f : BitVec 5) : Src :=
  if f.extractLsb' 2 3 = 0b111#3 then .y (f.extractLsb' 0 2) else .v (0#1 ++ f)
def bfieldEnc : Src → BitVec 5
  | .y n => 0b111#3 ++ n
  | .v n => n.extractLsb' 0 5
  | _ => 0

-- The tables.

/-- The C16 form, R211. -/
def decodeC (b : BitVec 5) (d : BitVec 6) (op : BitVec 4) : Dec :=
  let b := bfieldOf b
  match op.toNat with
  | 0 => .ok (.addC16 b d) | 1 => .ok (.subC16 b d) | 2 => .ok (.mulC16 b d) | 3 => .ok (.andC16 b d)
  | 4 => .ok (.orC16 b d) | 5 => .ok (.xorC16 b d) | 6 => .ok (.shlC16 b d) | 7 => .ok (.shrC16 b d)
  | 8 => .ok (.sarC16 b d) | 9 => .ok (.movC16 b d) | 10 => .ok (.minC16 b d) | 11 => .ok (.maxC16 b d)
  | 12 => .ok (.faddC16 b d) | 13 => .ok (.fsubC16 b d) | 14 => .ok (.fmulC16 b d) | _ => .ok (.fmaxC16 b d)

/-- The R format, R216, with the field codings of R207 to R209. -/
def decodeR (m : BitVec 2) (b a d : BitVec 7) (op : BitVec 6) : Dec :=
  match op.toNat with
  | 0x00 => flag2 m fun u sat => src b fun b => src a fun a => dst d fun d => .ok (.add u sat a b d)
  | 0x01 => flag2 m fun u sat => src b fun b => src a fun a => dst d fun d => .ok (.sub u sat a b d)
  | 0x02 => flag2 m fun u sat => src b fun b => src a fun a => dst d fun d => .ok (.mul u sat a b d)
  | 0x03 => flagLo m fun u => src b fun b => src a fun a => dst d fun d => .ok (.mulh u a b d)
  | 0x04 => flagHi m fun inv => src b fun b => src a fun a => dst d fun d => .ok (.and inv a b d)
  | 0x05 => flagHi m fun inv => src b fun b => src a fun a => dst d fun d => .ok (.or inv a b d)
  | 0x06 => flagHi m fun inv => src b fun b => src a fun a => dst d fun d => .ok (.xor inv a b d)
  | 0x07 => flagHi m fun inv => src b fun b => src a fun a => dst d fun d => .ok (.andn inv a b d)
  | 0x08 => zero m <| src b fun b => src a fun a => dst d fun d => .ok (.shl a b d)
  | 0x09 => zero m <| src b fun b => src a fun a => dst d fun d => .ok (.shr a b d)
  | 0x0A => zero m <| src b fun b => src a fun a => dst d fun d => .ok (.sar a b d)
  | 0x0B => zero m <| src b fun b => src a fun a => dst d fun d => .ok (.rot a b d)
  | 0x0C => flagLo m fun u => src b fun b => src a fun a => dst d fun d => .ok (.min u a b d)
  | 0x0D => flagLo m fun u => src b fun b => src a fun a => dst d fun d => .ok (.max u a b d)
  | 0x0E => flagLo m fun u => src b fun b => src a fun a => dst d fun d => .ok (.absd u a b d)
  | 0x0F => flagLo m fun u => src b fun b => src a fun a => dst d fun d => .ok (.div u a b d)
  | 0x10 => flagLo m fun u => src b fun b => src a fun a => dst d fun d => .ok (.rem u a b d)
  | 0x11 => zero m <| zero b <| src a fun a => dst d fun d => .ok (.clz a d)
  | 0x12 => zero m <| zero b <| src a fun a => dst d fun d => .ok (.popc a d)
  | 0x13 => zero m <| zero b <| src a fun a => dst d fun d => .ok (.brev a d)
  | 0x14 => flagHi m fun inv => src b fun b => src a fun a => pred d fun p => .ok (.cmpeq inv a b p)
  | 0x15 => flag2 m fun u inv => src b fun b => src a fun a => pred d fun p => .ok (.cmplt inv u a b p)
  | 0x16 => flag2 m fun u inv => src b fun b => src a fun a => pred d fun p => .ok (.cmple inv u a b p)
  | 0x17 => raw m fun p => src b fun b => src a fun a => dst d fun d => .ok (.sel p a b d)
  | 0x18 => zero m <| src b fun b => areg a fun aS => areg d fun aD => .ok (.adda b aS aD)
  | 0x19 => zero m <| zero b <| src a fun a => dst d fun d => .ok (.mov a d)
  | 0x1A => zero m <| src b fun b => src a fun a => dst d fun d => .ok (.bcst a b d)
  | 0x1B => zero m <| src b fun b => src a fun a => dst d fun d => .ok (.shfl a b d)
  | 0x1C => zero b <| src a fun a =>
    match m.toNat with
    | 0 => pred d fun p => .ok (.voteAny a p)
    | 1 => pred d fun p => .ok (.voteAll a p)
    | 2 => dst d fun d => .ok (.voteBallot a d)
    | _ => .error .forbiddenM2
  | 0x1D => zero m <| src b fun b => src a fun a => dst d fun d => .ok (.prmt a b d)
  | 0x20 => rm m fun rm => src b fun b => src a fun a => dst d fun d => .ok (.fadd rm a b d)
  | 0x21 => rm m fun rm => src b fun b => src a fun a => dst d fun d => .ok (.fsub rm a b d)
  | 0x22 => rm m fun rm => src b fun b => src a fun a => dst d fun d => .ok (.fmul rm a b d)
  | 0x23 => zero m <| src b fun b => src a fun a => dst d fun d => .ok (.fmin a b d)
  | 0x24 => zero m <| src b fun b => src a fun a => dst d fun d => .ok (.fmax a b d)
  | 0x25 => zero m <| src b fun b => src a fun a => pred d fun p => .ok (.fcmpeq a b p)
  | 0x26 => zero m <| src b fun b => src a fun a => pred d fun p => .ok (.fcmplt a b p)
  | 0x27 => zero m <| src b fun b => src a fun a => pred d fun p => .ok (.fcmple a b p)
  | 0x28 => rm m fun rm => zero b <| src a fun a => dst d fun d => .ok (.frcp rm a d)
  | 0x29 => zero m <| zero b <| src a fun a => dst d fun d => .ok (.frsq a d)
  | 0x2A => rm m fun rm => zero b <| src a fun a => dst d fun d => .ok (.fsqrt rm a d)
  | 0x2B => zero m <| zero b <| src a fun a => dst d fun d => .ok (.fex2 a d)
  | 0x2C => zero m <| zero b <| src a fun a => dst d fun d => .ok (.flg2 a d)
  | 0x2D => zero m <| zero b <| src a fun a => dst d fun d => .ok (.fsin a d)
  | 0x2E => zero m <| zero b <| src a fun a => dst d fun d => .ok (.fcos a d)
  | 0x2F => zero m <| zero b <| src a fun a => dst d fun d => .ok (.fclass a d)
  | 0x30 => rm m fun rm => src b fun b => src a fun a => dst d fun d => .ok (.dadd rm a b d)
  | 0x31 => rm m fun rm => src b fun b => src a fun a => dst d fun d => .ok (.dsub rm a b d)
  | 0x32 => rm m fun rm => src b fun b => src a fun a => dst d fun d => .ok (.dmul rm a b d)
  | 0x33 => zero m <| src b fun b => src a fun a => dst d fun d => .ok (.dmin a b d)
  | 0x34 => zero m <| src b fun b => src a fun a => dst d fun d => .ok (.dmax a b d)
  | 0x35 => dcmp m fun t => src b fun b => src a fun a => pred d fun p => .ok (.dcmp t a b p)
  | 0x36 => rm m fun rm => zero b <| src a fun a => dst d fun d => .ok (.drcp rm a d)
  | 0x37 => rm m fun rm => src b fun b => src a fun a => dst d fun d => .ok (.hadd2 rm a b d)
  | 0x38 => rm m fun rm => src b fun b => src a fun a => dst d fun d => .ok (.hmul2 rm a b d)
  | 0x39 => zero m <| src b fun b => src a fun a => dst d fun d => .ok (.hmax2 a b d)
  | 0x3A => rm m fun rm => raw b fun k => src a fun a => dst d fun d => .ok (.cvt rm k a d)
  | 0x3B => zero m <| raw b fun k => src a fun a => dst d fun d => .ok (.ftag k a d)
  | 0x3C => zero m <| src b fun b => vreg a fun a => dst d fun d => .ok (.qnt4 b a d)
  | 0x3D => zero m <| src b fun b => src a fun a => dst d fun d => .ok (.dqnt4 a b d)
  | 0x3E => zero m <| raw b fun k => zero a <| dst d fun d => .ok (.getsr k d)
  | _ => .error .freeCode

/-- The T format, R217: C and D name v0 to v63 only (R205). -/
def decodeT (c : BitVec 6) (b a : BitVec 7) (d : BitVec 6) (op : BitVec 3) : Dec :=
  src b fun b => src a fun a =>
  match op.toNat with
  | 0 => .ok (.ffma a b c d)
  | 1 => .ok (.dfma a b c d)
  | 2 => .ok (.hfma2 a b c d)
  | 3 => .ok (.mad a b c d)
  | 4 => .ok (.bfi a b c d)
  | 5 => .ok (.dot4 a b c d)
  | 6 => .ok (.dot2h a b c d)
  | _ => .error .freeCode

/-- The I format, R218 and R204: a 16-bit immediate is I9 and A7 together, a branch offset I9, A7 and D7. -/
def decodeI (i : BitVec 9) (a d : BitVec 7) (op : BitVec 6) : Dec :=
  match op.toNat with
  | 0x00 => raw i fun imm => src a fun a => dst d fun d => .ok (.addi imm a d)
  | 0x01 => raw i fun imm => src a fun a => dst d fun d => .ok (.andi imm a d)
  | 0x02 => raw i fun imm => src a fun a => dst d fun d => .ok (.ori imm a d)
  | 0x03 => raw i fun imm => src a fun a => dst d fun d => .ok (.xori imm a d)
  | 0x04 => shift i fun sh => src a fun a => dst d fun d => .ok (.shli sh a d)
  | 0x05 => shift i fun sh => src a fun a => dst d fun d => .ok (.shri sh a d)
  | 0x06 => shift i fun sh => src a fun a => dst d fun d => .ok (.sari sh a d)
  | 0x07 => raw i fun imm => src a fun a => pred d fun p => .ok (.cmpeqi imm a p)
  | 0x08 => raw i fun imm => src a fun a => pred d fun p => .ok (.cmplti imm a p)
  | 0x09 => raw i fun imm => src a fun a => pred d fun p => .ok (.cmplei imm a p)
  | 0x0A => dst d fun d => .ok (.movi (i ++ a) d)
  | 0x0B => dst d fun d => .ok (.movhi (i ++ a) d)
  | 0x0C => sreg d fun d => .ok (.movsi (i ++ a) d)
  | 0x0D => sreg d fun d => .ok (.movhsi (i ++ a) d)
  | 0x0E => raw i fun imm => areg a fun aS => areg d fun aD => .ok (.addai imm aS aD)
  | 0x10 => .ok (.br (i ++ a ++ d))
  | 0x11 => brp d fun neg p => .ok (.brp (i ++ a) neg p)
  | 0x12 => .ok (.call (i ++ a ++ d))
  | 0x13 => zero i <| src a fun a => zero d <| .ok (.ret a)
  | 0x14 => zero i <| src a fun a => zero d <| .ok (.jmpi a)
  | 0x15 => zero i <| zero a <| zero d <| .ok (.reform)
  | 0x16 => zero i <| zero a <| zero d <| .ok (.join)
  | 0x17 => zero i <| zero a <| zero d <| .ok (.yield)
  | 0x18 => zero i <| zero a <| zero d <| .ok (.exit)
  | 0x19 => zero d <| .ok (.trap (i ++ a))
  | 0x1A => zero i <| zero a <| zero d <| .ok (.nop)
  | _ => .error .freeCode

/-- The M format, R219, with the fields of R274 and R308. -/
def decodeM (m : BitVec 4) (x : BitVec 5) (a d : BitVec 7) (op : BitVec 6) : Dec :=
  match op.toNat with
  | 0x00 => memty m fun t => base x fun n => src a fun o => vreg d fun d => .ok (.ld t n o d)
  | 0x01 => memty m fun t => base x fun n => src a fun o => src d fun b => .ok (.st t n o b)
  | 0x02 => memty m fun t => base x fun n => src a fun o => sreg d fun d => .ok (.ldu t n o d)
  | 0x03 => memty m fun t => flagBase x fun h n => src a fun o => vreg d fun d => .ok (.lds t h n o d)
  | 0x04 => memty m fun t => flagBase x fun h n => src a fun o => src d fun b => .ok (.sts t h n o b)
  | 0x05 => memty m fun t => base x fun n => usrc a fun p => zero d <| .ok (.ldbmv t n p)
  | 0x06 => memty m fun t => base x fun n => usrc a fun p => zero d <| .ok (.stbmv t n p)
  | 0x07 => scope m fun sc => flagBase x fun b64 n => src a fun o => vreg d fun d => .ok (.ldacq sc b64 n o d)
  | 0x08 => scope m fun sc => flagBase x fun b64 n => src a fun o => src d fun b => .ok (.strel sc b64 n o b)
  | 0x09 => aop m fun op => flagBase x fun near n => src a fun b => vreg d fun d => .ok (.atom op near n b d)
  | 0x0A => aop m fun op => flagBase x fun far n => src a fun b => src d fun o => .ok (.atomu op far n b o)
  | 0x0B => scope m fun sc => zero x <| zero a <| fkind d fun k => .ok (.fence sc k)
  | 0x0C => bit0 m fun l2 => base x fun n => src a fun o => zero d <| .ok (.pref l2 n o)
  | 0x0D => zero m <| base x fun n => src a fun o => vreg d fun d => .ok (.taglk n o d)
  | 0x0E => zero m <| base x fun n => src a fun o => src d fun b => .ok (.tagset n o b)
  | 0x0F => zero m <| zero x <| src a fun b => zero d <| .ok (.tagclr b)
  | 0x10 => space m fun sp => base x fun n => src a fun b => src d fun c => .ok (.barinit sp n b c)
  | 0x11 => space m fun sp => base x fun n => zero a <| zero d <| .ok (.bararv sp n)
  | 0x12 => space m fun sp => base x fun n => src a fun b => zero d <| .ok (.barexp sp n b)
  | 0x13 => space m fun sp => base x fun n => src a fun k => zero d <| .ok (.barwait sp n k)
  | 0x14 => zero m <| base x fun n => zero a <| vreg d fun t => .ok (.cpy n t)
  | 0x15 => zero m <| base x fun n => zero a <| vreg d fun t => .ok (.cpyx n t)
  | 0x16 => zero m <| base x fun n => zero a <| vreg d fun t => .ok (.cpymma n t)
  | 0x17 => bit0 m fun all =>
    if x.getLsbD 4 then
      if x.extractLsb' 0 4 = 0#4 then zero d <| tmask a fun m => .ok (.ctwaitMask all m) else .error .reservedBit
    else zero a <| .ok (.ctwaitGroup all (x.extractLsb' 3 1 ++ d) (x.extractLsb' 0 3))
  | 0x18 => zero m <| zero x <| tmask a fun m => sreg d fun d => .ok (.ctfind m d)
  | 0x19 => bit0 m fun spad => base x fun n => zero a <| zero d <| .ok (.xfer spad n)
  | 0x1A => bit0 m fun spad => base x fun n => zero a <| zero d <| .ok (.lease spad n)
  | 0x1B => zero m <| zero x <| src a fun b => zero d <| .ok (.unlease b)
  | 0x1C => zero m <| zero x <| src a fun b => src d fun c => .ok (.surr b c)
  | 0x1D => low3 m fun k => base x fun n => zero a <| vreg d fun d => .ok (.qres k n d)
  | 0x1E => zero m <| base x fun n => src a fun b => zero d <| .ok (.qpub n b)
  | 0x1F => zero m <| base x fun n => zero a <| vreg d fun d => .ok (.qtake n d)
  | 0x20 => zero m <| base x fun n => vreg a fun a => vreg d fun d => .ok (.cins n a d)
  | 0x21 => zero m <| base x fun n => vreg a fun a => vreg d fun d => .ok (.cdel n a d)
  | 0x22 => zero m <| base x fun n => vreg a fun a => vreg d fun d => .ok (.crel n a d)
  | 0x23 => bit0 m fun settled => base x fun n => vreg a fun a => vreg d fun d => .ok (.copen settled n a d)
  | 0x24 => zero m <| zero x <| src a fun c => vreg d fun d => .ok (.cnext c d)
  | 0x25 => zero m <| zero x <| src a fun c => zero d <| .ok (.cclose c)
  | 0x26 => zero m <| base x fun n => zero a <| sreg d fun d => .ok (.cstep n d)
  | 0x27 => zero m <| base x fun n => vreg a fun a => vreg d fun d => .ok (.ccnt n a d)
  | 0x28 => raw m fun ty => raw x fun shape => mmaA a fun wb n => raw d fun tile => .ok (.mma ty shape wb n tile)
  | 0x29 => raw m fun ty => raw x fun shape => mmaA a fun wb n => raw d fun tile => .ok (.mmas ty shape wb n tile)
  | 0x2A => raw m fun ty => zero x <| raw a fun n => raw d fun tile => .ok (.mzero ty n tile)
  | 0x2B => raw m fun ty => base x fun n => src a fun b => vreg d fun region => .ok (.mldw ty n b region)
  | 0x2C => raw m fun ty => base x fun n => raw a fun cnt => raw d fun tile => .ok (.macld ty n cnt tile)
  | 0x2D => zero m <| base x fun n => raw a fun cnt => raw d fun tile => .ok (.macst n cnt tile)
  | 0x2E => bit0 m fun wb => zero x <| raw a fun cnt => raw d fun tile => .ok (.mwait wb cnt tile)
  | 0x30 => raw m fun m => base x fun n => src a fun o => vreg d fun d => .ok (.tray m n o d)
  | 0x31 => zero m <| zero x <| src a fun b => zero d <| .ok (.tnext b)
  | 0x32 => zero m <| zero x <| src a fun b => vreg d fun d => .ok (.twait b d)
  | 0x33 => zero m <| zero x <| src a fun b => zero d <| .ok (.tres b)
  | 0x34 => low3 m fun k => zero x <| usrc a fun v => vreg d fun d => .ok (.rast k v d)
  | 0x35 => zero m <| base x fun n => zero a <| vreg d fun t => .ok (.tsig n t)
  | 0x36 => if m.extractLsb' 2 2 = 0#2 then
      if m.getLsbD 0 then base x fun n => zero a <| pred d fun k => .ok (.spawnK (m.getLsbD 1) n k)
      else base x fun g => src a fun b => pred d fun k => .ok (.spawnT (m.getLsbD 1) g b k)
    else .error .reservedBit
  | 0x37 => zero m <| zero x <| csr a fun csr => sreg d fun d => .ok (.csrr csr d)
  | 0x38 => cform m fun form => zero x <| src a fun b => csr d fun csr => .ok (.csrw form b csr)
  | 0x39 => bit0 m fun skip => zero x <| zero a <| zero d <| .ok (.eret skip)
  | 0x3A => match m.toNat with
    | 0 => base x fun n => src a fun b => zero d <| .ok (.tlbiPage n b)
    | 1 => zero x <| src a fun b => zero d <| .ok (.tlbiAsid b)
    | 2 => zero x <| zero a <| zero d <| .ok (.tlbiAll)
    | _ => .error .reservedBit
  | 0x3B => match m.toNat with
    | 0 => zero x <| src a fun b => zero d <| .ok (.harvAsid b)
    | 1 => zero x <| zero a <| zero d <| .ok (.harvAll)
    | _ => .error .reservedBit
  | 0x3C => match m.toNat with
    | 0 => zero x <| src a fun b => zero d <| .ok (.sysMsg b)
    | 1 => zero x <| info a fun k => sreg d fun d => .ok (.sysInfo k d)
    | _ => .error .reservedBit
  | _ => .error .freeCode

/-- The fields of a well-formed instruction, from the same tables; `none` for an event row, which has no encoding. -/
def fieldsOf : Instr → Option Fields
  | .add u sat a b d => some (.r (flag2Enc u sat) (srcEnc b) (srcEnc a) (dstEnc d) 0x00#6)
  | .sub u sat a b d => some (.r (flag2Enc u sat) (srcEnc b) (srcEnc a) (dstEnc d) 0x01#6)
  | .mul u sat a b d => some (.r (flag2Enc u sat) (srcEnc b) (srcEnc a) (dstEnc d) 0x02#6)
  | .mulh u a b d => some (.r (flagLoEnc u) (srcEnc b) (srcEnc a) (dstEnc d) 0x03#6)
  | .and inv a b d => some (.r (flagHiEnc inv) (srcEnc b) (srcEnc a) (dstEnc d) 0x04#6)
  | .or inv a b d => some (.r (flagHiEnc inv) (srcEnc b) (srcEnc a) (dstEnc d) 0x05#6)
  | .xor inv a b d => some (.r (flagHiEnc inv) (srcEnc b) (srcEnc a) (dstEnc d) 0x06#6)
  | .andn inv a b d => some (.r (flagHiEnc inv) (srcEnc b) (srcEnc a) (dstEnc d) 0x07#6)
  | .shl a b d => some (.r 0#2 (srcEnc b) (srcEnc a) (dstEnc d) 0x08#6)
  | .shr a b d => some (.r 0#2 (srcEnc b) (srcEnc a) (dstEnc d) 0x09#6)
  | .sar a b d => some (.r 0#2 (srcEnc b) (srcEnc a) (dstEnc d) 0x0A#6)
  | .rot a b d => some (.r 0#2 (srcEnc b) (srcEnc a) (dstEnc d) 0x0B#6)
  | .min u a b d => some (.r (flagLoEnc u) (srcEnc b) (srcEnc a) (dstEnc d) 0x0C#6)
  | .max u a b d => some (.r (flagLoEnc u) (srcEnc b) (srcEnc a) (dstEnc d) 0x0D#6)
  | .absd u a b d => some (.r (flagLoEnc u) (srcEnc b) (srcEnc a) (dstEnc d) 0x0E#6)
  | .div u a b d => some (.r (flagLoEnc u) (srcEnc b) (srcEnc a) (dstEnc d) 0x0F#6)
  | .rem u a b d => some (.r (flagLoEnc u) (srcEnc b) (srcEnc a) (dstEnc d) 0x10#6)
  | .clz a d => some (.r 0#2 0#7 (srcEnc a) (dstEnc d) 0x11#6)
  | .popc a d => some (.r 0#2 0#7 (srcEnc a) (dstEnc d) 0x12#6)
  | .brev a d => some (.r 0#2 0#7 (srcEnc a) (dstEnc d) 0x13#6)
  | .cmpeq inv a b p => some (.r (flagHiEnc inv) (srcEnc b) (srcEnc a) (predEnc p) 0x14#6)
  | .cmplt inv u a b p => some (.r (flag2Enc u inv) (srcEnc b) (srcEnc a) (predEnc p) 0x15#6)
  | .cmple inv u a b p => some (.r (flag2Enc u inv) (srcEnc b) (srcEnc a) (predEnc p) 0x16#6)
  | .sel p a b d => some (.r p (srcEnc b) (srcEnc a) (dstEnc d) 0x17#6)
  | .adda b aS aD => some (.r 0#2 (srcEnc b) (aregEnc aS) (aregEnc aD) 0x18#6)
  | .mov a d => some (.r 0#2 0#7 (srcEnc a) (dstEnc d) 0x19#6)
  | .bcst a b d => some (.r 0#2 (srcEnc b) (srcEnc a) (dstEnc d) 0x1A#6)
  | .shfl a b d => some (.r 0#2 (srcEnc b) (srcEnc a) (dstEnc d) 0x1B#6)
  | .voteAny a p => some (.r 0#2 0#7 (srcEnc a) (predEnc p) 0x1C#6)
  | .voteAll a p => some (.r 1#2 0#7 (srcEnc a) (predEnc p) 0x1C#6)
  | .voteBallot a d => some (.r 2#2 0#7 (srcEnc a) (dstEnc d) 0x1C#6)
  | .prmt a b d => some (.r 0#2 (srcEnc b) (srcEnc a) (dstEnc d) 0x1D#6)
  | .fadd rm a b d => some (.r (rmEnc rm) (srcEnc b) (srcEnc a) (dstEnc d) 0x20#6)
  | .fsub rm a b d => some (.r (rmEnc rm) (srcEnc b) (srcEnc a) (dstEnc d) 0x21#6)
  | .fmul rm a b d => some (.r (rmEnc rm) (srcEnc b) (srcEnc a) (dstEnc d) 0x22#6)
  | .fmin a b d => some (.r 0#2 (srcEnc b) (srcEnc a) (dstEnc d) 0x23#6)
  | .fmax a b d => some (.r 0#2 (srcEnc b) (srcEnc a) (dstEnc d) 0x24#6)
  | .fcmpeq a b p => some (.r 0#2 (srcEnc b) (srcEnc a) (predEnc p) 0x25#6)
  | .fcmplt a b p => some (.r 0#2 (srcEnc b) (srcEnc a) (predEnc p) 0x26#6)
  | .fcmple a b p => some (.r 0#2 (srcEnc b) (srcEnc a) (predEnc p) 0x27#6)
  | .frcp rm a d => some (.r (rmEnc rm) 0#7 (srcEnc a) (dstEnc d) 0x28#6)
  | .frsq a d => some (.r 0#2 0#7 (srcEnc a) (dstEnc d) 0x29#6)
  | .fsqrt rm a d => some (.r (rmEnc rm) 0#7 (srcEnc a) (dstEnc d) 0x2A#6)
  | .fex2 a d => some (.r 0#2 0#7 (srcEnc a) (dstEnc d) 0x2B#6)
  | .flg2 a d => some (.r 0#2 0#7 (srcEnc a) (dstEnc d) 0x2C#6)
  | .fsin a d => some (.r 0#2 0#7 (srcEnc a) (dstEnc d) 0x2D#6)
  | .fcos a d => some (.r 0#2 0#7 (srcEnc a) (dstEnc d) 0x2E#6)
  | .fclass a d => some (.r 0#2 0#7 (srcEnc a) (dstEnc d) 0x2F#6)
  | .dadd rm a b d => some (.r (rmEnc rm) (srcEnc b) (srcEnc a) (dstEnc d) 0x30#6)
  | .dsub rm a b d => some (.r (rmEnc rm) (srcEnc b) (srcEnc a) (dstEnc d) 0x31#6)
  | .dmul rm a b d => some (.r (rmEnc rm) (srcEnc b) (srcEnc a) (dstEnc d) 0x32#6)
  | .dmin a b d => some (.r 0#2 (srcEnc b) (srcEnc a) (dstEnc d) 0x33#6)
  | .dmax a b d => some (.r 0#2 (srcEnc b) (srcEnc a) (dstEnc d) 0x34#6)
  | .dcmp t a b p => some (.r (dcmpEnc t) (srcEnc b) (srcEnc a) (predEnc p) 0x35#6)
  | .drcp rm a d => some (.r (rmEnc rm) 0#7 (srcEnc a) (dstEnc d) 0x36#6)
  | .hadd2 rm a b d => some (.r (rmEnc rm) (srcEnc b) (srcEnc a) (dstEnc d) 0x37#6)
  | .hmul2 rm a b d => some (.r (rmEnc rm) (srcEnc b) (srcEnc a) (dstEnc d) 0x38#6)
  | .hmax2 a b d => some (.r 0#2 (srcEnc b) (srcEnc a) (dstEnc d) 0x39#6)
  | .cvt rm k a d => some (.r (rmEnc rm) k (srcEnc a) (dstEnc d) 0x3A#6)
  | .ftag k a d => some (.r 0#2 k (srcEnc a) (dstEnc d) 0x3B#6)
  | .qnt4 b a d => some (.r 0#2 (srcEnc b) (vregEnc a) (dstEnc d) 0x3C#6)
  | .dqnt4 a b d => some (.r 0#2 (srcEnc b) (srcEnc a) (dstEnc d) 0x3D#6)
  | .getsr k d => some (.r 0#2 k 0#7 (dstEnc d) 0x3E#6)
  | .ffma a b c d => some (.t c (srcEnc b) (srcEnc a) d 0#3)
  | .dfma a b c d => some (.t c (srcEnc b) (srcEnc a) d 1#3)
  | .hfma2 a b c d => some (.t c (srcEnc b) (srcEnc a) d 2#3)
  | .mad a b c d => some (.t c (srcEnc b) (srcEnc a) d 3#3)
  | .bfi a b c d => some (.t c (srcEnc b) (srcEnc a) d 4#3)
  | .dot4 a b c d => some (.t c (srcEnc b) (srcEnc a) d 5#3)
  | .dot2h a b c d => some (.t c (srcEnc b) (srcEnc a) d 6#3)
  | .addi imm a d => some (.i imm (srcEnc a) (dstEnc d) 0x00#6)
  | .andi imm a d => some (.i imm (srcEnc a) (dstEnc d) 0x01#6)
  | .ori imm a d => some (.i imm (srcEnc a) (dstEnc d) 0x02#6)
  | .xori imm a d => some (.i imm (srcEnc a) (dstEnc d) 0x03#6)
  | .shli sh a d => some (.i (shiftEnc sh) (srcEnc a) (dstEnc d) 0x04#6)
  | .shri sh a d => some (.i (shiftEnc sh) (srcEnc a) (dstEnc d) 0x05#6)
  | .sari sh a d => some (.i (shiftEnc sh) (srcEnc a) (dstEnc d) 0x06#6)
  | .cmpeqi imm a p => some (.i imm (srcEnc a) (predEnc p) 0x07#6)
  | .cmplti imm a p => some (.i imm (srcEnc a) (predEnc p) 0x08#6)
  | .cmplei imm a p => some (.i imm (srcEnc a) (predEnc p) 0x09#6)
  | .movi imm d => some (.i (imm.extractLsb' 7 9) (imm.extractLsb' 0 7) (dstEnc d) 0x0A#6)
  | .movhi imm d => some (.i (imm.extractLsb' 7 9) (imm.extractLsb' 0 7) (dstEnc d) 0x0B#6)
  | .movsi imm d => some (.i (imm.extractLsb' 7 9) (imm.extractLsb' 0 7) (sregEnc d) 0x0C#6)
  | .movhsi imm d => some (.i (imm.extractLsb' 7 9) (imm.extractLsb' 0 7) (sregEnc d) 0x0D#6)
  | .addai imm aS aD => some (.i imm (aregEnc aS) (aregEnc aD) 0x0E#6)
  | .br off => some (.i (off.extractLsb' 14 9) (off.extractLsb' 7 7) (off.extractLsb' 0 7) 0x10#6)
  | .brp off neg p => some (.i (off.extractLsb' 7 9) (off.extractLsb' 0 7) (brpEnc neg p) 0x11#6)
  | .call off => some (.i (off.extractLsb' 14 9) (off.extractLsb' 7 7) (off.extractLsb' 0 7) 0x12#6)
  | .ret a => some (.i 0#9 (srcEnc a) 0#7 0x13#6)
  | .jmpi a => some (.i 0#9 (srcEnc a) 0#7 0x14#6)
  | .reform => some (.i 0#9 0#7 0#7 0x15#6)
  | .join => some (.i 0#9 0#7 0#7 0x16#6)
  | .yield => some (.i 0#9 0#7 0#7 0x17#6)
  | .exit => some (.i 0#9 0#7 0#7 0x18#6)
  | .trap code => some (.i (code.extractLsb' 7 9) (code.extractLsb' 0 7) 0#7 0x19#6)
  | .nop => some (.i 0#9 0#7 0#7 0x1A#6)
  | .addC16 b d => some (.c (bfieldEnc b) d 0#4)
  | .subC16 b d => some (.c (bfieldEnc b) d 1#4)
  | .mulC16 b d => some (.c (bfieldEnc b) d 2#4)
  | .andC16 b d => some (.c (bfieldEnc b) d 3#4)
  | .orC16 b d => some (.c (bfieldEnc b) d 4#4)
  | .xorC16 b d => some (.c (bfieldEnc b) d 5#4)
  | .shlC16 b d => some (.c (bfieldEnc b) d 6#4)
  | .shrC16 b d => some (.c (bfieldEnc b) d 7#4)
  | .sarC16 b d => some (.c (bfieldEnc b) d 8#4)
  | .movC16 b d => some (.c (bfieldEnc b) d 9#4)
  | .minC16 b d => some (.c (bfieldEnc b) d 10#4)
  | .maxC16 b d => some (.c (bfieldEnc b) d 11#4)
  | .faddC16 b d => some (.c (bfieldEnc b) d 12#4)
  | .fsubC16 b d => some (.c (bfieldEnc b) d 13#4)
  | .fmulC16 b d => some (.c (bfieldEnc b) d 14#4)
  | .fmaxC16 b d => some (.c (bfieldEnc b) d 15#4)
  | .ld t n o d => some (.m (memtyEnc t) (baseEnc n) (srcEnc o) (vregEnc d) 0x00#6)
  | .st t n o b => some (.m (memtyEnc t) (baseEnc n) (srcEnc o) (srcEnc b) 0x01#6)
  | .ldu t n o d => some (.m (memtyEnc t) (baseEnc n) (srcEnc o) (sregEnc d) 0x02#6)
  | .lds t h n o d => some (.m (memtyEnc t) (flagBaseEnc h n) (srcEnc o) (vregEnc d) 0x03#6)
  | .sts t h n o b => some (.m (memtyEnc t) (flagBaseEnc h n) (srcEnc o) (srcEnc b) 0x04#6)
  | .ldbmv t n p => some (.m (memtyEnc t) (baseEnc n) (usrcEnc p) 0#7 0x05#6)
  | .stbmv t n p => some (.m (memtyEnc t) (baseEnc n) (usrcEnc p) 0#7 0x06#6)
  | .ldacq sc b64 n o d => some (.m (scopeEnc sc) (flagBaseEnc b64 n) (srcEnc o) (vregEnc d) 0x07#6)
  | .strel sc b64 n o b => some (.m (scopeEnc sc) (flagBaseEnc b64 n) (srcEnc o) (srcEnc b) 0x08#6)
  | .atom op near n b d => some (.m (aopEnc op) (flagBaseEnc near n) (srcEnc b) (vregEnc d) 0x09#6)
  | .atomu op far n b o => some (.m (aopEnc op) (flagBaseEnc far n) (srcEnc b) (srcEnc o) 0x0A#6)
  | .fence sc k => some (.m (scopeEnc sc) 0#5 0#7 (fkindEnc k) 0x0B#6)
  | .pref l2 n o => some (.m (bit0Enc l2) (baseEnc n) (srcEnc o) 0#7 0x0C#6)
  | .taglk n o d => some (.m 0#4 (baseEnc n) (srcEnc o) (vregEnc d) 0x0D#6)
  | .tagset n o b => some (.m 0#4 (baseEnc n) (srcEnc o) (srcEnc b) 0x0E#6)
  | .tagclr b => some (.m 0#4 0#5 (srcEnc b) 0#7 0x0F#6)
  | .barinit sp n b c => some (.m (spaceEnc sp) (baseEnc n) (srcEnc b) (srcEnc c) 0x10#6)
  | .bararv sp n => some (.m (spaceEnc sp) (baseEnc n) 0#7 0#7 0x11#6)
  | .barexp sp n b => some (.m (spaceEnc sp) (baseEnc n) (srcEnc b) 0#7 0x12#6)
  | .barwait sp n k => some (.m (spaceEnc sp) (baseEnc n) (srcEnc k) 0#7 0x13#6)
  | .cpy n t => some (.m 0#4 (baseEnc n) 0#7 (vregEnc t) 0x14#6)
  | .cpyx n t => some (.m 0#4 (baseEnc n) 0#7 (vregEnc t) 0x15#6)
  | .cpymma n t => some (.m 0#4 (baseEnc n) 0#7 (vregEnc t) 0x16#6)
  | .ctwaitGroup all mask g => some (.m (bit0Enc all) (0#1 ++ mask.extractLsb' 7 1 ++ g) 0#7 (mask.extractLsb' 0 7) 0x17#6)
  | .ctwaitMask all m => some (.m (bit0Enc all) 0x10#5 (tmaskEnc m) 0#7 0x17#6)
  | .ctfind m d => some (.m 0#4 0#5 (tmaskEnc m) (sregEnc d) 0x18#6)
  | .xfer spad n => some (.m (bit0Enc spad) (baseEnc n) 0#7 0#7 0x19#6)
  | .lease spad n => some (.m (bit0Enc spad) (baseEnc n) 0#7 0#7 0x1A#6)
  | .unlease b => some (.m 0#4 0#5 (srcEnc b) 0#7 0x1B#6)
  | .surr b c => some (.m 0#4 0#5 (srcEnc b) (srcEnc c) 0x1C#6)
  | .qres k n d => some (.m (low3Enc k) (baseEnc n) 0#7 (vregEnc d) 0x1D#6)
  | .qpub n b => some (.m 0#4 (baseEnc n) (srcEnc b) 0#7 0x1E#6)
  | .qtake n d => some (.m 0#4 (baseEnc n) 0#7 (vregEnc d) 0x1F#6)
  | .spawnT try_ g b k => some (.m (0#2 ++ BitVec.ofBool try_ ++ 0#1) (baseEnc g) (srcEnc b) (predEnc k) 0x36#6)
  | .spawnK try_ n k => some (.m (0#2 ++ BitVec.ofBool try_ ++ 1#1) (baseEnc n) 0#7 (predEnc k) 0x36#6)
  | .cins n a d => some (.m 0#4 (baseEnc n) (vregEnc a) (vregEnc d) 0x20#6)
  | .cdel n a d => some (.m 0#4 (baseEnc n) (vregEnc a) (vregEnc d) 0x21#6)
  | .crel n a d => some (.m 0#4 (baseEnc n) (vregEnc a) (vregEnc d) 0x22#6)
  | .copen settled n a d => some (.m (bit0Enc settled) (baseEnc n) (vregEnc a) (vregEnc d) 0x23#6)
  | .cnext c d => some (.m 0#4 0#5 (srcEnc c) (vregEnc d) 0x24#6)
  | .cclose c => some (.m 0#4 0#5 (srcEnc c) 0#7 0x25#6)
  | .cstep n d => some (.m 0#4 (baseEnc n) 0#7 (sregEnc d) 0x26#6)
  | .ccnt n a d => some (.m 0#4 (baseEnc n) (vregEnc a) (vregEnc d) 0x27#6)
  | .mma ty shape wb n tile => some (.m ty shape (mmaAEnc wb n) tile 0x28#6)
  | .mmas ty shape wb n tile => some (.m ty shape (mmaAEnc wb n) tile 0x29#6)
  | .mzero ty n tile => some (.m ty 0#5 n tile 0x2A#6)
  | .mldw ty n b region => some (.m ty (baseEnc n) (srcEnc b) (vregEnc region) 0x2B#6)
  | .macld ty n cnt tile => some (.m ty (baseEnc n) cnt tile 0x2C#6)
  | .macst n cnt tile => some (.m 0#4 (baseEnc n) cnt tile 0x2D#6)
  | .mwait wb cnt tile => some (.m (bit0Enc wb) 0#5 cnt tile 0x2E#6)
  | .tray m n o d => some (.m m (baseEnc n) (srcEnc o) (vregEnc d) 0x30#6)
  | .tnext b => some (.m 0#4 0#5 (srcEnc b) 0#7 0x31#6)
  | .twait b d => some (.m 0#4 0#5 (srcEnc b) (vregEnc d) 0x32#6)
  | .tres b => some (.m 0#4 0#5 (srcEnc b) 0#7 0x33#6)
  | .rast k v d => some (.m (low3Enc k) 0#5 (usrcEnc v) (vregEnc d) 0x34#6)
  | .tsig n t => some (.m 0#4 (baseEnc n) 0#7 (vregEnc t) 0x35#6)
  | .csrr csr d => some (.m 0#4 0#5 (csrEnc csr) (sregEnc d) 0x37#6)
  | .csrw form b csr => some (.m (cformEnc form) 0#5 (srcEnc b) (csrEnc csr) 0x38#6)
  | .eret skip => some (.m (bit0Enc skip) 0#5 0#7 0#7 0x39#6)
  | .tlbiPage n b => some (.m 0#4 (baseEnc n) (srcEnc b) 0#7 0x3A#6)
  | .tlbiAsid b => some (.m 1#4 0#5 (srcEnc b) 0#7 0x3A#6)
  | .tlbiAll => some (.m 2#4 0#5 0#7 0#7 0x3A#6)
  | .harvAsid b => some (.m 0#4 0#5 (srcEnc b) 0#7 0x3B#6)
  | .harvAll => some (.m 1#4 0#5 0#7 0#7 0x3B#6)
  | .sysMsg b => some (.m 0#4 0#5 (srcEnc b) 0#7 0x3C#6)
  | .sysInfo k d => some (.m 1#4 0#5 (infoEnc k) (sregEnc d) 0x3C#6)
  | _ => none

def decodeFields : Fields → Dec
  | .c b d op => decodeC b d op
  | .r m b a d op => decodeR m b a d op
  | .t c b a d op => decodeT c b a d op
  | .i i a d op => decodeI i a d op
  | .m m x a d op => decodeM m x a d op

/-- The word of some fields, R203: one parcel for C16, else 32 bits. -/
def pack : Fields → BitVec 16 ⊕ BitVec 32
  | .c b d op => .inl (b ++ d ++ op ++ 0#1)
  | .r m b a d op => .inr (m ++ b ++ a ++ d ++ op ++ 0b001#3)
  | .t c b a d op => .inr (c ++ b ++ a ++ d ++ op ++ 0b011#3)
  | .i i a d op => .inr (i ++ a ++ d ++ op ++ 0b101#3)
  | .m m x a d op => .inr (m ++ x ++ a ++ d ++ op ++ 0b111#3)

/-- The fields of a 16-bit parcel, R203. -/
def unpack16 (h : BitVec 16) : Fields := .c (h.extractLsb' 11 5) (h.extractLsb' 5 6) (h.extractLsb' 1 4)

/-- The fields of a 32-bit word by its format bits [2:1], R203. -/
def unpack32 (w : BitVec 32) : Fields :=
  match (w.extractLsb' 1 2).toNat with
  | 0 => .r (w.extractLsb' 30 2) (w.extractLsb' 23 7) (w.extractLsb' 16 7) (w.extractLsb' 9 7) (w.extractLsb' 3 6)
  | 1 => .t (w.extractLsb' 26 6) (w.extractLsb' 19 7) (w.extractLsb' 12 7) (w.extractLsb' 6 6) (w.extractLsb' 3 3)
  | 2 => .i (w.extractLsb' 23 9) (w.extractLsb' 16 7) (w.extractLsb' 9 7) (w.extractLsb' 3 6)
  | _ => .m (w.extractLsb' 28 4) (w.extractLsb' 23 5) (w.extractLsb' 16 7) (w.extractLsb' 9 7) (w.extractLsb' 3 6)

/-- Decoding with the operand checks of each entry (R221). -/
def decodeChecked (f : Fields) : Dec :=
  match decodeFields f with
  | .ok i => if i.wf then .ok i else .error .badOperand
  | .error e => .error e

def decode16 (h : BitVec 16) : Dec := if h = 0#16 then .error .zeroParcel else decodeChecked (unpack16 h)
def decode32 (w : BitVec 32) : Dec := decodeChecked (unpack32 w)

/-- The length in bytes that the first parcel gives, R201. -/
def lengthOf (h : BitVec 16) : Nat := if h.getLsbD 0 then 4 else 2

/-- Bytes in address order to an instruction and the rest, R201: little-endian parcels, the first parcel saying the length. -/
def decode : List Byte → Except DecodeError (Instr × List Byte)
  | b0 :: b1 :: r =>
    if b0.getLsbD 0 then
      match r with
      | b2 :: b3 :: r' => (decode32 (b3 ++ b2 ++ b1 ++ b0)).map (·, r')
      | _ => .error .truncated
    else (decode16 (b1 ++ b0)).map (·, r)
  | _ => .error .truncated

/-- The bytes of a word in address order, R201. -/
def wordBytes : BitVec 16 ⊕ BitVec 32 → List Byte
  | .inl h => [h.extractLsb' 0 8, h.extractLsb' 8 8]
  | .inr w => [w.extractLsb' 0 8, w.extractLsb' 8 8, w.extractLsb' 16 8, w.extractLsb' 24 8]

/-- The word of an instruction; `none` for an event row. -/
def encode (i : Instr) : Option (BitVec 16 ⊕ BitVec 32) := (fieldsOf i).map pack

/-- The bytes the host lays out for a table word of `nbits` bits: 4 bytes always, the bits above `nbits` zero. -/
def tableBytes (nbits w : Nat) : List Byte :=
  wordBytes (.inr (BitVec.ofNat 32 (w % 2 ^ nbits)))

/-- The instruction the decoder reads from a table word. -/
def decodeTableWord (nbits w : Nat) : Option Instr :=
  match decode (tableBytes nbits w) with
  | .ok (i, _) => some i
  | .error _ => none

end Sys2Proof
end

