-- ==== Sys2Proof/Machine/Lease.lean ====
section
/-!
DEFINITION. Landing leases: requests, grants, reclaim, recall and surrender (R106 to R114, R302, R303, R365, R387 to R390, R438),
and the transfer of buffers (R99, R100, R300, R301).
-/

namespace Sys2Proof.Machine

def inCluster (cl : Nat) (t : Team) : Bool := Config.clusterOf t.core == cl

/-- Pinned tiles held in a cluster, by live and saved teams. -/
def State.pinnedTiles (s : State) (cl : Nat) : List Nat :=
  ((s.teams.filter fun t => inCluster cl t.2).flatMap (·.2.pinned)) ++
  ((s.saved.filter fun t => inCluster cl t.2.team).flatMap (·.2.team.pinned))

/-- Tiles that are neither leased, pinned nor set aside, in ascending order. -/
def State.freeTiles (s : State) (cl : Nat) : List Nat :=
  let k := s.cluster cl
  let used := s.pinnedTiles cl ++ k.leases.flatMap (·.2.tiles) ++ k.reqs.flatMap (·.aside)
  (List.range 128).filter fun t => !used.contains t

/-- Some engine job's footprint covers a tile of a lease from the `first` on. -/
def State.jobCovers (s : State) (cl lease first : Nat) : Bool :=
  s.jobs.any fun j => j.2.foot.any fun r => r.space == 2 && r.unit == landUnit cl lease && decide (first * 0x10000 < r.lo + r.n)

/-- Context slots, R61: base of the slot of an ASID for a core and team slot; none before the ASID's context is set. -/
def State.ctxSlot (s : State) (asid core slot : Nat) : Option Nat :=
  (mfind asid s.hub.ctx).map fun c => c + (16 * core + slot) * 0xA0000

/-- The place of a lease block as its team reaches it, in its scratchpad image while it is saved (R58), with the team's cluster; none where it
no longer translates. -/
def State.blockLoc (s : State) (team : Nat) (blk : Ref) : Option (Nat × Loc × Option Tlb) :=
  match s.anyTeam team with
  | none => none
  | some t =>
    if (s.team team).isNone && blk.space == .spad then
      (s.ctxSlot t.asid t.core t.slot).map fun a => (Config.clusterOf t.core, .mem (a + (blk.a.setWidth 32).toNat) 0, none)
    else match s.object t.core team t true blk 32 32 true noBarMt with
      | .ok (l, x) => some (Config.clusterOf t.core, l, x)
      | .error _ => none

/-- The lease manager writes at an offset of a block; its accesses gather A and D like any other (R117, R381). -/
def State.writeBlock (s : State) (team : Nat) (blk : Ref) (o : Nat) (bs : List Byte) : State :=
  match s.blockLoc team blk with
  | none => s
  | some (cl, l, t) => (s.touchOpt (engWho cl) t true).storeHome (Config.dieOfCluster cl) (l.plus o) bs

/-- The lease manager writes STATUS and HELD (R107). -/
def State.writeStatus (s : State) (team : Nat) (blk : Ref) (status held : Nat) : State :=
  s.writeBlock team blk 0x18 (natLe 1 status ++ natLe 1 held)

/-- The lease manager makes the one arrival of a block (R107). -/
def State.arriveBlock (s : State) (team : Nat) (blk : Ref) : State :=
  match s.blockLoc team blk with
  | none => s
  | some (cl, l, t) => (s.touchOpt (engWho cl) t true).barUpdate (Config.dieOfCluster cl) l BarObj.arrive

/-- Threads that wait on a landing object no longer reached are woken at their `barwait` (R387). -/
def State.wakeLost (s : State) (cl : Nat) : State :=
  s.threads.foldl (fun s x =>
    match x.2.place with
    | .blocked (.bar o _) _ =>
      match s.team x.2.team with
      | none => s
      | some t =>
        if o.space == .hnd && inCluster cl t then
          match (s.asIssued 0).object t.core x.2.team t x.2.sup o 16 16 false noBarMt with
          | .ok _ => s
          | .error _ => s.fileThread t.core x.1 (x.2.pc - 4)
        else s
    | _ => s) s

def State.zeroTiles (s : State) (cl : Nat) (ts : List Nat) : State :=
  ts.foldl (fun s t =>
    { s with
      land := mclear (landKey cl t 0) 0x10000 s.land
      psnLand := clearPsn 8 (landKey cl t 0) 0x10000 s.psnLand }) s

/-- Requests in order of arrival, those of one cycle by ascending core (R108, R438). -/
def addReq (q : LeaseReq) : List LeaseReq → List LeaseReq
  | [] => [q]
  | r :: l => if r.at_ = q.at_ && q.core < r.core then q :: r :: l else r :: addReq q l

/-- A read of a block of 32 bytes at issue: it waits on its pipe for the checker (R275) and for what cannot be read yet; then poison. -/
inductive BlockRead where
  | fail (f : Fail)
  | wait (cut : Option Fail)
  | ok (loc : Loc) (t : Option Tlb)
  deriving DecidableEq, Repr

def State.readBlock (s : State) (c : Ctx) (r : Ref) : BlockRead :=
  match s.object c.core c.team c.tm c.elected.th.sup r 32 32 true noBarMt with
  | .error f => .fail f
  | .ok (loc, t) =>
    if s.shut loc || s.conflict c.cluster (r.rngs c.tm.asid loc 32 true) then .wait (s.cutOf loc r.detail true)
    else if s.poisonAt loc 32 then .fail { cause := 0x60, detail := r.detail, write := true }
    else .ok loc t

/-- `lease [aN]`, R302: read the block, submit the request. A request that is both a second one and too large completes with STATUS 1: the
spec does not say which of the two it gets, and the choice is the model's (log 64, DESIGN CHOICE). -/
def execLease (spad : Bool) (n : BitVec 4) (s : State) : Out :=
  s.issue { ar := [n.toNat], once := true, noInj := true } fun s c =>
    let l := c.elected
    let r : Ref := { space := if spad then .spad else .glob, a := c.tm.areg n.toNat }
    match s.readBlock c r with
    | .fail f => .next (s.raiseOnce c l f 4)
    | .wait f => .next (s.holdFor c (l.cut f))
    | .ok loc t =>
      let w := s.wordAt c.die loc 0x10
      let count := bits w 0 8
      let cls := bits w 8 2
      if count = 0 || cls = 0 || cls = 3 then .next (s.raise c l { cause := 0x01 } 4)
      else
        let s := s.touchOpt c.who t true
        let refuse (st : Nat) : Out := .next (((s.writeStatus c.team r st 0).arriveBlock c.team r).goOn c (c.after 4) 1)
        if c.tm.reqOut then refuse 1
        else if 128 - (s.pinnedTiles c.cluster).length < count then refuse 2
        else
          let q : LeaseReq := { team := some c.team, count := count, loose := cls == 2, tclass := bits w 10 2,
                                routine := s.wordAt c.die loc 0x1C, blk := r, at_ := s.now, core := c.core }
          let s := (s.updTeam c.team fun t => { t with reqOut := true }).updCluster c.cluster fun k => { k with reqs := addReq q k.reqs }
          .next (s.goOn c (c.after 4) 1)

/-- A lease is to be given up; what it gives up waits for engine jobs (R112, R365). -/
def Lease.giving (l : Lease) (g : GiveUp) : Lease := { l with giveUp := some g, recalled := none, injected := false, refusals := 0 }

/-- `unlease` of a lease: all of it goes. Where a routine has released it in the same cycle, by `surr` or in violation, that outcome stands,
and is written and posted (R112, R388, R396). -/
def Lease.unleased (l : Lease) (now : Nat) : Lease :=
  if l.giveUp.any fun g => g.keep == 0 then l else l.giving { keep := 0, status := 6, report := false, since := now }

def State.updLease (s : State) (cl idx : Nat) (f : Lease → Lease) : State :=
  s.updCluster cl fun k => { k with leases := mupd idx f k.leases }

def execUnlease (b : Src) (s : State) : Out :=
  s.issue { srcs := [b], once := true, noInj := true } fun s c =>
    let l := c.elected
    match s.heldLease c.cluster c.team (src32 .int c.tm l b).w.toNat with
    | none => .next (s.raise c l { cause := 0x2B } 4)
    | some (idx, _) =>
      .next ((s.updLease c.cluster idx fun x => x.unleased s.now).goOn c (c.after 4) 1)

def execSurr (b cc : Src) (s : State) : Out :=
  s.issue { srcs := [cc, b], once := true } fun s c =>
    let l := c.elected
    match l.th.inj with
    | none => .next (s.raise c l { cause := 0x2B } 4)
    | some i =>
      let op := (src32 .int c.tm l cc).w.toNat
      let n := (src32 .int c.tm l b).w.toNat
      let s := s.freePipe c.core c.p
      let ends (s : State) : State := (s.updTeam c.team fun x => { x with routine := none }).dropThread l.tid
      match s.leaseOf c.cluster i with
      | none => .next ((ends s).settle c.core)
      | some x =>
        let give (g : GiveUp) : Out := .next ((ends (s.updLeaseOf c.cluster i fun x => x.giving g)).settle c.core)
        if x.giveUp.isSome then .next ((ends s).settle c.core)
        else if op = 0 || (op = 1 && n = 0) then give { keep := 0, status := 6, report := true, since := s.now }
        else if op = 1 && n < x.held then give { keep := n, status := 5, report := true, since := s.now }
        else .next ((s.surrenderRefuse c.team l.tid i c.pc).settle c.core)

-- The lease manager.

def leaseIndices : Nat := 128

/-- When the pre-emption of a ticket's team took effect at the Skidder, if one is in effect; `d` if none is (R156). -/
def Cluster.heldAt (k : Cluster) (idx d : Nat) : Nat :=
  match mfind idx k.tickets with
  | some t => match k.skHeld.find? fun h => h.1 == t.team with
    | some h => h.2.1
    | none => d
  | none => d

def State.freeLease (s : State) (cl : Nat) : Option Nat :=
  let used := (s.cluster cl).leases.map (·.1)
  (List.range leaseIndices).find? fun k => !used.contains k

/-- Grant the head request, which has its tiles (R108, R438). -/
def State.grant (s : State) (cl : Nat) (q : LeaseReq) (rest : List LeaseReq) : State :=
  let s := (s.zeroTiles cl q.aside).updCluster cl fun k => { k with reqs := rest }
  match q.team with
  | some team =>
    if q.pinned then
      match s.team team with
      | none => s
      | some t =>
        let ids := (s.threadsOf team).map (·.1)
        let s := s.updTeam team fun t => { t with pinned := q.aside, waitPin := 0 }
        -- The threads are filed in the cycle after the grant (R438).
        let s' := ids.foldl (fun s id => match mfind id s.threads with
          | some x => s.fileThread t.core id x.pc
          | none => s) { s with now := s.now + 1 }
        { s' with now := s.now }
    else
      match s.freeLease cl with
      | none => s
      | some idx =>
        let gen := nextGen (mget 0 idx (s.cluster cl).leaseGen)
        let l : Lease := { gen := gen, team := some team, loose := q.loose, tclass := q.tclass, tiles := q.aside, held := q.aside.length,
                           blk := q.blk, routine := q.routine, since := s.now, order := s.fresh }
        let s : State := { s with fresh := s.fresh + 1 }
        let s := s.updCluster cl fun k =>
          { k with leases := mput idx l k.leases, leaseGen := mput idx gen k.leaseGen }
        let s := s.updAny team fun t => { t with reqOut := false }
        let s := s.writeBlock team q.blk 0x14 (natLe 4 (leaseHandle idx gen))
        (s.writeStatus team q.blk 0 q.aside.length).arriveBlock team q.blk
  | none =>
    match s.freeLease cl with
    | none => s
    | some idx =>
      let gen := nextGen (mget 0 idx (s.cluster cl).leaseGen)
      let l : Lease := { gen := gen, team := none, loose := false, tclass := 3, tiles := q.aside, held := q.aside.length, blk := q.blk,
                         since := s.now, order := s.fresh }
      let s : State := { s with fresh := s.fresh + 1 }
      s.updCluster cl fun k =>
        { k with
          leases := mput idx l k.leases
          leaseGen := mput idx gen k.leaseGen
          -- The wait for the grant is not counted as waiting of any ray (R154).
          subqs := k.subqs.map fun q => { q with rays := q.rays.map fun e =>
            { e with since := e.since + (Nat.min s.now (k.heldAt e.ticket s.now) - Nat.max e.since ((k.pass.map (·.asked)).getD s.now)) } }
          pass := k.pass.map fun p => { p with lease := some idx } }

/-- LEASE_SETTLEMENT: free tiles are set aside for the head request, which is granted when it has enough (R108). -/
def execLeaseSettlement (cluster : Nat) (s : State) : Out :=
  match (s.cluster cluster).reqs with
  | [] => .fault .notDue
  | q :: rest =>
    let take := (s.freeTiles cluster).take (q.count - q.aside.length)
    let q' := { q with aside := q.aside ++ take }
    let enough := decide (q.count ≤ q'.aside.length) && (q.pinned || (s.freeLease cluster).isSome)
    if enough then .next (s.grant cluster q' rest)
    else if take.isEmpty then .fault .notDue
    else .next (s.updCluster cluster fun k => { k with reqs := q' :: rest })

/-- Tiles the head request lacks, when no tile is free. (Log 22, DEDUCED.) -/
def State.lacking (s : State) (cl : Nat) : Nat :=
  match (s.cluster cl).reqs with
  | [] => 0
  | q :: _ => if (s.freeTiles cl).isEmpty then q.count - q.aside.length else 0

/-- The youngest loose lease not yet reclaimed. -/
def youngestLoose (ls : Map Lease) : Option (Nat × Lease) :=
  ls.foldl (fun b x => if x.2.loose && !x.2.dead && x.2.giveUp.isNone then
    match b with
    | some y => if y.2.order < x.2.order then some x else b
    | none => some x
    else b) none

/-- LOOSE_RECLAIM: the youngest loose lease loses its tiles without notice (R108, R109, R390), once no job covers them. -/
def execLooseReclaim (cluster index : Nat) (s : State) : Out :=
  match youngestLoose (s.cluster cluster).leases with
  | none => .fault .notDue
  | some (idx, l) =>
    if idx != index || s.lacking cluster = 0 || s.jobCovers cluster idx 0 then .fault .notDue
    else
      let s := s.updLease cluster idx fun x => { x with dead := true, tiles := [], held := 0 }
      let s := match l.team with
        | some t => s.writeStatus t l.blk 4 0
        | none => s
      .next (s.wakeLost cluster)

/-- Cycles for which a lease that refused is passed over, R110. -/
def holdoff : Nat := 8000

def State.teamOnCore (s : State) (team : Nat) : Bool :=
  (s.threadsOf team).any fun t => t.2.inj.isNone && match t.2.place with
    | .evicted _ => false
    | _ => true

/-- A lease that may be recalled for a request of `req` (R110). -/
def State.recallable (s : State) (req : Option Nat) (l : Lease) : Bool :=
  !l.loose && l.recalled.isNone && l.giveUp.isNone && decide (0 < l.held) &&
  (match l.refusedAt with
   | some _ => false
   | none => true) &&
  match l.team with
  | none => true
  | some t => req != some t && s.teamOnCore t && (match s.team t with
    | some x => x.routine.isNone && !x.ending
    | none => false)

/-- The next victim: lowest TCLASS, then oldest grant (R110). -/
def State.victim (s : State) (cl : Nat) (req : Option Nat) : Option (Nat × Lease) :=
  (s.cluster cl).leases.foldl (fun b x => if s.recallable req x.2 then
    match b with
    | some y => if x.2.tclass < y.2.tclass || (x.2.tclass == y.2.tclass && decide (x.2.order < y.2.order)) then some x else b
    | none => some x
    else b) none

/-- Tiles that recalls and outcomes in progress may still bring. -/
def State.coming (s : State) (cl : Nat) : Nat :=
  (s.cluster cl).leases.foldl (fun n x => n + match x.2.giveUp, x.2.recalled with
    | some g, _ => x.2.held - g.keep
    | none, some _ => x.2.held
    | none, none => 0) 0

def recallLimit : Nat := 16
def State.recalls (s : State) (cl : Nat) : Nat := ((s.cluster cl).leases.filter fun x => x.2.recalled.isSome).length

/-- The recall of lease `index` may begin. -/
def State.recallDue (s : State) (cl index : Nat) : Bool :=
  match (s.cluster cl).reqs with
  | [] => false
  | q :: _ =>
    decide (s.coming cl < s.lacking cl) && (youngestLoose (s.cluster cl).leases).isNone && decide (s.recalls cl < recallLimit) &&
    match s.victim cl q.team with
    | some (idx, _) => idx == index
    | none => false

/-- SURRENDER_INJECTION: a recall injects a thread into the holder's team (R111); the Skidder answers its own at the end of
its pass. (Log 32, DEDUCED.) -/
def execSurrenderInjection (cluster index : Nat) (s : State) : Out :=
  match s.recallDue cluster index, mfind index (s.cluster cluster).leases with
  | true, some l =>
    let need := s.lacking cluster - s.coming cluster
    let s := s.updLease cluster index fun x => { x with recalled := some need }
    match l.team with
    | none => .next s
    | some team =>
      match s.team team with
      | none => .fault .notDue
      | some t =>
        let pc : VAddr := t.codebase + BitVec.ofNat 57 l.routine
        let v : Map VReg := mputD {} 0 ⟨BitVec.ofNat 32 (leaseHandle index l.gen), tU32⟩
          (mputD {} 1 ⟨BitVec.ofNat 32 need, tU32⟩ (mputD {} 2 ⟨BitVec.ofNat 32 l.held, tU32⟩ []))
        let th : Thread := { team := team, tnum := 1024, wid := BitVec.ofNat 64 (Config.freeNat s.free), pc := pc, v := v,
                             inj := some { lease := index, gen := l.gen, count := 0 } }
        let id := s.fresh
        let s := { s with threads := mput id th s.threads, fresh := id + 1, free := s.free + 1 }
        let s := (s.updTeam team fun t => { t with routine := some index }).updLease cluster index fun x => { x with injected := true }
        .next (s.fileThread t.core id pc)
  | _, _ => .fault .notDue

/-- SURRENDER_OUTCOME: what a lease gives up becomes free once no engine job covers it (R112, R365, R388). -/
def execSurrenderOutcome (cluster index : Nat) (s : State) : Out :=
  match mfind index (s.cluster cluster).leases with
  | none => .fault .notDue
  | some l =>
    match l.giveUp with
    | none => .fault .notDue
    | some g =>
      if s.jobCovers cluster index g.keep then .fault .notDue
      else
        let s := if g.keep = 0 then s.updCluster cluster fun k => { k with leases := mdel index k.leases }
          else s.updLease cluster index fun x => { x with tiles := x.tiles.take g.keep, held := g.keep, giveUp := none }
        let s := match l.team with
          | some t => if g.report then s.writeStatus t l.blk g.status g.keep else s
          | none => s
        let s := match g.rec_ with
          | some (k, r) => s.post k r
          | none => s
        .next (s.wakeLost cluster)

/-- REFUSAL_HOLDOFF_EXPIRY: a lease that refused may be chosen again 8,000 cycles later (R110). -/
def execRefusalHoldoffExpiry (cluster index : Nat) (s : State) : Out :=
  match mfind index (s.cluster cluster).leases with
  | none => .fault .notDue
  | some l =>
    match l.refusedAt with
    | none => .fault .notDue
    | some t =>
      let s := s.advance (t + holdoff)
      .next (s.updLease cluster index fun x => { x with refusedAt := none })

/-- Leases of a team that ends (R249): negotiated and loose as by `unlease`; its requests are withdrawn. -/
def State.endLeases (s : State) (cl team : Nat) : State :=
  s.updCluster cl fun k =>
    { k with
      reqs := k.reqs.filter fun q => q.team != some team
      leases := mmap (fun _ l => if l.team = some team then l.giving (match l.giveUp with
        | some g => { g with keep := 0, report := false }
        | none => { keep := 0, status := 6, report := false, since := s.now }) else l) k.leases }

-- Buffers.

/-- Buffers when a team ends (R100): those it holds return to their originators; those it originated and transferred out stay
until they return. -/
def Buf.afterEnd (team : Nat) (b : Buf) : Option Buf :=
  if b.holder = team then (if b.orig = team then none else some { b with holder := b.orig })
  else some b

/-- Granules of an ended originator that a buffer still keeps are freed when it returns (R100): the buffer is dropped. -/
def State.endBufs (s : State) (cl team : Nat) : State :=
  s.updCluster cl fun k =>
    { k with bufs := (k.bufs.filterMap (Buf.afterEnd team)).filter fun b =>
        !(b.holder == b.orig && (s.team b.orig).isNone && (s.saved.all fun x => x.2.id != b.orig)) }

/-- The buffer that `xfer` names (R301): one held by handle, or one formed of granules of the team's allocation. -/
def State.xferBuf (s : State) (c : Ctx) (buf : Nat) : Except Fail Buf :=
  if buf.testBit 31 then
    match s.bufBy c.cluster buf with
    | some b => if b.holder = c.team then .ok b else .error { cause := 0x13, detail := BitVec.ofNat 64 (buf * 2 ^ 32) }
    | none => .error { cause := 0x13, detail := BitVec.ofNat 64 (buf * 2 ^ 32) }
  else
    let first := bits buf 0 6
    let cnt := bits buf 8 6 + 1
    if c.tm.spadN < first + cnt then .error { cause := 0x14, detail := BitVec.ofNat 64 (first * 0x1000) }
    else if (List.range cnt).any fun g => s.transferred c.cluster c.core c.team (c.tm.spad0 + first + g) then
      .error { cause := 0x13, detail := BitVec.ofNat 64 (first * 0x1000) }
    else
      let key := c.core * 4096 + (c.tm.spad0 + first) * 64 + (cnt - 1)
      .ok { core := c.core, first := c.tm.spad0 + first, count := cnt,
            gen := nextGen (mget 0 key (s.cluster c.cluster).bufGen), orig := c.team, holder := c.team }

/-- The transfer itself: the receiver holds the buffer, and what overlapped it is none any more. -/
def State.xferTo (s : State) (cl : Nat) (b : Buf) (rid : Nat) : State :=
  s.updCluster cl fun k =>
    { k with
      bufs := { b with holder := rid } :: k.bufs.filter fun x =>
        !(x.core == b.core && decide (x.first < b.first + b.count) && decide (b.first < x.first + x.count))
      bufGen := mput (b.core * 4096 + b.first * 64 + (b.count - 1)) b.gen k.bufGen }

/-- `xfer [aN]`, R301: the block's fields, the buffer and the receiver; then the handle word and the arrival, which is a release
(R104). The 0x13 and 0x12 of a (CORE,
SLOT) that holds no team of the ASID record 0 in TRAPADDR: no address is formed from it, and R72 names none (log 63, DESIGN CHOICE). Reserved bits
of the block are ignored: R300 gives no check of them (log 82, DESIGN CHOICE). -/
def execXfer (spad : Bool) (n : BitVec 4) (s : State) : Out :=
  s.issue { ar := [n.toNat], once := true } fun s c =>
    let l := c.elected
    let r : Ref := { space := if spad then .spad else .glob, a := c.tm.areg n.toNat }
    let fail (f : Fail) : Out := .next (s.raiseOnce c l f 4)
    match s.readBlock c r with
    | .fail f => fail f
    | .wait f => .next (s.holdFor c (l.cut f))
    | .ok loc t =>
      let word (o : Nat) : Nat := s.wordAt c.die loc o
      let ctl := word 0x0C
      let q (o : Nat) : DWord := BitVec.ofNat 64 (word o + 2 ^ 32 * word (o + 4))
      let sp (k : Nat) : Space := if k = 0 then .glob else .hnd
      let bsp := bits ctl 10 2
      let hsp := bits ctl 8 2
      if bsp % 2 = 1 || hsp % 2 = 1 then fail { cause := 0x01 }
      else match s.xferBuf c (word 0) with
        | .error f => fail f
        | .ok b =>
          match s.teamAt (c.cluster * 8 + bits ctl 4 3) (bits ctl 0 4) with
          | none => fail { cause := 0x13 }
          | some (rid, rt) =>
            if rt.asid != c.tm.asid then fail { cause := 0x12 }
            else
              let hr : Ref := { space := sp hsp, a := q 0x10 }
              match s.object c.core c.team c.tm l.th.sup hr 4 4 true [2] with
              | .error f => fail f
              | .ok (hl, ht) =>
                let br : Ref := { space := sp bsp, a := q 0x18 }
                match s.objectRead c.core c.team c.tm l.th.sup br 16 16 true noBarMt with
                | .error f => fail f
                | .ok (bl, bt) =>
                  let rng : Rng := { space := 1, unit := b.core, lo := b.first * 0x1000, n := b.count * 0x1000, write := true }
                  if s.cutOff hl || s.cutOff bl then
                    .next (s.holdFor c (l.cut ((s.cutOf hl hr.detail true).or (s.cutOf bl br.detail true))) true)
                  else if s.conflict c.cluster (rng :: hr.rngs c.tm.asid hl 4 true) || (hl.mt != 1 && s.lockedAt hl) ||
                      s.relWait (some (barScope (sp bsp))) c.tids then
                    -- R99: the wait follows issue.
                    .next (s.holdFixed c)
                  else
                    let s := ((s.touchOpt c.who t true).touchOpt c.who ht true).touchOpt c.who bt true
                    let s := (s.xferTo c.cluster b rid).storeAt c.die hl (natLe 4 (bufHandle b)) (c.by l (hr.a.setWidth 57))
                    .next ((s.barUpdate c.die bl BarObj.arrive).goOn c (c.after 4) 1)

end Sys2Proof.Machine
end

