-- ==== Sys2Proof/Machine/RayTest.lean ====
section
/-!
DEFINITION. What a round computes: FP32 arithmetic by single roundings, the tests of boxes, splats and triangles (R147 to R149), and
the walk of one ray through one subtree image (R144 to R146, R150, R402).
-/

namespace Sys2Proof.Machine

-- FP32, each operation rounded RNE on its own, no flags.

def rf (x : Nat) : FVal := Fmt.f32.decode x
def rAdd (x y : Nat) : Nat := (Fmt.f32.add .rne false (rf x) (rf y)).bits
def rSub (x y : Nat) : Nat := (Fmt.f32.sub .rne false (rf x) (rf y)).bits
def rMul (x y : Nat) : Nat := (Fmt.f32.mul .rne false (rf x) (rf y)).bits
def rDiv (x y : Nat) : Nat :=
  match rf x, rf y with
  | .nan _, _ => Fmt.f32.nan
  | _, .nan _ => Fmt.f32.nan
  | .inf _, .inf _ => Fmt.f32.nan
  | .inf s, .fin t _ _ => Fmt.f32.signed (s != t) Fmt.f32.infCode
  | .fin s _ _, .inf t => Fmt.f32.signed (s != t) 0
  | .fin s m e, .fin t n g =>
    if n = 0 then (if m = 0 then Fmt.f32.nan else Fmt.f32.signed (s != t) Fmt.f32.infCode)
    else if m = 0 then Fmt.f32.signed (s != t) 0
    else (Fmt.f32.round .rne false (s != t) m n (e - g)).bits
def rLt (x y : Nat) : Bool := (rf x).lt (rf y)
def rLe (x y : Nat) : Bool := (rf x).le (rf y)
def rNeg (x : Nat) : Nat := x ^^^ 0x80000000
def rNan (x : Nat) : Bool := (rf x).isNan
def rZero (x : Nat) : Bool := (rf x).isZero
def rFinite (x : Nat) : Bool := !(rf x).isNan && !(rf x).isInf
def fOne : Nat := 0x3F800000

def w32 (b : List Byte) (o : Nat) : Nat := leNat ((b.drop o).take 4)
def w16 (b : List Byte) (o : Nat) : Nat := leNat ((b.drop o).take 2)
def vec3 (b : List Byte) (o : Nat) : List Nat := [w32 b o, w32 b (o + 4), w32 b (o + 8)]
def at3 (v : List Nat) (i : Nat) : Nat := v.getD i 0

/-- A ray as its record gives it, R140. -/
structure Ray where
  o    : List Nat
  d    : List Nat
  tmin : Nat
  tmax : Nat
  k    : Nat
  pmask : Nat
  cut  : Nat
  rest : Nat
  resid : Nat
  deriving DecidableEq, Repr

def rayOf (b : List Byte) : Ray :=
  let w := w32 b 0x20
  { o := vec3 b 0, d := vec3 b 0x10, tmin := w32 b 0x0C, tmax := w32 b 0x1C, k := bits w 8 3, pmask := bits w 0 3,
    cut := (Fmt.f32.ofVal .rne false (.fin false (bits w 16 8) (-4))).bits, rest := w32 b 0x28, resid := w32 b 0x2C }

/-- The slot keeps R140. -/
def slotOk (b : List Byte) : Bool :=
  let r := rayOf b
  let w := w32 b 0x20
  bits w 24 8 == 0 && bits w 11 5 == 0 && bits w 3 5 == 0 && decide (1 ≤ r.k) && decide (r.k ≤ 5) && r.pmask != 0 &&
  r.o.all rFinite && r.d.all rFinite && !r.d.all rZero && rFinite r.tmin && (rFinite r.tmax || r.tmax == Fmt.f32.infCode) &&
  rLe r.tmin r.tmax

/-- The slab test, R147: tnear and whether the box is entered. -/
def slab (r : Ray) (lo hi : List Nat) : Nat × Bool :=
  let axis (tt : Nat × Nat) (i : Nat) : Nat × Nat :=
    let inv := rDiv fOne (at3 r.d i)
    let u := rMul (rSub (at3 lo i) (at3 r.o i)) inv
    let w := rMul (rSub (at3 hi i) (at3 r.o i)) inv
    if rNan u || rNan w then tt
    else
      let n := if rLe u w then u else w
      let f := if rLe u w then w else u
      (if rLt tt.1 n then n else tt.1, if rLt f tt.2 then f else tt.2)
  let tt := [0, 1, 2].foldl axis (r.tmin, r.tmax)
  (tt.1, rLe tt.1 tt.2)

/-- u0 * (m00 v0 + m01 v1 + m02 v2) + u1 * (...) + u2 * (...), inner sums left to right, then outer (R148). -/
def quad (m : List (List Nat)) (u v : List Nat) : Nat :=
  let inner (i : Nat) : Nat :=
    let row := m.getD i []
    rAdd (rAdd (rMul (at3 row 0) (at3 v 0)) (rMul (at3 row 1) (at3 v 1))) (rMul (at3 row 2) (at3 v 2))
  let p (i : Nat) : Nat := rMul (at3 u i) (inner i)
  rAdd (rAdd (p 0) (p 1)) (p 2)

/-- An FP16 value widened exactly, R146. -/
def widen16 (x : Nat) : Nat := (Fmt.f32.ofVal .rne false (Fmt.f16.decode x)).bits

def inT (r : Ray) (t : Nat) : Bool := rLe r.tmin t && rLe t r.tmax

/-- Splat test, R148: t and AUX. -/
def splatHit (r : Ray) (b : List Byte) : Option (Nat × Nat) :=
  let mu := vec3 b 0
  let h (k : Nat) : Nat := widen16 (w16 b (0x0C + 2 * k))
  let m := [[h 0, h 1, h 2], [h 1, h 3, h 4], [h 2, h 4, h 5]]
  let w := [0, 1, 2].map fun i => rSub (at3 r.o i) (at3 mu i)
  let a := quad m r.d r.d
  let bb := quad m r.d w
  if !rLt 0 a then none
  else
    let t := rDiv (rNeg bb) a
    let p := [0, 1, 2].map fun i => rSub (rAdd (at3 r.o i) (rMul t (at3 r.d i))) (at3 mu i)
    let d2 := quad m p p
    if rLe d2 r.cut && inT r t then some (t, d2) else none

/-- x y - z w; a zero is recomputed exactly and rounded once (R149). -/
def crossProd (x y z w : Nat) : Nat :=
  let c := rSub (rMul x y) (rMul z w)
  if rZero c then (Fmt.f32.sum .rne false false [(rf x).mul (rf y), ((rf z).mul (rf w)).negate]).bits else c

/-- RNE(b * 65,535) clamped to 0 to 65,535: an FP32 product, then its rounding to an integer (R149). -/
def unorm16 (b : Nat) : Nat :=
  match rf (rMul b 0x477FFF00) with
  | .nan _ => 0
  | .inf s => if s then 0 else 65535
  | .fin s m e => if s then 0 else Nat.min 65535 (FVal.toInt .rne false m e).1.toNat

/-- Triangle test, R149: t and AUX. -/
def triHit (r : Ray) (b : List Byte) : Option (Nat × Nat) :=
  let mag (i : Nat) : Nat := at3 r.d i % 2 ^ 31
  let kz := if mag 0 < mag 1 then (if mag 1 < mag 2 then 2 else 1) else (if mag 0 < mag 2 then 2 else 0)
  let neg := decide (2 ^ 31 ≤ at3 r.d kz)
  let k1 := (kz + 1) % 3
  let k2 := (k1 + 1) % 3
  let kx := if neg then k2 else k1
  let ky := if neg then k1 else k2
  let sx := rDiv (at3 r.d kx) (at3 r.d kz)
  let sy := rDiv (at3 r.d ky) (at3 r.d kz)
  let sz := rDiv fOne (at3 r.d kz)
  let e (j : Nat) : List Nat := [0, 1, 2].map fun i => rSub (at3 (vec3 b (12 * j)) i) (at3 r.o i)
  let xx (j : Nat) : Nat := rSub (at3 (e j) kx) (rMul sx (at3 (e j) kz))
  let yy (j : Nat) : Nat := rSub (at3 (e j) ky) (rMul sy (at3 (e j) kz))
  let u := crossProd (xx 2) (yy 1) (yy 2) (xx 1)
  let v := crossProd (xx 0) (yy 2) (yy 0) (xx 2)
  let w := crossProd (xx 1) (yy 0) (yy 1) (xx 0)
  let det := rAdd (rAdd u v) w
  if ([u, v, w].any fun x => rLt x 0) && ([u, v, w].any fun x => rLt 0 x) then none
  else if rZero det then none
  else
    let z (j : Nat) : Nat := at3 (e j) kz
    let num := rAdd (rAdd (rMul (rMul u sz) (z 0)) (rMul (rMul v sz) (z 1))) (rMul (rMul w sz) (z 2))
    let t := rDiv num det
    if inT r t then some (t, unorm16 (rDiv v det) + 0x10000 * unorm16 (rDiv w det)) else none

/-- AABB test, R147. -/
def boxHit (r : Ray) (b : List Byte) : Option (Nat × Nat) :=
  let x := slab r (vec3 b 0) (vec3 b 0x0C)
  if x.2 then some (x.1, 0) else none

/-- Order of hits, R150: t as FP32, then id. -/
def hitBefore (t id t' id' : Nat) : Bool := rLt t t' || (!rLt t' t && decide (id < id'))

def insertHit (h : RayHit) : List RayHit → List RayHit
  | [] => [h]
  | x :: r => if hitBefore h.t.toNat h.id.toNat x.t.toNat x.id.toNat then h :: x :: r else x :: insertHit h r

/-- A leaf's array in the header by kind: byte offset, count, id base; record bytes; alignment (R144, R146). -/
def arrayOf (img : List Byte) (kind : Nat) : Nat × Nat × Nat := (w32 img (4 + 12 * kind), w32 img (8 + 12 * kind), w32 img (0x0C + 12 * kind))
def recBytes (kind : Nat) : Nat := if kind = 0 then 48 else 32
def arrAlign (kind : Nat) : Nat := if kind = 0 then 16 else 32

def primHit (r : Ray) (kind : Nat) (b : List Byte) : Option (Nat × Nat) :=
  match kind with
  | 0 => triHit r b
  | 1 => boxHit r b
  | _ => splatHit r b

/-- Test the primitives of a leaf; keep the K least hits above the resume position. -/
def leafHits (r : Ray) (img : List Byte) (kind off base : Nat) : Nat → Nat → List RayHit → List RayHit
  | _, 0, hs => hs
  | i, n + 1, hs =>
    let id := (base + i) % 2 ^ 32
    let hs := match primHit r kind ((img.drop (off + recBytes kind * i)).take (recBytes kind)) with
      | some (t, aux) =>
        if hitBefore r.rest r.resid t id then
          (insertHit { t := BitVec.ofNat 32 t, id := BitVec.ofNat 32 id, aux := BitVec.ofNat 32 aux } hs).take r.k
        else hs
      | none => hs
    leafHits r img kind off base (i + 1) n hs

/-- A walk in progress: nodes still to visit, hits, links entered. -/
structure Walk where
  todo  : List Nat
  hits  : List RayHit
  links : List Nat
  deriving DecidableEq, Repr

/-- One child of a node: none ends the round with 0x39 (R145). `skip` tells whether the Skidder would skip it (R150). The reserved CNT of a
reference that is no leaf is checked always, what the reference names and its leaf kind only where the child is entered: R145 does not say
which children are checked (log 71, DESIGN CHOICE). -/
def childStep (r : Ray) (img : List Byte) (nsub nn node c : Nat) (skip : Nat → Bool) (w : Walk) : Option Walk :=
  let b := 0x40 + 64 * node
  let ref := w32 img (b + 0x30 + 4 * c)
  let kind := bits ref 30 2
  let cnt := bits ref 24 6
  let idx := bits ref 0 24
  if kind != 1 && cnt != 0 then none
  else if kind = 3 then some w
  else
    let x := slab r (vec3 img (b + 24 * c)) (vec3 img (b + 24 * c + 12))
    let beyond := match w.hits[r.k - 1]? with
      | some h => rLt h.t.toNat x.1
      | none => false
    if !x.2 || (beyond && skip (2 * node + c)) then some w
    else if kind = 0 then (if nn ≤ idx then none else some { w with todo := idx :: w.todo })
    else if kind = 2 then (if nsub ≤ idx then none else some { w with links := w.links ++ [idx] })
    else
      let lk := bits (w32 img (b + 0x38)) (2 * c) 2
      let (off, n, base) := arrayOf img lk
      if lk = 3 || decide (n ≤ idx + cnt) || off % arrAlign lk != 0 || decide (img.length < off + recBytes lk * (idx + cnt + 1)) then none
      else if !r.pmask.testBit lk then some w
      else some { w with hits := leafHits r img lk off base idx (cnt + 1) w.hits }

/-- The walk of a ray through an image; the fuel is one more than NNODE, and a visit beyond NNODE ends the round (R402). -/
def walkImage (r : Ray) (img : List Byte) (nsub nn : Nat) (skip : Nat → Bool) : Nat → Walk → Option Walk
  | 0, w => if w.todo.isEmpty then some w else none
  | n + 1, w =>
    match w.todo with
    | [] => some w
    | node :: r' =>
      let b := 0x40 + 64 * node
      if w32 img (b + 0x38) / 16 != 0 || w32 img (b + 0x3C) != 0 then none
      else
        match childStep r img nsub nn node 0 skip { w with todo := r' } with
        | none => none
        | some w =>
          match childStep r img nsub nn node 1 skip w with
          | none => none
          | some w => walkImage r img nsub nn skip n w

/-- NNODE of an image with a sound header (R144). An image whose NNODE nodes run past the size of its table entry ends every round of the
pass with 0x39 like a header that breaks R144: the spec gives that case no consequence, and the choice is the model's (log 66, DESIGN
CHOICE). -/
def headerOk (img : List Byte) : Option Nat :=
  let nn := w32 img 0
  if 1 ≤ nn && decide (nn ≤ 4095) && ((img.drop 0x28).take 0x18).all (· == 0) && decide (0x40 + 64 * nn ≤ img.length) then some nn else none

end Sys2Proof.Machine
end

