-- ==== Sys2Proof/Machine/Rays.lean ====
section
/-!
DEFINITION. Rounds, tickets and the Skidder: slots and scenes (R140 to R143), queues, heads and the spill area (R152), passes (R153,
R154, R360, R402, R403), pre-emption (R156), and `tray`, `tnext`, `twait`, `tres` (R151, R320 to R322).
-/

namespace Sys2Proof.Machine

-- Reads and writes of an engine of a cluster.

/-- Read [va, va+n): the causes of translation, a remote page without a link, poison. -/
def State.engRead (s : State) (cl asid : Nat) (sup : Bool) (base : DWord) (va n : Nat) : Except Fail (State × List Byte) :=
  match s.range (engWho cl) asid base va n { sup := sup } [] with
  | .error f => .error f
  | .ok ps =>
    match ps.find? fun p => s.cutOff p.loc with
    | some p => .error { cause := 0x10, detail := BitVec.ofNat 64 p.va, remote := true }
    | none =>
      match s.committed.poisonIn ps with
      | some a => .error { cause := 0x60, detail := BitVec.ofNat 64 a }
      | none => .ok (s.touchAll (engWho cl) ps false, s.committed.readPieces (Config.dieOfCluster cl) ps)

def State.engWrite (s : State) (cl asid : Nat) (sup : Bool) (base : DWord) (va : Nat) (bs : List Byte) : Except Fail State :=
  match s.range (engWho cl) asid base va bs.length { write := true, sup := sup } [] with
  | .error f => .error f
  | .ok ps =>
    match ps.find? fun p => s.cutOff p.loc with
    | some p => .error { cause := 0x10, detail := BitVec.ofNat 64 p.va, remote := true }
    | none => .ok ((s.touchAll (engWho cl) ps true).writePieces (Config.dieOfCluster cl) { asid := asid } ps bs)

def State.freeBytes (s : State) (n : Nat) : List Byte := (List.range n).map fun k => Config.freeByte (s.free + k)
def State.drew (s : State) (n : Nat) : State := { s with free := s.free + n }

-- Scenes.

/-- A scene descriptor, R143. -/
structure Scene where
  stab  : DWord
  nsub  : Nat
  root  : Nat
  spill : DWord
  spilln : Nat
  deriving DecidableEq, Repr

/-- Where a scene descriptor lies: its address checks, 0x06 among them (R320). -/
def State.sceneSpot (s : State) (w : Who) (asid : Nat) (sup : Bool) (a : DWord) : Except Fail GAcc :=
  s.global w asid a (a.setWidth 57) 64 { sup := sup } []

/-- The descriptor read there: poison, then 0x39 for one that breaks R143 (R320). -/
def State.sceneRead (s : State) (d : Nat) (g : GAcc) (a : DWord) : Except Fail Scene :=
  if s.poisonAt g.loc 64 then .error { cause := 0x60, detail := a }
  else
    let b := s.readAt d g.loc 64
    let q (o : Nat) : DWord := BitVec.ofNat 64 (leNat ((b.drop o).take 8))
    let sc : Scene := { stab := q 0, nsub := w32 b 8, root := w32 b 0x0C, spill := q 0x10, spilln := w32 b 0x18 }
    if sc.nsub = 0 || decide (65536 < sc.nsub) || decide (sc.nsub ≤ sc.root) || sc.stab.toNat % 16 != 0 || !((b.drop 0x1C).all (· == 0)) then
      .error { cause := 0x39 }
    else .ok sc

/-- The Skidder reads a scene descriptor. -/
def State.sceneAt (s : State) (cl asid : Nat) (sup : Bool) (a : DWord) : Except Fail Scene :=
  match s.sceneSpot (engWho cl) asid sup a with
  | .error f => .error f
  | .ok g =>
    if s.cutOff g.loc then .error { cause := 0x10, detail := a, remote := true }
    else s.committed.sceneRead (Config.dieOfCluster cl) g a

def tableVa (sc : Scene) (sub : Nat) : Nat := (sc.stab.toNat + 16 * sub) % 2 ^ 57

/-- The image that an entry of a subtree table names, where the entry can be read. -/
def State.imageRng (s : State) (cl asid : Nat) (sup : Bool) (sc : Scene) (sub : Nat) : Except Fail Rng :=
  match s.engRead cl asid sup sc.stab (tableVa sc sub) 16 with
  | .ok (_, b) => .ok (gRng asid (leNat (b.take 8) % 2 ^ 57) (leNat ((b.drop 8).take 4)) false)
  | .error f => .error f

/-- The images of a scene's subtrees, and the subtrees whose entry cannot be read. -/
def State.images (s : State) (cl asid : Nat) (sup : Bool) (sc : Scene) : List Nat → List Rng × List (Nat × Fail)
  | [] => ([], [])
  | k :: r =>
    let x := s.images cl asid sup sc r
    match s.imageRng cl asid sup sc k with
    | .ok g => (g :: x.1, x.2)
    | .error f => (x.1, (k, f) :: x.2)

/-- The footprint of a round, R142, with the subtrees whose image cannot be registered: a ray that reaches one of those fails. -/
def State.roundFoot (s : State) (cl asid : Nat) (sup : Bool) (slot scene : DWord) (sc : Scene) : List Rng × List (Nat × Fail) :=
  let x := s.images cl asid sup sc (List.range sc.nsub)
  (gRng asid (slot.toNat % 2 ^ 57) 128 true :: gRng asid (scene.toNat % 2 ^ 57) 64 false :: gRng asid (tableVa sc 0) (16 * sc.nsub) false :: x.1,
   x.2)

-- Slots and tickets.

def State.updTicket (s : State) (cl idx : Nat) (f : Ticket → Ticket) : State :=
  s.updCluster cl fun k => { k with tickets := mupd idx f k.tickets }

/-- Where a ticket's slot lies now. -/
def State.slotLoc (s : State) (cl : Nat) (t : Ticket) : Option GAcc :=
  match s.global (engWho cl) t.asid t.slot (t.slot.setWidth 57) 1 { write := true, sup := t.sup } [] with
  | .ok g => some g
  | .error _ => none

/-- The Skidder writes into a slot, where it still translates. -/
def State.slotPut (s : State) (cl : Nat) (t : Ticket) (o : Nat) (bs : List Byte) : State :=
  match s.slotLoc cl t with
  | none => s
  | some g => (s.touch (engWho cl) g.tlb true).storeAt (Config.dieOfCluster cl) (g.loc.plus o) bs { asid := t.asid, va := t.slot.toNat + o }

def State.slotWord (s : State) (cl : Nat) (t : Ticket) (o : Nat) : Word :=
  match s.slotLoc cl t with
  | none => BitVec.ofNat 32 (Config.freeNat s.free)
  | some g => BitVec.ofNat 32 (leNat (s.readAt (Config.dieOfCluster cl) (g.loc.plus o) 4))

def ticketLimit : Nat := 4096

/-- The ticket that a word names for a team (R151, R321). -/
def State.ticketOf (s : State) (cl team : Nat) (w : Word) : Option (Nat × Ticket) :=
  let i := w.toNat % 4096
  match mfind i (s.cluster cl).tickets with
  | none => none
  | some t => if w.toNat / 4096 = t.gen && t.team = team then some (i, t) else none

/-- What a wait on a ticket returns, R322: none while its round runs. -/
def State.ticketResult (s : State) (cl team : Nat) (w : Word) : Option Word :=
  match s.ticketOf cl team w with
  | none => some 0xFFFFFFFF
  | some (_, t) => if t.active then none else some (s.slotWord cl t 0x40)

/-- Waits on tickets of a cluster that have been met (R56, R322). -/
def State.markTickets (s : State) (cl : Nat) : State :=
  { s with threads := mmap (fun _ t => match t.place with
      | .blocked (.ticket w d) false =>
        if (match s.team t.team with
          | some tm => inCluster cl tm
          | none => false) then
          match s.ticketResult cl t.team w with
          | some x => { t.setReg d.toNat x tU32 with place := .blocked (.ticket w d) true }
          | none => t
        else t
      | _ => t) s.threads }

def State.dropRays (s : State) (cl idx : Nat) : State :=
  s.updCluster cl fun k => { k with subqs := k.subqs.map fun q => { q with rays := q.rays.filter fun e => e.ticket != idx } }

def hitBytes (h : RayHit) : List Byte := natLe 4 h.t.toNat ++ natLe 4 h.id.toNat ++ natLe 4 h.aux.toNat

/-- A round ends: the hit record and the resume position are written (R141, R150, R402), its ticket is finished. -/
def State.finishRound (s : State) (cl idx cause : Nat) : State :=
  match mfind idx (s.cluster cl).tickets with
  | none => s
  | some t =>
    if !t.active then s else
    let k := (rayOf t.ray).k
    let round := bits (s.slotWord cl t 0x40).toNat 8 8
    let got := if cause = 0 then t.hits.take k else []
    let last := cause != 0 || decide (t.hits.length < k)
    let body := got.flatMap hitBytes
    let rec_ := natLe 4 (got.length + 0x100 * ((round + 1) % 256) + (if last then 0x10000 else 0) + 0x1000000 * cause) ++ body ++
      List.replicate (60 - body.length) 0
    let s := match got.getLast? with
      | some h => s.slotPut cl t 0x28 (natLe 4 h.t.toNat ++ natLe 4 h.id.toNat)
      | none => s
    let s := ((s.slotPut cl t 0x30 (s.freeBytes 16)).drew 16).slotPut cl t 0x40 rec_
    let s := (s.updTicket cl idx fun t => { t with active := false, foot := [], hits := [], seen := [] }).dropRays cl idx
    s.markTickets cl

/-- A ticket is freed; the hit record of an unfinished round is undefined (R151). -/
def State.freeTicket (s : State) (cl idx : Nat) : State :=
  match mfind idx (s.cluster cl).tickets with
  | none => s
  | some t =>
    let s := if t.active then (s.slotPut cl t 0x40 (s.freeBytes 64)).drew 64 else s
    ((s.dropRays cl idx).updCluster cl fun k =>
      { k with
        tickets := mdel idx k.tickets
        pass := k.pass.map fun p => { p with fails := p.fails.filter fun x => x.1 != idx } }).markTickets cl

/-- A running pass holds a ticket's ray. -/
def Cluster.inPass (k : Cluster) (idx : Nat) : Bool :=
  match k.pass with
  | some p => p.started && p.rays.any fun r => r.1 == idx
  | none => false

-- Queues and the spill area.

def headRays : Nat := 512
def headLimit : Nat := 64

/-- The pre-emption of a ticket's team is in effect at the Skidder (R156). -/
def Cluster.held (k : Cluster) (idx : Nat) : Bool :=
  match mfind idx k.tickets with
  | some t => k.skHeld.any fun h => h.1 == t.team
  | none => false

/-- A queue is one of a scene's: rays of both modes wait in it. -/
def SubQ.of (q : SubQ) (asid : Nat) (scene : DWord) : Bool := q.asid == asid && q.scene == scene

/-- Write a ray's entry into the spill area: the lowest free place; 0x39 when it is full (R152). A SPILL that is not 8-byte aligned is used as it
stands: R143 gives the alignment and no check of it (log 73, DESIGN CHOICE). -/
def State.spillRay (s : State) (cl : Nat) (t : Ticket) : Except Fail (State × Nat) :=
  match s.sceneAt cl t.asid t.sup t.scene with
  | .error f => .error f
  | .ok sc =>
    let used := ((s.cluster cl).subqs.filter fun q => q.of t.asid t.scene).flatMap fun q => q.rays.filterMap (·.spill)
    let k := lowestFree used 0 used.length
    if sc.spilln ≤ k then .error { cause := 0x39 }
    else
      match s.engWrite cl t.asid t.sup sc.spill ((sc.spill.toNat + 8 * k) % 2 ^ 57) (s.freeBytes 8) with
      | .error f => .error f
      | .ok s => .ok (s.drew 8, k)

/-- Read an entry back from the spill area (R152). -/
def State.unspillRay (s : State) (cl : Nat) (t : Ticket) (k : Nat) : Option Fail :=
  match s.sceneAt cl t.asid t.sup t.scene with
  | .error f => some f
  | .ok sc =>
    match s.engRead cl t.asid t.sup sc.spill ((sc.spill.toNat + 8 * k) % 2 ^ 57) 8 with
    | .error f => some f
    | .ok _ => none

/-- When the oldest ray that a queue may serve arrived: none where all its rays are pre-empted. -/
def Cluster.servedSince (k : Cluster) (q : SubQ) : Option Nat := (q.rays.find? fun e => !k.held e.ticket).map (·.since)

/-- A head is free for a new queue: of the 64, those that queues with rays hold, and those that waiting queues without one get first. -/
def Cluster.headFree (k : Cluster) : Bool :=
  decide ((k.subqs.filter fun q => !q.rays.isEmpty && (q.head || (k.servedSince q).isSome)).length < headLimit)

/-- Entries of a queue that stand in its head. -/
def SubQ.onChip (q : SubQ) : Nat := (q.rays.filter fun e => e.spill.isNone).length

/-- Queue a ray at a subtree (R150, R152, R360). -/
def State.enqueue (s : State) (cl idx sub : Nat) : Except Fail State :=
  let k := s.cluster cl
  match mfind idx k.tickets with
  | none => .ok s
  | some t =>
    let mine (q : SubQ) : Bool := q.of t.asid t.scene && q.sub == sub
    let held := k.held idx
    let new : SubQ := { asid := t.asid, scene := t.scene, sub := sub, head := !held && k.headFree, rays := [] }
    let q : SubQ := match k.subqs.find? mine with
      | some q => if q.rays.isEmpty then new else q
      | none => new
    let full := decide (headRays ≤ q.onChip)
    let put (s : State) (sp : Option Nat) : State :=
      let q := { q with rays := q.rays ++ [{ ticket := idx, since := s.now, starts := k.passes, spill := sp }] }
      s.updCluster cl fun k => { k with subqs := if k.subqs.any mine then k.subqs.map fun x => if mine x then q else x else k.subqs ++ [q] }
    if held || !q.head || full then
      match s.spillRay cl t with
      | .error f => .error f
      | .ok (s, n) => .ok (put s (some n))
    else .ok (put s none)

/-- Give free heads to the queues whose oldest waiting ray is the oldest (R152); `n` heads are free. -/
def giveHeads (since : SubQ → Option Nat) : Nat → List SubQ → List SubQ
  | 0, qs => qs
  | n + 1, qs =>
    let best := qs.foldl (fun (b : Option (Nat × SubQ)) q =>
      if q.head then b else match since q, b with
        | some t, some y => if t < y.1 then some (t, q) else b
        | some t, none => some (t, q)
        | none, _ => b) none
    match best with
    | none => qs
    | some (_, q) => giveHeads since n (qs.map fun x => if x = q then { x with head := true } else x)

/-- Move the oldest spilled entries of a queue with a head into it, where it has `n` places free, as far as they can be read back; one
that no link reaches stays where it is until a pass takes it, the others end with a cause. -/
def State.fillHead (s : State) (cl : Nat) : Nat → List RayEnt → List RayEnt × List (Nat × Fail)
  | _, [] => ([], [])
  | n, e :: r =>
    let k := s.cluster cl
    match e.spill, mfind e.ticket k.tickets with
    | some p, some t =>
      if k.held e.ticket || n = 0 then let x := s.fillHead cl n r; (e :: x.1, x.2)
      else
        let x := s.fillHead cl (n - 1) r
        match s.unspillRay cl t p with
        | some f => if f.remote then (e :: x.1, x.2) else (x.1, (e.ticket, f) :: x.2)
        | none => ({ e with spill := none } :: x.1, x.2)
    | _, _ => let x := s.fillHead cl n r; (e :: x.1, x.2)

/-- Heads after a change: freed by queues with no ray to serve, given on and filled (R152). -/
def State.rehead (s : State) (cl : Nat) : State × List (Nat × Fail) :=
  let k := s.cluster cl
  let qs := (k.subqs.filter fun q => !q.rays.isEmpty).map fun q => { q with head := q.head && (k.servedSince q).isSome }
  let qs := giveHeads k.servedSince (headLimit - (qs.filter (·.head)).length) qs
  let xs := qs.map fun q => if q.head then
      let x := s.fillHead cl (headRays - q.onChip) q.rays
      ({ q with rays := x.1 }, x.2)
    else (q, [])
  (s.updCluster cl fun k => { k with subqs := xs.map (·.1) }, xs.flatMap (·.2))

-- Rounds that fail.

/-- The KIND 4 record of the first round that a pass ends with a cause (R403): for 0x39 it names the subtree's table entry. -/
def State.passRecord (s : State) (cl : Nat) (p : Pass) (idx : Nat) (f : Fail) : Option (Nat × Rec) :=
  match mfind idx (s.cluster cl).tickets with
  | none => none
  | some t =>
    (s.anyTeam t.team).map fun tm =>
      let entry : DWord := match s.sceneAt cl p.asid p.sup p.scene with
        | .ok sc => BitVec.ofNat 64 (tableVa sc p.sub)
        | .error _ => f.detail
      (tm.slice, { kind := 4, cause := f.cause, rem := f.remote, core := tm.core, tslot := tm.slot, asid := tm.asid, tnum := 0x7FF,
                   lanes := s.lanesOf tm, addr := if f.cause = 0x39 then entry else f.detail })

/-- A round fails while a pass runs: the first is kept for the record (R403). -/
def State.noteFail (s : State) (cl idx : Nat) (f : Fail) : State :=
  match (s.cluster cl).pass with
  | none => s
  | some p => if p.started && p.rec_.isNone then s.updCluster cl fun k => { k with pass := some { p with rec_ := s.passRecord cl p idx f } } else s

/-- A pass runs. -/
def Cluster.passRuns (k : Cluster) : Bool :=
  match k.pass with
  | some p => p.started && !p.ended
  | none => false

/-- A round fails: at the end of the pass that runs, be its ray in it or not, or at once where none does (R402). -/
def State.failRound (s : State) (cl idx : Nat) (f : Fail) : State :=
  let s := s.noteFail cl idx f
  if (s.cluster cl).passRuns then
    s.updCluster cl fun k => { k with pass := k.pass.map fun p => { p with fails := p.fails ++ [(idx, f)] } }
  else s.finishRound cl idx f.cause

/-- Heads again until no round fails by it; `n` bounds the turns. -/
def State.reheads (s : State) (cl : Nat) : Nat → State
  | 0 => s
  | n + 1 =>
    match s.rehead cl with
    | (s, []) => s
    | (s, fs) => (fs.foldl (fun s x => s.failRound cl x.1 x.2) s).reheads cl n

/-- Heads after a change of the queues (R152): each turn that fails a round takes an entry out of a queue. -/
def State.tidy (s : State) (cl : Nat) : State := s.reheads cl (((s.cluster cl).subqs.flatMap (·.rays)).length + 1)

/-- `tres` of one ticket (R151). -/
def State.tresTicket (s : State) (cl idx : Nat) : State :=
  (if (s.cluster cl).inPass idx then (s.dropRays cl idx).updTicket cl idx fun t => { t with withdrawn := true }
   else s.freeTicket cl idx).tidy cl

-- Pre-emption.

/-- An entry of a queue moves to the spill area; while no link reaches that, it keeps its place (log 28, DEDUCED). -/
def State.spillEnt (s : State) (cl : Nat) (q : SubQ) (e : RayEnt) : State :=
  match e.spill, mfind e.ticket (s.cluster cl).tickets with
  | none, some t =>
    if !t.active then s
    else match s.spillRay cl t with
      | .error f => if f.remote then s else s.failRound cl e.ticket f
      | .ok (s, n) => s.updCluster cl fun k => { k with subqs := k.subqs.map fun x =>
          { x with rays := x.rays.map fun y => if y.ticket = e.ticket && x.of q.asid q.scene && x.sub = q.sub then { y with spill := some n } else y } }
  | _, _ => s

/-- A pre-emption takes effect at the Skidder: the team's entries move to the spill area (R156). -/
def State.holdRays (s : State) (cl team : Nat) : State :=
  let k := s.cluster cl
  let mine (e : RayEnt) : Bool := match mfind e.ticket k.tickets with
    | some t => t.team == team
    | none => false
  let s := s.updCluster cl fun k => { k with skHeld := k.skHeld ++ [(team, s.now, k.passes)] }
  (k.subqs.foldl (fun s q => (q.rays.filter mine).foldl (fun s e => s.spillEnt cl q e) s) s).tidy cl

/-- The cycle from which the Skidder waits for a grant, or now. -/
def Cluster.askedBy (k : Cluster) (now : Nat) : Nat :=
  match k.pass with
  | some p => if p.started || p.lease.isSome then now else Nat.min p.asked now
  | none => now

/-- The team is restored: its entries return to the queues, the time it was pre-empted not counted (R156, R154). Of that time the part in
which the Skidder waits for a grant is left to the grant. -/
def State.returnRays (s : State) (cl team : Nat) : State :=
  let k := s.cluster cl
  match k.skHeld.find? fun h => h.1 == team with
  | none => s
  | some (_, since, starts) =>
    let upd (e : RayEnt) : RayEnt :=
      if (match mfind e.ticket k.tickets with
        | some t => t.team == team
        | none => false) then
        { e with since := e.since + (k.askedBy s.now - Nat.max e.since since), starts := e.starts + (k.passes - Nat.max e.starts starts) }
      else e
    let s := s.updCluster cl fun k =>
      { k with
        skHeld := k.skHeld.filter fun h => h.1 != team
        subqs := k.subqs.map fun q => { q with rays := q.rays.map upd } }
    s.tidy cl

/-- A pre-emption names a team: in effect at once unless a pass runs (R156). -/
def State.skPreempt (s : State) (cl team : Nat) : State :=
  if (s.cluster cl).skHeld.any fun h => h.1 == team then s
  else match (s.cluster cl).pass with
    | some p => if p.started then s else s.holdRays cl team
    | none => s.holdRays cl team

-- Instructions.

/-- Where a lane's slot for a round lies (R140, R320): the address, 0x11 for an MT other than 0, 0x06. -/
def State.slotSpot (s : State) (w : Who) (asid : Nat) (sup : Bool) (base : DWord) (va : VAddr) : Except Fail GAcc :=
  match s.global w asid base va 1 { write := true, sup := sup } [1, 2, 3] with
  | .error f => .error f
  | .ok g => if va.toNat % 128 != 0 then .error { cause := 0x06, write := true } else .ok g

/-- What the slot read there breaks: poison, then R140. -/
def State.slotFault (s : State) (d : Nat) (g : GAcc) (va : VAddr) : Option Fail :=
  if s.poisonAt g.loc 128 then some { cause := 0x60, detail := va.setWidth 64 }
  else if !slotOk (s.readAt d g.loc 64) then some { cause := 0x38 } else none

/-- A lane of `tray` or `tnext` waits on its pipe for its slot, or for a scene descriptor (R142, R193, R194). -/
def State.slotWait (s : State) (c : Ctx) (g : GAcc) (va : Nat) : Bool := s.shut g.loc || s.conflict c.cluster [gRng c.tm.asid va 128 true]
def State.sceneWait (s : State) (c : Ctx) (g : GAcc) (a : DWord) : Bool :=
  s.shut g.loc || s.conflict c.cluster [gRng c.tm.asid (a.toNat % 2 ^ 57) 64 false]

def Loc.pa : Loc → Nat
  | .mem pa _ => pa
  | _ => 0

/-- A round on a slot is unfinished. -/
def State.slotBusy (s : State) (cl pa : Nat) : Bool := (s.cluster cl).tickets.any fun t => t.2.active && t.2.slotPa == pa

/-- A round that starts has met what no link reaches: the instruction holds its pipe (R142, R369). -/
def State.markCut (s : State) (cl : Nat) (b : Bool) : State := if b then s.updCluster cl fun k => { k with skCut := true } else s
def State.clearCut (s : State) (cl : Nat) : State := if (s.cluster cl).skCut then s.updCluster cl fun k => { k with skCut := false } else s

/-- A ray goes to a subtree: its queue, or the cause for which the image was not registered (R142, R150). -/
def State.sendRay (s : State) (cl idx sub : Nat) (lost : List (Nat × Fail)) : Except Fail State :=
  match lost.find? fun x => x.1 == sub with
  | some x => .error x.2
  | none => s.enqueue cl idx sub

/-- A round starts: its footprint is registered, its ray queued at node 0 of ROOT (R142, R151). (Log 23, DEDUCED.) -/
def State.startRound (s : State) (cl idx : Nat) (ray : List Byte) (sc : Scene) : State :=
  match mfind idx (s.cluster cl).tickets with
  | none => s
  | some t =>
    let (foot, lost) := s.roundFoot cl t.asid t.sup t.slot t.scene sc
    let s1 := s.updTicket cl idx fun t => { t with active := true, ray := ray, foot := foot, order := s.fresh, hits := [], seen := [sc.root], lost := lost }
    let s2 := { s1 with fresh := s1.fresh + 1 }.markCut cl (lost.any fun x => x.2.remote)
    match s2.sendRay cl idx sc.root lost with
    | .ok s => s
    | .error f => (s2.markCut cl f.remote).finishRound cl idx f.cause

/-- Ticket indices that are not free: of tickets, and those that a `tray` which holds its pipe has taken. -/
def State.usedTickets (s : State) (cl : Nat) : List Nat :=
  (s.cluster cl).tickets.map (·.1) ++ s.pipes.flatMap fun p => if Config.clusterOf (p.1 / 4) = cl then p.2.tickets else []

/-- Take up to `n` more tickets, the lowest free first (R151, R439); `l` are those already taken. -/
def State.takeTickets (s : State) (cl : Nat) : Nat → List Nat → State × List Nat
  | 0, l => (s, l)
  | n + 1, l =>
    let i := lowestFree (s.usedTickets cl ++ l) 0 ticketLimit
    if ticketLimit ≤ i then (s, l)
    else (s.updCluster cl fun k => { k with tickGen := mput i (nextGen (mget 0 i k.tickGen)) k.tickGen }).takeTickets cl n (l ++ [i])

/-- The ticket taken for a lane's slot, with its round (R151). -/
def State.openTicket (s : State) (c : Ctx) (l : Ln) (i : Nat) (g : GAcc) (slot scene : DWord) (sc : Scene) (d : BitVec 6) : State :=
  let gen := mget 0 i (s.cluster c.cluster).tickGen
  let t : Ticket := { gen := gen, team := c.team, asid := c.tm.asid, sup := l.th.sup, slot := slot, slotPa := g.loc.pa, scene := scene }
  let s := (s.touch c.who g.tlb true).updCluster c.cluster fun k => { k with tickets := mput i t k.tickets }
  let s := (s.slotPut c.cluster t 0x28 (natLe 4 0xFF800000 ++ natLe 4 0 ++ s.freeBytes 16 ++ List.replicate 64 0)).drew 16
  let ray := match s.slotLoc c.cluster t with
    | some g => s.readAt c.die g.loc 64
    | none => []
  let s := s.updThread l.tid fun th => th.setReg d.toNat (BitVec.ofNat 32 (i + 4096 * gen)) tU32
  s.startRound c.cluster i ray sc

def State.checkerRoom (s : State) (cl n : Nat) : Bool := decide (s.entries cl + n ≤ checkerLimit)

/-- Lanes' slots in ascending order: 0x38 for one that is in a round or is named by a lower lane (R320). -/
def slotLanes (s : State) (c : Ctx) (base : DWord) (o : Ln → Word) : List Nat → List Ln → List (Ln × Except Fail (GAcc × VAddr))
  | _, [] => []
  | seen, l :: r =>
    let ea := eaOf base (o l)
    match s.slotSpot c.who c.tm.asid l.th.sup base ea with
    | .error f => (l, .error f) :: slotLanes s c base o seen r
    | .ok g =>
      if s.slotBusy c.cluster g.loc.pa || seen.contains g.loc.pa then (l, .error { cause := 0x38 }) :: slotLanes s c base o (g.loc.pa :: seen) r
      else (l, .ok (g, ea)) :: slotLanes s c base o (g.loc.pa :: seen) r

/-- The rounds of some lanes start, on the tickets taken for them in lane order. -/
def State.openTickets (s : State) (c : Ctx) (scene : DWord) (sc : Scene) (d : BitVec 6) (is_ : List Nat) (xs : List (Ln × (GAcc × VAddr))) : State :=
  (xs.zip is_).foldl (fun s y => s.openTicket c y.1.1 y.2 y.1.2.1 (y.1.2.2.signExtend 64) scene sc d) s

/-- The lanes of a `tray` need tickets now: no lane waits for anything else or raises a cause that does not park (R320). -/
def State.trayReady (s : State) (c : Ctx) (rs : List (Ln × Except Fail (GAcc × VAddr))) : Bool :=
  let x := splitLanes rs
  (x.1.all fun y => y.2.park && !y.1.th.sup && y.1.th.inj.isNone) &&
  x.2.all fun y => !s.slotWait c y.2.1 y.2.2.toNat && (s.slotFault c.die y.2.1 y.2.2).isNone

/-- Rounds that would start, `t`, meet what no link reaches, and 80,000 cycles have not passed. -/
def State.startCut (s : State) (c : Ctx) (t : State) : Bool := (t.cluster c.cluster).skCut && decide (s.now < c.pr.cutAt.getD s.now + remoteLimit)

/-- `tray`, R320: every lane is checked before any ticket is taken; then tickets in ascending lane order, the raft holding its pipe with what
its lower lanes have taken while none is free (R46, R151). It holds as well for a link to the table and the spill area that its rounds need;
without one for 80,000 cycles the rounds end with that cause (R397). -/
def execTray (m n : BitVec 4) (o : Src) (d : BitVec 6) (s : State) : Out :=
  s.issue { srcs := [o], ar := [n.toNat, m.toNat] } fun s c =>
    let scene := c.tm.areg m.toNat
    match s.sceneSpot c.who c.tm.asid c.elected.th.sup scene with
    | .error f => .next (s.raiseOnce c c.elected f 4)
    | .ok sg =>
      if s.sceneWait c sg scene || s.relWait (some .cluster) c.tids then .next (s.holdFor c (c.elected.cut (s.cutOf sg.loc scene false)))
      else match s.sceneRead c.die sg scene with
      | .error f => .next (s.raise c c.elected f 4)
      | .ok sc =>
        let rs := slotLanes s c (c.tm.areg n.toNat) (fun l => (src32 .int c.tm l o).w) [] c.lns
        let ready := s.trayReady c rs
        let want := (splitLanes rs).2.length
        let (s, got) := if ready then s.takeTickets c.cluster (want - c.pr.tickets.length) c.pr.tickets else (s, c.pr.tickets)
        let c := { c with pr := { c.pr with tickets := got } }
        let short := ready && (decide (got.length < want) || !s.checkerRoom c.cluster want)
        let take (s : State) (xs : List (Ln × (GAcc × VAddr))) : State := (s.touch c.who sg.tlb false).openTickets c scene sc d got xs
        let cut := ready && !short && s.startCut c (take (s.clearCut c.cluster) (splitLanes rs).2)
        let start (s : State) (xs : List (Ln × (GAcc × VAddr))) : State := (take s xs).clearCut c.cluster
        s.access c 4 rs (fun x => short || cut || s.slotWait c x.2.1 x.2.2.toNat) (fun x => s.slotFault c.die x.2.1 x.2.2)
          (fun s xs => .next ((start s xs).goOn c (c.after 4) 1)) start (fun _ => if cut then some (cutFail scene false) else none)

/-- A ticket's next round: its index, the ticket, its ray record and the scene. -/
structure Restart where
  idx : Nat
  t   : Ticket
  ray : List Byte
  sc  : Scene
  slot : GAcc
  desc : GAcc
  deriving DecidableEq, Repr

/-- The rounds that a lane starts, or that it must wait for its slot or the descriptor (R321), with the cause where that is for want of a
link. -/
abbrev Restarts := Except (Option Fail) (List Restart)

/-- A lane's next round. -/
def State.restartOf (s : State) (c : Ctx) (l : Ln) (i : Nat) (t : Ticket) : Except Fail Restarts :=
  let va : VAddr := t.slot.setWidth 57
  match s.slotSpot c.who c.tm.asid l.th.sup t.slot va with
  | .error f => .error f
  | .ok g =>
    if s.slotBusy c.cluster g.loc.pa then .error { cause := 0x38 }
    else if s.slotWait c g va.toNat then .ok (.error none)
    else match s.slotFault c.die g va with
    | some f => .error f
    | none =>
      match s.sceneSpot c.who c.tm.asid l.th.sup t.scene with
      | .error f => .error f
      | .ok sg =>
        if s.sceneWait c sg t.scene then .ok (.error (s.cutOf sg.loc t.scene false))
        else match s.sceneRead c.die sg t.scene with
        | .error f => .error f
        | .ok sc => .ok (.ok [{ idx := i, t := { t with sup := l.th.sup, slotPa := g.loc.pa }, ray := s.readAt c.die g.loc 64, sc := sc,
                                 slot := g, desc := sg }])

/-- What `tnext` does with each lane's ticket: nothing for one that a lower lane restarts. -/
def tnextLanes (s : State) (c : Ctx) (b : Ln → Word) : List Nat → List Ln → List (Ln × Except Fail Restarts)
  | _, [] => []
  | seen, l :: r =>
    match s.ticketOf c.cluster c.team (b l) with
    | none => (l, .error { cause := 0x38 }) :: tnextLanes s c b seen r
    | some (i, t) =>
      if seen.contains i then (l, .ok (.ok [])) :: tnextLanes s c b seen r
      else if t.active then (l, .error { cause := 0x38 }) :: tnextLanes s c b seen r
      else
        let x := s.restartOf c l i t
        (l, x) :: tnextLanes s c b (match x with
          | .error _ => seen
          | .ok _ => i :: seen) r

/-- The next round of a ticket; with LAST set it ends at once with COUNT 0 (R151). -/
def State.nextRound (s : State) (c : Ctx) (x : Restart) : State :=
  let s := ((s.touch c.who x.slot.tlb true).touch c.who x.desc.tlb false).updTicket c.cluster x.idx fun _ => x.t
  if (s.slotWord c.cluster x.t 0x40).getLsbD 16 then
    (s.updTicket c.cluster x.idx fun t => { t with ray := x.ray, hits := [], active := true }).finishRound c.cluster x.idx 0
  else s.startRound c.cluster x.idx x.ray x.sc

def Restarts.list (x : Restarts) : List Restart :=
  match x with
  | .ok r => r
  | .error _ => []
def restarts (xs : List (Ln × Restarts)) : List Restart := xs.flatMap fun x => x.2.list

def execTnext (b : Src) (s : State) : Out :=
  s.issue { srcs := [b] } fun s c =>
    let rs := tnextLanes s c (fun l => (src32 .int c.tm l b).w) [] c.lns
    let full := !s.checkerRoom c.cluster (restarts (splitLanes rs).2).length || s.relWait (some .cluster) c.tids
    let run (s : State) (xs : List (Ln × Restarts)) : State := ((restarts xs).foldl (fun s x => s.nextRound c x) s)
    let cut := !full && s.startCut c (run (s.clearCut c.cluster) (splitLanes rs).2)
    let start (s : State) (xs : List (Ln × Restarts)) : State := (run s xs).clearCut c.cluster
    let waits (x : Restarts) : Option (Option Fail) := match x with
      | .error f => some f
      | .ok _ => none
    s.access c 4 rs (fun x => (waits x.2).isSome || full || cut) (fun _ => none) (fun s xs => .next ((start s xs).goOn c (c.after 4) 1)) start
      (fun x => ((waits x.2).getD none).or (if cut then (restarts [x]).head?.map fun y => cutFail y.t.scene false else none))

/-- The lane that raises a word which names no ticket of its team. -/
def State.badTicket (s : State) (c : Ctx) (b : Ln → Word) : Option Ln :=
  c.raiser fun l => (s.ticketOf c.cluster c.team (b l)).isNone

def execTwait (b : Src) (d : BitVec 6) (s : State) : Out :=
  s.issue { srcs := [b], noInj := true } fun s c =>
    let w (l : Ln) : Word := (src32 .int c.tm l b).w
    match s.badTicket c w with
    | some l => .next (s.raise c l { cause := 0x38 } 4)
    | none =>
      let res := c.lns.map fun (l : Ln) => (l, s.ticketResult c.cluster c.team (w l))
      let s := res.foldl (fun s x => match x.2 with
        | some v => s.updThread x.1.tid fun t => t.setReg d.toNat v tU32
        | none => s.block x.1.tid (c.after 4) (.ticket (w x.1) d)) s
      let go := res.filter fun x => x.2.isSome
      let s := if go.isEmpty then s else s.acquire c.die
      .next (s.fileRaft c (go.map fun x => (x.1.tid, c.after 4)))

def execTres (b : Src) (s : State) : Out :=
  s.issue { srcs := [b] } fun s c =>
    let w (l : Ln) : Word := (src32 .int c.tm l b).w
    match s.badTicket c w with
    | some l => .next (s.raise c l { cause := 0x38 } 4)
    | none =>
      let s := c.lns.foldl (fun s l => match s.ticketOf c.cluster c.team (w l) with
        | some (i, _) => s.tresTicket c.cluster i
        | none => s) s
      .next (s.goOn c (c.after 4) 1)

-- Passes.

/-- Rays of a queue that a pass may run now: not pre-empted, and with no conflicting footprint before their round's (R194). -/
def State.liveRays (s : State) (cl : Nat) (q : SubQ) : List RayEnt :=
  let k := s.cluster cl
  q.rays.filter fun e => !k.held e.ticket && match mfind e.ticket k.tickets with
    | some t => !s.conflictBefore cl t.order t.foot
    | none => false

/-- How a queue ranks for the next pass, R154: overdue first, oldest ray first; then most rays, lower subtree number. The oldest ray of a
queue is its first, which arrived first, also where a restore has moved its counted wait past that of others: R154 does not say which of the
two makes a ray the oldest (log 72, DESIGN CHOICE). -/
def SubQ.rank (now passes : Nat) (q : SubQ) (live : List RayEnt) : Nat × Nat × Nat :=
  match live with
  | [] => (2, 0, 0)
  | e :: _ =>
    if 48 ≤ passes - e.starts || 60000 ≤ now - e.since then (0, e.since, q.sub)
    else (1, 2 ^ 32 - live.length, q.sub)

def rankLess (x y : Nat × Nat × Nat) : Bool :=
  decide (x.1 < y.1) || (x.1 == y.1 && (decide (x.2.1 < y.2.1) || (x.2.1 == y.2.1 && decide (x.2.2 < y.2.2))))

def State.chooseQ (s : State) (cl : Nat) : Option SubQ :=
  let k := s.cluster cl
  (k.subqs.foldl (fun (b : Option (SubQ × (Nat × Nat × Nat))) q =>
    let live := s.liveRays cl q
    if live.isEmpty then b
    else
      let r := q.rank s.now k.passes live
      match b with
      | some y => if rankLess r y.2 then some (q, r) else b
      | none => some (q, r)) none).map (·.1)

/-- A subtree's image: scene, address and size; 0x39 for a bad table entry or too many tiles (R143, R402). -/
def State.imageOf (s : State) (cl : Nat) (p : Pass) : Except Fail (State × Scene × DWord × Nat) :=
  match s.sceneAt cl p.asid p.sup p.scene with
  | .error f => .error f
  | .ok sc =>
    match s.engRead cl p.asid p.sup sc.stab (tableVa sc p.sub) 16 with
    | .error f => .error f
    | .ok (s, b) =>
      let a := leNat (b.take 8)
      let size := w32 b 8
      if a % 256 != 0 || size < 64 || 262144 < size || w32 b 12 != 0 || 128 - (s.pinnedTiles cl).length < (size + 0xFFFF) / 0x10000 then
        .error { cause := 0x39, detail := BitVec.ofNat 64 (tableVa sc p.sub) }
      else .ok (s, sc, BitVec.ofNat 64 a, size)

/-- Write an image into the tiles of the Skidder's lease. -/
def State.putImage (s : State) (cl : Nat) : List Nat → List Byte → State
  | [], _ => s
  | t :: r, b => (s.putLand (landKey cl t 0) (b.take 0x10000)).putImage cl r (b.drop 0x10000)

def State.getImage (s : State) (cl : Nat) : List Nat → Nat → List Byte
  | [], _ => []
  | t :: r, n => mgets 0 s.land (landKey cl t 0) (Nat.min n 0x10000) ++ s.getImage cl r (n - 0x10000)

def State.setPass (s : State) (cl : Nat) (p : Option Pass) : State := s.updCluster cl fun k => { k with pass := p }

/-- The image streamed into the tiles of the pass. -/
def State.streamImage (s : State) (cl : Nat) (p : Pass) (tiles : List Nat) : Except Fail (State × Pass) :=
  match p.err with
  | some f => .error f
  | none =>
    match s.imageOf cl p with
    | .error f => .error f
    | .ok (s, sc, a, size) =>
      match s.engRead cl p.asid p.sup a (a.toNat % 2 ^ 57) size with
      | .error f => .error f
      | .ok (s, b) => .ok (s.putImage cl tiles b, { p with base := a, size := size, nsub := sc.nsub })

/-- Tiles of the lease of a pass. -/
def Cluster.passTiles (k : Cluster) (p : Pass) : List Nat :=
  match p.lease with
  | some i => match mfind i k.leases with
    | some l => l.tiles
    | none => []
  | none => []

/-- Some of these rays are of supervisor mode. -/
def State.supRays (s : State) (cl : Nat) (l : List RayEnt) : Bool :=
  l.any fun e => match mfind e.ticket (s.cluster cl).tickets with
    | some t => t.sup
    | none => false

/-- The cause that rays of user mode meet in a pass: the Skidder reads for each ray in its thread's mode (R381). -/
def State.userErr (s : State) (cl : Nat) (p : Pass) (tiles : List Nat) : Option Fail :=
  match s.streamImage cl { p with sup := false } tiles with
  | .error f => some f
  | .ok _ => none

/-- A pass begins: it takes the oldest rays of its queue, at most 512, and streams the image (R153); a head that it empties goes on
(R152). -/
def State.beginPass (s : State) (cl : Nat) (p : Pass) : State :=
  let k := s.cluster cl
  let mine (q : SubQ) : Bool := q.of p.asid p.scene && q.sub == p.sub
  let take := match k.subqs.find? mine with
    | some q => (s.liveRays cl q).take headRays
    | none => []
  let rays := take.map fun e => (e.ticket, match e.spill, mfind e.ticket k.tickets with
    | some n, some t => s.unspillRay cl t n
    | _, _ => none)
  let s := s.updCluster cl fun k =>
    { k with
      passes := k.passes + 1
      subqs := k.subqs.map fun q => if mine q then { q with rays := q.rays.filter fun e => !take.contains e } else q }
  let p := { p with sup := s.supRays cl take, userErr := s.userErr cl p (k.passTiles p) }
  let (s, p) := match s.streamImage cl p (k.passTiles p) with
    | .error f => (s, { p with err := some f })
    | .ok x => x
  (s.setPass cl (some { p with started := true, rays := rays })).tidy cl

/-- A pass that has begun met what no link reaches. -/
def Cluster.passCut (k : Cluster) : Bool :=
  match k.pass with
  | some p => (p.err.any fun f => f.remote) || (p.userErr.any fun f => f.remote) || p.rays.any fun x => x.2.any fun f => f.remote
  | none => false

/-- PASS_START: the Skidder chooses a subtree and asks for its tiles, or begins the pass whose tiles have been granted (R153, R154);
what no link reaches of them is waited for (R397). -/
def execPassStart (cluster : Nat) (s : State) : Out :=
  match (s.cluster cluster).pass with
  | some p =>
    if p.started || p.lease.isNone then .fault .notDue
    else
      let t := s.beginPass cluster p
      s.orWait (.passStart cluster) (t.cluster cluster).passCut t
  | none =>
    match s.chooseQ cluster with
    | none => .fault .notDue
    | some q =>
      let p : Pass := { asid := q.asid, sup := s.supRays cluster (s.liveRays cluster q), scene := q.scene, sub := q.sub, asked := s.now }
      match s.imageOf cluster p with
      | .error f => s.orWait (.passStart cluster) f.remote (s.beginPass cluster { p with err := some f })
      | .ok (s, _, _, size) =>
        let r : LeaseReq := { team := none, count := (size + 0xFFFF) / 0x10000, tclass := 3, blk := { space := .glob, a := 0 }, at_ := s.now,
                              core := Config.cores }
        .next ((s.setPass cluster (some p)).updCluster cluster fun k => { k with reqs := addReq r k.reqs })

/-- Queue a ray at the subtrees it entered: 0x39 for one reached twice in the round (R402). -/
def State.followLinks (s : State) (cl idx : Nat) : List Nat → State × Option Fail
  | [] => (s, none)
  | sub :: r =>
    match mfind idx (s.cluster cl).tickets with
    | none => (s, none)
    | some t =>
      if t.seen.contains sub then (s, some { cause := 0x39 })
      else match s.sendRay cl idx sub t.lost with
        | .error f => (s, some f)
        | .ok s => (s.updTicket cl idx fun t => { t with seen := sub :: t.seen }).followLinks cl idx r

/-- Some queue holds a ticket's ray. -/
def Cluster.queued (k : Cluster) (idx : Nat) : Bool := k.subqs.any fun q => q.rays.any fun e => e.ticket == idx

/-- What a ray meets in the image of its pass: a cause, or what it found (R153, R402). -/
def Pass.walkRay (p : Pass) (img : List Byte) (t : Ticket) (x : Nat × Option Fail) (skip : Nat → Bool) : Except Fail Walk :=
  match p.err.or (if t.sup then none else p.userErr), x.2, p.fails.find? fun y => y.1 == x.1 with
  | some f, _, _ => .error f
  | none, some f, _ => .error f
  | none, none, some y => .error y.2
  | none, none, none =>
    match headerOk img with
    | none => .error { cause := 0x39 }
    | some nn =>
      match walkImage (rayOf t.ray) img p.nsub nn skip nn { todo := [0], hits := t.hits, links := [] } with
      | none => .error { cause := 0x39 }
      | some w => .ok w

/-- At the end of a pass a ray could not be queued for want of a link. -/
def State.notePassCut (s : State) (cl : Nat) (b : Bool) : State :=
  if b then s.updCluster cl fun k => { k with pass := k.pass.map fun p => { p with cut := true } } else s

/-- One ray of a pass: its round ends with a cause, or when no queue holds it (R153, R402). -/
def State.endRay (s : State) (cl : Nat) (p : Pass) (img : List Byte) (x : Nat × Option Fail) : State :=
  match mfind x.1 (s.cluster cl).tickets with
  | none => s
  | some t =>
    if t.withdrawn || !t.active then s
    else
      let fail (s : State) (f : Fail) : State := (s.noteFail cl x.1 f).finishRound cl x.1 f.cause
      match p.walkRay img t x fun k => Config.freeNat (s.free + 8192 * x.1 + k) % 2 == 1 with
      | .error f => fail s f
      | .ok w =>
        match (s.updTicket cl x.1 fun t => { t with hits := w.hits }).followLinks cl x.1 w.links with
        | (s, some f) => fail (s.notePassCut cl f.remote) f
        | (s, none) => if (s.cluster cl).queued x.1 then s else s.finishRound cl x.1 0

/-- Where the image in the tiles of a pass is poisoned first, from offset `o` on (R395, R402). -/
def State.imagePsn (s : State) (cl : Nat) : List Nat → Nat → Nat → Option Nat
  | [], _, _ => none
  | t :: r, o, n =>
    let k := landKey cl t 0
    let m := Nat.min n 0x10000
    if hasPsn 8 k m s.psnLand then
      some (o + 8 * ((s.psnLand.filter fun g => inRange k m (8 * g)).foldl (fun b g => Nat.min b (g - k / 8)) 0x2000))
    else s.imagePsn cl r (o + m) (n - m)

/-- The pass as its end finds it: an image poisoned in the tiles ends every round with 0x60 (R402). -/
def State.passRead (s : State) (cl : Nat) (p : Pass) : Pass :=
  match p.err, s.imagePsn cl ((s.cluster cl).passTiles p) 0 p.size with
  | none, some o => { p with err := some { cause := 0x60, detail := p.base + BitVec.ofNat 64 o } }
  | _, _ => p

/-- Teams of a cluster whose pre-emption takes effect at the end of a pass: named by one, or saved meanwhile (R156). -/
def State.preempted (s : State) (cl : Nat) : List Nat :=
  ((s.teams.filter fun t => inCluster cl t.2 && t.2.preempt.isSome).map (·.1)) ++
  (s.saved.filter fun x => inCluster cl x.2.team).map (·.2.id)

/-- PASS_END: hit records first, then pre-emptions, what was withdrawn, the release of the tiles, and the record of failed rounds (R153,
R360, R402, R403, R151). What no link reaches of the spill area is waited for (R397). -/
def execPassEnd (cluster : Nat) (s0 : State) : Out :=
  let s := s0
  match (s.cluster cluster).pass with
  | none => .fault .notDue
  | some p =>
    if !p.started then .fault .notDue
    else
      let img := s.getImage cluster ((s.cluster cluster).passTiles p) p.size
      let p := { s.passRead cluster p with cut := false }
      let s := s.updCluster cluster fun k => { k with pass := k.pass.map fun p => { p with cut := false } }
      let s := (p.rays.foldl (fun s x => s.endRay cluster p img x) s).drew (8192 * ticketLimit)
      let s := p.fails.foldl (fun s x => s.finishRound cluster x.1 x.2.cause) s
      let s := s.updCluster cluster fun k => { k with pass := k.pass.map fun p => { p with rays := [], ended := true } }
      let s := (s.preempted cluster).foldl (fun s id => if (s.cluster cluster).skHeld.any fun h => h.1 == id then s else s.holdRays cluster id) s
      let s := p.rays.foldl (fun s x => match mfind x.1 (s.cluster cluster).tickets with
        | some t => if t.withdrawn then s.freeTicket cluster x.1 else s
        | none => s) s
      let s := s.tidy cluster
      let done := (s.cluster cluster).pass
      let s := (s.setPass cluster none).updCluster cluster fun k => match p.lease with
        | some i => { k with leases := mdel i k.leases }
        | none => k
      s0.orWait (.passEnd cluster) (done.any fun p => p.cut) (match done.bind (·.rec_) with
        | some (sl, r) => s.post sl r
        | none => s)

end Sys2Proof.Machine
end

