-- ==== Sys2Proof/Machine/System.lean ====
section
/-!
DEFINITION. CSR and supervisor instructions (R325 to R330, R69 to R73, R117, R328, R375), and the rings that slices share with the
driver (R347).
-/

namespace Sys2Proof.Machine

-- CSRs.

/-- Bits of a CSR that are not reserved, R70 to R73. -/
def csrMask (n : Nat) : DWord :=
  match n with
  | 0 => 0x7F | 1 => 7 | 2 => 0x7F | 3 => 0x1FFFFFFFFFFFFFE | 4 => 0x1FFF | 5 => 0x1FFFFFFFFFFFFFF | 6 => 0xFFFFFFFFFFFFFFFF
  | 7 => 0x1FFF | 8 => 0x1FFFFFFFFFFF000 | 9 => 0x3FFFFFFFFFF | _ => 0x1FFF

/-- Protected CSRs, R69. -/
def csrProtected (n : Nat) : Bool := n == cTRAPV || n == cTRAPCAUSE || n == cTRAPPC || n == cTRAPADDR || n == cCODEBASE || n == cWIDSHAPE

/-- A field brought to the nearer bound of its range. -/
def clampTo (lo hi : Nat) (x : DWord) : DWord := if x.toNat < lo then BitVec.ofNat 64 lo else if hi < x.toNat then BitVec.ofNat 64 hi else x

/-- What a `csrw` stores: formed, reserved bits dropped, range judged (R73, R326). -/
def csrStored (n : Nat) (form : CsrForm) (old b : DWord) : DWord :=
  let x := match form with
    | .write => b
    | .set => old ||| b
    | .clr => old &&& ~~~b
  let y := x &&& csrMask n
  if n = cAGELIM then clampTo 8 4096 y else if n = cSURRBND then clampTo 16 4096 y else y

def Team.setSPair (t : Team) (n : Nat) (x : DWord) : Team := (t.setS n (x.setWidth 32)).setS (n + 1) (x.extractLsb' 32 32)

def execCsrr (csr : BitVec 4) (d : BitVec 5) (s : State) : Out :=
  s.issue {} fun s c =>
    .next ((s.updTeam c.team fun t => t.setSPair d.toNat (c.tm.csrv csr.toNat)).goOn c (c.after 4) 1)

/-- `csrw`. A write to FLAGS applies before what jobs merged into it in the same cycle (R326). -/
def execCsrw (form : CsrForm) (b : Src) (csr : BitVec 4) (s : State) : Out :=
  s.issue { wide := [b], once := true, priv := csrProtected csr.toNat } fun s c =>
    let x := csrStored csr.toNat form (c.tm.csrv csr.toNat) (src64 .int c.tm c.elected b).val
    .next ((s.updTeam c.team fun t =>
      if csr.toNat = cFLAGS then (t.setCsr cFLAGS x).orFlags t.merged else t.setCsr csr.toNat x).goOn c (c.after 4) 1)

/-- `eret`: the threads leave supervisor mode and are filed at TRAPPC, or after the instruction there (R327, R375). -/
def execEret (skip : Bool) (s : State) : Out :=
  s.issue { priv := true } fun s c =>
    let pc : VAddr := (c.tm.csrv cTRAPPC).setWidth 57 + (if skip then BitVec.ofNat 57 c.tm.trapLen else 0)
    let s := c.tids.foldl (fun s id => s.updThread id fun t => { t with sup := false }) s
    .next (((s.fileRaft c (c.tids.map fun id => (id, pc))).trapDone c.team).settle c.core)

-- Translations.

/-- Which TLB entries a shoot-down or a harvest means. -/
inductive TlbSel where
  | page (asid : Nat) (va : Nat)
  | asid (asid : Nat)
  | all
  deriving DecidableEq, Repr

def TlbSel.hits (m : TlbSel) (t : Tlb) : Bool :=
  match m with
  | .page a va => t.matches a va
  | .asid a => t.asid == a
  | .all => true

def State.tlbEntries (s : State) : List Tlb := (s.tlb1 ++ s.tlb2).flatMap (·.2)

/-- A and D of matching entries are written to the tables by atomic OR (R117, R329). (Log 26, DEDUCED.) -/
def State.harvest (s : State) (m : TlbSel) : State :=
  let s := s.orAll (s.tlbEntries.filter m.hits)
  let clean (l : List Tlb) : List Tlb := l.map fun t => if m.hits t then { t with a := false, d := false } else t
  { s with tlb1 := mmap (fun _ l => clean l) s.tlb1, tlb2 := mmap (fun _ l => clean l) s.tlb2 }

/-- Remove matching entries from every TLB of the package, their A and D written first (R328). -/
def State.shootDown (s : State) (m : TlbSel) : State :=
  let s := s.orAll (s.tlbEntries.filter m.hits)
  let drop (l : List Tlb) : List Tlb := l.filter fun t => !m.hits t
  { s with tlb1 := mmap (fun _ l => drop l) s.tlb1, tlb2 := mmap (fun _ l => drop l) s.tlb2 }

/-- An access that has been translated and not performed went through an entry that the form matches: for `.page` the page is as large as
the entry that the address named has there, in a TLB or in the tables (R328). -/
def State.covers (s : State) (m : TlbSel) (a va : Nat) : Bool :=
  match m with
  | .page b va' => a == b && (
      va / 0x1000 == va' / 0x1000 ||
      (s.tlbEntries.any fun t => t.matches b va' && t.matches a va) ||
      match mfind b s.hub.asids with
      | none => false
      | some root => match s.walk b root va' 0 with
        | .ok t => t.matches a va
        | .error _ => false)
  | .asid b => a == b
  | .all => true

/-- Some access already translated through a matching entry has not been performed (R328, R383): a load that waits for its data, a
posted store, a store that locks replicas, a contribution in the switches. -/
def State.inTransit (s : State) (m : TlbSel) : Bool :=
  (s.threads.any fun t => match t.2.place, s.team t.2.team with
    | .blocked (.remote _ _ va _ _ _) _, some tm => s.covers m tm.asid (va.toNat % 2 ^ 57)
    | _, _ => false) ||
  (s.posted.any fun p => s.covers m p.asid (p.va.toNat % 2 ^ 57)) ||
  (s.repl.any fun p => s.covers m p.asid (p.va % 2 ^ 57)) ||
  s.hub.contribs.any fun p => s.covers m p.asid (p.va.toNat % 2 ^ 57)

def State.tlbiOp (s : State) (o : Issue) (sel : Ctx → TlbSel) : Out :=
  s.issue { o with priv := true, once := true } fun s c =>
    if s.inTransit (sel c) then .next (s.holdFixed c) else .next ((s.shootDown (sel c)).goOn c (c.after 4) 1)

def asidB (c : Ctx) (b : Src) : Nat := (src32 .int c.tm c.elected b).w.toNat % 256

def execTlbiPage (n : BitVec 4) (b : Src) (s : State) : Out :=
  s.tlbiOp { srcs := [b], ar := [n.toNat] } fun c => .page (asidB c b) ((c.tm.areg n.toNat).toNat % 2 ^ 57)
def execTlbiAsid (b : Src) (s : State) : Out := s.tlbiOp { srcs := [b] } fun c => .asid (asidB c b)
def execTlbiAll (s : State) : Out := s.tlbiOp {} fun _ => .all

def execHarvAsid (b : Src) (s : State) : Out :=
  s.issue { srcs := [b], priv := true, once := true } fun s c => .next ((s.harvest (.asid (asidB c b))).goOn c (c.after 4) 1)
def execHarvAll (s : State) : Out :=
  s.issue { priv := true } fun s c => .next ((s.harvest .all).goOn c (c.after 4) 1)

def sweepPeriod : Nat := 800000

/-- AD_SWEEP: the background sweep (R117). -/
def execAdSweep (s : State) : Out :=
  let s1 := s.harvest .all
  .next { s1 with hub := { s1.hub with sweptAt := s1.now } }

-- Rings.

/-- Signal an MSI-X vector; 0x7FF is none (R340). -/
def State.signal (s : State) (v : Nat) : State := if v = 0x7FF then s else { s with hub := { s.hub with msi := v :: s.hub.msi } }

/-- Reset values of the register window, R340, R163, R164. (Log 3, DESIGN CHOICE.) -/
def regReset (off : Nat) : DWord :=
  if off = 0x18 then 0x7FF
  else if 0x1000 ≤ off ∧ off < 0x1800 ∧ (off % 0x100 = 8 ∨ off % 0x100 = 0x10) then 0x7FF
  else if 0x2000 ≤ off ∧ off < 0x2800 ∧ off % 0x100 = 8 then 0x3C00000000
  else if 0x3000 ≤ off ∧ off < 0x4000 ∧ off % 0x100 = 0 then 0x2000
  else if 0x3000 ≤ off ∧ off < 0x4000 ∧ off % 0x100 = 0x20 then 16
  else 0

def State.hreg (s : State) (off : Nat) : DWord := mget (regReset off) off s.hub.regs
def State.setHreg (s : State) (off : Nat) (x : DWord) : State :=
  { s with hub := { s.hub with regs := mputD (regReset off) off x s.hub.regs } }

/-- A ring of 2^log2 records that the driver placed: full when TAIL - HEAD is 2^log2 (R347), and not reached in host memory while the
CXL link is down (R415). -/
def State.ringFull (s : State) (ctl log2 : Nat) : Bool :=
  s.physCut ctl ||
  decide (2 ^ log2 ≤ (s.homeNat (ctl + 4) 4 + 2 ^ 32 - s.homeNat ctl 4) % 2 ^ 32)

/-- Write a record, then TAIL, and signal (R347). -/
def State.ringPut (s : State) (base ctl log2 vec : Nat) (r : List Byte) : State :=
  let tail := s.homeNat (ctl + 4) 4
  ((s.putHome (base + r.length * (tail % 2 ^ log2)) r).putHomeNat (ctl + 4) 4 ((tail + 1) % 2 ^ 32)).signal vec

def State.msgFull (s : State) (k : Nat) : Bool := s.ringFull (s.slice k).mqCtl (s.slice k).mqLog2
def State.msgPut (s : State) (k : Nat) (r : List Byte) : State :=
  let sl := s.slice k
  s.ringPut sl.mqBase sl.mqCtl sl.mqLog2 ((s.hreg (0x1010 + 0x100 * k)).toNat % 2 ^ 11) r

/-- A message record, R330. -/
def msgRecord (core tslot pcoff : Nat) (value : DWord) : List Byte :=
  natLe 8 value.toNat ++ natLe 4 pcoff ++ natLe 4 (core * 0x10000 + tslot)

/-- `sys.msg`: a record for the slice's message queue; the raft holds its pipe while that is full. A release at system scope: what the
thread stored before comes first, wherever it is read (R330). -/
def execSysMsg (b : Src) (s : State) : Out :=
  s.issue { wide := [b], once := true } fun s c =>
    if s.msgFull c.tm.slice || s.sending c.tids then .next (s.hold c)
    else
      let v := (src64 .int c.tm c.elected b).val
      let off := (c.pc - c.tm.codebase).toNat % 2 ^ 32
      .next (((s.settleLag (s.clock c.die)).msgPut c.tm.slice (msgRecord c.core c.tm.slot off v)).goOn c (c.after 4) 1)

/-- `sys.info`, R330. -/
def State.infoWord (s : State) (t : Team) (k : Nat) : DWord :=
  match k with
  | 0 => 0x096000000001
  | 1 => s.hub.accepted.setWidth 64
  | 2 => s.hub.accepted.extractLsb' 64 64
  | _ => BitVec.ofNat 64 t.asid

def execSysInfo (k : BitVec 2) (d : BitVec 5) (s : State) : Out :=
  s.issue {} fun s c =>
    .next ((s.updTeam c.team fun t => t.setSPair d.toNat (s.infoWord c.tm k.toNat)).goOn c (c.after 4) 1)

/-- MESSAGE_RECORD_APPEND: a re-plan record is appended, or dropped with 0x76 when the queue is full (R337, R417). -/
def execMessageRecordAppend (slice : Nat) (s : State) : Out :=
  match (s.slice slice).mqWait with
  | [] => .fault .notDue
  | (q, r) :: rest =>
    let s := s.updSlice slice fun x => { x with mqWait := rest }
    if s.msgFull slice then .next (s.post slice { kind := 4, cause := 0x76, tnum := 0x7FF, lanes := q, addr := BitVec.ofNat 64 (leNat (r.take 8)) })
    else .next (s.msgPut slice r)

end Sys2Proof.Machine
end

