-- ==== Sys2Proof/Machine/Wake.lean ====
section
/-!
DEFINITION. Waking (R56, R59, R407), remote timeouts (R369, R415), posted stores and contributions that are not acknowledged (R369,
R392, R414), and the parking, retry and delivery of single threads (R371, R372).
-/

namespace Sys2Proof.Machine

/-- A blocked thread is filed after its wait. -/
def State.refile (s : State) (core tid : Nat) (pc : VAddr) : State := (s.fileThread core tid pc).settle core

def Team.qwho (t : Team) (sup : Bool) : QWho := { w := coreWho t.core, asid := t.asid, sup := sup }

/-- The record of the cause of some threads' access, the lowest lane's (R370, R373). -/
def waitRec (tm : Team) (t : Thread) (team lane lanes : Nat) (pc : VAddr) (f : Fail) : Rec :=
  { kind := 0, cause := f.cause, sup := t.sup, write := f.write, fetch := f.fetch, rem := f.remote, core := tm.core, tslot := tm.slot,
    asid := tm.asid, tnum := t.tnum, lanes := lanes, pc := pc.setWidth 64, addr := f.detail, team := team, lane := lane }

/-- A cause that a thread meets alone as it wakes, at the instruction that blocked (R395): it ends the team, enters the handler, or is held
(R368, R375). -/
def State.raiseAlone (s : State) (team : Nat) (tm : Team) (tid : Nat) (t : Thread) (f : Fail) : State :=
  let pc := t.pc - 4
  if t.sup || (tm.csrv cTRAPV).extractLsb' 1 56 = 0 then s.endOnFault team (waitRec tm t team 0 0 pc f)
  else if tm.inService then
    (s.updThread tid fun x => { x with place := .held, pc := pc }).updTeam team fun x =>
      { x with heldQ := x.heldQ ++ [{ threads := [tid], pc := pc, lane := 0, cause := f.cause, detail := f.detail, len := 4 }] }
  else (s.deliver team [tid] pc 0 f.cause f.detail 4 none).settle tm.core

/-- The queue at a descriptor, as a waiting thread reaches it. (Log 30, DEDUCED.) -/
def State.queueAt (s : State) (u : QWho) (desc : DWord) : Option (Except Fail Queue) :=
  match s.qspan u desc (desc.toNat % 2 ^ 57) 64 true with
  | .error _ => none
  | .ok ps =>
    if ps.any fun p => s.shut p.loc then none
    else match s.queuePoison ps with
      | some f => some (.error f)
      | none => some (.ok (queueOf ps (s.homePieces ps)))

/-- The destination write of a `qtake` whose position is published (R305), or the poison that it reads (R395); none while it is not published,
or while what it reads is held for an earlier job (R194) or cannot be reached. -/
def State.queueWake (s : State) (tm : Team) (tid : Nat) (t : Thread) (desc : DWord) (pos : Word) (d : BitVec 6) : Option (Except Fail State) :=
  let u := tm.qwho t.sup
  match s.queueAt u desc with
  | none => none
  | some (.error f) => some (.error f)
  | some (.ok q) =>
    if before pos q.pubf then
      match s.qreceive u q pos with
      | .error _ => none
      | .ok (s1, q, bs) =>
        if q.used.any fun y => s.shut y.2.loc || s.conflict (Config.clusterOf tm.core) [gRng tm.asid y.2.va y.2.n y.1] then none
        else match s.queuePoison (readsOf q.used) with
          | some f => some (.error f)
          | none => some (.ok ((s1.qsave u.w.die q).updThread tid fun t => setRegs d.toNat tNone (wordsOf (q.size / 4) bs) t))
    else none

/-- Data of a remote load or atomic (R281, R288). -/
def State.remoteData (s : State) (die team tid : Nat) (op : RemoteOp) (pa : Nat) : State :=
  let loc : Loc := .mem pa (if remoteBase ≤ pa then 3 else 2)
  match op with
  | .atom a b c d =>
    let (s, m) := s.atomAt die loc a b c
    s.updThread tid fun t => t.setAtom a d.toNat m
  | .ldu t d => s.updTeam team fun x => setSregs d.toNat (memWords t (s.readAt die loc t.size)) x
  | op => s.updThread tid fun t => op.into (s.readAt die loc op.size) t

/-- The threads that wait for data together, in ascending lane order (R195, R280). -/
def State.remoteGroup (s : State) (lead : Nat) : List (Nat × Nat × RemoteOp) :=
  (List.range 32).flatMap fun k => s.threads.filterMap fun x => match x.2.place with
    | .blocked (.remote op _ _ _ lane l) _ => if l = lead && lane = k then some (k, x.1, op) else none
    | _ => none

/-- The data of a group arrives: each operation is performed, one after another, and its thread filed; where the data is poisoned, each
issues afresh and raises its cause (R56, R395). -/
def State.remoteArrives (s : State) (core team lead pa : Nat) : State :=
  let g := s.remoteGroup lead
  if g.any fun x => hasPsn 32 pa x.2.2.size s.psnMem then
    g.foldl (fun s x => match mfind x.2.1 s.threads with
      | some t => s.refile core x.2.1 (t.pc - 4)
      | none => s) s
  else
    let s := g.foldl (fun s x => s.remoteData (Config.dieOf core) team x.2.1 x.2.2 pa) s
    g.foldl (fun s x => match mfind x.2.1 s.threads with
      | some t => s.refile core x.2.1 t.pc
      | none => s) s

/-- Every thread that waits with `lead` for room for its header (R307). -/
def State.withLead (s : State) (lead : Nat) : List Nat :=
  (s.threads.filter fun x => match x.2.place with
    | .blocked (.spawnK _ _ l) _ => l == lead
    | _ => false).map (·.1)

/-- Wake a blocked thread whose condition is met; none while it is not. -/
def State.wake (s : State) (tid : Nat) : Option State :=
  match mfind tid s.threads with
  | none => none
  | some t =>
    match s.team t.team, t.place with
    | some tm, .blocked w met =>
      let die := Config.dieOf tm.core
      let file (s : State) : Option State := some (s.refile tm.core tid t.pc)
      match w with
      | .bar _ _ => if met then file (s.acquire die) else none
      | .tags _ m => if met then file ((s.updTeam t.team fun x => x.observe m).acquire die) else none
      | .ticket _ _ => if met then file (s.acquire die) else none
      | .queue desc pos d =>
        match s.queueWake tm tid t desc pos d with
        | some (.ok s) => file (s.acquire die)
        | some (.error f) => some (s.raiseAlone t.team tm tid t f)
        | none => none
      | .matrix wb f n =>
        if !met then none
        else match failedRec t.team wb f n (s.core tm.core).mrec with
          | some _ => some (s.refile tm.core tid (t.pc - 4))
          | none => file ((s.mMerge tm.core t.team wb f n).acquire die)
      | .remote _ pa _ _ _ lead => if s.cutPa pa then none else some (s.remoteArrives tm.core t.team lead pa)
      | .spawnT entry g =>
        if s.canSpawn tm.core t.team then file (s.spawnOne tm.core t.team t (entry.setWidth 57) g) else none
      | .spawnK addr hdr lead =>
        if lead = tid then
          if s.storeRoom tm.slice then
            some ((s.withLead tid).foldl (fun s id => match mfind id s.threads with
              | some x => s.refile tm.core id x.pc
              | none => s) (s.pend tm addr hdr))
          else none
        else if (s.withLead lead).contains lead then none
        else file s
    | _, _ => none

/-- THREAD_WAKE: a met condition files its thread (R56). -/
def execThreadWake (thread : Nat) (s : State) : Out :=
  match s.wake thread with
  | some s => .next s
  | none => .fault .notDue

-- Timeouts.

/-- REMOTE_TIMEOUT: no data for 80,000 cycles parks the threads that wait for it in place of waking; in supervisor mode the team ends
(R368, R369). -/
def execRemoteTimeout (thread : Nat) (s : State) : Out :=
  match mfind thread s.threads with
  | none => .fault .notDue
  | some t =>
    match s.team t.team, t.place with
    | some tm, .blocked (.remote op _ va issued lane lead) _ =>
      let g := s.remoteGroup lead
      if g.any (fun x => decide (x.1 < lane)) || !s.roomToPost tm.slice then .fault .notDue
      else
        let r := waitRec tm t t.team lane (g.foldl (fun m x => m + 2 ^ x.1) 0) (t.pc - 4)
          { cause := 0x10, detail := va, remote := true, write := op.writes }
        let s := s.advance (issued + 80000)
        if t.sup then .next (s.endOnFault t.team r)
        else
          let s := g.foldl (fun s x => s.updThread x.2.1 fun y => { y with place := .parked, pc := t.pc - 4 }) s
          .next ((s.post tm.slice r).settle tm.core)
    | _, _ => .fault .notDue

/-- The posted accesses that the links can deliver now are performed in order (R369, R416). -/
def State.flushPosted (s : State) : State :=
  let go := s.posted.filter fun p => !s.cutPa p.pa
  let s1 : State := { s with posted := s.posted.filter fun p => s.cutPa p.pa }
  go.foldl (fun s p =>
    match p.op with
    | none => s.putAll (s.clock (Config.dieOf p.core)) p.pa p.bytes
    | some (op, v) => s.atomAll (s.clock (Config.dieOf p.core)) p.pa op v) s1

/-- The notice of an access that was not acknowledged (R414). -/
def unacked (va : DWord) (asid core slot lanes : Nat) : Rec :=
  { kind := 4, cause := 0x75, tnum := 0x7FF, addr := va, asid := asid, core := core, tslot := slot, lanes := lanes }

/-- POSTED_ACK_TIMEOUT: a posted store, `atomu` or contribution not acknowledged within 80,000 cycles is reported with 0x75, once
(R369, R392, R414); `index` counts posted accesses first, then contributions. It is not lost: a link that returns delivers it.
(Log 27, DEDUCED.) -/
def execPostedAckTimeout (index : Nat) (s : State) : Out :=
  match s.posted[index]? with
  | some p =>
    if p.reported then .fault .notDue
    else
      let s1 : State := { s with posted := s.posted.set index { p with reported := true } }
      .next ((s1.advance (p.issued + 80000)).post p.slice (unacked p.va p.asid p.core p.slot p.lanes))
  | none =>
    let k := index - s.posted.length
    match s.hub.contribs[k]? with
    | none => .fault .notDue
    | some c =>
      if c.reported then .fault .notDue
      else
        let s1 : State := { s with hub := { s.hub with contribs := s.hub.contribs.set k { c with reported := true } } }
        .next ((s1.advance (c.issued + 80000)).post c.slice (unacked c.va c.asid c.core c.slot c.lanes))

/-- SWITCH_FORWARD_TIMEOUT: a switch that cannot deliver a merged result within 80,000 cycles forwards the contributions of that
location uncombined; those whose home no link reaches, or whose page is locked, are tried again (R392, R391). -/
def execSwitchForwardTimeout (index : Nat) (s : State) : Out :=
  match s.hub.contribs[index]? with
  | none => .fault .notDue
  | some c =>
    let s := s.advance (c.issued + 80000)
    if remoteBase ≤ c.pa || (s.linkUp && !s.lockedAt (.mem c.pa c.mt)) then
      let go := s.hub.contribs.filter fun x => x.pa == c.pa
      let s1 : State := { s with hub := { s.hub with contribs := s.hub.contribs.filter fun x => x.pa != c.pa } }
      .next (go.foldl (fun s c => s.atomAll (s.clocksOf [c]) c.pa c.op c.b) s1)
    else
      let upd (x : Contrib) : Contrib := if x.pa = c.pa then { x with issued := s.now } else x
      .next { s with hub := { s.hub with contribs := s.hub.contribs.map upd } }

-- Fault replies (R372).

/-- Threads parked in a team's deck at a PC. -/
def State.parkedAt (s : State) (team : Nat) (pc : VAddr) : List Nat :=
  ((s.threadsOf team).filter fun t => t.2.place == .parked && t.2.pc == pc).map (·.1)

/-- A thread evicted from a parked deck (R371). -/
def Thread.leftDeck (t : Thread) (id : Nat) (tm : Team) (pc : VAddr) : Bool :=
  t.place == .evicted none && t.pc == pc && !tm.heldQ.any fun h => h.threads.contains id

/-- Some thread of the deck has been evicted: the verdict is kept (R372). -/
def State.deckEvicted (s : State) (team : Nat) (tm : Team) (pc : VAddr) : Bool :=
  (s.threadsOf team).any fun t => t.2.leftDeck t.1 tm pc

def Parked.pc (p : Parked) : VAddr := p.rec_.pc.setWidth 57

/-- The parked deck of a record; a record whose deck holds no thread any more names none (R372). -/
def State.parkedOf (s : State) (slice seq : Nat) : Option (Nat × Team × Parked) :=
  s.teams.foldl (fun r t => match r with
    | some x => some x
    | none => if t.2.slice != slice then none else (t.2.parkedQ.find? fun p => p.seq == seq &&
        (!(s.parkedAt t.1 p.pc).isEmpty || s.deckEvicted t.1 t.2 p.pc)).map fun p => (t.1, t.2, p)) none

/-- The records answered: every one of the deck. -/
def State.answered (s : State) (team : Nat) (pc : VAddr) : State :=
  s.updTeam team fun t => { t with parkedQ := t.parkedQ.filter fun p => p.pc != pc }

/-- Retry: each thread is filed at the faulting PC. -/
def State.retryDeck (s : State) (team : Nat) (core : Nat) (pc : VAddr) : State :=
  ((s.fileAll core pc (s.parkedAt team pc)).answered team pc).settle core

/-- The record of a team that a verdict ends: that of the raising instruction and lane (R380). -/
def Parked.final (p : Parked) (t : Team) (cause : Nat) : Rec := { p.rec_ with cause := cause, core := t.core, tslot := t.slot }

/-- Deliver: the deck's threads enter the handler as one group, or wait for the trap in service; without a handler the team ends. -/
def State.deliverDeck (s : State) (team : Nat) (t : Team) (p : Parked) (cause : Nat) : State :=
  let ids := s.parkedAt team p.pc
  let s := s.answered team p.pc
  if (t.csrv cTRAPV).extractLsb' 1 56 = 0 then s.endOnFault team (p.final t cause)
  else if t.inService then
    let s := ids.foldl (fun s id => s.updThread id fun x => { x with place := .held }) s
    s.updTeam team fun x =>
      { x with heldQ := x.heldQ ++
          [{ threads := ids, pc := p.pc, lane := p.rec_.lane, cause := cause, detail := p.rec_.addr, len := p.rec_.len }] }
  else (s.deliver team ids p.pc p.rec_.lane cause p.rec_.addr p.rec_.len none).settle t.core

def replyVerdict (w : BitVec 64) : Nat := (w.extractLsb' 56 2).toNat
def replyCause (w : BitVec 64) : Nat := (w.extractLsb' 48 8).toNat
def replySeq (w : BitVec 64) : Nat := (w.extractLsb' 0 48).toNat
def replyOk (w : BitVec 64) : Bool :=
  w.extractLsb' 58 6 == 0 && (replyVerdict w != 1 || replyCause w == 0x10 || replyCause w == 0x11 || replyCause w == 0x12)

/-- A verdict for a saved team is held in it (R372). -/
def State.holdVerdict (s : State) (slice : Nat) (w : BitVec 64) : State :=
  { s with saved := mmap (fun _ x =>
      if x.team.slice = slice && x.team.parkedQ.any fun p => p.seq == replySeq w && x.threads.any fun y => y.2.leftDeck y.1 x.team p.pc then
        { x with team := { x.team with verdicts := x.team.verdicts ++ [{ seq := replySeq w, verdict := replyVerdict w, cause := replyCause w }] } }
      else x) s.saved }

/-- Act on a verdict for a team on a core. -/
def State.verdict (s : State) (team : Nat) (t : Team) (p : Parked) (v cause : Nat) : State :=
  match v with
  | 0 => s.retryDeck team t.core p.pc
  | 1 => s.deliverDeck team t p cause
  | _ => s.endOnFault team (p.final t p.rec_.cause)

/-- A word written to FREPLY (R372): kept until restore where threads of the deck have left the core, but for an end, which is the team's;
ignored when malformed, when it names no parked deck of a live team, or while the host link is
down (R415). -/
def State.reply (s : State) (slice : Nat) (w : BitVec 64) : State :=
  if !s.hub.cxlUp || !replyOk w || replyVerdict w = 3 then s
  else
    match s.parkedOf slice (replySeq w) with
    | none => s.holdVerdict slice w
    | some (id, t, p) =>
      if replyVerdict w != 2 && s.deckEvicted id t p.pc then
        s.updTeam id fun x => { x with verdicts := x.verdicts ++ [{ seq := p.seq, verdict := replyVerdict w, cause := replyCause w }] }
      else s.verdict id t p (replyVerdict w) (replyCause w)

def State.replyAs (s : State) (v slice : Nat) (w : BitVec 64) : Out :=
  if replyVerdict w = v then .next (s.reply slice w) else .fault .notDue

def execFaultReplyRetry (slice : Nat) (w : BitVec 64) (s : State) : Out := s.replyAs 0 slice w
def execFaultReplyDeliver (slice : Nat) (w : BitVec 64) (s : State) : Out := s.replyAs 1 slice w
def execFaultReplyEnd (slice : Nat) (w : BitVec 64) (s : State) : Out := s.replyAs 2 slice w

/-- A pipe held by its record (R374) makes it once there is room, and its raft is filed. -/
def State.releaseHold (s : State) (core p : Nat) : Option State :=
  let pr := s.pipe core p
  match pr.hold with
  | some (.record k r) =>
    if s.roomToPost k then
      let s := (s.post k r).freePipe core p
      match pr.raft with
      | none => some (s.settle core)
      | some x => some ((x.lanes.foldl (fun s l => s.fileThread core l.2 x.pc) s).settle core)
    else none
  | none => none

def State.releaseHolds (s : State) : State := s.pipes.foldl (fun s x => (s.releaseHold (x.1 / 4) (x.1 % 4)).getD s) s

/-- FAULT_RECORD_POST: the oldest waiting record reaches the ring when that has room; a pipe held for a full queue then makes its
record and files its raft (R374). -/
def execFaultRecordPost (slice : Nat) (s : State) : Out :=
  let sl := s.slice slice
  match sl.fqWait with
  | [] => .fault .notDue
  | r :: rest =>
    if !sl.fq || s.ringFull sl.fqCtl sl.fqLog2 then .fault .notDue
    else
      let s := s.updSlice slice fun x => { x with fqWait := rest }
      .next (s.ringPut sl.fqRing sl.fqCtl sl.fqLog2 ((s.hreg (0x1008 + 0x100 * slice)).toNat % 2 ^ 11) r).releaseHolds

end Sys2Proof.Machine
end

