-- ==== Sys2Proof/Machine/Sched.lean ====
section
/-!
DEFINITION. Forming rafts (R40 to R45), and the clock gate (R64).
-/

namespace Sys2Proof.Machine

/-- A deck, or a group of spilled threads with one key, as formation sees it (R42): what orders it, and its members as filing cycle,
thread number and identity. -/
structure Bin where
  team : Nat
  slot : Nat
  age  : Nat
  pc   : VAddr
  inj  : Bool
  spilled : Bool
  mem  : List (Nat × Nat × Nat)
  deriving DecidableEq, Repr

/-- Put a filed thread into its bin. -/
def addBin (b : Bin) : List Bin → List Bin
  | [] => [b]
  | x :: r =>
    if x.team = b.team && x.pc = b.pc && x.inj = b.inj && x.spilled = b.spilled then { x with mem := x.mem ++ b.mem } :: r
    else x :: addBin b r

/-- The decks and spilled groups of a core; a thread filed in this cycle cannot be taken yet (R44). -/
def State.bins (s : State) (core : Nat) : List Bin :=
  s.threads.foldl (fun l x =>
    match s.team x.2.team with
    | none => l
    | some t =>
      if t.core != core then l
      else
        let put (since : Nat) (spilled : Bool) : List Bin :=
          if since < s.now then
            addBin { team := x.2.team, slot := t.slot, age := (t.csrv cAGELIM).toNat, pc := x.2.pc, inj := x.2.inj.isSome, spilled := spilled,
                     mem := [(since, x.2.tnum, x.1)] } l
          else l
        match x.2.place with
        | .deck since => put since false
        | .spill since => put since true
        | _ => l) []

/-- When its oldest thread was filed. -/
def Bin.oldest (b : Bin) : Nat := b.mem.foldl (fun m x => Nat.min m x.1) (b.mem.headD (0, 0, 0)).1

/-- Aged: the oldest thread has waited longer than AGELIM (R42). -/
def Bin.aged (now : Nat) (b : Bin) : Bool := decide (b.oldest + b.age < now)
def raftSize : Nat := 32
def Bin.full (b : Bin) : Bool := !b.spilled && decide (raftSize ≤ b.mem.length)

/-- What stands for a deck that a lower-numbered pipe has cut in this cycle (R43, R357). (Log 33, DEDUCED.) -/
def Bin.cut (now : Nat) (cuts : List Cut) (b : Bin) : Option Cut :=
  if b.spilled || b.inj then none else cuts.find? fun c => c.cycle == now && c.team == b.team && c.pc == b.pc

def Bin.eligible (now : Nat) (cuts : List Cut) (b : Bin) : Bool :=
  b.aged now || b.full || (b.inj && !b.spilled) || (b.cut now cuts).isSome

/-- The rank of an eligible deck and when its oldest thread was filed (R42). An aged group of spilled threads that holds an injected one is
an aged deck and holds an injected thread: of the two ranks the model gives it the first (log 61, DESIGN CHOICE). -/
def Bin.rank (now : Nat) (cuts : List Cut) (b : Bin) : Nat × Nat :=
  match b.cut now cuts with
  | some c => (c.rank, c.oldest)
  | none => (if b.inj then 1 else if b.aged now then 2 else 3, b.oldest)

/-- Rank, wait, team slot and PC: less is sooner (R42). Decks of injected threads are not ordered by their wait. -/
def Bin.key (now : Nat) (cuts : List Cut) (b : Bin) : List Nat :=
  let r := b.rank now cuts
  [r.1, if r.1 = 1 then 0 else r.2, b.slot, b.pc.toNat]

def lexLess : List Nat → List Nat → Bool
  | [], _ => false
  | _, [] => false
  | x :: r, y :: q => decide (x < y) || (x == y && lexLess r q)

def insertBy {α : Type} (lt : α → α → Bool) (x : α) : List α → List α
  | [] => [x]
  | y :: r => if lt x y then x :: y :: r else y :: insertBy lt x r

def sortBy {α : Type} (lt : α → α → Bool) (l : List α) : List α := l.foldr (insertBy lt) []

/-- The deck a pipe takes: by rank among those it does not pass over (R42, R55). Where every eligible deck is one that the pipe passes
over, R42 lets it take a sole one and says nothing of several: the model takes among all of them by rank (log 61, DESIGN CHOICE). -/
def State.chooseBin (s : State) (core p : Nat) : Option Bin :=
  let cuts := (s.core core).cuts
  let el := (s.bins core).filter (Bin.eligible s.now cuts)
  let pass := (s.pipe core p).pass
  let go := el.filter fun b => !pass.contains (b.team, b.pc, b.inj)
  (sortBy (fun x y => lexLess (x.key s.now cuts) (y.key s.now cuts)) (if go.isEmpty then el else go)).head?

/-- The threads a raft takes (R43): at most 32, longest wait first; lanes go by thread number. -/
def Bin.take (b : Bin) : List (Nat × Nat) :=
  let got := (sortBy (fun x y => lexLess [x.1, x.2.1] [y.1, y.2.1]) b.mem).take raftSize
  (sortBy (fun (x y : Nat × Nat × Nat) => decide (x.2.1 < y.2.1)) got).mapIdx fun k x => (k, x.2.2)

/-- A pipe that needs a raft (R44). -/
def State.needsRaft (s : State) (core p : Nat) : Bool :=
  let pr := s.pipe core p
  pr.raft.isNone && pr.hold.isNone && decide (pr.ready ≤ s.now) && !(s.core core).gated

/-- A lower-numbered pipe of the core needs a raft and has a deck to take: it forms first (R43, R357). -/
def State.lowerFirst (s : State) (core p : Nat) : Bool := (List.range p).any fun q => s.needsRaft core q && (s.chooseBin core q).isSome

/-- RAFT_FORMATION: the pipe takes a raft from the first eligible deck, and issues in the next cycle (R42 to R44), no sooner than 40
cycles after the event that woke the core (R64). -/
def execRaftFormation (core pipe : Nat) (s : State) : Out :=
  if !s.needsRaft core pipe || s.lowerFirst core pipe then .fault .notDue
  else
    match s.chooseBin core pipe with
    | none => .fault .notDue
    | some b =>
      let lanes := b.take
      let since := lanes.filterMap fun x => (mfind x.2 s.threads).bind (·.cutAt)
      let s := lanes.foldl (fun s x => s.updThread x.2 fun t => { t with place := .raft, cutAt := none }) s
      let r := b.rank s.now (s.core core).cuts
      let new : List Cut := if raftSize < b.mem.length && !b.spilled && !b.inj then
          [{ team := b.team, pc := b.pc, rank := r.1, oldest := r.2, cycle := s.now }] else []
      let s := s.updCore core fun k =>
        { k with
          spill := k.spill.filter fun id => !lanes.any fun x => x.2 == id
          cuts := new ++ k.cuts.filter fun c => c.cycle == s.now }
      let s := s.setPipe core pipe
        { raft := some { team := b.team, pc := b.pc, lanes := lanes }, ready := Nat.max (s.now + 1) (s.core core).wakeAt, cutAt := since.min? }
      .next (s.settle core)

/-- DECK_AGED: time passes until the next deck of the core has aged (R42). (Log 31, DESIGN CHOICE.) -/
def execDeckAged (core : Nat) (s : State) : Out :=
  let at_ := ((s.bins core).filter fun b => !b.aged s.now).map fun b => b.oldest + b.age + 1
  match at_ with
  | [] => .fault .notDue
  | t :: r => .next (s.advance (r.foldl Nat.min t))

/-- Cycles for which a raft may hold its pipe while a deck is aged (R45). -/
def holdLimit : Nat := 16

def State.forcedDue (s : State) (core p : Nat) : Bool :=
  let pr := s.pipe core p
  pr.raft.isSome && pr.hold.isNone && !pr.fixed && decide (pr.ready ≤ s.now) &&
  (match pr.start with
   | some t => decide (t + holdLimit ≤ s.now)
   | none => false) && (s.bins core).any (Bin.aged s.now)

/-- FORCED_FILING: each thread is filed at the instruction not yet issued (R45, R46); the time for which the access of that instruction has had
no answer goes on (R369; log 28). -/
def execForcedFiling (core pipe : Nat) (s : State) : Out :=
  match (s.pipe core pipe).raft with
  | none => .fault .notDue
  | some r =>
    if !s.forcedDue core pipe then .fault .notDue
    else
      let at_ := (s.pipe core pipe).cutAt
      let s := r.lanes.foldl (fun s x => s.updThread x.2 fun t => { t with cutAt := at_ }) (s.freePipe core pipe)
      .next ((s.fileAll core r.pc (r.lanes.map (·.2))).settle core)

-- The clock gate.

/-- CLOCK_GATE: the core slept at the end of the last cycle, and no wake event has come (R64). -/
def execClockGate (core : Nat) (s : State) : Out :=
  if (s.core core).gated || !(s.core core).idle || !s.asleep core then .fault .notDue
  else .next (s.updCore core fun k => { k with gated := true })

/-- CLOCK_WAKE: a wake event on a gated core; its first raft issues 40 cycles later (R64). -/
def execClockWake (core : Nat) (s : State) : Out :=
  if !(s.core core).gated || s.asleep core then .fault .notDue
  else .next (s.updCore core fun k => { k with gated := false, wakeAt := s.now + 40 })

end Sys2Proof.Machine
end

