-- ==== Sys2Proof/Machine/Teams.lean ====
section
/-!
DEFINITION. Teams on cores: what a core must have free (R38, R166), the end of a team (R249, R333, R337), eviction and save (R57, R58,
R61 to R63), restore (R59, R60) and the watchdog (R378), and the requests that name teams (R344).
-/

namespace Sys2Proof.Machine

-- Requests.

/-- A place in memory that the hub writes by physical address: every die sees it at once. -/
def hubLoc (pa : Nat) : Loc := .mem pa 3

/-- A named team's report: its bit in DONEMAP where its action was taken, and its one arrival at DONE (R344). -/
def State.report (s : State) (rid name : Nat) (done : Bool) : State :=
  match mfind rid s.requests with
  | none => s
  | some r =>
    if !r.names.contains name then s
    else
      let names := r.names.filter (· != name)
      let s : State := { s with requests := if names.isEmpty then mdel rid s.requests else mput rid { r with names := names } s.requests }
      let k := name - 1280 * r.slice
      let a := r.blk + 0xB0 + k / 8
      let s := if done then s.putHome a [s.home a ||| BitVec.ofNat 8 (2 ^ (k % 8))] else s
      if r.done = 0 then s else s.barUpdate 0 (hubLoc r.done) BarObj.arrive

def teamName (t : Team) : Nat := 16 * t.core + t.slot

/-- Requests of some kinds that name a live team. -/
def State.naming (s : State) (t : Team) (kinds : List Nat) : List Nat :=
  (s.requests.filter fun r => kinds.contains r.2.kind && r.2.slice == t.slice && r.2.asid == t.asid && r.2.names.contains (teamName t)).map (·.1)

def opPreEmpt : Nat := 6
def opRestore : Nat := 7
def opEndTeams : Nat := 8

def State.reports (s : State) (rids : List Nat) (name : Nat) (done : Bool) : State := rids.foldl (fun s r => s.report r name done) s

-- The end of a team.

/-- Every engine job, matrix command, traversal round and surrender routine of a team has ended. -/
def State.teamQuiet (s : State) (team : Nat) (t : Team) : Bool :=
  !(s.jobs.any fun j => j.2.team == team) && !((s.core t.core).mq.any fun m => m.team == team) &&
  !((s.cluster (Config.clusterOf t.core)).tickets.any fun x => x.2.team == team) && t.routine.isNone

/-- What a team holds goes back: buffers, leases, tickets' holds, completion records (R249, R100). The team is already out. -/
def State.freeTeam (s : State) (team : Nat) (t : Team) : State :=
  let cl := Config.clusterOf t.core
  let s := (((s.endBufs cl team).endLeases cl team).updCore t.core fun k => { k with mrec := k.mrec.filter fun r => r.team != team })
  (s.updCluster cl fun k => { k with skHeld := k.skHeld.filter fun h => h.1 != team }).updSlice t.slice fun x => { x with mayDraw := true }

/-- The hub's own translations use no TLB of a cluster. -/
def hubWho : Who := { core := none, cluster := Config.clusters }

def recField (hdr : List Byte) (o n : Nat) : Nat := leNat ((hdr.drop o).take n)

/-- The arrival at DONE under the launch's ASID; a KIND 4 record where it cannot be made (R333, R414). -/
def State.arriveDone (s : State) (t : Team) (l : Launch) : State :=
  let done : DWord := BitVec.ofNat 64 (recField l.hdr 0x20 8)
  if done = 0 then s
  else
    let fail (f : Fail) : State :=
      s.post t.slice { kind := 4, cause := f.cause, rem := f.remote, core := t.core, tslot := t.slot, asid := t.asid, tnum := 0x7FF,
                       lanes := l.lanes, addr := done }
    match s.global hubWho l.asid done (done.setWidth 57) 16 { write := true } noBarMt with
    | .error f => fail f
    | .ok g =>
      if s.cutOff g.loc then fail (cutFail done true)
      else if s.poisonAt g.loc 16 then fail { cause := 0x60 }
      else (s.orPte g.tlb.addr true true).barUpdate (Config.dieOf t.core) g.loc BarObj.arrive

/-- No link reaches the object that the end of a team arrives at. -/
def State.doneCut (s : State) (t : Team) : Bool :=
  match mfind t.launch s.launches with
  | none => false
  | some l =>
    let done : DWord := BitVec.ofNat 64 (recField l.hdr 0x20 8)
    done != 0 && match s.global hubWho l.asid done (done.setWidth 57) 16 { write := true } noBarMt with
      | .error _ => false
      | .ok g => s.cutOff g.loc

/-- The skew monitor's record (R337): the ends of the used clusters lie too far apart. Its CORE field is left open. -/
def State.replan (s : State) (l : Launch) : State :=
  let skew := recField l.hdr 0x38 4
  let last := l.ends.foldl (fun m x => Nat.max m x.2) 0
  let first := l.ends.foldl (fun m x => Nat.min m x.2) last
  if s.feature 6 && skew != 0 && decide (skew < last - first) then
    let r := msgRecord (Config.freeNat s.free % Config.cores) 15 0xFFFFFFFF l.addr
    (s.drew 1).updSlice l.slice fun x => { x with mqWait := x.mqWait ++ [(l.lanes, r)] }
  else s

/-- The launch records a team as complete (R249, R333, R337); at the kernel's end A and D are written back (R117). -/
def State.launchEnd (s : State) (t : Team) (arrive : Bool) : State :=
  match mfind t.launch s.launches with
  | none => s
  | some l =>
    let s := if arrive then s.arriveDone t l else s
    let l' := { l with ended := l.ended + 1, ends := mput (Config.clusterOf t.core) s.now l.ends }
    if l'.ended = l'.teams then ({ s with launches := mdel t.launch s.launches }.replan l').harvest (.asid l.asid)
    else { s with launches := mput t.launch l' s.launches }

/-- A team that ends (R249), or a saved team that an end-teams request has discarded (R344), with its key among the saved. -/
def State.endingTeam (s : State) (team : Nat) : Option (Team × Option (Nat × Saved)) :=
  match s.team team with
  | some t => if t.ending then some (t, none) else none
  | none => match s.saved.find? fun x => x.2.id == team && !x.2.discard.isEmpty with
    | some x => some (x.2.team, some x)
    | none => none

/-- TEAM_END: rounds are withdrawn; once all the team's work has completed, its resources are freed and its launch is told.
(Log 41, DEDUCED.) -/
def execTeamEnd (team : Nat) (s : State) : Out :=
  match s.endingTeam team with
  | none => .fault .notDue
  | some (t, sv) =>
    let cl := Config.clusterOf t.core
    let rounds := (s.cluster cl).tickets.filter fun x => x.2.team == team && !x.2.withdrawn
    if !rounds.isEmpty then .next (rounds.foldl (fun s x => s.tresTicket cl x.1) s)
    else if !s.teamQuiet team t then .fault .notDue
    else
      match sv with
      | none =>
        let s1 : State := { s with teams := mdel team s.teams }
        let s2 := (s1.freeTeam team t).launchEnd t true
        s.orWait (.teamEnd team) (s.doneCut t)
          ((s2.reports (s.naming t [opPreEmpt]) (teamName t) false).reports (s.naming t [opEndTeams]) (teamName t) true)
      | some (key, x) =>
        let s1 : State := { s with saved := mdel key s.saved }
        let s1 := s1.updCluster cl fun k => { k with cursors := mfilter (fun _ y => !x.threads.any fun z => z.1 == y.thread) k.cursors }
        let s2 := (s1.freeTeam team t).launchEnd t true
        s.orWait (.teamEnd team) (s.doneCut t) ((s2.reports x.restoring (teamName t) false).reports x.discard (teamName t) true)

-- Room on a core.

/-- The first of `n` consecutive free places among `total`. -/
def freeRun (total n : Nat) (used : Nat → Bool) : Option Nat :=
  (List.range (total + 1 - n)).find? fun a => (List.range n).all fun k => !used (a + k)

def granules : Nat := 64

/-- A granule of a core is allocated: to a live team, or kept by a buffer whose originator has ended (R100). -/
def State.granUsed (s : State) (core g : Nat) : Bool :=
  (s.teams.any fun t => t.2.core == core && inRange t.2.spad0 t.2.spadN g) ||
  (s.cluster (Config.clusterOf core)).bufs.any fun b => b.core == core && inRange b.first b.count g && (s.anyTeam b.orig).isNone

/-- Accumulator tiles and weight-buffer regions stay with a team that is saved (R58). -/
def State.accUsed (s : State) (core k : Nat) : Bool :=
  (s.teams.any fun t => t.2.core == core && inRange t.2.acc0 t.2.accN k) ||
  s.saved.any fun t => t.2.team.core == core && inRange t.2.team.acc0 t.2.team.accN k
def State.wbUsed (s : State) (core k : Nat) : Bool :=
  (s.teams.any fun t => t.2.core == core && inRange t.2.wb0 t.2.wbN k) ||
  s.saved.any fun t => t.2.team.core == core && inRange t.2.team.wb0 t.2.team.wbN k

/-- Identity of a context slot, R61. -/
def ctxKey (asid core slot : Nat) : Nat := asid * 10240 + 16 * core + slot

/-- The lowest free team slot of a core, whose context slot holds no saved team. -/
def State.freeSlot (s : State) (core asid : Nat) : Option Nat :=
  (List.range 16).find? fun j => (s.teamAt core j).isNone && (mfind (ctxKey asid core j) s.saved).isNone

/-- Where a team would stand on a core. -/
structure Alloc where
  core  : Nat
  slot  : Nat
  spad0 : Nat
  acc0  : Nat
  wb0   : Nat
  deriving DecidableEq, Repr

/-- A core can take a team (R38, R166). (Log 38, DESIGN CHOICE.) -/
def State.fit (s : State) (core asid size spadN accN wbN : Nat) : Option Alloc :=
  if threadLimit < s.slotsUsed core + size then none
  else
    match s.freeSlot core asid, freeRun granules spadN (s.granUsed core), freeRun 128 accN (s.accUsed core), freeRun 64 wbN (s.wbUsed core) with
    | some j, some g, some a, some w => some { core := core, slot := j, spad0 := g, acc0 := a, wb0 := w }
    | _, _, _, _ => none

-- Eviction and save.

def wakeKind : Wake → Nat
  | .bar _ _ => 1
  | .tags false _ => 2
  | .tags true _ => 3
  | .ticket _ _ => 4
  | .queue _ _ _ => 5
  | .matrix _ _ _ => 6
  | .remote _ _ _ _ _ _ => 7
  | .spawnT _ _ => 8
  | .spawnK _ _ _ => 8

/-- The address, mask or ticket of a wake condition; a wait on matrix work has none. -/
def wakeWord : Wake → Option DWord
  | .bar o _ => some o.a
  | .tags _ m => some m
  | .ticket t _ => some (t.setWidth 64)
  | .queue d _ _ => some d
  | .matrix _ _ _ => none
  | .remote _ _ va _ _ _ => some va
  | .spawnT e _ => some e
  | .spawnK a _ _ => some a

/-- The destination of a remote load and its type, by the code of R17; a wider `ldacq` or atomic is of the type `key64`, any other `i32`. -/
def RemoteOp.param : RemoteOp → Nat
  | .load t d => d.toNat + 256 * (memtyEnc t).toNat
  | .acq b64 d => d.toNat + 256 * (memtyEnc (if b64 then .key64 else .i32)).toNat
  | .atom a _ _ d => d.toNat + 256 * (memtyEnc (if a.wide then .key64 else .i32)).toNat
  | .ldu t d => d.toNat + 256 * (memtyEnc t).toNat
  | .shared => 0

/-- A remote load with the destination and type of its record; an atomic keeps its operation. -/
def RemoteOp.reload (op : RemoteOp) (param : Nat) : RemoteOp :=
  let t := memtyOf (BitVec.ofNat 4 (param / 256))
  match op with
  | .load _ _ => .load t (BitVec.ofNat 6 param)
  | .acq _ _ => .acq (t == .key64) (BitVec.ofNat 6 param)
  | .atom a b c _ => .atom a b c (BitVec.ofNat 6 param)
  | .ldu _ _ => .ldu t (BitVec.ofNat 5 param)
  | .shared => .shared

/-- The parameter of a wake condition: the phase of `barwait`, the destination of `twait`, the destination in [7:0] and the type in [15:8] of a
remote load (R62, as numbers: log 39); D of `qtake` (R305); D, n - 1 and `.wb` of `mwait` (R319). The others have none that R62 names. -/
def wakeParam : Wake → Option Nat
  | .bar _ k => some (if k then 1 else 0)
  | .ticket _ d => some d.toNat
  | .queue _ _ d => some d.toNat
  | .matrix wb first n => some (first % 256 + 256 * ((n - 1) % 128) + if wb then 2 ^ 15 else 0)
  | .remote op _ _ _ _ _ => some op.param
  | _ => none

/-- WAKE, R62. That of a parked or held thread, for which R62 gives no kind, is twelve zero bytes (log 39, DESIGN CHOICE). -/
def wakeBytes (f : List Byte) : Option Wake → List Byte
  | none => List.replicate 12 0
  | some w => natLe 1 (wakeKind w) ++ (match wakeParam w with
    | some x => natLe 3 x
    | none => f.take 3) ++ (match wakeWord w with
    | some x => natLe 8 x.toNat
    | none => (f.drop 3).take 8)

/-- A wake condition with what its record gives of it; `v` are the thread's registers, of which `qtake` keeps its position in vD (R305). -/
def Wake.reload (w : Wake) (param : Nat) (word : DWord) (v : Map VReg) : Wake :=
  match w with
  | .bar o _ => .bar { o with a := word } (param.testBit 0)
  | .tags all _ => .tags all word
  | .ticket _ _ => .ticket (word.setWidth 32) (BitVec.ofNat 6 param)
  | .queue _ _ _ => let d : BitVec 6 := BitVec.ofNat 6 param; .queue word (mget {} d.toNat v).val d
  | .matrix _ _ _ => .matrix (param.testBit 15) (param % 256) (param / 256 % 128 + 1)
  | .remote op pa _ at_ lane lead => .remote (op.reload param) pa word at_ lane lead
  | .spawnT _ g => .spawnT word g
  | .spawnK _ hdr lead => .spawnK word hdr lead

/-- A thread record, R62. -/
def threadRecord (f : List Byte) (t : Thread) (w : Option Wake) : List Byte :=
  (List.range 64).flatMap (fun n => natLe 4 (t.reg n).val.toNat) ++
  (List.range 32).flatMap (fun n => natLe 1 ((t.reg (2 * n)).tag.toNat + 16 * (t.reg (2 * n + 1)).tag.toNat)) ++
  natLe 8 t.pc.toNat ++ natLe 8 t.wid.toNat ++ wakeBytes f w ++ natLe 1 t.p.toNat ++ natLe 1 (if w.isSome then 0 else 1) ++ natLe 2 t.tnum

def recOffset (tnum : Nat) : Nat := 0x50000 + 0x140 * tnum

/-- A thread as its record in the context slot gives it (R60, R62). -/
def Thread.reload (t : Thread) (bs : List Byte) : Thread :=
  let f (o n : Nat) : Nat := recField bs o n
  let v := (List.range 64).foldl (fun (m : Map VReg) n =>
    mputD {} n ⟨BitVec.ofNat 32 (f (4 * n) 4), BitVec.ofNat 4 (f (0x100 + n / 2) 1 / 16 ^ (n % 2))⟩ m) []
  { t with
    v := v, psnV := [], psnP := false, pc := BitVec.ofNat 57 (f 0x120 8 / 2 * 2), wid := BitVec.ofNat 64 (f 0x128 8), p := BitVec.ofNat 8 (f 0x13C 1)
    place := match t.place with
      | .evicted (some w) => .evicted (some (w.reload (f 0x131 3) (BitVec.ofNat 64 (f 0x134 8)) v))
      | x => x }

/-- Poison moves with the data that is written (R395). -/
def State.poisonMem (s : State) (as : List Nat) : State := as.foldl (fun s a => s.addPsn (a / 32)) s

/-- A context slot that does not answer: its context never set, or host memory while the CXL link is down (R378, R415).
(Log 42, DEDUCED.) -/
def State.slotGone (s : State) (t : Team) : Bool :=
  match s.ctxSlot t.asid t.core t.slot with
  | none => true
  | some a => s.physCut a

/-- A thread that a pre-emption evicts now (R57); an injected one never is (R389). -/
def Thread.evictable (t : Thread) : Bool :=
  t.inj.isNone && match t.place with
    | .blocked _ _ => true
    | .parked => true
    | .held => true
    | _ => false

def Thread.wakeOf (t : Thread) : Option Wake :=
  match t.place with
  | .blocked w _ => some w
  | .evicted w => w
  | _ => none

/-- Write a thread's record and free its slot (R57, R62). -/
def State.evict (s : State) (base id : Nat) (t : Thread) : State :=
  let w := t.wakeOf
  let a := base + recOffset t.tnum
  let s1 := (s.putHome a (threadRecord (s.freeBytes 11) t w)).drew 11
  let s2 := s1.poisonMem (t.psnV.map (fun n => a + 4 * n) ++ if t.psnP then [a + 0x13C] else [])
  s2.updThread id fun t => { t with place := .evicted w }

/-- A team is torn (R378): STATE 2 in the thread records written, the team ended, a KIND 2 record. -/
def State.tear (s : State) (team : Nat) (t : Team) (cause : Nat) (write : Bool) : State :=
  let s := match s.ctxSlot t.asid t.core t.slot with
    | none => s
    | some a =>
      if s.slotGone t then s
      else ((s.threadsOf team).filter fun (x : Nat × Thread) => x.2.isEvicted).foldl (fun (s : State) (x : Nat × Thread) => s.putHome (a + recOffset x.2.tnum + 0x13D) (natLe 1 2)) s
  (s.killTeam team).post t.slice
    { kind := 2, cause := cause, write := write, core := t.core, tslot := t.slot, asid := t.asid, tnum := 0x7FF }

/-- The flags of jobs not yet observed go into the saved FLAGS (R377). -/
def Team.absorb (t : Team) : Team := (t.observe 0xFFFFFFFFFFFFFFFF).orFlags (t.tags.foldl (fun f x => f ||| x.2.flags) 0)
def Team.clearTagFlags (t : Team) : Team := { t with tags := mmap (fun _ x => { x with flags := 0 }) t.tags }

/-- Flags of matrix records of a team not yet observed, and the records without them. -/
def State.recFlags (s : State) (core team : Nat) : BitVec 7 :=
  (s.core core).mrec.foldl (fun f r => if r.team = team then f ||| r.flags else f) 0
def State.dropRecFlags (s : State) (core team : Nat) : State :=
  s.updCore core fun k => { k with mrec := (k.mrec.map fun r => if r.team = team then { r with flags := 0 } else r).filter fun r =>
    r.flags != 0 || r.cause != 0 }

/-- The team record, R63: registers, CSRs, copy-tag bits, and a part that only the device reads. -/
def teamRecord (f : List Byte) (t : Team) : List Byte :=
  (List.range 32).flatMap (fun n => natLe 4 (t.sreg n).toNat) ++ (List.range 16).flatMap (fun n => natLe 8 (t.areg n).toNat) ++
  (List.range 11).flatMap (fun n => natLe 8 (t.csrv n).toNat) ++
  natLe 8 ((List.range 64).foldl (fun m k => m + if (t.ctag k).ready then 2 ^ k else 0) 0) ++ f

/-- A team as its record gives it (R63): registers and CSRs; a copy tag completed meanwhile stays so (R59). -/
def Team.reload (t : Team) (bs : List Byte) : Team :=
  let f (o n : Nat) : Nat := recField bs o n
  { t with
    s := (List.range 32).foldl (fun (m : Map Word) n => mputD 0 n (BitVec.ofNat 32 (f (4 * n) 4)) m) []
    a := (List.range 16).foldl (fun (m : Map DWord) n => mputD 0 n (BitVec.ofNat 64 (f (0x80 + 8 * n) 8)) m) []
    csr := (List.range 11).foldl (fun (m : Map DWord) n => mputD 0 n (BitVec.ofNat 64 (f (0x100 + 8 * n) 8) &&& csrMask n) m) []
    psnS := [], psnA := []
    tags := (List.range 64).foldl (fun m n => mputD {} n { mget {} n t.tags with
      ready := (mget {} n t.tags).ready || (f 0x158 8).testBit n } m) [] }

/-- Engine work still reaches a team's scratchpad. -/
def State.spadBusy (s : State) (team : Nat) (t : Team) : Bool :=
  let mine (r : Rng) : Bool := r.space == 1 && r.unit == t.core && decide (r.lo < (t.spad0 + t.spadN) * 0x1000) && decide (t.spad0 * 0x1000 < r.lo + r.n)
  (s.jobs.any fun j => j.2.foot.any mine || (j.2.team == team && match j.2.work with
    | .card c => c.bar != 0 && spaceOf c.bsp == .spad
    | .tsig _ => false)) ||
  (s.core t.core).mq.any fun m => m.foot.any mine

/-- A holder of one of its buffers still has a thread on a core (R100). -/
def State.lentOut (s : State) (team : Nat) (t : Team) : Bool :=
  (s.cluster (Config.clusterOf t.core)).bufs.any fun b => b.orig == team && b.holder != team &&
    (s.threadsOf b.holder).any fun x => !x.2.isEvicted

/-- The save is complete: scratchpad image and team record are written, the team leaves its core (R58). -/
def State.saveTeam (s : State) (base team : Nat) (t : Team) : State :=
  let flags := s.recFlags t.core team
  let t := (t.absorb.orFlags flags).clearTagFlags
  let s := s.dropRecFlags t.core team
  let spad := mgets 0 s.spad (spadKey t.core (t.spad0 * 0x1000)) (t.spadN * 0x1000)
  let k0 := spadKey t.core (t.spad0 * 0x1000)
  let bad := (s.psnSpad.filter fun k => decide (k0 ≤ 8 * k) && decide (8 * k < k0 + t.spadN * 0x1000)).map fun k => base + (8 * k - k0)
  let s := ((s.putHome base spad).putHome (base + 0x40000) (teamRecord (s.freeBytes 0xFEA0) t)).drew 0xFEA0
  let s := s.poisonMem (bad ++ t.psnS.map (fun n => base + 0x40000 + 4 * n) ++ t.psnA.map fun n => base + 0x40080 + 8 * n)
  let e0 := t.core * 1024 + t.spad0 * 16
  let tab := ((s.core t.core).tagTab.filter fun x => inRange (t.spad0 * 16) (t.spadN * 16) x.1).map fun x => (x.1 - t.spad0 * 16, x.2)
  let psn := (s.psnTag.filter fun k => inRange e0 (t.spadN * 16) k).map (· - e0)
  let sv : Saved := { team := { t with preempt := none, saveAt := none }, id := team, threads := s.threadsOf team, tagTab := tab, psnTag := psn }
  let s : State :=
    { s with
      threads := mfilter (fun _ x => x.team != team) s.threads
      teams := mdel team s.teams
      saved := mput (ctxKey t.asid t.core t.slot) sv s.saved }
  s.updSlice t.slice fun x => { x with mayDraw := true }

/-- TEAM_SAVE: the threads of a pre-empted team that block are evicted (R57); after the last the save begins, and ends when no engine
reaches the team's scratchpad any more (R58). (Log 29, DEDUCED.) -/
def execTeamSave (team : Nat) (s : State) : Out :=
  match s.team team with
  | none => .fault .notDue
  | some t =>
    if t.preempt.isNone || t.ending then .fault .notDue
    else
      let ths := s.threadsOf team
      let ev := ths.filter fun x => x.2.evictable
      match s.ctxSlot t.asid t.core t.slot, s.slotGone t with
      | some base, false =>
        if !ev.isEmpty then .next ((ev.foldl (fun s x => s.evict base x.1 x.2) s).settle t.core)
        else if !ths.all fun x => x.2.isEvicted then .fault .notDue
        else
          match t.saveAt with
          | none => .next (s.updTeam team fun x => { x with saveAt := some s.now })
          | some _ =>
            if s.spadBusy team t || s.lentOut team t then .fault .notDue
            else
              let rids := s.naming t [opPreEmpt]
              .next ((s.saveTeam base team t).reports rids (teamName t) true)
      | _, _ =>
        if ev.isEmpty && !ths.all fun x => x.2.isEvicted then .fault .notDue
        else .next (s.tear team t 0x10 true)

-- Restore.

/-- A team has buffers, or holds some (R100): it goes back to the granules it left. -/
def State.inBuffers (s : State) (id : Nat) (t : Team) : Bool :=
  (s.cluster (Config.clusterOf t.core)).bufs.any fun b => b.orig == id || b.holder == id

/-- The core to which a saved team is restored (R60). -/
def State.refit (s : State) (key : Nat) (x : Saved) : Option Alloc :=
  let t := x.team
  let s1 : State := { s with saved := mdel key s.saved }
  let n := x.threads.length
  let bufs := s.inBuffers x.id t
  let here : Option Alloc :=
    if bufs && (List.range t.spadN).any fun g => s.granUsed t.core (t.spad0 + g) then none
    else (s1.fit t.core t.asid n (if bufs then 0 else t.spadN) 0 0).map fun a =>
      { a with spad0 := if bufs then t.spad0 else a.spad0, acc0 := t.acc0, wb0 := t.wb0 }
  if t.accN != 0 || t.wbN != 0 || bufs then here
  else
    match here with
    | some a => some a
    | none => (coresOf (Config.clusterOf t.core)).findSome? fun k => s1.fit k t.asid n t.spadN 0 0

/-- The saved teams of a cluster whose granules a team holds (R99). -/
def State.owners (s : State) (cl id : Nat) : List Nat :=
  (s.cluster cl).bufs.filterMap fun b =>
    if b.holder = id && b.orig != id && (s.team b.orig).isNone && (s.anyTeam b.orig).isSome then some b.orig else none

/-- The owners, and theirs in turn, over `n` steps. -/
def State.ownersOver (s : State) (cl : Nat) : Nat → List Nat → List Nat
  | 0, l => l
  | n + 1, l => l ++ s.ownersOver cl n (l.flatMap (s.owners cl))

/-- All the saved teams whose granules a team holds, or that hold those of one such. -/
def State.ownersOf (s : State) (cl id : Nat) : List Nat :=
  (s.saved.map fun x => x.2.id).filter fun k => (s.ownersOver cl s.saved.length (s.owners cl id)).contains k

/-- The saved teams that hold buffers with a team round in a cycle: they go back together (R100). -/
def State.mates (s : State) (cl id : Nat) : List Nat := (s.ownersOf cl id).filter fun k => k != id && (s.ownersOf cl k).contains id

/-- The originators of the buffers it holds are on their cores again, or have ended, the granules staying where they are, or go back with it
(R100). -/
def State.ownersBack (s : State) (id : Nat) (t : Team) : Bool :=
  let cl := Config.clusterOf t.core
  (s.owners cl id).all fun k => (s.mates cl id).contains k

/-- The place of a thread restored: blocked again on its condition, parked or held (R59, R371, R375). -/
def Saved.placeOf (x : Saved) (now id : Nat) (t : Thread) : Place :=
  match t.wakeOf with
  | some (.remote op pa va _ lane lead) => .blocked (.remote op pa va now lane lead) false
  | some w => .blocked w false
  | none => if x.team.heldQ.any fun h => h.threads.contains id then .held else .parked

/-- A saved team as its context slot at `base` gives it: every thread record by thread number, and the team record (R60, R62, R63). -/
def State.reread (s : State) (x : Saved) (base : Nat) : Saved :=
  { x with
    team := x.team.reload (s.homeBytes (base + 0x40000) 0x160)
    threads := x.threads.map fun y => (y.1, y.2.reload (s.homeBytes (base + recOffset y.2.tnum) 0x140)) }

/-- Put a saved team back with its scratchpad image and tag entries. -/
def State.putTeam (s : State) (key : Nat) (x : Saved) (a : Alloc) (image : List Byte) : State :=
  let t := { (x.team.absorb.clearTagFlags.latch) with
    core := a.core, slot := a.slot, spad0 := a.spad0, acc0 := a.acc0, wb0 := a.wb0, verdicts := [], preempt := none, saveAt := none }
  let ths := x.threads.map fun y => (y.1, { y.2 with place := x.placeOf s.now y.1 y.2 })
  let k0 := spadKey a.core (a.spad0 * 0x1000)
  let flags := s.recFlags x.team.core x.id
  let s := s.dropRecFlags x.team.core x.id
  let s : State :=
    { s with
      saved := mdel key s.saved
      teams := mput x.id (if flags = 0 then t else t.orFlags flags) s.teams
      threads := ths.foldl (fun m y => mput y.1 y.2 m) s.threads
      psnTag := (s.psnTag.filter fun k => !inRange (a.core * 1024 + a.spad0 * 16) (t.spadN * 16) k) ++
        x.psnTag.map (· + (a.core * 1024 + a.spad0 * 16)) }
  (s.putSpad k0 image).updCore a.core fun k => { k with
    tagTab := x.tagTab.foldl (fun m e => mput (a.spad0 * 16 + e.1) e.2 m) (mclear (a.spad0 * 16) (t.spadN * 16) k.tagTab) }

/-- Act on a verdict that arrived while the team was saved (R372). -/
def State.heldVerdict (s : State) (team : Nat) (v : Verdict) : State :=
  match s.team team with
  | none => s
  | some t => match t.parkedQ.find? fun p => p.seq == v.seq with
    | none => s
    | some p => s.verdict team t p v.verdict v.cause

/-- A load or atomic beyond the links that had no data when its thread was evicted is performed again, translated afresh (R59, R328); where
its page is no longer such a page, the thread issues it afresh. -/
def State.redoRemote (s : State) (core id : Nat) : State :=
  match mfind id s.threads with
  | none => s
  | some t =>
    match t.place, s.team t.team with
    | .blocked (.remote op _ va at_ lane lead) _, some tm =>
      match s.xlate (coreWho core) tm.asid va.toNat 0 with
      | .ok x =>
        match s.locOf x va.toNat with
        | .mem pa mt =>
          if 2 ≤ mt then
            (s.touch (coreWho core) x op.writes).updThread id fun t => { t with place := .blocked (.remote op pa va at_ lane lead) false }
          else s.fileThread core id (t.pc - 4)
        | _ => s
      | .error _ => s.fileThread core id (t.pc - 4)
    | _, _ => s

/-- Wake what has been met meanwhile, give back the rays, act on verdicts (R59, R156, R372, R387). -/
def State.resume (s : State) (x : Saved) (a : Alloc) : State :=
  let cl := Config.clusterOf a.core
  let s := x.threads.foldl (fun s y => s.redoRemote a.core y.1) s
  let s := ((((s.markBars).markTags x.id).markTickets cl).markMatrix.wakeLost cl).returnRays cl x.id
  let s := x.threads.foldl (fun s y => (s.wake y.1).getD s) s
  let s := x.team.verdicts.foldl (fun s v => s.heldVerdict x.id v) s
  (s.trapDone x.id).settle a.core

/-- The cause with which a restore fails at once: the slot does not answer, or is poisoned where it is read (R378). -/
def State.restoreFails (s : State) (x : Saved) : Option Nat :=
  let t := x.team
  match s.ctxSlot t.asid t.core t.slot with
  | none => some 0x10
  | some a =>
    if s.slotGone t then some 0x10
    else if hasPsn 32 a (t.spadN * 0x1000) s.psnMem || hasPsn 32 (a + 0x40000) 0x10000 s.psnMem ||
      x.threads.any fun y => hasPsn 32 (a + recOffset y.2.tnum) 0x140 s.psnMem then some 0x60
    else none

/-- A restore that is abandoned: the team is torn (R378). -/
def State.tearRestore (s : State) (key : Nat) (x : Saved) (a : Alloc) (cause : Nat) : State :=
  let t := x.team
  let s := match s.ctxSlot t.asid t.core t.slot with
    | none => s
    | some b => if s.slotGone t then s else x.threads.foldl (fun (s : State) (y : Nat × Thread) => s.putHome (b + recOffset y.2.tnum + 0x13D) (natLe 1 2)) s
  let s := (s.putTeam key x a (List.replicate (t.spadN * 0x1000) 0)).killTeam x.id
  let s := s.post t.slice { kind := 2, cause := cause, core := a.core, tslot := a.slot, asid := t.asid, tnum := 0x7FF }
  s.reports x.restoring (teamName t) false

/-- A saved team goes back to a core, or is torn where its slot cannot be read; none where no core can take it (R59, R60, R378). -/
def State.restoreOne (s : State) (saved : Nat) (x : Saved) : Option State :=
  (s.refit saved x).map fun a =>
    match s.restoreFails x with
    | some c => s.tearRestore saved x a c
    | none =>
      let base := (s.ctxSlot x.team.asid x.team.core x.team.slot).getD 0
      let y := s.reread x base
      let s1 := (s.putTeam saved y a (s.homeBytes base (x.team.spadN * 0x1000))).resume y a
      s1.reports x.restoring (teamName x.team) true

/-- A restore request names it, and none discards it; its originators are there, or come with it. -/
def State.restorable (s : State) (x : Saved) : Bool := !x.restoring.isEmpty && x.discard.isEmpty && s.ownersBack x.id x.team

/-- TEAM_RESTORE: the team saved in context slot `saved` goes back to a core, together with those that hold buffers with it round in a cycle
(R59, R60, R100). (Log 40, DESIGN CHOICE.) -/
def execTeamRestore (saved : Nat) (s : State) : Out :=
  match mfind saved s.saved with
  | none => .fault .notDue
  | some x =>
    let mates := s.mates (Config.clusterOf x.team.core) x.id
    let group := (saved, x) :: s.saved.filter fun y => mates.contains y.2.id
    if !(group.all fun y => s.restorable y.2) then .fault .notDue
    else
      match group.foldl (fun r y => r.bind fun s => s.restoreOne y.1 y.2) (some s) with
      | none => .fault .notDue
      | some s => .next s

/-- Cycles that a save or a restore may take, R378. -/
def watchdogLimit : Nat := 1048576

/-- WATCHDOG_EXPIRY: a save, or a restore that can begin, has not ended in time; the team is torn (R378). -/
def execWatchdogExpiry (team : Nat) (s : State) : Out :=
  match s.team team with
  | some t =>
    match t.saveAt with
    | some b => .next ((s.advance (b + watchdogLimit)).tear team t 0x61 true)
    | none => .fault .notDue
  | none =>
    match s.saved.find? fun x => x.2.id == team with
    | none => .fault .notDue
    | some (key, x) =>
      if x.restoring.isEmpty || !x.discard.isEmpty then .fault .notDue
      else
        match s.refit key x with
        | none => .fault .notDue
        | some a => .next ((s.advance (s.now + watchdogLimit)).tearRestore key x a 0x61)

end Sys2Proof.Machine
end

