-- ==== Sys2Proof/Machine/Lottery.lean ====
section
/-!
DEFINITION. Launch records, the lottery and admission (R332 to R337, R35 to R38, R435, R438, R414, R417).
-/

namespace Sys2Proof.Machine

-- The queue table (R334).

structure QEntry where
  base  : DWord
  asid  : Nat
  tickets : Nat
  log2  : Nat
  tail  : Nat
  head  : Nat
  deriving DecidableEq, Repr

def State.qAddr (s : State) (k q : Nat) : Nat := (s.slice k).qtable + 32 * q

def State.qEntry (s : State) (k q : Nat) : QEntry :=
  let a := s.qAddr k q
  let w := s.homeNat (a + 0xC) 4
  { base := BitVec.ofNat 64 (s.homeNat a 8), asid := bits w 24 8, tickets := bits w 8 16, log2 := bits w 0 5,
    tail := s.homeNat (a + 0x10) 4, head := s.homeNat (a + 0x14) 4 }

def QEntry.held (e : QEntry) : Nat := (e.tail + 2 ^ 32 - e.head) % 2 ^ 32
def QEntry.full (e : QEntry) : Bool := decide (2 ^ e.log2 < e.held)

def queueNums : List Nat := List.range 64

/-- Tickets that count (R334, R342, R417): none for a queue whose ASID is not the slice's, an overfilled one, or a LOG2CAP above 16.
(Log 35, DESIGN CHOICE.) -/
def State.ticketsOf (s : State) (k q : Nat) : Nat :=
  let e := s.qEntry k q
  let sl := s.slice k
  if sl.asids.contains e.asid && !sl.overfilled.contains q && decide (e.log2 ≤ 16) then e.tickets else 0

/-- A record, or an entry of the pending-launch store, is there to serve (R335). -/
def State.hasRecord (s : State) (k q : Nat) : Bool :=
  ((s.slice k).store.any fun x => x.1 == q) || (s.qEntry k q).held != 0

def State.eligible (s : State) (k q : Nat) : Bool := s.ticketsOf k q != 0 && s.hasRecord k q

/-- The scheduler's random numbers, R335. -/
def xorshift (x : BitVec 32) : BitVec 32 :=
  let x := x ^^^ (x <<< 13)
  let x := x ^^^ (x >>> 17)
  x ^^^ (x <<< 5)

/-- The queue that `w` falls to. -/
def pickQueue : Nat → List (Nat × Nat) → Nat
  | _, [] => 0
  | w, (q, t) :: r => if w < t then q else pickQueue (w - t) r

def totalTickets (l : List (Nat × Nat)) : Nat := l.foldl (fun n x => n + x.2) 0

-- Launch records (R332, R333, R435, R7, R8).

def hdrShape (h : List Byte) : Nat := bits (recField h 0x28 8) 0 42
def hdrWidths (h : List Byte) : List Nat := (List.range 6).map fun k => bits (hdrShape h) (6 * k) 6
def hdrExts (h : List Byte) : List Nat := (List.range 6).map fun k => recField h (0x40 + 4 * k) 4 + 1
def hdrTeamLv (h : List Byte) : Nat := bits (hdrShape h) 36 3
def hdrClusterLv (h : List Byte) : Nat := bits (hdrShape h) 39 3
def hdrPin (h : List Byte) : Nat := recField h 0x34 1
def hdrAcc (h : List Byte) : Nat := recField h 0x35 1
def hdrWbuf (h : List Byte) : Nat := bits (recField h 0x34 4) 16 7
def hdrSpad (h : List Byte) : Nat := recField h 0x30 4
def hdrAge (h : List Byte) : Nat := bits (recField h 0x28 8) 45 13
def hdrRmode (h : List Byte) : Nat := bits (recField h 0x28 8) 42 3
/-- TRAPOFF, zero in a record of version 1.0 (R352, R435). -/
def hdrTrap (h : List Byte) : Nat := if recField h 0 2 = 0 then 0 else recField h 0x58 4
def hdrSize (h : List Byte) : Nat := ((hdrExts h).take (hdrTeamLv h)).foldl (· * ·) 1
def hdrTeams (h : List Byte) : Nat := ((hdrExts h).drop (hdrTeamLv h)).foldl (· * ·) 1
def hdrGroups (h : List Byte) : Nat := ((hdrExts h).drop (hdrClusterLv h)).foldl (· * ·) 1

/-- Reserved fields that a reader of version 1.1 knows are zero; in a newer record it ignores them (R352). (Log 36, DEDUCED.) -/
def hdrReserved (h : List Byte) : Bool :=
  decide (recField h 0 2 ≤ 1) &&
  (bits (recField h 0x28 8) 58 6 != 0 || bits (recField h 0x34 4) 23 9 != 0 || recField h 0x3C 4 != 0 || (h.drop 0x5C).any (· != 0))

/-- A header that breaks its rules. -/
def hdrBad (h : List Byte) : Bool :=
  let ws := hdrWidths h
  hdrReserved h || (recField h 4 4).testBit 0 || recField h 8 8 % 0x1000 != 0 || (hdrTrap h).testBit 0 ||
  ws.any (fun w => decide (32 < w)) || decide (64 < ws.foldl (· + ·) 0) || (ws.zip (hdrExts h)).any (fun x => decide (2 ^ x.1 < x.2)) ||
  decide (hdrClusterLv h < hdrTeamLv h) || decide (6 < hdrClusterLv h) || decide (1024 < hdrSize h) || decide (2 ^ 24 < hdrGroups h) ||
  hdrSpad h % 0x1000 != 0 || decide (0x40000 < hdrSpad h) || decide (hdrAge h < 8) || decide (4096 < hdrAge h) ||
  decide (128 < hdrPin h) || decide (128 < hdrAcc h) || decide (64 < hdrWbuf h)

/-- Bytes that the hub reads under an ASID, or the cause of a refusal. (Log 37, DEDUCED.) -/
def State.hubRead (s : State) (asid : Nat) (a : DWord) (n : Nat) : Except Fail (State × List Byte) :=
  match s.range hubWho asid a (a.toNat % 2 ^ 57) n { sup := true } [] with
  | .error f => .error f
  | .ok ps =>
    if ps.any fun p => s.cutOff p.loc then .error (cutFail a false)
    else if (s.committed.poisonIn ps).isSome then .error { cause := 0x60 }
    else .ok (ps.foldl (fun s p => s.orPte p.tlb.addr true false) s, s.committed.homePieces ps)

/-- The checks before a record's first team is admitted (R332, R333, R414): its cause, or the launch. -/
def State.checkRecord (s : State) (k q asid : Nat) (store : Bool) (addr : DWord) (hdr : Option (List Byte)) : Except Fail (State × Launch) :=
  let first : Except Fail (State × List Byte) :=
    match hdr with
    | some h => .ok (s, h)
    | none => if addr.toNat % 128 != 0 then .error { cause := 0x01 } else s.hubRead asid addr 128
  match first with
  | .error f => .error f
  | .ok (s, h) =>
    if recField h 2 2 != 1 then .error { cause := 0x70 }
    else if hdrBad h then .error { cause := 0x01 }
    else
      match s.hubRead asid (BitVec.ofNat 64 (recField h 0x18 8)) (hdrGroups h) with
      | .error f => .error f
      | .ok (s, place) =>
        if place.any fun b => decide (9 < b.toNat) then .error { cause := 0x01 }
        else
          let regs := BitVec.ofNat 64 (recField h 0x10 8)
          let image : Except Fail (State × List Byte) := if regs = 0 then .ok (s, List.replicate 256 0) else s.hubRead asid regs 256
          match image with
          | .error f => .error f
          | .ok (s, image) =>
            .ok (s, { slice := k, queue := q, asid := asid, store := store, addr := addr, hdr := h, regs := image, place := place,
                      teams := hdrTeams h })

/-- What a queue serves next: its oldest pending-launch entry, otherwise the record at HEAD (R335, R336). -/
def State.nextRecord (s : State) (k q : Nat) : Option (Bool × DWord × Option (List Byte)) :=
  match (s.slice k).store.find? fun x => x.1 == q with
  | some x => some (true, x.2.1, some x.2.2)
  | none =>
    let e := s.qEntry k q
    if e.held = 0 then none else some (false, e.base + BitVec.ofNat 64 (128 * (e.head % 2 ^ e.log2)), none)

def dropFirst {α : Type} (f : α → Bool) : List α → List α
  | [] => []
  | x :: r => if f x then r else x :: dropFirst f r

/-- The queue moves past what it served. -/
def State.movePast (s : State) (k q : Nat) (store : Bool) : State :=
  if store then s.updSlice k fun x => { x with store := dropFirst (fun y => y.1 == q) x.store }
  else s.putHomeNat (s.qAddr k q + 0x14) 4 (((s.qEntry k q).head + 1) % 2 ^ 32)

-- Admission (R35 to R38, R438).

/-- Digits of a number in mixed radix, the first field fastest (R37). -/
def mixed : Nat → List Nat → List Nat
  | _, [] => []
  | i, e :: r => i % e :: mixed (i / e) r

/-- The work identifier of field values, R35. -/
def widOf : List (Nat × Nat) → Nat
  | [] => 0
  | (w, f) :: r => f + 2 ^ w * widOf r

def Launch.wid (l : Launch) (n i : Nat) : DWord :=
  let c := hdrTeamLv l.hdr
  let fields := mixed i ((hdrExts l.hdr).take c) ++ mixed n ((hdrExts l.hdr).drop c)
  BitVec.ofNat 64 (widOf ((hdrWidths l.hdr).zip fields))

/-- The cluster to which a team's group is placed (R36, R333). -/
def Launch.clusterOf (l : Launch) (n : Nat) : Nat :=
  let e := hdrExts l.hdr
  let c := hdrTeamLv l.hdr
  let per := ((e.drop c).take (hdrClusterLv l.hdr - c)).foldl (· * ·) 1
  10 * l.slice + (l.place.getD (n / per) 0).toNat

/-- The core that can take the launch's next team (R38, R438). -/
def State.placeTeam (s : State) (l : Launch) : Option Alloc :=
  let cl := l.clusterOf l.next
  let pin := hdrPin l.hdr
  if pin != 0 && decide (128 < (s.pinnedTiles cl).length + pin) then none
  else (coresOf cl).findSome? fun k => s.fit k l.asid (hdrSize l.hdr) (hdrSpad l.hdr / 0x1000) (hdrAcc l.hdr) (hdrWbuf l.hdr)

def Launch.codebase (l : Launch) : DWord := BitVec.ofNat 64 (recField l.hdr 8 8) &&& csrMask cCODEBASE

/-- The team as it is admitted: registers from the image, CSRs from the header (R332, R435, R69 to R73). -/
def Launch.team (l : Launch) (id : Nat) (a : Alloc) : Team :=
  let regs := (List.range 32).foldl (fun (m : Map Word) n => mputD 0 n (BitVec.ofNat 32 (recField l.regs (0x80 + 4 * n) 4)) m) []
  let adrs := (List.range 16).foldl (fun (m : Map DWord) n => mputD 0 n (BitVec.ofNat 64 (recField l.regs (8 * n) 8)) m) []
  let trap : DWord := if hdrTrap l.hdr = 0 then 0 else (l.codebase + BitVec.ofNat 64 (hdrTrap l.hdr)) &&& csrMask cTRAPV
  let t : Team := { core := a.core, slot := a.slot, asid := l.asid, slice := l.slice, queue := l.queue, launch := id, num := l.next,
                    size := hdrSize l.hdr, ext := hdrExts l.hdr, s := regs, a := adrs, spad0 := a.spad0, spadN := hdrSpad l.hdr / 0x1000,
                    acc0 := a.acc0, accN := hdrAcc l.hdr, wb0 := a.wb0, wbN := hdrWbuf l.hdr, waitPin := hdrPin l.hdr }
  let t := (((t.setCsr cRMODE (BitVec.ofNat 64 (hdrRmode l.hdr))).setCsr cAGELIM (BitVec.ofNat 64 (hdrAge l.hdr))).setCsr cCODEBASE l.codebase)
  (((t.setCsr cWIDSHAPE (BitVec.ofNat 64 (hdrShape l.hdr))).setCsr cSURRBND 512).setCsr cTRAPV trap).latch

/-- Scratchpad, tag entries, accumulator tiles and weight-buffer regions of a new team read zero (R3, R98, R166). -/
def State.clearFor (s : State) (t : Team) : State :=
  let sk := spadKey t.core (t.spad0 * 0x1000)
  let sn := t.spadN * 0x1000
  let e0 := t.core * 1024 + t.spad0 * 16
  let s : State :=
    { s with
      spad := mclear sk sn s.spad, psnSpad := clearPsn 8 sk sn s.psnSpad
      acc := mclear (accKey t.core t.acc0 0) (t.accN * 0x1000) s.acc, psnAcc := clearPsn 8 (accKey t.core t.acc0 0) (t.accN * 0x1000) s.psnAcc
      accTag := mclear (t.core * 128 + t.acc0) t.accN s.accTag
      wbuf := mclear (wbKey t.core t.wb0 0) (t.wbN * 0x4000) s.wbuf, psnWb := clearPsn 8 (wbKey t.core t.wb0 0) (t.wbN * 0x4000) s.psnWb
      wbTag := mclear (t.core * 64 + t.wb0) t.wbN s.wbTag
      psnTag := s.psnTag.filter fun k => !inRange e0 (t.spadN * 16) k }
  s.updCore t.core fun k => { k with tagTab := mclear (t.spad0 * 16) (t.spadN * 16) k.tagTab }

/-- The threads of a new team, numbered from 0; identities from `id`. -/
def Launch.threads (l : Launch) (team : Nat) (pc : VAddr) (place : Place) (id : Nat) : Map Thread :=
  (List.range (hdrSize l.hdr)).map fun i => (id + i, { team := team, tnum := i, wid := l.wid l.next i, pc := pc, place := place })

/-- Admit the next team of launch `lid` (R38); with pinned tiles its threads wait for the grant (R438). -/
def State.enrol (s : State) (lid : Nat) (l : Launch) (a : Alloc) : State :=
  let id := s.fresh
  let t := l.team lid a
  let n := hdrSize l.hdr
  let pc : VAddr := l.codebase.setWidth 57 + BitVec.ofNat 57 (recField l.hdr 4 4)
  let pin := hdrPin l.hdr
  let ths := l.threads id pc .waiting (id + 1)
  let s := s.clearFor t
  let s : State :=
    { s with
      fresh := id + 1 + n
      teams := mput id t s.teams
      threads := ths.foldl (fun m x => mput x.1 x.2 m) s.threads
      launches := mput lid { l with next := l.next + 1 } s.launches }
  if pin = 0 then s.fileAll a.core pc (ths.map (·.1))
  else s.updCluster (Config.clusterOf a.core) fun k =>
    { k with reqs := addReq { team := some id, pinned := true, count := pin, blk := { space := .glob, a := 0 }, at_ := s.now, core := a.core } k.reqs }

-- The draw (R335, R336).

def State.setDraw (s : State) (k : Nat) (set : Option (List (Nat × Nat))) (may : Bool) : State :=
  s.updSlice k fun x => { x with draw := set, winner := none, mayDraw := may }

/-- The winner leaves the set of this draw, which ends when none is left. -/
def State.leaveSet (s : State) (k q : Nat) : State :=
  let set := ((s.slice k).draw.getD []).filter fun x => x.1 != q
  if set.isEmpty then s.setDraw k none false else s.setDraw k (some set) (s.slice k).mayDraw

/-- Serve the queue drawn: its next team is admitted, or its record refused, or it leaves the set; what no link reaches of its record is waited
for (R415). (Log 34, DEDUCED.) -/
def State.serve (s : State) (k q : Nat) : Out :=
  match s.nextRecord k q with
  | none => .next (s.leaveSet k q)
  | some (store, addr, hdr) =>
    let admitIt (s : State) (lid : Nat) (l : Launch) : Out :=
      match s.placeTeam l with
      | none => .next (s.leaveSet k q)
      | some a =>
        let s1 := s.enrol lid l a
        let s2 := if l.next + 1 = l.teams then s1.movePast k q store else s1
        .next (s2.setDraw k none true)
    match s.launches.find? fun x => x.2.slice == k && x.2.queue == q && x.2.store == store && decide (x.2.next < x.2.teams) with
    | some (lid, l) => admitIt s lid l
    | none =>
      match s.checkRecord k q (s.qEntry k q).asid store addr hdr with
      | .ok (s, l) => admitIt ({ s with fresh := s.fresh + 1 }.linkDone (.draw k)) s.fresh l
      | .error f =>
        let s := s.updSlice k fun x => { x with winner := some q }
        match (if f.remote then s.linkWait (.draw k) else none) with
        | some o => o
        | none =>
          if !s.roomToPost k then .fault .notDue
          else
            let r : Rec := { kind := 3, cause := f.cause, rem := f.remote, tnum := 0x7FF, addr := addr, lanes := q + if store then 64 else 0 }
            .next (((s.post k r).movePast k q store).linkDone (.draw k))

/-- The scheduler management core runs (R420). (Log 48, DEDUCED.) -/
def State.schedulerRuns (s : State) : Bool := (mget {} 0 s.hub.mcores).running

/-- A draw may start (R335). -/
def State.drawStarts (s : State) (k : Nat) : Option (List (Nat × Nat)) :=
  let el := (queueNums.filter (s.eligible k)).map fun q => (q, s.ticketsOf k q)
  let sl := s.slice k
  if !el.isEmpty && (sl.mayDraw || el.any fun x => !sl.drawn.contains x.1) then some el else none

/-- LOTTERY_DRAW: one iteration of a draw (R335), or the report of an overfilled queue (R417). None
while the queue table lies in host memory and the CXL link is down (R415). -/
def execLotteryDraw (slice : Nat) (s : State) : Out :=
  let sl := s.slice slice
  if !sl.created || !s.schedulerRuns || s.physCut sl.qtable then .fault .notDue
  else
    match queueNums.find? fun q => !sl.overfilled.contains q && (s.qEntry slice q).full with
    | some q =>
      if !s.roomToPost slice then .fault .notDue
      else
        let r : Rec := { kind := 3, cause := 0x71, tnum := 0x7FF, addr := BitVec.ofNat 64 (s.qAddr slice q), lanes := q }
        .next ((s.post slice r).updSlice slice fun x => { x with overfilled := x.overfilled ++ [q] })
    | none =>
      match sl.winner with
      | some q => s.serve slice q
      | none =>
        match (match sl.draw with
          | some l => some (l, sl.drawn)
          | none => (s.drawStarts slice).map fun l => (l, l.map (·.1))) with
        | none => .fault .notDue
        | some (set, drawn) =>
          let x := xorshift sl.x
          let q := pickQueue (x.toNat % totalTickets set) set
          (s.updSlice slice fun y => { y with x := x, draw := some set, drawn := drawn }).serve slice q

end Sys2Proof.Machine
end

