-- ==== Sys2Proof/Machine/Display.lean ====
section
/-!
DEFINITION. Display pipelines and encoders (R162 to R165, R420, R353 bit 4).
-/

namespace Sys2Proof.Machine

def State.disp (s : State) (p : Nat) : Disp := mget {} p s.hub.disp
def State.setDisp (s : State) (p : Nat) (x : Disp) : State := { s with hub := { s.hub with disp := mput p x s.hub.disp } }
def State.enc (s : State) (e : Nat) : Enc := mget {} e s.hub.enc
def State.setEnc (s : State) (e : Nat) (x : Enc) : State := { s with hub := { s.hub with enc := mput e x s.hub.enc } }

def dispReg (p r : Nat) : Nat := 0x2000 + 0x100 * p + r
def encReg (e r : Nat) : Nat := 0x3000 + 0x100 * e + r

/-- The display management core runs (R420). -/
def State.displayRuns (s : State) : Bool := (mget {} 3 s.hub.mcores).running

/-- The registers of a pipeline as they stand. (Log 50, DEDUCED.) -/
def State.frameRegs (s : State) (p : Nat) : Frame :=
  let r (o : Nat) : DWord := s.hreg (dispReg p o)
  { asid := bits (r 0).toNat 16 8, fmt := (r 0).getLsbD 1, rate := bits (r 8).toNat 32 8, height := bits (r 8).toNat 16 16,
    width := bits (r 8).toNat 0 16, surf := r 0x10, pitch := bits (r 0x18).toNat 0 32, sigt := r 0x20, fence := r 0x30 }

def tilesAcross (w : Nat) : Nat := (w + 31) / 32

/-- Values latched, each taken where it is in its range and otherwise kept (R163). -/
def Frame.take (asids : List Nat) (old new : Frame) : Frame :=
  let ok (b : Bool) (x y : Nat) : Nat := if b then x else y
  let width := ok (decide (32 ≤ new.width) && decide (new.width ≤ 3840) && new.width % 2 == 0) new.width old.width
  { asid := ok (asids.contains new.asid) new.asid old.asid
    fmt := new.fmt
    rate := ok (decide (24 ≤ new.rate) && decide (new.rate ≤ 120)) new.rate old.rate
    height := ok (decide (32 ≤ new.height) && decide (new.height ≤ 2160) && new.height % 2 == 0) new.height old.height
    width := width
    surf := if new.surf.toNat % 128 = 0 then new.surf else old.surf
    pitch := ok (new.pitch % 128 == 0 && decide (128 * tilesAcross width ≤ new.pitch)) new.pitch old.pitch
    sigt := if new.sigt.toNat % 16 = 0 then new.sigt else old.sigt
    fence := new.fence }

/-- A write of FLIP (R163). -/
def State.flipNow (s : State) (p : Nat) : State := s.setDisp p { s.disp p with pend := some (s.frameRegs p) }

/-- FLIP: not received while the host link is down (R415). -/
def execFlip (pipeline : Nat) (s : State) : Out :=
  if 8 ≤ pipeline then .fault .notDue else .next (if s.hub.cxlUp then s.flipNow pipeline else s)

/-- KEYREQ (R164). -/
def State.keyNow (s : State) (e : Nat) : State := s.setEnc e { s.enc e with key := true }

def execKeyreq (encoder : Nat) (s : State) : Out :=
  if 16 ≤ encoder then .fault .notDue else .next (if s.hub.cxlUp then s.keyNow encoder else s)

/-- The pieces of bytes that the hub accesses by address under an ASID; none where they do not translate. -/
def State.hubSpan (s : State) (asid : Nat) (a : DWord) (o n : Nat) (write : Bool) : List Piece :=
  match s.range hubWho asid a ((a.toNat + o) % 2 ^ 57) n { write := write, sup := true } [] with
  | .error _ => []
  | .ok ps => ps

/-- No link reaches some of them; a store has locked some (R193), which the hub waits for. -/
def State.anyCut (s : State) (ps : List Piece) : Bool := ps.any fun p => s.cutOff p.loc
def State.anyLocked (s : State) (ps : List Piece) : Bool := ps.any fun p => s.lockedAt p.loc

/-- A place that the hub reaches under an ASID; none where it does not translate, or no link leads there. -/
def State.hubAt (s : State) (asid : Nat) (a : DWord) (o al : Nat) (write : Bool) (noMt : List Nat) : Option GAcc :=
  match s.global hubWho asid a (a.setWidth 57 + BitVec.ofNat 57 o) al { write := write, sup := true } noMt with
  | .ok g => if s.cutOff g.loc then none else some g
  | .error _ => none

/-- Write bytes by address under an ASID, page by page; none where a page does not take them. -/
def State.hubWrite (s : State) (asid : Nat) (a : DWord) (o : Nat) (bs : List Byte) : Option State :=
  match s.range hubWho asid a ((a.toNat + o) % 2 ^ 57) bs.length { write := true, sup := true } [] with
  | .error _ => none
  | .ok ps =>
    if ps.any fun p => s.cutOff p.loc then none
    else
      let s1 := ps.foldl (fun s p => s.orPte p.tlb.addr true true) s
      some (ps.foldl (fun (x : State × List Byte) p => (x.1.storeHome 0 (match p.loc with
        | .mem pa _ => hubLoc pa
        | l => l) (x.2.take p.n), x.2.drop p.n)) (s1, bs)).1

/-- A 32-bit word at its home. -/
def State.homeWord (s : State) (l : Loc) (o : Nat) : Nat := leNat ((s.readHome l (o + 4)).drop o)

/-- One tile's entry at a boundary, in one step at its home (R165): whether the tile is unchanged; UNCH is set where V is. An entry that cannot
be translated or reached leaves its tile changed, and the bits of a poisoned one are used as if sound: the spec gives no other answer (log 74,
DESIGN CHOICE). -/
def State.takeTile (s : State) (f : Frame) (k : Nat) : State × Bool :=
  match s.hubAt f.asid f.sigt (16 * k) 16 true [] with
  | none => (s, false)
  | some g =>
    let w := s.homeWord g.loc 8
    if w.testBit 0 then
      (match g.loc with
        | .mem pa _ => (s.orPte g.tlb.addr true true).putHome (pa + 8) (natLe 4 (w ||| 2))
        | _ => s, w.testBit 1)
    else (s, false)

def State.takeTiles (s : State) (f : Frame) : List Nat → State × List Bool
  | [] => (s, [])
  | k :: r =>
    let x := s.takeTile f k
    let y := x.1.takeTiles f r
    (y.1, x.2 :: y.2)

def Frame.tiles (f : Frame) : Nat := tilesAcross f.width * tilesAcross f.height

/-- The entries of a frame's tiles. -/
def State.entrySpan (s : State) (f : Frame) : List Piece := (List.range f.tiles).flatMap fun k => s.hubSpan f.asid f.sigt (16 * k) 16 true

/-- The registers of an encoder, by offset. -/
def State.encRegs (s : State) (e : Nat) : Map DWord := [0, 8, 0x10, 0x18, 0x20, 0x28].map fun o => (o, s.hreg (encReg e o))

/-- A frame is handed to an enabled encoder (R164, R165), as a key frame where that was asked for since the last one. -/
def State.handOver (s : State) (unch : List Bool) (e : Nat) : State :=
  if (s.hreg (encReg e 0)).getLsbD 0 then 
    s.setEnc e { s.enc e with todo := some (s.encRegs e, unch, (s.enc e).key), key := false }
  else s

/-- Cycles from one frame to the next at 800 MHz (R2). -/
def Frame.period (f : Frame) : Nat := 800000000 / f.rate

/-- FRAME_BOUNDARY: values latched by FLIP are taken, tiles are judged and the frame goes to both encoders (R165). Encoders keep up
with a pipeline (R164), so the last frame has been coded and its FENCE reached. A pipeline that is enabled before any FLIP hands over frames of
no pixels, at the RATE of reset: R163 gives WIDTH and HEIGHT that reset value, and the spec does not say what such a pipeline does (log 75,
DESIGN CHOICE). Entries that no link reaches are waited for (R415). -/
def execFrameBoundary (pipeline : Nat) (s : State) : Out :=
  let d := s.disp pipeline
  if 8 ≤ pipeline || !(s.hreg (dispReg pipeline 0)).getLsbD 0 || !s.displayRuns || d.fence.isSome ||
      (s.enc (2 * pipeline)).todo.isSome || (s.enc (2 * pipeline + 1)).todo.isSome then .fault .notDue
  else
    let f := match d.pend with
      | some x => d.cur.take (s.slice pipeline).asids x
      | none => d.cur
    let s := s.advance (d.at_ + d.cur.period)
    let es := s.entrySpan f
    if s.anyLocked es then .fault .notDue
    else
      let x := s.takeTiles f (List.range f.tiles)
      let t := x.1.setDisp pipeline
        { cur := f, pend := none, frames := d.frames + 1, at_ := (mfind (Waiter.frame pipeline).key s.waits).getD s.now
          fence := if d.pend.isSome && f.fence != 0 then some f.fence else none }
      s.orWait (.frame pipeline) (s.anyCut es) ((t.handOver x.2 (2 * pipeline)).handOver x.2 (2 * pipeline + 1))

/-- FENCE_ARRIVAL: every read of a frame latched by FLIP has been performed (R165). An object that cannot be reached gets none,
one that no link reaches once it has been waited for (R415). -/
def execFenceArrival (pipeline : Nat) (s : State) : Out :=
  let d := s.disp pipeline
  match d.fence with
  | none => .fault .notDue
  | some a =>
    if (s.enc (2 * pipeline)).todo.isSome || (s.enc (2 * pipeline + 1)).todo.isSome then .fault .notDue
    else
      let t := s.setDisp pipeline { d with fence := none }
      s.orWait (.fence pipeline) (s.anyCut (s.hubSpan d.cur.asid a 0 16 true)) (match t.hubAt d.cur.asid a 0 16 true noBarMt with
        | some g => (t.orPte g.tlb.addr true true).barUpdate 0 (hubLoc g.loc.pa) BarObj.arrive
        | none => t)

def encAt (regs : Map DWord) (o : Nat) : DWord := mget 0 o regs

/-- Bytes written to a ring of 2^log2 bytes from a place on, wrapping to its start. -/
def State.ringWrite (s : State) (asid : Nat) (base : DWord) (log2 at_ : Nat) (bs : List Byte) : Option State :=
  let n := 2 ^ log2 - at_ % 2 ^ log2
  match s.hubWrite asid base (at_ % 2 ^ log2) (bs.take n) with
  | none => none
  | some s1 => if bs.length ≤ n then some s1 else s1.hubWrite asid base 0 (bs.drop n)

-- What an encoder codes.

/-- R, G and B of a pixel as fractions of `rgbOne`, R163. -/
def rgbOne : Nat := 255 * 1023
def pixelRgb (ten : Bool) (w : Nat) : Nat × Nat × Nat :=
  if ten then (bits w 0 10 * 255, bits w 10 10 * 255, bits w 20 10 * 255) else (bits w 0 8 * 1023, bits w 8 8 * 1023, bits w 16 8 * 1023)

/-- Luma of a pixel by the BT.709 matrix, in units of a ten-thousandth of `rgbOne`. -/
def luma709 (p : Nat × Nat × Nat) : Nat := 2126 * p.1 + 7152 * p.2.1 + 722 * p.2.2

/-- Quotient to the nearest integer. -/
def nearest (x : Int) (d : Nat) : Int := (2 * x + d) / (2 * d)

/-- Ten-bit luma in limited range; blue and red difference of four pixels (R164). The rounding and the average are the model's (log 50). -/
def luma10 (p : Nat × Nat × Nat) : Nat := (64 + nearest (876 * luma709 p) (10000 * rgbOne)).toNat
def chroma10 (den : Nat) (pick : Nat × Nat × Nat → Nat) (ps : List (Nat × Nat × Nat)) : Nat :=
  (512 + nearest (896 * (ps.map fun p => (10000 * pick p : Int) - luma709 p).sum) (den * ps.length * rgbOne)).toNat

/-- The samples of a 32 × 32 block of `w` by `h` pixels shown: luma by row, then blue and red difference of each square of four. -/
def blockSamples (ten : Bool) (w h : Nat) (rows : List (List Byte)) : List Nat :=
  let px (x y : Nat) : Nat × Nat × Nat := pixelRgb ten (leNat (((rows.getD y []).drop (4 * x)).take 4))
  let quad (x y : Nat) : List (Nat × Nat × Nat) := [px (2 * x) (2 * y), px (2 * x + 1) (2 * y), px (2 * x) (2 * y + 1), px (2 * x + 1) (2 * y + 1)]
  ((List.range h).flatMap fun y => (List.range w).map fun x => luma10 (px x y)) ++
  ((List.range (h / 2)).flatMap fun y => (List.range (w / 2)).flatMap fun x =>
    [chroma10 18556 (·.2.2) (quad x y), chroma10 15748 (·.1) (quad x y)])

/-- One line of a tile read from the surface (R165); what cannot be read is free. -/
def State.tileLine (s : State) (f : Frame) (a : Nat) : State × List Byte :=
  match s.hubRead f.asid (BitVec.ofNat 64 (a % 2 ^ 57)) 128 with
  | .ok x => x
  | .error _ => (s.drew 128, s.freeBytes 128)

def State.tileLines (s : State) (f : Frame) : List Nat → State × List (List Byte)
  | [] => (s, [])
  | a :: r =>
    let x := s.tileLine f a
    let y := x.1.tileLines f r
    (y.1, x.2 :: y.2)

/-- Addresses of the lines of a tile in the surface (R163). -/
def Frame.lines (f : Frame) (k : Nat) : List Nat :=
  (List.range 32).map fun y => f.surf.toNat + (32 * (k / tilesAcross f.width) + y) * f.pitch + 128 * (k % tilesAcross f.width)

/-- A block as it is coded (R162): skipped, or in full, its tile then read from the surface. -/
def State.codeBlock (s : State) (codec : Config.Codec) (f : Frame) (k : Nat) (skip : Bool) : State × Config.BlockCode :=
  if skip then (s, codec.skip)
  else
    let row := k / tilesAcross f.width
    let col := k % tilesAcross f.width
    let x := s.tileLines f (f.lines k)
    (x.1, .full (blockSamples f.fmt (Nat.min 32 (f.width - 32 * col)) (Nat.min 32 (f.height - 32 * row)) x.2))

/-- Blocks by number, those to skip in `skips`. -/
def State.codeBlocks (s : State) (codec : Config.Codec) (f : Frame) (skips : List Bool) : List Nat → State × List Config.BlockCode
  | [] => (s, [])
  | k :: r =>
    let x := s.codeBlock codec f k (skips.getD k false)
    let y := x.1.codeBlocks codec f skips r
    (y.1, x.2 :: y.2)

/-- The blocks of a frame in the order of the coding tree blocks or superblocks that hold them. -/
def Frame.codeOrder (f : Frame) (codec : Config.Codec) : List Nat :=
  let n := codec.blockSize / 32
  let w := tilesAcross f.width
  let h := tilesAcross f.height
  (List.range ((h + n - 1) / n)).flatMap fun r => (List.range ((w + n - 1) / n)).flatMap fun c =>
    (List.range (n * n)).filterMap fun k =>
      if n * r + k / n < h && n * c + k % n < w then some ((n * r + k / n) * w + (n * c + k % n)) else none

/-- Bytes with no start code in them: 3 is put before a byte below 4 that follows two zeros. -/
def noStartCode : Nat → List Byte → List Byte
  | _, [] => []
  | z, b :: r =>
    if z = 2 && decide (b.toNat < 4) then 3 :: b :: noStartCode (if b = 0 then 1 else 0) r
    else b :: noStartCode (if b = 0 then z + 1 else 0) r

/-- HEVC: byte-stream NAL units, each behind a start code (R164; log 69, PRESUMED). -/
def annexB (us : List (List Byte)) : List Byte := us.flatMap fun u => [0, 0, 0, 1] ++ noStartCode 0 u

def leb128 : Nat → Nat → List Byte
  | 0, n => [BitVec.ofNat 8 (n % 128)]
  | k + 1, n => if n < 128 then [BitVec.ofNat 8 n] else BitVec.ofNat 8 (n % 128 + 128) :: leb128 k (n / 128)

/-- One OBU: a header byte, the extension byte that it announces, its size and its bytes (log 69, PRESUMED). -/
def obu (u : List Byte) : List Byte :=
  let n := if (u.headD 0).getLsbD 2 then 2 else 1
  [(u.headD 0 &&& 0x7C) ||| 2] ++ (if n = 2 then [u.getD 1 0] else []) ++ leb128 8 (u.drop n).length ++ u.drop n

/-- It is a temporal delimiter. -/
def isDelimiter (u : List Byte) : Bool := u.headD 0 &&& 0x78 == 0x10

/-- AV1: one temporal unit in the low-overhead format: a temporal delimiter, then other OBUs (R164; log 69, PRESUMED). -/
def temporalUnit (us : List (List Byte)) : List Byte := [0x12, 0] ++ (us.filter fun u => !isDelimiter u).flatMap obu

/-- RC, with the reserved 3 as 0 (R164). -/
def rateControl (w : DWord) : Nat := if bits w.toNat 2 2 = 3 then 0 else bits w.toNat 2 2

/-- CODEC (R164). -/
def codecOf (regs : Map DWord) : Config.Codec := if (encAt regs 0).getLsbD 1 then .av1Main10 else .hevcMain10

/-- The bitstream of a frame from the blocks coded: which of the many that code them, the spec leaves to the encoder. -/
def bitstream (regs : Map DWord) (f : Frame) (free : Nat) (key : Bool) (blocks : List Config.BlockCode) : List Byte :=
  let r0 := encAt regs 0
  let r8 := (encAt regs 8).toNat
  let us := Config.coded free
    { codec := codecOf regs, qp := bits r0.toNat 8 8, rc := rateControl r0, target := bits r8 0 32, peak := bits r8 32 32, rate := f.rate,
      width := f.width, height := f.height, key := key } blocks
  match codecOf regs with
  | .hevcMain10 => annexB us
  | .av1Main10 => temporalUnit us

/-- A coded frame in the ring (R164): a header, its bitstream, padding. -/
def codedFrame (frame : Nat) (key : Bool) (stream : List Byte) : List Byte :=
  let pad := (16 - stream.length % 16) % 16
  natLe 4 stream.length ++ natLe 4 frame ++ natLe 8 (if key then 1 else 0) ++ stream ++ List.replicate pad 0

/-- Place a frame in the output ring; none where there is no room for it, or the ring cannot be reached. An OBASE that is not 4 KiB aligned
is used as it stands, and with an OCTL that is not 8-byte aligned no frame is placed: R164 gives the alignments and no check of them (log 73,
DESIGN CHOICE). -/
def State.placeFrame (s : State) (asid : Nat) (regs : Map DWord) (bs : List Byte) : Option State :=
  let log2 := bits (encAt regs 0x20).toNat 0 5
  match s.hubAt asid (encAt regs 0x28) 0 8 true [] with
  | none => none
  | some g =>
    let head := s.homeWord g.loc 0
    let tail := s.homeWord g.loc 4
    if log2 < 16 || 28 < log2 || decide ((head + 2 ^ log2 + 2 ^ 32 - tail) % 2 ^ 32 < bs.length) then none
    else match s.ringWrite asid (encAt regs 0x18) log2 tail bs with
      | none => none
      | some s1 => s1.hubWrite asid (encAt regs 0x28) 4 (natLe 4 ((tail + bs.length) % 2 ^ 32))

/-- What the placing of `n` bytes in the output ring accesses: OCTL, then the ring from TAIL on. -/
def State.outSpan (s : State) (asid : Nat) (regs : Map DWord) (n : Nat) : List Piece :=
  let ctl := s.hubSpan asid (encAt regs 0x28) 0 8 true
  match s.hubAt asid (encAt regs 0x28) 0 8 true [] with
  | none => ctl
  | some g =>
    let size := 2 ^ bits (encAt regs 0x20).toNat 0 5
    let at_ := s.homeWord g.loc 4 % size
    ctl ++ s.hubSpan asid (encAt regs 0x18) at_ (Nat.min n (size - at_)) true ++
      if size - at_ < n then s.hubSpan asid (encAt regs 0x18) 0 (n - (size - at_)) true else []

/-- A frame as its encoder codes it: whether it is a key frame, the blocks coded as skipped, its bytes in the ring, what placing them accesses
and what coding reads of the surface, and the state after that reading. -/
structure Coding where
  key   : Bool
  skip  : List Bool
  bytes : List Byte
  out   : List Piece
  src   : List Piece
  after : State

/-- The frame handed over, as its encoder codes it. A block taken as unchanged is coded as skipped whatever the frame (R162), where the driver has
accepted that (R353). -/
def State.coding (s : State) (encoder : Nat) (e : Enc) (todo : Map DWord × List Bool × Bool) : Coding :=
  let (regs, unch, asked) := todo
  let keyint := bits (encAt regs 0x10).toNat 0 16
  let key := asked || (keyint != 0 && decide (keyint ≤ e.since))
  let f := (s.disp (encoder / 2)).cur
  let skip := if s.feature 4 then unch else unch.map fun _ => false
  let order := f.codeOrder (codecOf regs)
  let x := s.codeBlocks (codecOf regs) f skip order
  let bs := codedFrame e.frame key (bitstream regs f x.1.free key x.2)
  let lines := (order.filter fun k => !skip.getD k false).flatMap f.lines
  { key := key, skip := skip, bytes := bs, out := s.outSpan f.asid regs bs.length
    src := lines.flatMap fun a => s.hubSpan f.asid (BitVec.ofNat 64 (a % 2 ^ 57)) 0 128 false
    after := x.1.drew 1 }

/-- ENCODER_FRAME: the frame handed over is coded, or discarded for want of room, the next one then being a key frame (R162, R164). A surface,
OCTL or ring that no link reaches is waited for (R415). -/
def execEncoderFrame (encoder : Nat) (s : State) : Out :=
  let e := s.enc encoder
  match e.todo with
  | none => .fault .notDue
  | some x =>
    if !s.displayRuns then .fault .notDue
    else
      let k := s.coding encoder e x
      if s.anyLocked k.out then .fault .notDue
      else
        s.orWait (.encoder encoder) (s.anyCut (k.out ++ k.src)) (match k.after.placeFrame (s.disp (encoder / 2)).cur.asid x.1 k.bytes with
          | none => k.after.setEnc encoder { e with frame := e.frame + 1, key := true, todo := none, skipped := [] }
          | some t =>
            t.setEnc encoder { e with frame := e.frame + 1, since := if k.key then 1 else e.since + 1, todo := none, skipped := k.skip })

end Sys2Proof.Machine
end

