-- ==== Sys2Proof/Machine/Fabric.lean ====
section
/-!
DEFINITION. Links and memory from outside: notices (R414), HokuLink ports (R348 to R350, R416), the host link (R339, R415), accesses
from other packages (R345), and soft errors (R391, R394, R395).
-/

namespace Sys2Proof.Machine

/-- A record for every slice. (Log 45, DEDUCED.) -/
def State.postAll (s : State) (r : Rec) : State := (List.range Config.slices).foldl (fun s k => s.post k r) s

def notice (cause : Nat) (addr : DWord) : Rec := { kind := 4, cause := cause, tnum := 0x7FF, addr := addr }

def State.port (s : State) (k : Nat) : Port := mget {} k s.hub.ports
def State.setPort (s : State) (k : Nat) (x : Port) : State := { s with hub := { s.hub with ports := mput k x s.hub.ports } }
def portLimit : Nat := 18

/-- One millisecond, R2. -/
def msec : Nat := 800000

def recent (now : Nat) : Option Nat → Bool
  | some t => decide (now < t + msec)
  | none => false

/-- A notice 0x73 or 0x72 for one port: at most one of each a millisecond, later ones counted (R414). -/
def State.note73 (s : State) (k : Nat) (restored : Bool) : State :=
  let p := s.port k
  if recent s.now p.note73 then s.setPort k { p with counted := p.counted + 1 }
  else (s.setPort k { p with note73 := some s.now }).postAll (notice 0x73 (BitVec.ofNat 64 (k + if restored then 0x100 else 0)))

/-- The class-0 bound is lost (R416); no notice where the driver has not accepted the bounds (R353). -/
def State.note72 (s : State) (k : Nat) : State :=
  let p := s.port k
  let s := s.setPort k { p with bound0 := true }
  if p.bound0 || !s.feature 7 then s
  else if recent s.now p.note72 then s.setPort k { s.port k with counted := p.counted + 1 }
  else (s.setPort k { s.port k with note72 := some s.now }).postAll (notice 0x72 (BitVec.ofNat 64 k))

/-- Replays of one flit that take a port down. -/
def replayLimit : Nat := 8

/-- FLIT_REPLAY: a flit fails its check and is replayed (R416). Whether it is the flit of the last replay or a later one, that one having got
through, and whether the replays take class 0 beyond its share of the port, is traffic, and open; after the 8th of one flit only a later flit
is replayed. (Log 46, DESIGN CHOICE.) -/
def execFlitReplay (port : Nat) (s : State) : Out :=
  let p := s.port port
  if portLimit ≤ port || !p.up then .fault .notDue
  else
    let beyond := Config.freeNat s.free % 2 = 1
    let same := p.replays < replayLimit ∧ Config.freeNat (s.free + 1) % 2 = 1
    let s := (s.drew 2).setPort port { p with replays := (if same then p.replays else 0) + 1 }
    .next (if beyond then s.note72 port else s)

/-- PORT_DOWN: 8 replays have failed (R416). -/
def execPortDown (port : Nat) (s : State) : Out :=
  let p := s.port port
  if portLimit ≤ port || !p.up || decide (p.replays < replayLimit) then .fault .notDue
  else
    let s := s.setPort port { p with up := false, failed := false, downAt := s.now, replays := 0 }
    .next ((s.note73 port false).note72 port)

/-- A port returns to service: what waited for a path is delivered, and it has been down within the last millisecond (R416). -/
def State.portUp (s : State) (k : Nat) (hardpan : Bool) : State :=
  let s := s.setPort k { s.port k with up := true, failed := false, downAt := s.now, replays := 0, hardpan := hardpan }
  (((s.note73 k true).note72 k).flushPosted).flushContribs

/-- The firmware has trained a port: it is in service, with what its peer advertises, or it has failed (R341, R345, R350, R416). -/
def State.portTrained (s : State) (k : Nat) (ok hardpan : Bool) : State :=
  let p := s.port k
  if ok then (if p.up then s.setPort k { p with hardpan := hardpan } else s.portUp k hardpan)
  else
    let s1 := s.setPort k { p with up := false, failed := true, downAt := s.now, replays := 0 }
    if p.up then (s1.note73 k false).note72 k else s1

/-- Time in which a port may retrain by itself: 10 ms. -/
def retrainTime : Nat := 8000000

/-- PORT_RETRAINED (R416, R350). -/
def execPortRetrained (port : Nat) (hardpan : Bool) (s : State) : Out :=
  let p := s.port port
  if portLimit ≤ port || p.up || p.failed || decide (p.downAt + retrainTime < s.now) then .fault .notDue
  else .next (s.portUp port hardpan)

/-- PORT_RETRAIN_EXPIRY: the port stays down until the driver retrains it (R416). -/
def execPortRetrainExpiry (port : Nat) (s : State) : Out :=
  let p := s.port port
  if portLimit ≤ port || p.up || p.failed then .fault .notDue
  else
    let s := s.advance (p.downAt + retrainTime)
    .next (s.setPort port { p with failed := true })

/-- CLASS0_BOUND_RESTORED: the port has been up for a millisecond (R416). -/
def execClass0BoundRestored (port : Nat) (s : State) : Out :=
  let p := s.port port
  if portLimit ≤ port || !p.up || !p.bound0 then .fault .notDue
  else
    let s := s.advance (p.downAt + msec)
    .next (s.setPort port { p with bound0 := false })

-- The host link.

/-- CXL_LINK_DOWN (R415, R414). -/
def execCxlLinkDown (s : State) : Out :=
  if !s.hub.cxlUp then .fault .notDue
  else
    let s1 : State := { s with hub := { s.hub with cxlUp := false, cxlDownAt := s.now } }
    .next (s1.postAll (notice 0x74 0))

/-- CXL_LINK_RETRAINED (R415, R350). -/
def execCxlLinkRetrained (hardpan : Bool) (s : State) : Out :=
  if s.hub.cxlUp then .fault .notDue
  else
    let s1 : State := { s with hub := { s.hub with cxlUp := true, cxlHardpan := hardpan } }
    .next (s1.postAll (notice 0x74 1)).flushPosted

/-- CXL_FLIT_RETRY: link-layer retry, without effect on programs (R415). -/
def execCxlFlitRetry (s : State) : Out :=
  if !s.hub.cxlUp then .fault .notDue else .next { s with hub := { s.hub with cxlErrors := s.hub.cxlErrors + 1 } }

/-- What a host read returns: bytes, and whether they are marked poisoned (R415). -/
def State.hostRead (s : State) (pa n : Nat) : List Byte × Bool := (s.homeBytes pa n, hasPsn 32 pa n s.psnMem)

/-- CXL_MEM_READ: a coherent read changes nothing but what its reader has seen (R339, R415, R189). -/
def execCxlMemRead (pa n : Nat) (s : State) : Out :=
  if !s.hub.cxlUp || decide (remoteBase < pa + n) then .fault .notDue else .next (s.noted pa n)

/-- Queues whose TICKETS a write covers are resumed (R417). -/
def State.ticketsWritten (s : State) (pa n : Nat) : State :=
  let hit (sl : Slice) (q : Nat) : Bool := decide (pa < sl.qtable + 32 * q + 0xF) && decide (sl.qtable + 32 * q + 0xD < pa + n)
  { s with slices := mmap (fun _ sl => { sl with overfilled := sl.overfilled.filter fun q => !hit sl q }) s.slices }

/-- CXL_MEM_WRITE: a host write, coherent with every die (R339). It is performed at any physical address, as the hub's own accesses are, be
it past the 1,152 GB and not in host memory: the spec says nothing of such an address, and the choice is the model's (log 59, DESIGN
CHOICE). -/
def execCxlMemWrite (pa : Nat) (bytes : List Byte) (s : State) : Out :=
  if !s.hub.cxlUp || decide (remoteBase < pa + bytes.length) then .fault .notDue
  else .next ((s.putAll s.hub.seen pa bytes).ticketsWritten pa bytes.length).markBars

/-- REMOTE_ACCESS: an access of another package is performed at this package's physical address (R345), after what its package has read here
(R189). One that meets locked replicas waits (R193); none names a place past the HBM (log 59). -/
def execRemoteAccess (req : LinkReq) (s : State) : Out :=
  let ok (pa n al : Nat) : Bool :=
    s.linkUp && decide (pa + n ≤ Config.hbmBytes) && pa % al == 0 && !s.pageLocked pa && !s.pageLocked (pa + n - 1)
  match req with
  | .load pa n => if ok pa n 1 then .next (s.noted pa n) else .fault .notDue
  | .store pa bs => if ok pa bs.length 1 then .next ((s.putAll s.hub.seen pa bs).ticketsWritten pa bs.length).markBars else .fault .notDue
  | .atom op pa b c =>
    let n := atomSize op
    if !ok pa n n then .fault .notDue
    else if s.poisonAt (hubLoc pa) n then .next s
    else .next (((s.noted pa n).forOutside.atomAt 0 (hubLoc pa) op b c).1.markBars)
  | .arrive pa n => if ok pa 16 16 then .next (s.forOutside.barUpdate 0 (hubLoc pa) (arrivals n)) else .fault .notDue
  | .expect pa w => if ok pa 16 16 then .next (s.forOutside.barUpdate 0 (hubLoc pa) (BarObj.expect w)) else .fault .notDue

-- Soft errors.

/-- The slices whose owner has an ASID. -/
def State.slicesOf (s : State) (asid : Nat) : List Nat := (List.range Config.slices).filter fun k => (s.slice k).asids.contains asid

/-- An uncorrectable error at its granule (R394, R391). -/
def State.poison (s : State) : EccSite → State
  | .vreg t n => s.updThread t fun x => { x with psnV := insertNew n x.psnV }
  | .preg t => s.updThread t fun x => { x with psnP := true }
  | .sreg t n => s.updTeam t fun x => { x with psnS := insertNew n x.psnS }
  | .areg t n => s.updTeam t fun x => { x with psnA := insertNew n x.psnA }
  | .spad c g => { s with psnSpad := insertNew (c * 0x8000 + g) s.psnSpad }
  | .landing c g => { s with psnLand := insertNew (c * 0x100000 + g) s.psnLand }
  | .mem g => s.addPsn g
  -- A granule travels with its line: the caches and the HBM hold it as one (log 56).
  | .l1 _ g => s.addPsn g
  | .llc g => s.addPsn g
  | .acc c g => { s with psnAcc := insertNew (c * 0x10000 + g) s.psnAcc }
  | .wbuf c g => { s with psnWb := insertNew (c * 0x20000 + g) s.psnWb }
  | .tlb l u i =>
    if l = 1 then { s with tlb1 := mput u ((mget [] u s.tlb1).eraseIdx i) s.tlb1 }
    else { s with tlb2 := mput u ((mget [] u s.tlb2).eraseIdx i) s.tlb2 }
  | .tagEntry c k => { s with psnTag := insertNew (c * 1024 + k) s.psnTag }
  | .replica d page asid va =>
    let s1 : State := { s with dropped := insertNew (4 * page + d) s.dropped }
    (s1.slicesOf asid).foldl (fun s k => s.post k (notice 0x60 va)) s1
  | .idleReplica d page =>
    ({ s with dropped := insertNew (4 * page + d) s.dropped } : State).postAll (notice 0x60 (BitVec.ofNat 64 (0x1000 * page)))

/-- The storage named exists; a granule in an L1 or a last-level cache, while its line is there. Memory is the HBM, host memory, whose completions the host may
mark poisoned (R415), and what lies in other packages. -/
def State.siteOk (s : State) : EccSite → Bool
  | .vreg _ n => decide (n < 64)
  | .preg _ => true
  | .sreg _ n => decide (n < 32)
  | .areg _ n => decide (n < 16)
  | .spad c g => decide (c < Config.cores) && decide (g < 0x8000)
  | .landing c g => decide (c < Config.clusters) && decide (g < 0x100000)
  | .mem g => decide (32 * g < Config.hbmBytes) || Config.hostMem (32 * g) || decide (remoteBase ≤ 32 * g)
  | .l1 c g => (mget [] c s.l1).any fun x => x.1 == 32 * g / Config.lineBytes
  | .llc g => (List.range Config.dies).any fun d => (mget [] d s.llc).contains (32 * g / Config.lineBytes)
  | .acc c g => decide (c < Config.cores) && decide (g < 0x10000)
  | .wbuf c g => decide (c < Config.cores) && decide (g < 0x20000)
  | .tlb l u _ => if l = 1 then decide (u < Config.cores) else l == 2 && decide (u < Config.clusters)
  | .tagEntry c k => decide (c < Config.cores) && decide (k < 1024)
  | .replica d _ _ _ => decide (d < Config.dies)
  | .idleReplica d _ => decide (d < Config.dies)

/-- The RAS management core runs (R420). (Log 48, DEDUCED.) -/
def State.rasRuns (s : State) : Bool := (mget {} 2 s.hub.mcores).running

/-- The RAS core, while it runs, reports the errors counted (R394, R420). -/
def State.reportRas (s : State) : State :=
  if s.rasRuns then { s with hub := { s.hub with eccTold := s.hub.eccCount } } else s

/-- ECC_ERROR: a single-bit error is corrected, counted and reported; a double-bit error poisons its granule (R394). -/
def execEccError (site : EccSite) (double : Bool) (s : State) : Out :=
  if !s.siteOk site then .fault .notDue
  else if double then .next (s.poison site)
  else .next ({ s with hub := { s.hub with eccCount := s.hub.eccCount + 1 } } : State).reportRas

/-- SCRUB: a poison found with no reader is posted once (R394). -/
def execScrub (s : State) : Out :=
  let seen := s.hub.scrubbed.filter fun g => s.psnMem.contains g
  match s.psnMem.find? fun g => !seen.contains g && decide (32 * g < Config.hbmBytes) with
  | none => .next { s with hub := { s.hub with scrubbed := seen } }
  | some g =>
    let s1 : State := { s with hub := { s.hub with scrubbed := insertNew g seen } }
    .next (s1.postAll (notice 0x60 (BitVec.ofNat 64 (32 * g))))

end Sys2Proof.Machine
end

