-- ==== Sys2Proof/Machine/Mailbox.lean ====
section
/-!
DEFINITION. The register window and the mailbox (R340 to R347, R353, R418, R421).
-/

namespace Sys2Proof.Machine

def State.setMail (s : State) (m : Option Mail) : State := { s with hub := { s.hub with mail := m } }

/-- Bytes of the argument block of a command, 0 where its ARG is a value (R341). -/
def blockSize : Nat → Nat
  | 1 => 16 | 2 => 96 | 4 => 32 | 5 => 32 | 6 => 336 | 7 => 336 | 8 => 336 | 9 => 16 | 11 => 32 | 12 => 16 | _ => 0

/-- Alignment that a block's table gives, R342 to R346. -/
def blockAlign : Nat → Nat
  | 2 => 32 | 5 => 32 | 6 => 16 | 7 => 16 | 8 => 16 | _ => 1

/-- The version of the mailbox that the device knows, R352 and R418. -/
def mailMajor : Nat := 1

/-- The device takes the command at MBADDR: header and block are read; the status where it is refused before it is looked at
(R341, R418, R419). -/
def State.takeMail (s : State) : State :=
  let a := (s.hreg 8).toNat
  let op := s.homeNat (a + 4) 2
  let arg := s.homeNat (a + 8) 8
  let st : Option Nat :=
    if s.homeNat (a + 2) 2 != mailMajor then some 2
    else if op != 0 && !s.hub.rootOk then some 3
    else if op != 0 && op != 1 && !s.hub.didAccept then some 3
    else none
  s.setMail (some { op := op, minor := s.homeNat a 2, hdr := a, arg := arg, blk := s.homeBytes arg (blockSize op), status := st })

/-- A command that waits to be carried out; `f` answers with its status and state, or with none while it cannot complete. -/
def State.mailOp (s : State) (op : Nat) (f : State → Mail → Option (State × Nat)) : Out :=
  match s.hub.mail with
  | none => .fault .notDue
  | some m =>
    if m.op != op || m.status.isSome then .fault .notDue
    else if m.arg % blockAlign op != 0 then .next (s.setMail (some { m with status := some 4 }))
    else match f s m with
      | none => .fault .notDue
      | some (s1, st) => .next (s1.setMail (some { m with status := some st }))

def Mail.f (m : Mail) (o n : Nat) : Nat := recField m.blk o n

/-- A reserved field is not zero. In a command of a minor version newer than the device's own, 0, reserved fields are ignored (R352). -/
def Mail.resv (m : Mail) (x : Nat) : Bool := m.minor == 0 && x != 0

/-- The stepping and product word, R340. -/
def devId : Nat := 0x096000000001

/-- VERSION (R341). -/
def execVersion (s : State) : Out :=
  s.mailOp 0 fun s m => if s.physCut m.arg then none else some (s.putHome m.arg (natLe 16 s.hub.offered.toNat ++ natLe 8 devId ++ natLe 8 0), 0)

/-- ACCEPT_FEATURES (R353, R418). -/
def execAcceptFeatures (s : State) : Out :=
  s.mailOp 1 fun s m =>
    let w := BitVec.ofNat 128 (m.f 0 16)
    if w &&& ~~~s.hub.offered != 0 then some (s, 3)
    else some ({ s with hub := { s.hub with accepted := w, didAccept := true } }, 0)

/-- A slice has a live or saved team. -/
def State.sliceBusy (s : State) (k : Nat) : Bool := (s.teams.any fun t => t.2.slice == k) || s.saved.any fun t => t.2.team.slice == k

/-- CREATE_SLICE (R342, R334): done when the slice can draw. (Log 44, DEDUCED.) -/
def execCreateSlice (s : State) : Out :=
  s.mailOp 2 fun s m =>
    let k := bits (m.f 0 8) 0 3
    let log2 := bits (m.f 0x24 4) 0 5
    if m.resv (bits (m.f 0 8) 3 61) || m.resv (bits (m.f 0x24 4) 5 27) || decide (log2 < 4) || decide (12 < log2) || m.resv (m.f 0x28 8) || m.f 0x20 4 = 0 || m.f 0x18 8 % 8 != 0 ||
        m.f 0x10 8 % 16 != 0 || m.f 8 8 % 32 != 0 then some (s, 4)
    else if s.sliceBusy k then some (s, 1)
    else if !s.schedulerRuns then none
    else
      let asids := (List.range 256).filter fun a => ((m.blk.getD (0x40 + a / 8) 0).getLsbD (a % 8))
      let same := (s.slice k).qtable == m.f 8 8
      let s1 := s.updSlice k fun x =>
        { x with
          created := true, asids := asids, qtable := m.f 8 8, x := BitVec.ofNat 32 (m.f 0x20 4), mqBase := m.f 0x10 8,
          mqCtl := m.f 0x18 8, mqLog2 := log2, draw := none, winner := none, drawn := [], mayDraw := true, overfilled := [] }
      some ({ s1 with
        hub := { s1.hub with everSlice := true }
        launches := if same then s1.launches else mfilter (fun _ l => l.slice != k || l.store) s1.launches }, 0)

/-- FAULT_QUEUE (R347, R374). -/
def execFaultQueue (s : State) : Out :=
  s.mailOp 4 fun s m =>
    let w := m.f 0 8
    let log2 := bits w 8 4
    if m.resv (bits w 12 52) || m.resv (bits w 3 5) || decide (log2 < 4) || decide (12 < log2) || m.f 8 8 % 64 != 0 || m.f 0x10 8 % 8 != 0 ||
        m.resv (m.f 0x18 8) then some (s, 4)
    else some (s.updSlice (bits w 0 3) fun x => { x with fq := true, fqRing := m.f 8 8, fqCtl := m.f 0x10 8, fqLog2 := log2 }, 0)

/-- SET_CONTEXT (R343, R115): the entry is written and the ASID's translations are removed. -/
def execSetContext (s : State) : Out :=
  s.mailOp 5 fun s m =>
    let w := m.f 0 8
    let asid := bits w 0 8
    let root := m.f 8 8
    let ctx := m.f 0x10 8
    if m.resv (bits w 9 55) || root % 0x200000 != 0 || ctx % 0x1000 != 0 || m.resv (m.f 0x18 8) then some (s, 4)
    else if (s.saved.any fun x => x.2.team.asid == asid) && mfind asid s.hub.ctx != some ctx then some (s, 1)
    else
      let s1 : State :=
        { s with
          hub := { s.hub with
            asids := if w.testBit 8 then mput asid root s.hub.asids else mdel asid s.hub.asids
            ctx := mput asid ctx s.hub.ctx } }
      some (s1.shootDown (.asid asid), 0)

-- Team blocks (R344).

structure TeamBlk where
  slice : Nat
  asid  : Nat
  byAsid : Bool
  done  : Nat
  names : List Nat
  deriving DecidableEq, Repr

/-- The block of a pre-empt, restore or end-teams command; none where it breaks its table, which puts DONE in device HBM. -/
def teamBlk (m : Mail) : Option TeamBlk :=
  let w := m.f 0 8
  let k := bits w 0 3
  if m.resv (bits w 3 5) || m.resv (bits w 9 7) || m.resv (bits w 24 40) || m.f 8 8 % 16 != 0 || (m.f 8 8 != 0 && decide (Config.hbmBytes < m.f 8 8 + 16)) ||
      (m.op == opRestore && w.testBit 8) then none
  else some { slice := k, asid := bits w 16 8, byAsid := w.testBit 8, done := m.f 8 8,
              names := ((List.range 1280).filter fun b => (m.blk.getD (0x10 + b / 8) 0).getLsbD (b % 8)).map (1280 * k + ·) }

/-- Live teams that a block names, with their identities. -/
def State.namedTeams (s : State) (b : TeamBlk) : List Nat :=
  (s.teams.filter fun t => t.2.slice == b.slice && t.2.asid == b.asid && (b.byAsid || b.names.contains (teamName t.2))).map (·.1)

/-- Teams joined by buffers to some of a set (R100). -/
def State.joined (s : State) (ids : List Nat) : List Nat :=
  s.teams.foldl (fun l t =>
    if (s.cluster (Config.clusterOf t.2.core)).bufs.any fun b =>
        (b.holder == t.1 && ids.contains b.orig) || (b.orig == t.1 && ids.contains b.holder) then insertNew t.1 l else l) ids

def State.closeSet (s : State) : Nat → List Nat → List Nat
  | 0, ids => ids
  | n + 1, ids => s.closeSet n (s.joined ids)

/-- Record a request over some names; a name that names nothing makes its arrival at once, with no bit. (Log 43, DESIGN CHOICE.) -/
def State.request (s : State) (m : Mail) (b : TeamBlk) (names : List Nat) (act : State → Nat → Nat → State) (found : State → Nat → Bool) : State :=
  let rid := s.fresh
  let r : Request := { slice := b.slice, blk := m.arg, kind := m.op, done := b.done, names := names, asid := b.asid }
  let s1 : State := { s with fresh := rid + 1, requests := if names.isEmpty then s.requests else mput rid r s.requests }
  names.foldl (fun s n => if found s n then act s rid n else s.report rid n false) s1

def State.liveAt (s : State) (b : TeamBlk) (name : Nat) : Option (Nat × Team) :=
  s.teams.find? fun t => teamName t.2 == name && t.2.slice == b.slice && t.2.asid == b.asid

def State.savedAt (s : State) (b : TeamBlk) (name : Nat) : Option Nat :=
  (mfind (ctxKey b.asid 0 0 + name) s.saved).bind fun x => if x.team.slice = b.slice then some (ctxKey b.asid 0 0 + name) else none

def namesOf (s : State) (ids : List Nat) : List Nat := ids.filterMap fun i => (s.team i).map teamName

/-- PRE_EMPT: the named teams, and those joined to them by buffers, are to be evicted and saved (R344, R57, R100, R156). -/
def execPreEmpt (s : State) : Out :=
  s.mailOp opPreEmpt fun s m =>
    match teamBlk m with
    | none => some (s, 4)
    | some b =>
      let ids := s.closeSet s.teams.length (s.namedTeams b)
      let names := (namesOf s ids).foldl (fun l n => insertNew n l) (if b.byAsid then [] else b.names)
      some (s.request m b names (fun s rid n => match s.liveAt b n with
        | some (id, t) => (s.updTeam id fun x => { x with preempt := some rid }).skPreempt (Config.clusterOf t.core) id
        | none => s) (fun s n => (s.liveAt b n).isSome), 0)

/-- RESTORE: the named context slots are to be restored (R344, R60). -/
def execRestore (s : State) : Out :=
  s.mailOp opRestore fun s m =>
    match teamBlk m with
    | none => some (s, 4)
    | some b =>
      some (s.request m b b.names (fun s rid n => match s.savedAt b n with
        | some k => { s with saved := mupd k (fun x => { x with restoring := x.restoring ++ [rid] }) s.saved }
        | none => s) (fun s n => (s.savedAt b n).isSome), 0)

/-- END_TEAMS: live teams end as R380 describes, without a record; saved ones are discarded (R344). -/
def execEndTeams (s : State) : Out :=
  s.mailOp opEndTeams fun s m =>
    match teamBlk m with
    | none => some (s, 4)
    | some b =>
      let names := if b.byAsid then namesOf s (s.namedTeams b) else b.names
      some (s.request m b names (fun s rid n => match s.liveAt b n, s.savedAt b n with
        | some (id, _), _ => s.killTeam id
        | none, some k => { s with saved := mupd k (fun x => { x with discard := x.discard ++ [rid] }) s.saved }
        | none, none => s) (fun s n => (s.liveAt b n).isSome || (s.savedAt b n).isSome), 0)

/-- INVALIDATE: as `tlbi` of the same form (R341, R328). -/
def execInvalidate (s : State) : Out :=
  s.mailOp 9 fun s m =>
    let form := bits (m.f 0 8) 0 2
    let asid := bits (m.f 0 8) 8 8
    let sel : TlbSel := if form = 0 then .page asid (m.f 8 8 % 2 ^ 57) else if form = 1 then .asid asid else .all
    if form = 3 then some (s, 4) else if s.inTransit sel then none else some (s.shootDown sel, 0)

/-- HARVEST: as `harv` (R341, R329). -/
def execHarvest (s : State) : Out :=
  s.mailOp 10 fun s m => some (s.harvest (if m.arg.testBit 8 then .all else .asid (m.arg % 256)), 0)

/-- Operations a reduction window combines, R346. -/
def windowOp (op : Nat) : Bool := decide (op ≤ 7) || (decide (10 ≤ op) && decide (op ≤ 12))

/-- SET_WINDOW (R346, R349, R353). -/
def execSetWindow (s : State) : Out :=
  s.mailOp 11 fun s m =>
    let w := m.f 0 8
    let i := bits w 0 6
    let op := bits w 8 4
    let base := m.f 8 8
    let size := m.f 0x10 8
    let rem := w.testBit 15
    if !s.feature 2 then some (s, 3)
    else if m.resv (bits w 6 2) || m.resv (bits w 12 3) || m.resv (bits w 16 48) || m.resv (m.f 0x18 8) || base % 0x1000 != 0 || decide (2 ^ 52 ≤ base) || !windowOp op ||
        (!rem && (size = 0 || size % 0x1000 != 0 ||
          s.hub.windows.any fun x => x.1 != i && decide (x.2.base < base + size) && decide (base < x.2.base + x.2.size))) then some (s, 4)
    else
      let ws := if rem then mdel i s.hub.windows else mput i { base := base, size := size, op := op } s.hub.windows
      some ({ s with hub := { s.hub with windows := ws } }, 0)

/-- Train every port: which ones train, and what the neighbours advertise, is open (R345, R350). -/
def State.trainPorts (s : State) : State :=
  (List.range portLimit).foldl (fun s k =>
    (s.drew 2).portTrained k (Config.freeNat s.free % 2 = 1) (Config.freeNat (s.free + 1) % 2 = 1)) s

/-- DOMAIN (R345). -/
def execDomain (s : State) : Out :=
  s.mailOp 12 fun s m =>
    let w := m.f 0 8
    if s.hub.everSlice then some (s, 3)
    else if m.resv (bits w 6 2) || m.resv (bits w 14 50) || m.resv (m.f 8 8) || decide (bits w 8 6 < bits w 0 6) then some (s, 4)
    else
      let s1 : State := { s with hub := { s.hub with npkg := bits w 8 6 + 1, pkg := bits w 0 6 } }
      some (s1.trainPorts.flushPosted.flushContribs, 0)

/-- RETRAIN_PORT: the port trains, or fails again (R341, R416). -/
def execRetrainPort (trained : Bool) (s : State) : Out :=
  s.mailOp 13 fun s m =>
    if portLimit ≤ m.arg then some (s, 4)
    else
      some ((s.drew 1).portTrained m.arg trained (Config.freeNat s.free % 2 = 1), if trained then 0 else 3)

/-- MAILBOX_RESERVED_OP (R418). -/
def execMailboxReservedOp (s : State) : Out :=
  match s.hub.mail with
  | none => .fault .notDue
  | some m => if m.op < 14 || m.status.isSome then .fault .notDue else .next (s.setMail (some { m with status := some 4 }))

/-- MAILBOX_COMPLETION: STATUS, and after a wrong version the device's own, is written; MBDOOR is cleared, MBVEC signalled (R341, R418);
not while that header lies in host memory and the CXL link is down (R415). -/
def execMailboxCompletion (s : State) : Out :=
  match s.hub.mail with
  | none => .fault .notDue
  | some m =>
    match m.status with
    | none => .fault .notDue
    | some st =>
      if s.physCut m.hdr then .fault .notDue else
      let s1 := if st = 2 then s.putHome m.hdr (natLe 2 0 ++ natLe 2 mailMajor) else s
      .next (((s1.putHome (m.hdr + 6) (natLe 1 st)).setMail none).signal ((s.hreg 0x18).toNat % 2 ^ 11))

-- Reset of a slice (R421).

def clustersOf (k : Nat) : List Nat := (List.range 10).map (10 * k + ·)
def sliceOfCore (core : Nat) : Nat := core / 80

/-- Engines of a cluster without work; generations stay, and block rewrites that committed operations left are still made. -/
def Cluster.cleared (c : Cluster) : Cluster :=
  { leaseGen := c.leaseGen, bufGen := c.bufGen, curGen := c.curGen, tickGen := c.tickGen, passes := c.passes
    sawyerQ := c.sawyerQ.filter fun x => match x with
      | .rewrite _ _ _ => true
      | .arrived _ _ => false }

def Core.cleared (c : Core) : Core := { gated := c.gated, wakeAt := c.wakeAt }

/-- The display pipeline and the two encoders of a slice are reset. -/
def State.resetDisplay (s : State) (k : Nat) : State :=
  let mine (o : Nat) : Bool := decide (0x2000 + 0x100 * k ≤ o) && decide (o < 0x2100 + 0x100 * k) ||
    (decide (0x3000 + 0x200 * k ≤ o) && decide (o < 0x3200 + 0x200 * k))
  { s with hub := { s.hub with
      regs := mfilter (fun o _ => !mine o) s.hub.regs
      disp := mdel k s.hub.disp
      enc := mdel (2 * k) (mdel (2 * k + 1) s.hub.enc) } }

/-- Requests of a slice report the teams they still name: ended ones where that was asked for, the others with no bit. -/
def State.dropRequests (s : State) (k : Nat) : State :=
  s.requests.foldl (fun s r => if r.2.slice = k then r.2.names.foldl (fun s n => s.report r.1 n (r.2.kind == opEndTeams)) s else s) s

/-- Step 3 of R249 for the teams of a slice that is reset: their launches record them as complete, with no arrival (R421). What is left of a
launch from the pending-launch store, which is cleared, is dropped. -/
def State.endLaunches (s : State) (k : Nat) (ts : List Team) : State :=
  let s := ts.foldl (fun s t => s.launchEnd t false) s
  { s with launches := mfilter (fun _ l => l.slice != k || !l.store || l.next == l.teams) s.launches }

/-- Steps 1 to 4 of R421. -/
def State.resetSlice (s : State) (k : Nat) : State :=
  let mine (team : Nat) : Bool := match s.anyTeam team with
    | some t => t.slice == k
    | none => false
  let s1 := s.updSlice k fun x => { x with draw := none, winner := none, drawn := [], mayDraw := true, store := [], overfilled := x.overfilled }
  let s2 : State :=
    { s1 with
      threads := mfilter (fun _ t => !mine t.team) s1.threads
      teams := mfilter (fun _ t => t.slice != k) s1.teams
      saved := mfilter (fun _ x => x.team.slice != k) s1.saved
      jobs := mfilter (fun _ j => j.cluster / 10 != k) s1.jobs
      pipes := mfilter (fun p _ => sliceOfCore (p / 4) != k) s1.pipes
      cores := mmap (fun c x => if sliceOfCore c = k then x.cleared else x) s1.cores
      clusters := mmap (fun c x => if c / 10 = k then x.cleared else x) s1.clusters }
  let gone := ((s.teams.map (·.2)) ++ s.saved.map (·.2.team)).filter fun t => t.slice == k
  let s3 := (s1.slice k).asids.foldl (fun s a => s.shootDown (.asid a)) (s2.endLaunches k gone)
  (s3.dropRequests k).resetDisplay k

/-- RESET_SLICE (R421, R422). -/
def execResetSlice (s : State) : Out :=
  s.mailOp 3 fun s m =>
    if 8 ≤ m.arg then some (s, 4)
    else some ((s.resetSlice m.arg).post m.arg (notice 0x78 (BitVec.ofNat 64 m.arg)), 0)

-- The register window (R340, R163, R164).

/-- A pipeline's first register: ENABLE is left at 0 under an ASID that is not the slice's; setting it starts the count of frames (R163). -/
def State.writeDisp0 (s : State) (p : Nat) (w : BitVec 64) : State :=
  let ok := (s.slice p).asids.contains (bits w.toNat 16 8)
  let x : DWord := (w &&& 0xFF0002) ||| (if ok && w.getLsbD 0 then 1 else 0)
  let was := (s.hreg (dispReg p 0)).getLsbD 0
  let s1 := s.setHreg (dispReg p 0) x
  if !was && x.getLsbD 0 then s1.setDisp p { s1.disp p with frames := 0, at_ := s1.now } else s1

/-- An encoder's first register: setting ENABLE starts its frame numbers, with a key frame (R164). -/
def State.writeEnc0 (s : State) (e : Nat) (w : BitVec 64) : State :=
  let was := (s.hreg (encReg e 0)).getLsbD 0
  let s1 := s.setHreg (encReg e 0) (w &&& 0xFF0F)
  if !was && w.getLsbD 0 then s1.setEnc e {} else s1

/-- Bits that the registers of a display pipeline and of an encoder have, R163 and R164. -/
def dispMask (r : Nat) : DWord := if r = 8 then 0xFFFFFFFFFF else if r = 0x18 then 0xFFFFFFFF else 0xFFFFFFFFFFFFFFFF
def encMask (r : Nat) : DWord := if r = 0x10 then 0xFFFF else if r = 0x20 then 0x1F else 0xFFFFFFFFFFFFFFFF

/-- A register write that has arrived. -/
def State.writeReg (s : State) (off : Nat) (w : BitVec 64) : State :=
  let r := off % 0x100
  if off = 8 then s.setHreg 8 w
  else if off = 0x10 then (if w = 1 && s.hub.mail.isNone then s.takeMail else s)
  else if off = 0x18 then s.setHreg 0x18 (w &&& 0x7FF)
  else if 0x1000 ≤ off ∧ off < 0x1800 then
    if r = 0 then s.reply ((off - 0x1000) / 0x100) w
    else if r = 8 ∨ r = 0x10 then s.setHreg off (w &&& 0x7FF) else s
  else if 0x2000 ≤ off ∧ off < 0x2800 then
    let p := (off - 0x2000) / 0x100
    if r = 0 then s.writeDisp0 p w
    else if r = 0x28 then s.flipNow p
    else if r ∈ [8, 0x10, 0x18, 0x20, 0x30] then s.setHreg off (w &&& dispMask r) else s
  else if 0x3000 ≤ off ∧ off < 0x4000 then
    let e := (off - 0x3000) / 0x100
    if r = 0 then s.writeEnc0 e w
    else if r = 0x30 then s.keyNow e
    else if r ∈ [8, 0x10, 0x18, 0x20, 0x28] then s.setHreg off (w &&& encMask r) else s
  else s

/-- REGISTER_WRITE: a 64-bit word of the window (R340); nothing is received while the host link is down (R415). (Log 51, DEDUCED.) -/
def execRegisterWrite (off : Nat) (w : BitVec 64) (s : State) : Out := .next (if s.hub.cxlUp then s.writeReg off w else s)

/-- What a read of the window returns, R340. -/
def State.readReg (s : State) (off : Nat) : DWord :=
  if off = 0 then BitVec.ofNat 64 devId
  else if off = 0x10 then (if s.hub.mail.isSome then 1 else 0)
  else if 0x1000 ≤ off ∧ off < 0x1800 ∧ off % 0x100 = 0 then 0
  else if 0x2000 ≤ off ∧ off < 0x2800 ∧ off % 0x100 = 0x28 then BitVec.ofNat 64 (s.disp ((off - 0x2000) / 0x100)).frames
  else s.hreg off

end Sys2Proof.Machine
end

