-- ==== Sys2Proof/Machine/Firmware.lean ====
section
/-!
DEFINITION. Firmware: the trusted root, the management cores and SPDM (R351, R419, R420), and the encodings that are no instruction
(R221).
-/

namespace Sys2Proof.Machine

/-- An image passes the root's check (R419). -/
def FwImage.passes (min : Nat) (i : FwImage) : Bool := i.sigValid && decide (min ≤ i.version)

def mcoreCount : Nat := 4

/-- DEVICE_RESET: everything on the device is as after reset; the root starts the management cores from the first image that passes,
and measures it (R419). The time counter starts at zero (R243); memory keeps its contents. (Log 47, DESIGN CHOICE.) -/
def execDeviceReset (primary secondary : FwImage) (minVersion : Nat) (s : State) : Out :=
  let img : Option (Nat × FwImage) :=
    if FwImage.passes minVersion primary then some (1, primary) else if FwImage.passes minVersion secondary then some (2, secondary) else none
  let hub : Hub :=
    { minVersion := minVersion
      rootOk := img.isSome
      image := match img with
        | some x => x.1
        | none => 0
      measured := match img with
        | some x => [x.2.digest]
        | none => []
      mcores := if img.isSome then (List.range mcoreCount).map fun k => (k, { running := true }) else [] }
  .next { State.reset with agenda := s.agenda, free := s.free, mem := s.mem, psnMem := s.psnMem, hub := hub }

/-- Cycles of an hour, R2. -/
def hour : Nat := 3600 * 800000000

/-- A management core halted by the root: its image is verified again and it restarts, unless it has restarted three times within the
hour or the image fails (R419). -/
def State.restartCore (s : State) (k : Nat) (image : FwImage) : State :=
  let c := mget {} k s.hub.mcores
  let past := c.restarts.filter fun t => decide (s.now < t + hour)
  let again := decide (past.length < 3) && FwImage.passes s.hub.minVersion image
  let c' : Mcore := if again then { running := true, restarts := past ++ [s.now] } else { running := false, restarts := past }
  let s1 : State := { s with hub := { s.hub with mcores := mput k c' s.hub.mcores } }
  s1.reportRas.postAll (notice 0x77 (BitVec.ofNat 64 (k + if again then 0 else 0x100)))

def State.haltCore (s : State) (k : Nat) (image : FwImage) : Out :=
  if mcoreCount ≤ k || !(mget {} k s.hub.mcores).running then .fault .notDue else .next (s.restartCore k image)

/-- HEARTBEAT_MISS (R419). -/
def execHeartbeatMiss (mcore : Nat) (image : FwImage) (s : State) : Out := s.haltCore mcore image
/-- FIREWALL_VIOLATION (R419). -/
def execFirewallViolation (mcore : Nat) (image : FwImage) (s : State) : Out := s.haltCore mcore image

def State.spdmAnswer (s : State) (a : Spdm) (n : Nat) : State := { s with hub := { s.hub with spdm := a :: s.hub.spdm }, free := s.free + n }

/-- A message whose bytes and length are open. -/
def State.openMsg (s : State) : List Byte × Nat :=
  let n := Config.freeNat s.free
  ((List.range n).map fun k => Config.freeByte (s.free + 1 + k), n + 1)

/-- SPDM 1.2 and 1.3 are answered (R351). -/
def execSpdmVersion (s : State) : Out := .next (s.spdmAnswer (.versions [0x12, 0x13]) 0)
def execSpdmCapabilities (s : State) : Out := .next (s.spdmAnswer (.capabilities s.openMsg.1) s.openMsg.2)
def execSpdmCertificates (s : State) : Out := .next (s.spdmAnswer (.certificates s.openMsg.1) s.openMsg.2)
/-- Measurements report the image started, or that none was (R419). -/
def execSpdmMeasurements (s : State) : Out := .next (s.spdmAnswer (.measurements s.hub.rootOk s.hub.measured) 0)
def execSpdmChallenge (s : State) : Out := .next (s.spdmAnswer (.challenge s.openMsg.1) s.openMsg.2)

/-- A pattern that is no instruction, of `len` bytes, raises 0x01 (R221, R423). -/
def execUnassignedEncoding (len : Nat) (s : State) : Out := s.unassigned len

end Sys2Proof.Machine
end

