-- ==== Sys2Proof/Machine/Raster.lean ====
section
/-!
DEFINITION. The raster walk of `rast` (R157 to R160, R323, R404).
-/

namespace Sys2Proof.Machine

/-- X = RNE(x * 256); none for a NaN or an |X| above 2^24 (R157). (Log 24, DEDUCED.) -/
def snap (x : Nat) : Option Int :=
  match Fmt.f32.decode x with
  | .fin s m e =>
    let v := (FVal.toInt .rne s m (e + 8)).1
    if v.natAbs ≤ 2 ^ 24 then some v else none
  | _ => none

/-- A snapped triangle: vertices' x and y, and their z as FP32 bits. -/
structure Tri where
  x : List Int
  y : List Int
  z : List Nat
  deriving DecidableEq, Repr

def int3 (l : List Int) (i : Nat) : Int := l.getD i 0

/-- A of R158. -/
def Tri.area (t : Tri) : Int :=
  (int3 t.x 1 - int3 t.x 0) * (int3 t.y 2 - int3 t.y 0) - (int3 t.x 2 - int3 t.x 0) * (int3 t.y 1 - int3 t.y 0)

/-- F of the edge from vertex `a` to `b` at a pixel's sample point, and whether the edge is a top or left one. -/
def Tri.edge (t : Tri) (a b px py : Nat) : Int × Bool :=
  let s := t.area.sign
  let dx := int3 t.x b - int3 t.x a
  let dy := int3 t.y b - int3 t.y a
  let f := s * (dx * (256 * (py : Int) + 128 - int3 t.y a) - dy * (256 * (px : Int) + 128 - int3 t.x a))
  (f, decide (s * dy < 0) || (decide (s * dy = 0) && decide (0 < s * dx)))

def Tri.edges (t : Tri) (px py : Nat) : List (Int × Bool) := [t.edge 0 1 px py, t.edge 1 2 px py, t.edge 2 0 px py]

/-- Coverage, R158. -/
def Tri.covers (t : Tri) (px py : Nat) : Bool :=
  t.area != 0 && (t.edges px py).all fun e => decide (0 < e.1) || (e.1 == 0 && e.2)

/-- The blocks of the walk: first column and row, columns, rows (R157). -/
structure Grid where
  bx : Nat
  by_ : Nat
  w  : Nat
  h  : Nat
  deriving DecidableEq, Repr

def minOf (l : List Int) : Int := l.foldl min (int3 l 0)
def maxOf (l : List Int) : Int := l.foldl max (int3 l 0)

def Tri.grid (t : Tri) : Grid :=
  let lo (l : List Int) (u : Int) : Nat := ((minOf l) / u).toNat
  let hi (l : List Int) (u : Int) (n : Nat) : Nat := if maxOf l < 0 then 0 else Nat.min n ((maxOf l / u).toNat + 1)
  let x0 := lo t.x 2048
  let y0 := lo t.y 1024
  { bx := x0, by_ := y0, w := hi t.x 2048 2048 - x0, h := hi t.y 1024 4096 - y0 }

/-- The pixel of a position of the walk. -/
def Grid.pixel (g : Grid) (l : Nat) : Nat × Nat :=
  let b := l / 32
  ((g.bx + b % g.w) * 8 + l % 8, (g.by_ + b / g.w) * 4 + l % 32 / 8)

def Grid.size (g : Grid) : Nat := 32 * (g.w * g.h)

/-- The covered positions from `l` on, at most `n`, among the next `fuel` positions. -/
def Tri.walk (t : Tri) (g : Grid) : Nat → Nat → Nat → List Nat
  | 0, _, _ => []
  | _, _, 0 => []
  | fuel + 1, l, n + 1 =>
    let p := g.pixel l
    if t.covers p.1 p.2 then l :: t.walk g fuel (l + 1) n else t.walk g fuel (l + 1) (n + 1)

/-- A sample's words: px | py << 16, b1, b2, z (R158, R323). -/
def Tri.sample (t : Tri) (px py : Nat) : List Nat :=
  let a := t.area.natAbs
  let q (e : Int × Bool) : Nat := if e.1 = 0 then 0 else (Fmt.f32.round .rne false (decide (e.1 < 0)) e.1.natAbs a 0).bits
  let b1 := q (t.edge 2 0 px py)
  let b2 := q (t.edge 0 1 px py)
  let z (i : Nat) : Nat := at3 t.z i
  [px + 0x10000 * py, b1, b2, rAdd (rAdd (z 0) (rMul b1 (rSub (z 1) (z 0)))) (rMul b2 (rSub (z 2) (z 0)))]

/-- Blocks passed without a covered pixel, from those of the positions given out (R323). -/
def emptyBlocks (first last : Nat) (got : List Nat) : Nat :=
  (List.range (last - first)).foldl (fun n k => if got.any fun l => l / 32 == first + k then n else n + 1) 0

structure RastOut where
  iv    : Bool := false
  token : Nat := 0
  samples : List (List Nat) := []
  empty : Nat := 0
  deriving DecidableEq, Repr

/-- One step of the walk for `n` active lanes (R157 to R159). -/
def rastStep (vs : List Nat) (token n : Nat) : RastOut :=
  let c (k : Nat) : Nat := vs.getD k 0
  match snap (c 0), snap (c 1), snap (c 3), snap (c 4), snap (c 6), snap (c 7) with
  | some x0, some y0, some x1, some y1, some x2, some y2 =>
    let t : Tri := { x := [x0, x1, x2], y := [y0, y1, y2], z := [c 2, c 5, c 8] }
    let g := t.grid
    if token = 0 || t.area = 0 || decide (g.size ≤ token - 1) then {}
    else
      let start := token - 1
      let got := t.walk g (g.size - start) start n
      match got.getLast? with
      | none => { empty := g.size / 32 - start / 32 }
      | some l =>
        let more := !(t.walk g (g.size - (l + 1)) (l + 1) 1).isEmpty
        { token := if more then l + 2 else 0
          samples := got.map fun k => let p := g.pixel k; t.sample p.1 p.2
          empty := emptyBlocks (start / 32) (l / 32) got }
  | _, _, _, _, _, _ => { iv := true }

/-- What a lane gets. -/
def rastLane (d : Nat) (k : BitVec 3) (t : Thread) : Option (List Nat) → Thread
  | none => t.setPred k false
  | some ws =>
    let w (j : Nat) : Word := BitVec.ofNat 32 (ws.getD j 0)
    ((((t.setReg d (w 0) tU32).setReg (d + 1) (w 1) tF32).setReg (d + 2) (w 2) tF32).setReg (d + 3) (w 3) tF32).setPred k true

def execRast (k : BitVec 3) (v : BitVec 5) (d : BitVec 6) (s : State) : Out :=
  let regs := (List.range 10).map (v.toNat + ·)
  s.issue { sr := regs } fun s c =>
    let r := rastStep (regs.map fun n => (c.tm.sreg n).toNat) (c.tm.sreg (v.toNat + 9)).toNat c.lns.length
    let ws := c.lns.mapIdx fun i (l : Ln) => (l.tid, rastLane d.toNat k l.th (r.samples[i]?))
    let s := { s with threads := putThreads ws s.threads }
    let s := s.updTeam c.team fun t =>
      let t := t.setS (v.toNat + 9) (BitVec.ofNat 32 r.token)
      if r.iv then t.orFlags fIV else t
    .next (s.goOn c (c.after 4) (2 + r.empty / 16))

end Sys2Proof.Machine
end

