-- ==== Sys2Proof/Machine/Dispatch.lean ====
section
/-!
DEFINITION. The dispatch: one arm per constructor of `Instr`, each one direct call of its meaning.
-/

namespace Sys2Proof.Machine

def exec (i : Instr) (s : State) : Host.Outcome State Fault Refusal :=
  match i with
  | .add u sat a b d => Sys2Proof.Machine.execAdd u sat a b d s
  | .sub u sat a b d => Sys2Proof.Machine.execSub u sat a b d s
  | .mul u sat a b d => Sys2Proof.Machine.execMul u sat a b d s
  | .mulh u a b d => Sys2Proof.Machine.execMulh u a b d s
  | .and inv a b d => Sys2Proof.Machine.execAnd inv a b d s
  | .or inv a b d => Sys2Proof.Machine.execOr inv a b d s
  | .xor inv a b d => Sys2Proof.Machine.execXor inv a b d s
  | .andn inv a b d => Sys2Proof.Machine.execAndn inv a b d s
  | .shl a b d => Sys2Proof.Machine.execShl a b d s
  | .shr a b d => Sys2Proof.Machine.execShr a b d s
  | .sar a b d => Sys2Proof.Machine.execSar a b d s
  | .rot a b d => Sys2Proof.Machine.execRot a b d s
  | .min u a b d => Sys2Proof.Machine.execMin u a b d s
  | .max u a b d => Sys2Proof.Machine.execMax u a b d s
  | .absd u a b d => Sys2Proof.Machine.execAbsd u a b d s
  | .div u a b d => Sys2Proof.Machine.execDiv u a b d s
  | .rem u a b d => Sys2Proof.Machine.execRem u a b d s
  | .clz a d => Sys2Proof.Machine.execClz a d s
  | .popc a d => Sys2Proof.Machine.execPopc a d s
  | .brev a d => Sys2Proof.Machine.execBrev a d s
  | .cmpeq inv a b p => Sys2Proof.Machine.execCmpeq inv a b p s
  | .cmplt inv u a b p => Sys2Proof.Machine.execCmplt inv u a b p s
  | .cmple inv u a b p => Sys2Proof.Machine.execCmple inv u a b p s
  | .sel p a b d => Sys2Proof.Machine.execSel p a b d s
  | .adda b aS aD => Sys2Proof.Machine.execAdda b aS aD s
  | .mov a d => Sys2Proof.Machine.execMov a d s
  | .bcst a b d => Sys2Proof.Machine.execBcst a b d s
  | .shfl a b d => Sys2Proof.Machine.execShfl a b d s
  | .voteAny a p => Sys2Proof.Machine.execVoteAny a p s
  | .voteAll a p => Sys2Proof.Machine.execVoteAll a p s
  | .voteBallot a d => Sys2Proof.Machine.execVoteBallot a d s
  | .prmt a b d => Sys2Proof.Machine.execPrmt a b d s
  | .fadd rm a b d => Sys2Proof.Machine.execFadd rm a b d s
  | .fsub rm a b d => Sys2Proof.Machine.execFsub rm a b d s
  | .fmul rm a b d => Sys2Proof.Machine.execFmul rm a b d s
  | .fmin a b d => Sys2Proof.Machine.execFmin a b d s
  | .fmax a b d => Sys2Proof.Machine.execFmax a b d s
  | .fcmpeq a b p => Sys2Proof.Machine.execFcmpeq a b p s
  | .fcmplt a b p => Sys2Proof.Machine.execFcmplt a b p s
  | .fcmple a b p => Sys2Proof.Machine.execFcmple a b p s
  | .frcp rm a d => Sys2Proof.Machine.execFrcp rm a d s
  | .frsq a d => Sys2Proof.Machine.execFrsq a d s
  | .fsqrt rm a d => Sys2Proof.Machine.execFsqrt rm a d s
  | .fex2 a d => Sys2Proof.Machine.execFex2 a d s
  | .flg2 a d => Sys2Proof.Machine.execFlg2 a d s
  | .fsin a d => Sys2Proof.Machine.execFsin a d s
  | .fcos a d => Sys2Proof.Machine.execFcos a d s
  | .fclass a d => Sys2Proof.Machine.execFclass a d s
  | .dadd rm a b d => Sys2Proof.Machine.execDadd rm a b d s
  | .dsub rm a b d => Sys2Proof.Machine.execDsub rm a b d s
  | .dmul rm a b d => Sys2Proof.Machine.execDmul rm a b d s
  | .dmin a b d => Sys2Proof.Machine.execDmin a b d s
  | .dmax a b d => Sys2Proof.Machine.execDmax a b d s
  | .dcmp t a b p => Sys2Proof.Machine.execDcmp t a b p s
  | .drcp rm a d => Sys2Proof.Machine.execDrcp rm a d s
  | .hadd2 rm a b d => Sys2Proof.Machine.execHadd2 rm a b d s
  | .hmul2 rm a b d => Sys2Proof.Machine.execHmul2 rm a b d s
  | .hmax2 a b d => Sys2Proof.Machine.execHmax2 a b d s
  | .cvt rm k a d => Sys2Proof.Machine.execCvt rm k a d s
  | .ftag k a d => Sys2Proof.Machine.execFtag k a d s
  | .qnt4 b a d => Sys2Proof.Machine.execQnt4 b a d s
  | .dqnt4 a b d => Sys2Proof.Machine.execDqnt4 a b d s
  | .getsr k d => Sys2Proof.Machine.execGetsr k d s
  | .ffma a b c d => Sys2Proof.Machine.execFfma a b c d s
  | .dfma a b c d => Sys2Proof.Machine.execDfma a b c d s
  | .hfma2 a b c d => Sys2Proof.Machine.execHfma2 a b c d s
  | .mad a b c d => Sys2Proof.Machine.execMad a b c d s
  | .bfi a b c d => Sys2Proof.Machine.execBfi a b c d s
  | .dot4 a b c d => Sys2Proof.Machine.execDot4 a b c d s
  | .dot2h a b c d => Sys2Proof.Machine.execDot2h a b c d s
  | .addi imm a d => Sys2Proof.Machine.execAddi imm a d s
  | .andi imm a d => Sys2Proof.Machine.execAndi imm a d s
  | .ori imm a d => Sys2Proof.Machine.execOri imm a d s
  | .xori imm a d => Sys2Proof.Machine.execXori imm a d s
  | .shli sh a d => Sys2Proof.Machine.execShli sh a d s
  | .shri sh a d => Sys2Proof.Machine.execShri sh a d s
  | .sari sh a d => Sys2Proof.Machine.execSari sh a d s
  | .cmpeqi imm a p => Sys2Proof.Machine.execCmpeqi imm a p s
  | .cmplti imm a p => Sys2Proof.Machine.execCmplti imm a p s
  | .cmplei imm a p => Sys2Proof.Machine.execCmplei imm a p s
  | .movi imm d => Sys2Proof.Machine.execMovi imm d s
  | .movhi imm d => Sys2Proof.Machine.execMovhi imm d s
  | .movsi imm d => Sys2Proof.Machine.execMovsi imm d s
  | .movhsi imm d => Sys2Proof.Machine.execMovhsi imm d s
  | .addai imm aS aD => Sys2Proof.Machine.execAddai imm aS aD s
  | .br off => Sys2Proof.Machine.execBr off s
  | .brp off neg p => Sys2Proof.Machine.execBrp off neg p s
  | .call off => Sys2Proof.Machine.execCall off s
  | .ret a => Sys2Proof.Machine.execRet a s
  | .jmpi a => Sys2Proof.Machine.execJmpi a s
  | .reform => Sys2Proof.Machine.execReform s
  | .join => Sys2Proof.Machine.execJoin s
  | .yield => Sys2Proof.Machine.execYield s
  | .exit => Sys2Proof.Machine.execExit s
  | .trap code => Sys2Proof.Machine.execTrap code s
  | .nop => Sys2Proof.Machine.execNop s
  | .addC16 b d => Sys2Proof.Machine.execAddC16 b d s
  | .subC16 b d => Sys2Proof.Machine.execSubC16 b d s
  | .mulC16 b d => Sys2Proof.Machine.execMulC16 b d s
  | .andC16 b d => Sys2Proof.Machine.execAndC16 b d s
  | .orC16 b d => Sys2Proof.Machine.execOrC16 b d s
  | .xorC16 b d => Sys2Proof.Machine.execXorC16 b d s
  | .shlC16 b d => Sys2Proof.Machine.execShlC16 b d s
  | .shrC16 b d => Sys2Proof.Machine.execShrC16 b d s
  | .sarC16 b d => Sys2Proof.Machine.execSarC16 b d s
  | .movC16 b d => Sys2Proof.Machine.execMovC16 b d s
  | .minC16 b d => Sys2Proof.Machine.execMinC16 b d s
  | .maxC16 b d => Sys2Proof.Machine.execMaxC16 b d s
  | .faddC16 b d => Sys2Proof.Machine.execFaddC16 b d s
  | .fsubC16 b d => Sys2Proof.Machine.execFsubC16 b d s
  | .fmulC16 b d => Sys2Proof.Machine.execFmulC16 b d s
  | .fmaxC16 b d => Sys2Proof.Machine.execFmaxC16 b d s
  | .ld t n o d => Sys2Proof.Machine.execLd t n o d s
  | .st t n o b => Sys2Proof.Machine.execSt t n o b s
  | .ldu t n o d => Sys2Proof.Machine.execLdu t n o d s
  | .lds t h n o d => Sys2Proof.Machine.execLds t h n o d s
  | .sts t h n o b => Sys2Proof.Machine.execSts t h n o b s
  | .ldbmv t n p => Sys2Proof.Machine.execLdbmv t n p s
  | .stbmv t n p => Sys2Proof.Machine.execStbmv t n p s
  | .ldacq sc b64 n o d => Sys2Proof.Machine.execLdacq sc b64 n o d s
  | .strel sc b64 n o b => Sys2Proof.Machine.execStrel sc b64 n o b s
  | .atom op near n b d => Sys2Proof.Machine.execAtom op near n b d s
  | .atomu op far n b o => Sys2Proof.Machine.execAtomu op far n b o s
  | .fence sc k => Sys2Proof.Machine.execFence sc k s
  | .pref l2 n o => Sys2Proof.Machine.execPref l2 n o s
  | .taglk n o d => Sys2Proof.Machine.execTaglk n o d s
  | .tagset n o b => Sys2Proof.Machine.execTagset n o b s
  | .tagclr b => Sys2Proof.Machine.execTagclr b s
  | .barinit sp n b c => Sys2Proof.Machine.execBarinit sp n b c s
  | .bararv sp n => Sys2Proof.Machine.execBararv sp n s
  | .barexp sp n b => Sys2Proof.Machine.execBarexp sp n b s
  | .barwait sp n k => Sys2Proof.Machine.execBarwait sp n k s
  | .cpy n t => Sys2Proof.Machine.execCpy n t s
  | .cpyx n t => Sys2Proof.Machine.execCpyx n t s
  | .cpymma n t => Sys2Proof.Machine.execCpymma n t s
  | .ctwaitGroup all mask g => Sys2Proof.Machine.execCtwaitGroup all mask g s
  | .ctwaitMask all m => Sys2Proof.Machine.execCtwaitMask all m s
  | .ctfind m d => Sys2Proof.Machine.execCtfind m d s
  | .xfer spad n => Sys2Proof.Machine.execXfer spad n s
  | .lease spad n => Sys2Proof.Machine.execLease spad n s
  | .unlease b => Sys2Proof.Machine.execUnlease b s
  | .surr b c => Sys2Proof.Machine.execSurr b c s
  | .qres k n d => Sys2Proof.Machine.execQres k n d s
  | .qpub n b => Sys2Proof.Machine.execQpub n b s
  | .qtake n d => Sys2Proof.Machine.execQtake n d s
  | .spawnT try_ g b k => Sys2Proof.Machine.execSpawnT try_ g b k s
  | .spawnK try_ n k => Sys2Proof.Machine.execSpawnK try_ n k s
  | .cins n a d => Sys2Proof.Machine.execCins n a d s
  | .cdel n a d => Sys2Proof.Machine.execCdel n a d s
  | .crel n a d => Sys2Proof.Machine.execCrel n a d s
  | .copen settled n a d => Sys2Proof.Machine.execCopen settled n a d s
  | .cnext c d => Sys2Proof.Machine.execCnext c d s
  | .cclose c => Sys2Proof.Machine.execCclose c s
  | .cstep n d => Sys2Proof.Machine.execCstep n d s
  | .ccnt n a d => Sys2Proof.Machine.execCcnt n a d s
  | .mma ty shape wb n tile => Sys2Proof.Machine.execMma ty shape wb n tile s
  | .mmas ty shape wb n tile => Sys2Proof.Machine.execMmas ty shape wb n tile s
  | .mzero ty n tile => Sys2Proof.Machine.execMzero ty n tile s
  | .mldw ty n b region => Sys2Proof.Machine.execMldw ty n b region s
  | .macld ty n cnt tile => Sys2Proof.Machine.execMacld ty n cnt tile s
  | .macst n cnt tile => Sys2Proof.Machine.execMacst n cnt tile s
  | .mwait wb cnt tile => Sys2Proof.Machine.execMwait wb cnt tile s
  | .tray m n o d => Sys2Proof.Machine.execTray m n o d s
  | .tnext b => Sys2Proof.Machine.execTnext b s
  | .twait b d => Sys2Proof.Machine.execTwait b d s
  | .tres b => Sys2Proof.Machine.execTres b s
  | .rast k v d => Sys2Proof.Machine.execRast k v d s
  | .tsig n t => Sys2Proof.Machine.execTsig n t s
  | .csrr csr d => Sys2Proof.Machine.execCsrr csr d s
  | .csrw form b csr => Sys2Proof.Machine.execCsrw form b csr s
  | .eret skip => Sys2Proof.Machine.execEret skip s
  | .tlbiPage n b => Sys2Proof.Machine.execTlbiPage n b s
  | .tlbiAsid b => Sys2Proof.Machine.execTlbiAsid b s
  | .tlbiAll => Sys2Proof.Machine.execTlbiAll s
  | .harvAsid b => Sys2Proof.Machine.execHarvAsid b s
  | .harvAll => Sys2Proof.Machine.execHarvAll s
  | .sysMsg b => Sys2Proof.Machine.execSysMsg b s
  | .sysInfo k d => Sys2Proof.Machine.execSysInfo k d s
  | .deckAged core => Sys2Proof.Machine.execDeckAged core s
  | .raftFormation core pipe => Sys2Proof.Machine.execRaftFormation core pipe s
  | .forcedFiling core pipe => Sys2Proof.Machine.execForcedFiling core pipe s
  | .threadWake thread => Sys2Proof.Machine.execThreadWake thread s
  | .clockGate core => Sys2Proof.Machine.execClockGate core s
  | .clockWake core => Sys2Proof.Machine.execClockWake core s
  | .lotteryDraw slice => Sys2Proof.Machine.execLotteryDraw slice s
  | .teamSave team => Sys2Proof.Machine.execTeamSave team s
  | .teamRestore saved => Sys2Proof.Machine.execTeamRestore saved s
  | .watchdogExpiry team => Sys2Proof.Machine.execWatchdogExpiry team s
  | .teamEnd team => Sys2Proof.Machine.execTeamEnd team s
  | .faultRecordPost slice => Sys2Proof.Machine.execFaultRecordPost slice s
  | .faultReplyRetry slice w => Sys2Proof.Machine.execFaultReplyRetry slice w s
  | .faultReplyDeliver slice w => Sys2Proof.Machine.execFaultReplyDeliver slice w s
  | .faultReplyEnd slice w => Sys2Proof.Machine.execFaultReplyEnd slice w s
  | .remoteTimeout thread => Sys2Proof.Machine.execRemoteTimeout thread s
  | .postedAckTimeout index => Sys2Proof.Machine.execPostedAckTimeout index s
  | .leaseSettlement cluster => Sys2Proof.Machine.execLeaseSettlement cluster s
  | .surrenderInjection cluster index => Sys2Proof.Machine.execSurrenderInjection cluster index s
  | .surrenderOutcome cluster index => Sys2Proof.Machine.execSurrenderOutcome cluster index s
  | .refusalHoldoffExpiry cluster index => Sys2Proof.Machine.execRefusalHoldoffExpiry cluster index s
  | .looseReclaim cluster index => Sys2Proof.Machine.execLooseReclaim cluster index s
  | .yarderJobStart job => Sys2Proof.Machine.execYarderJobStart job s
  | .jobLanding job landing => Sys2Proof.Machine.execJobLanding job landing s
  | .jobCompletion job => Sys2Proof.Machine.execJobCompletion job s
  | .matrixRunStart core => Sys2Proof.Machine.execMatrixRunStart core s
  | .matrixRunEnd core => Sys2Proof.Machine.execMatrixRunEnd core s
  | .matrixCommandComplete core => Sys2Proof.Machine.execMatrixCommandComplete core s
  | .sawyerCommit cluster => Sys2Proof.Machine.execSawyerCommit cluster s
  | .passStart cluster => Sys2Proof.Machine.execPassStart cluster s
  | .passEnd cluster => Sys2Proof.Machine.execPassEnd cluster s
  | .frameBoundary pipeline => Sys2Proof.Machine.execFrameBoundary pipeline s
  | .fenceArrival pipeline => Sys2Proof.Machine.execFenceArrival pipeline s
  | .encoderFrame encoder => Sys2Proof.Machine.execEncoderFrame encoder s
  | .flip pipeline => Sys2Proof.Machine.execFlip pipeline s
  | .keyreq encoder => Sys2Proof.Machine.execKeyreq encoder s
  | .registerWrite off w => Sys2Proof.Machine.execRegisterWrite off w s
  | .version => Sys2Proof.Machine.execVersion s
  | .acceptFeatures => Sys2Proof.Machine.execAcceptFeatures s
  | .createSlice => Sys2Proof.Machine.execCreateSlice s
  | .resetSlice => Sys2Proof.Machine.execResetSlice s
  | .faultQueue => Sys2Proof.Machine.execFaultQueue s
  | .setContext => Sys2Proof.Machine.execSetContext s
  | .preEmpt => Sys2Proof.Machine.execPreEmpt s
  | .restore => Sys2Proof.Machine.execRestore s
  | .endTeams => Sys2Proof.Machine.execEndTeams s
  | .invalidate => Sys2Proof.Machine.execInvalidate s
  | .harvest => Sys2Proof.Machine.execHarvest s
  | .setWindow => Sys2Proof.Machine.execSetWindow s
  | .domain => Sys2Proof.Machine.execDomain s
  | .retrainPort trained => Sys2Proof.Machine.execRetrainPort trained s
  | .mailboxReservedOp => Sys2Proof.Machine.execMailboxReservedOp s
  | .mailboxCompletion => Sys2Proof.Machine.execMailboxCompletion s
  | .adSweep => Sys2Proof.Machine.execAdSweep s
  | .remoteWriteApply die => Sys2Proof.Machine.execRemoteWriteApply die s
  | .remoteAccess req => Sys2Proof.Machine.execRemoteAccess req s
  | .switchForwardTimeout index => Sys2Proof.Machine.execSwitchForwardTimeout index s
  | .cxlMemRead pa n => Sys2Proof.Machine.execCxlMemRead pa n s
  | .eccError site double => Sys2Proof.Machine.execEccError site double s
  | .scrub => Sys2Proof.Machine.execScrub s
  | .flitReplay port => Sys2Proof.Machine.execFlitReplay port s
  | .portDown port => Sys2Proof.Machine.execPortDown port s
  | .portRetrained port hardpan => Sys2Proof.Machine.execPortRetrained port hardpan s
  | .portRetrainExpiry port => Sys2Proof.Machine.execPortRetrainExpiry port s
  | .cxlLinkDown => Sys2Proof.Machine.execCxlLinkDown s
  | .cxlLinkRetrained hardpan => Sys2Proof.Machine.execCxlLinkRetrained hardpan s
  | .deviceReset primary secondary minVersion => Sys2Proof.Machine.execDeviceReset primary secondary minVersion s
  | .heartbeatMiss mcore image => Sys2Proof.Machine.execHeartbeatMiss mcore image s
  | .firewallViolation mcore image => Sys2Proof.Machine.execFirewallViolation mcore image s
  | .spdmVersion => Sys2Proof.Machine.execSpdmVersion s
  | .spdmCapabilities => Sys2Proof.Machine.execSpdmCapabilities s
  | .spdmCertificates => Sys2Proof.Machine.execSpdmCertificates s
  | .spdmMeasurements => Sys2Proof.Machine.execSpdmMeasurements s
  | .spdmChallenge => Sys2Proof.Machine.execSpdmChallenge s
  | .unassignedEncoding len => Sys2Proof.Machine.execUnassignedEncoding len s
  | .loadDataWritten thread => Sys2Proof.Machine.execLoadDataWritten thread s
  | .cxlMemWrite pa bytes => Sys2Proof.Machine.execCxlMemWrite pa bytes s
  | .replicatedStoreCommit index => Sys2Proof.Machine.execReplicatedStoreCommit index s
  | .messageRecordAppend slice => Sys2Proof.Machine.execMessageRecordAppend slice s
  | .class0BoundRestored port => Sys2Proof.Machine.execClass0BoundRestored port s
  | .cxlFlitRetry => Sys2Proof.Machine.execCxlFlitRetry s

end Sys2Proof.Machine
end

