-- ==== Sys2Proof/Machine/Fetch.lean ====
section
/-!
DEFINITION. Fetching an instruction (R201, R202, R423), and the order in which pipes and engines act.
-/

namespace Sys2Proof.Machine

/-- What a fetch answers: an instruction with its length, a pattern that is none (R221) with its length, a cause, or that it must wait: for a
page of replicas that a store has locked (R193), or for a link, with the cause once that has lasted (R415). -/
inductive Fetched where
  | wait
  | cut (f : Fail) (len : Nat)
  | ok (i : Instr) (len : Nat)
  | bad (len : Nat)
  | cause (f : Fail) (len : Nat)
  deriving DecidableEq, Repr

/-- One parcel at an address, with the state after the translation has been noted; a cause is raised for the instruction's
address (R202, R423). An odd address, which `eret` can give, is fetched as it stands, and of each parcel the page of its first byte is checked
(log 80, DESIGN CHOICE); S is checked against the mode of the elected thread, also where the raft's threads are of both modes (log 53,
DEDUCED). -/
def State.parcel (s : State) (c : Ctx) (va : VAddr) (len : Nat) : Except Fetched (State × List Byte) :=
  let fail (f : Fail) : Fetched := .cause { f with detail := c.pc.setWidth 64, fetch := true } len
  match s.global c.who c.tm.asid (va.signExtend 64) va 1 { fetch := true, sup := c.elected.th.sup } [] with
  | .error f => .error (fail f)
  | .ok g =>
    if s.cutOff g.loc then .error (.cut { cutFail (c.pc.setWidth 64) false with fetch := true } len)
    else if s.lockedAt g.loc then .error .wait
    else if s.poisonAt g.loc 2 then .error (fail { cause := 0x60 })
    else .ok (s.touch c.who g.tlb false, s.readAt c.die g.loc 2)

/-- The instruction at the raft's address. -/
def State.fetch (s : State) (c : Ctx) : State × Fetched :=
  match s.parcel c c.pc 2 with
  | .error f => (s, f)
  | .ok (s1, b) =>
    let len := lengthOf (BitVec.ofNat 16 (leNat b))
    if len = 2 then
      match decode b with
      | .ok (i, _) => (s1, .ok i 2)
      | .error _ => (s1, .bad 2)
    else
      match s1.parcel c (c.pc + 2) 4 with
      | .error f => (s1, f)
      | .ok (s2, b') =>
        match decode (b ++ b') with
        | .ok (i, _) => (s2, .ok i 4)
        | .error _ => (s2, .bad 4)

/-- The next pipe after key `k` (4 * core + pipe), among the cores that hold a team. -/
def State.nextPipe (s : State) (k : Option Nat) : Option Nat :=
  s.teams.foldl (fun best t =>
    let lo := 4 * t.2.core
    let cand : Option Nat := match k with
      | none => some lo
      | some k => if k < lo then some lo else if k < lo + 3 then some (k + 1) else none
    match cand, best with
    | some x, some y => some (Nat.min x y)
    | some x, none => some x
    | none, b => b) none

def pipeTurn (k : Nat) : Turn := .pipe (k / 4) (k % 4)

/-- The turn passes: pipes in ascending order, then the engines, then the next cycle. -/
def State.passTurn (s : State) : State :=
  match s.turn with
  | .engines =>
    let s1 := s.nextCycle (s.now + 1)
    match s.nextPipe none with
    | some k => { s1 with turn := pipeTurn k }
    | none => s1
  | .pipe c p =>
    match s.nextPipe (some (4 * c + p)) with
    | some k => { s with turn := pipeTurn k }
    | none => { s with turn := .engines }

end Sys2Proof.Machine
end

