-- ==== Sys2Proof/Machine/Pick.lean ====
section
/-!
DEFINITION. What happens next: the turn of an issue pipe (R43 to R46, R374, R423), and the turn of the engines, which takes the first
event that is due (log 20). Events that come from outside the machine stand on the agenda and are never chosen here.
-/

namespace Sys2Proof.Machine

-- Events that may be due, by unit.

def State.threadEvents (s : State) : List Instr :=
  s.threads.flatMap fun x =>
    (match x.2.place with
      | .blocked (.remote _ _ _ issued _ _) _ =>
        Instr.threadWake x.1 :: (if issued + 80000 ≤ s.now then [Instr.remoteTimeout x.1] else [])
      | .blocked _ _ => [Instr.threadWake x.1]
      | _ => []) ++
    if x.2.busyV.isEmpty && x.2.busyS.isEmpty then [] else [Instr.loadDataWritten x.1]

/-- Cores that hold a team or have state of their own. -/
def State.knownCores (s : State) : List Nat := s.teams.foldl (fun l t => insertNew t.2.core l) (s.cores.map (·.1))

def State.coreEvents (s : State) : List Instr :=
  s.knownCores.flatMap fun c => [.clockWake c, .clockGate c, .matrixRunEnd c, .matrixCommandComplete c, .matrixRunStart c]

def State.teamEvents (s : State) : List Instr :=
  (s.teams.flatMap fun t =>
    (if t.2.ending then [Instr.teamEnd t.1] else []) ++
    if t.2.preempt.isSome then
      match t.2.saveAt with
      | some b => [Instr.teamSave t.1] ++ if b + watchdogLimit ≤ s.now then [Instr.watchdogExpiry t.1] else []
      | none => [Instr.teamSave t.1]
    else []) ++
  s.saved.flatMap fun x =>
    if !x.2.discard.isEmpty then [Instr.teamEnd x.2.id] else if !x.2.restoring.isEmpty then [Instr.teamRestore x.1] else []

def State.sliceEvents (s : State) : List Instr :=
  s.slices.flatMap fun x => [.faultRecordPost x.1, .messageRecordAppend x.1, .lotteryDraw x.1]

def State.clusterEvents (s : State) : List Instr :=
  s.clusters.flatMap fun x =>
    (x.2.leases.map fun l => Instr.surrenderOutcome x.1 l.1) ++ [Instr.leaseSettlement x.1] ++
    (x.2.leases.map fun l => Instr.looseReclaim x.1 l.1) ++
    (x.2.leases.flatMap fun l => match l.2.refusedAt with
      | some t => if t + holdoff ≤ s.now then [Instr.refusalHoldoffExpiry x.1 l.1] else []
      | none => []) ++
    (x.2.leases.map fun l => Instr.surrenderInjection x.1 l.1) ++
    [.sawyerCommit x.1, .passEnd x.1, .passStart x.1]

def State.jobEvents (s : State) : List Instr :=
  s.jobs.flatMap fun x => [Instr.yarderJobStart x.1] ++ (x.2.todo.map fun k => Instr.jobLanding x.1 k) ++ [Instr.jobCompletion x.1]

def State.memoryEvents (s : State) : List Instr :=
  ((List.range s.repl.length).map fun k => Instr.replicatedStoreCommit k) ++
  (if s.lag.isEmpty then [] else (List.range Config.dies).map fun d => Instr.remoteWriteApply d) ++
  (s.posted.mapIdx fun k p => if p.issued + 80000 ≤ s.now then [Instr.postedAckTimeout k] else []).flatten ++
  (s.hub.contribs.mapIdx fun k c =>
    if c.issued + 80000 ≤ s.now then [Instr.postedAckTimeout (s.posted.length + k), Instr.switchForwardTimeout k] else []).flatten ++
  if s.hub.sweptAt + sweepPeriod ≤ s.now then [.adSweep] else []

def State.displayEvents (s : State) : List Instr :=
  (s.hub.disp.flatMap fun x =>
    [Instr.fenceArrival x.1] ++ if x.2.at_ + x.2.cur.period ≤ s.now then [Instr.frameBoundary x.1] else []) ++
  s.hub.enc.map fun x => Instr.encoderFrame x.1

/-- The row of a mailbox command; whether a port that the driver retrains comes up is open. -/
def State.commandRow (s : State) (m : Mail) : Instr :=
  match m.op with
  | 0 => .version | 1 => .acceptFeatures | 2 => .createSlice | 3 => .resetSlice | 4 => .faultQueue | 5 => .setContext | 6 => .preEmpt
  | 7 => .restore | 8 => .endTeams | 9 => .invalidate | 10 => .harvest | 11 => .setWindow | 12 => .domain
  | 13 => .retrainPort (Config.portTrains s.now m.arg)
  | _ => .mailboxReservedOp

def State.mailEvents (s : State) : List Instr :=
  match s.hub.mail with
  | none => []
  | some m => [if m.status.isSome then .mailboxCompletion else s.commandRow m]

def State.portEvents (s : State) : List Instr :=
  s.hub.ports.flatMap fun x =>
    if x.2.up then (if replayLimit ≤ x.2.replays then [Instr.portDown x.1] else []) ++ (if x.2.bound0 && decide (x.2.downAt + msec ≤ s.now) then [Instr.class0BoundRestored x.1] else [])
    else if !x.2.failed && decide (x.2.downAt + retrainTime < s.now) then [Instr.portRetrainExpiry x.1] else []

/-- Events of the engines that may be due. -/
def State.candidates (s : State) : List Instr :=
  s.mailEvents ++ s.memoryEvents ++ s.threadEvents ++ s.jobEvents ++ s.coreEvents ++ s.clusterEvents ++ s.teamEvents ++ s.sliceEvents ++
  s.displayEvents ++ s.portEvents

/-- The state after the first of some events that is due. -/
def State.firstDue (s : State) : List Instr → Option State
  | [] => none
  | e :: r =>
    match exec e s with
    | .next s' => some s'
    | _ => s.firstDue r

/-- The engines' turn: it stays while an event is due. -/
def State.enginesTurn (s : State) : State :=
  match s.firstDue s.candidates with
  | some s' => s'
  | none => s.passTurn

/-- The turn passes after an outcome. -/
def passOut : Out → Out
  | .next s => .next s.passTurn
  | o => o

/-- The raft issues: its instruction is executed, or the cause of its fetch is raised (R201, R202, R221, R423). -/
def State.issueNext (s : State) (c : Ctx) : Out :=
  match s.fetch c with
  | (s1, .ok i _) => passOut (exec i s1)
  | (s1, .bad len) => passOut (exec (.unassignedEncoding len) s1)
  | (s1, .wait) => .next (s1.stall c).passTurn
  | (s1, .cut f len) => .next (s1.cutHold c c.whole f len (s1.stall c)).passTurn
  | (s1, .cause f len) => .next (s1.raiseOnce c c.whole f len).passTurn

/-- A pipe's turn: a full fault queue holds it (R374), forced filing takes its raft (R45), it waits for its cycle, it forms a raft
(R44), or it issues. -/
def State.pipeStep (s : State) (core p : Nat) : Out :=
  match s.ctx false with
  | none =>
    match exec (.raftFormation core p) s with
    | .next s' => .next s'.passTurn
    | _ => .next s.passTurn
  | some c =>
    if c.pr.hold.isSome then .next s.passTurn
    else if s.forcedDue core p then passOut (exec (.forcedFiling core p) s)
    else if s.now < c.pr.ready then .next s.passTurn
    else s.issueNext c

/-- A row of the table that is an event, not an instruction of a program. -/
def isEvent (i : Instr) : Bool := (encode i).isNone

/-- An event asked for from outside takes place, or nothing does: none of a program's instructions. -/
def State.onAgenda (s : State) (e : Instr) : Out := if isEvent e then exec e s else .fault .notDue

/-- The machine acts of itself. -/
def State.act (s : State) : Out :=
  match s.turn with
  | .engines => .next s.enginesTurn
  | .pipe c p => s.pipeStep c p

-- Placing one instruction (log 21).

/-- Where `withFetchWord` puts its instruction: the same virtual and physical address. -/
def fetchAt : Nat := 0x100000

/-- The team, of one thread, that runs it: supervisor mode off, CSRs as an admission leaves them. -/
def fetchTeam : Team :=
  let t : Team := { core := 0, slot := 0 }
  ((((t.setCsr cAGELIM 64).setCsr cSURRBND 512).setCsr cCODEBASE (BitVec.ofNat 64 fetchAt))).latch

def fetchTlb : Tlb :=
  { asid := 0, vbase := fetchAt / 0x1000, log2 := 12, pte := BitVec.ofNat 64 (fetchAt + 0x79), addr := 0, a := true, d := false }

def fetchRaft (team thread : Nat) : Raft := { team := team, pc := BitVec.ofNat 57 fetchAt, lanes := [(0, thread)] }

/-- A team of one thread on pipe 0 of core 0, its raft about to issue what stands at `fetchAt`. -/
def State.placeRaft (s : State) : State :=
  let id := s.fresh
  let th : Thread := { team := id, tnum := 0, pc := BitVec.ofNat 57 fetchAt }
  let s1 : State :=
    { s with
      agenda := [], turn := .pipe 0 0, fresh := id + 2
      teams := mput id fetchTeam s.teams
      threads := mput (id + 1) th s.threads
      tlb1 := mput 0 (fetchTlb :: mget [] 0 s.tlb1) s.tlb1
      hub := { s.hub with asids := mput 0 (mget 0 0 s.hub.asids) s.hub.asids } }
  (s1.updCore 0 fun k => { k with gated := false }).setPipe 0 0 { raft := some (fetchRaft id (id + 1)), ready := s.now }

/-- The bytes of an instruction, in a program's memory. -/
def State.placeWord (s : State) (nbits w : Nat) : State := s.placeRaft.putHome fetchAt (natLe 4 (w % 2 ^ nbits))

end Sys2Proof.Machine
end

