-- ==== Sys2Proof/Safety.lean ====
section
/-!
DEFINITION. What counts as a safe run, the form of the state that every step keeps, and the terms in which statements speak of an
instruction: that it issues (R222, R423), what its completion writes, and what it leaves unchanged.
-/

namespace Sys2Proof.Machine

/-- A run of `k` steps that ends in neither a fault nor a refusal. -/
def SafeRun (k : Nat) (s : State) : Prop := ∃ t : State, Sys2Proof.core.run k s = .next t

/-- Memory and the four on-chip memories are in canonical form, so equal contents are equal data. -/
structure State.Canon (s : State) : Prop where
  mem  : Memory.wf s.mem = true
  spad : mwf (0 : Byte) s.spad = true
  land : mwf (0 : Byte) s.land = true
  acc  : mwf (0 : Byte) s.acc = true
  wbuf : mwf (0 : Byte) s.wbuf = true

/-- No two threads, and no two teams, have one identity, and the next one is in use by no thread, on a core or saved. -/
structure State.Keyed (s : State) : Prop where
  threads : msorted 0 s.threads = true
  teams   : msorted 0 s.teams = true
  fresh   : ∀ x ∈ s.threads, x.1 < s.fresh
  saved   : ∀ x ∈ s.saved, ∀ y ∈ x.2.threads, y.1 < s.fresh

/-- A thread by its identity. -/
def State.thread (s : State) (id : Nat) : Option Thread := mfind id s.threads

/-- An instruction with the needs `o` issues from the raft `c` of the pipe in turn: none of the causes and stalls that all
instructions share is met (R222, R423, R113, R220, R213, R281, R395). -/
structure Ready (o : Issue) (s : State) (c : Ctx) : Prop where
  raft  : s.ctx o.alu = some c
  /-- An injected thread issues within SURRBND, and nothing that R113 forbids it. -/
  bound : ∀ i, c.injected = some i → o.noInj = false ∧ i.count < (c.tm.csrv cSURRBND).toNat
  /-- A supervisor-only instruction is issued by supervisor threads. -/
  mode  : o.priv = true → ∀ l ∈ c.lns, l.th.sup = true
  /-- The latches read are valid. -/
  valid : ∀ l ∈ c.lns, ∀ n ∈ o.y, n < l.lat.length
  /-- No register read awaits a load. -/
  free  : ∀ l ∈ o.lanes c, o.busy l = false
  /-- No register read is poisoned. -/
  clean : ∀ l ∈ o.lanes c, o.poisoned c.tm l = none

/-- The lane in which a thread stands. -/
def Ctx.laneOf (c : Ctx) (id : Nat) : Option Ln := c.lns.find? fun l => l.tid == id

/-- Nothing but threads, teams and pipes differs: memories, engines, units and the hub are as before. -/
def OnlyRegisters (s t : State) : Prop := t = { s with threads := t.threads, teams := t.teams, pipes := t.pipes }

/-- Nothing but pipes differs. -/
def OnlyPipes (s t : State) : Prop := t = { s with pipes := t.pipes }

/-- The raft `c` of state `s` goes on at `pc` on its pipe in state `t`, and every other pipe is as it was. -/
structure AtPc (s t : State) (c : Ctx) (pc : VAddr) : Prop where
  raft  : (t.pipe c.core c.p).raft = (s.pipe c.core c.p).raft.map fun r => { r with pc := pc }
  pipes : ∀ j, j ≠ 4 * c.core + c.p → mfind j t.pipes = mfind j s.pipes

/-- The same after an instruction whose end is a switch point: the latches are invalid, and a new run begins (R214). -/
structure GoesOn (s t : State) (c : Ctx) (pc : VAddr) : Prop extends AtPc s t c pc where
  latches : (t.pipe c.core c.p).latches = []
  run     : (t.pipe c.core c.p).run = 0

/-- What an instruction does in one lane: what becomes of its thread, and what its latches shift in (R213). -/
structure LaneOut where
  th  : Thread
  lat : Option Latch := none

/-- An instruction of `len` bytes has completed in every lane of the raft `c`: thread by thread what it writes, in FLAGS the
exceptions `exc`, in the latches its result where it has a vector destination (R213), the raft at the next instruction, and nothing
else. (A lane's latches are stated where no other lane of the raft bears its number, as in every state that a run reaches.) -/
structure Completed (s t : State) (c : Ctx) (len : Nat) (exc : BitVec 7) (w : Ln → LaneOut) : Prop where
  rest   : OnlyRegisters s t
  lanes  : ∀ id l, c.laneOf id = some l → t.thread id = some (w l).th
  others : ∀ id, c.laneOf id = none → t.thread id = s.thread id
  flags  : t.team c.team = (s.team c.team).map fun x => if exc = 0 then x else x.setCsr cFLAGS (x.csrv cFLAGS ||| exc.setWidth 64)
  teams  : ∀ k, k ≠ c.team → t.team k = s.team k
  raft   : AtPc s t c (c.pc + BitVec.ofNat 57 len)
  latches : ∀ l ∈ c.lns, (∀ m ∈ c.lns, m.lane = l.lane → m = l) → mget [] l.lane (t.pipe c.core c.p).latches = match (w l).lat with
    | some y => (y :: l.lat).take 4
    | none => l.lat
  run    : (t.pipe c.core c.p).run = if 16 ≤ c.pr.run then 1 else c.pr.run + 1

/-- A vector destination: a suppressed one discards the write to the register (R12, R208), and the result is shifted into y0 in either
case. -/
def Ln.put (l : Ln) (d : Dst) (x : Word) (tag : BitVec 4) : LaneOut :=
  { th := if d.sup then l.th else l.th.setReg d.n.toNat x tag, lat := some { val := x.setWidth 64, tag := tag } }

/-- A pair of vector registers as the destination. -/
def Ln.putPair (l : Ln) (d : Dst) (x : DWord) (tag : BitVec 4) : LaneOut :=
  { th := if d.sup then l.th else l.th.setPair d.n.toNat x tag, lat := some { val := x, tag := tag } }

/-- A predicate as the destination: no latch changes. -/
def Ln.putP (l : Ln) (p : BitVec 3) (b : Bool) : LaneOut := { th := l.th.setPred p b }

/-- An instruction of `len` bytes that executes once has completed: it has changed its team, and no thread. -/
structure CompletedOnce (s t : State) (c : Ctx) (len : Nat) (f : Team → Team) : Prop where
  rest  : OnlyRegisters s t
  threads : t.threads = (s.counted c).threads
  team  : t.team c.team = (s.team c.team).map f
  teams : ∀ k, k ≠ c.team → t.team k = s.team k
  raft  : AtPc s t c (c.pc + BitVec.ofNat 57 len)

/-- An operand that an instruction of a class accepts: its tag is in the class or NONE, or it carries none (R76, R77). -/
def Opd.fits (o : Opd) (cls : BitVec 4 → Bool) : Prop := ∀ t, o.tag = some t → cls t = true ∨ t = tNone

/-- FI: an operand of a class was read as NONE (R77). -/
def Opd.fi (o : Opd) (cls : BitVec 4 → Bool) : BitVec 7 := if o.tag = some tNone && !cls tNone then fFI else 0

/-- The exceptions of a raft: the OR over its lanes (R85). -/
def Ctx.excOf (c : Ctx) (f : Ln → BitVec 7) : BitVec 7 := c.lns.foldl (fun e l => e ||| f l) 0

/-- Instruction `i` of needs `o`, issued from the raft `c`: with every lane's operands fit and no trap enabled for an exception
of a lane, exec answers a next state in which each lane's thread is `w` of it. -/
def Computes (i : Instr) (s : State) (c : Ctx) (o : Issue) (fits : Ln → Prop) (exc : Ln → BitVec 7) (w : Ln → LaneOut) :
    Prop :=
  Ready o s c → (∀ l ∈ c.counted.lns, fits l) → (∀ l ∈ c.counted.lns, c.tm.enabled (exc l) = 0) →
    ∃ t, exec i s = .next t ∧ Completed s t c.counted o.len (c.counted.excOf exc) w

/-- The same of an instruction that executes once and writes team registers: it changes no latch, and counts one run position (R213). -/
def ComputesOnce (i : Instr) (s : State) (c : Ctx) (o : Issue) (fits : Prop) (exc : BitVec 7) (f : Team → Team) : Prop :=
  Ready o s c → fits → c.tm.enabled exc = 0 →
    ∃ t, exec i s = .next t ∧
      (CompletedOnce s t c o.len fun x => if exc = 0 then f x else (f x).setCsr cFLAGS ((f x).csrv cFLAGS ||| exc.setWidth 64)) ∧
      (t.pipe c.core c.p).latches = (if 16 ≤ c.pr.run then [] else c.pr.latches) ∧
      (t.pipe c.core c.p).run = if 16 ≤ c.pr.run then 1 else c.pr.run + 1

-- Integer arithmetic, logic and moves.

/-- The operands A and B of an R-format ALU instruction. -/
def two (a b : Src) : Issue := { alu := true, srcs := [a, b] }
def one (a : Src) : Issue := { alu := true, srcs := [a] }

/-- The exact result of a saturating or wrapping form after R84: clamped to the type's range, or as it is. -/
def saturate (u sat : Bool) (e : Int) : Int := if sat then max (loOf u) (min (hiOf u) e) else e
/-- SAT: the result was clamped. -/
def saturated (u sat : Bool) (e : Int) : BitVec 7 := if sat && (decide (e < loOf u) || decide (hiOf u < e)) then fSAT else 0

/-- An instruction whose integer result is the exact `e` of A and B, clamped or wrapped (R226, R227). -/
def IntResult (i : Instr) (s : State) (c : Ctx) (u sat : Bool) (e : Int → Int → Int) (a b : Src) (d : Dst) : Prop :=
  let x (l : Ln) : Opd := src32 .int c.tm l a
  let y (l : Ln) : Opd := src32 .int c.tm l b
  let r (l : Ln) : Int := e (ex u (x l).w) (ex u (y l).w)
  Computes i s c (two a b) (fun l => (x l).fits clsInt ∧ (y l).fits clsInt)
    (fun l => saturated u sat (r l) ||| (x l).fi clsInt ||| (y l).fi clsInt)
    fun l => l.put d (BitVec.ofInt 32 (saturate u sat (r l))) (if u then tU32 else tI32)

/-- A quotient and a remainder need a divisor other than zero in every lane. -/
def DivResult (i : Instr) (s : State) (c : Ctx) (u : Bool) (e : Int → Int → Int) (a b : Src) (d : Dst) : Prop :=
  (∀ l ∈ c.counted.lns, (src32 .int c.tm l b).w ≠ 0) → IntResult i s c u false e a b d

/-- An instruction of class "any" whose result takes A's tag (R224, R229). -/
def AnyResult (i : Instr) (s : State) (c : Ctx) (op : Word → Word → Word) (a b : Src) (d : Dst) : Prop :=
  Computes i s c (two a b) (fun _ => True) (fun _ => 0) fun l =>
    l.put d (op (src32 .int c.tm l a).w (src32 .int c.tm l b).w) ((src32 .int c.tm l a).tag.getD tI32)

/-- An instruction of class "any" with one source. -/
def UnaryResult (i : Instr) (s : State) (c : Ctx) (op : Word → Word) (tag : Option (BitVec 4)) (a : Src) (d : Dst) : Prop :=
  Computes i s c (one a) (fun _ => True) (fun _ => 0) fun l =>
    l.put d (op (src32 .int c.tm l a).w) (tag.getD ((src32 .int c.tm l a).tag.getD tI32))

/-- The operands of a T-format ALU instruction: C is a vector register. -/
def three (a b : Src) (c : BitVec 6) : Issue := { alu := true, srcs := [a, b, .v c] }

/-- An instruction that writes predicate `p` from a test of integers E(A) and E(B), B given per lane (R230). -/
def TestResult (i : Instr) (s : State) (c : Ctx) (o : Issue) (u : Bool) (test : Int → Int → Prop) (inv : Bool) (x y : Ln → Opd)
    (p : BitVec 3) : Prop :=
  ∀ q : Ln → Bool, (∀ l, q l = true ↔ (test (ex u (x l).w) (ex u (y l).w) ↔ inv = false)) →
    Computes i s c o (fun l => (x l).fits clsInt ∧ (y l).fits clsInt) (fun l => (x l).fi clsInt ||| (y l).fi clsInt) fun l =>
      l.putP p (q l)

/-- A constant operand: a 9-bit immediate, sign-extended. -/
def imm9 (imm : BitVec 9) : Word := imm.signExtend 32

-- Floating point.

/-- The operands an instruction reads in a lane, in order, with the class of each (R76). -/
structure Reads where
  ops : Ln → List (Opd × (BitVec 4 → Bool))

def Reads.fit (r : Reads) (l : Ln) : Prop := ∀ x ∈ r.ops l, x.1.fits x.2
def Reads.fi (r : Reads) (l : Ln) : BitVec 7 := (r.ops l).foldr (fun x e => x.1.fi x.2 ||| e) 0
/-- The position of the first operand out of its class in a lane, from 1 (R72). -/
def Reads.bad (r : Reads) (l : Ln) : Option Nat := ((r.ops l).findIdx? fun x => tagBad x.2 x.1.tag).map (· + 1)

/-- Where an arithmetic instruction traps (R72, R85, R222, R426), with a lane's operand out of class at position `bad`, a cause of its own
where `own` holds, and the exceptions `exc`. A tag comes first, 0x04 with its position; then the cause of its own, 0x49; then an exception
that TRAPEN enables, 0x48 with those enabled of the raft's. -/
structure Traps (i : Instr) (s : State) (c : Ctx) (o : Issue) (bad : Ln → Option Nat) (own : Ln → Bool) (exc : Ln → BitVec 7) : Prop where
  tagged : ∀ l k, Ready o s c → c.counted.raiser (fun x => (bad x).isSome) = some l → bad l = some k →
    exec i s = .next ((s.counted c).raise c.counted l { cause := 0x04, detail := BitVec.ofNat 64 k } o.len)
  caused : ∀ l, Ready o s c → (∀ x ∈ c.counted.lns, bad x = none) → c.counted.raiser own = some l →
    exec i s = .next ((s.counted c).raise c.counted l { cause := 0x49 } o.len)
  excepted : ∀ l, Ready o s c → (∀ x ∈ c.counted.lns, bad x = none ∧ own x = false) →
    c.counted.raiser (fun x => c.tm.enabled (exc x) != 0) = some l →
    exec i s = .next
      ((s.counted c).raise c.counted l { cause := 0x48, detail := (c.tm.enabled (c.counted.excOf exc)).setWidth 64 } o.len)

/-- The same of an instruction with the operands `r`, whose result has the exceptions `exc`. -/
def TrapsOn (i : Instr) (s : State) (c : Ctx) (o : Issue) (r : Reads) (exc : Ln → BitVec 7) : Prop :=
  Traps i s c o r.bad (fun _ => false) fun l => exc l ||| r.fi l

/-- A 32-bit result of format `f`, tagged by it: `res` gives its bits and exceptions in each lane. -/
def FloatResult (i : Instr) (s : State) (c : Ctx) (o : Issue) (r : Reads) (tag : BitVec 4) (res : Ln → FRes) (d : Dst) : Prop :=
  Computes i s c o r.fit (fun l => (res l).exc ||| r.fi l) fun l => l.put d (BitVec.ofNat 32 (res l).bits) tag

/-- A 64-bit result in a register pair. -/
def PairResult (i : Instr) (s : State) (c : Ctx) (o : Issue) (r : Reads) (tag : BitVec 4) (res : Ln → FRes) (d : Dst) : Prop :=
  Computes i s c o r.fit (fun l => (res l).exc ||| r.fi l) fun l => l.putPair d (BitVec.ofNat 64 (res l).bits) tag

/-- A predicate result. -/
def FTestResult (i : Instr) (s : State) (c : Ctx) (o : Issue) (r : Reads) (res : Ln → Bool) (exc : Ln → BitVec 7) (p : BitVec 3) :
    Prop :=
  Computes i s c o r.fit (fun l => exc l ||| r.fi l) fun l => l.putP p (res l)

/-- Operands read at 32 bits under one format and class. -/
def reads32 (col : Col) (c : Ctx) (cls : BitVec 4 → Bool) (srcs : List Src) : Reads :=
  ⟨fun l => srcs.map fun a => (src32 col c.tm l a, cls)⟩
def reads64 (c : Ctx) (srcs : List Src) : Reads := ⟨fun l => srcs.map fun a => (src64 .f64 c.tm l a, cF64)⟩

/-- The value of a 32-bit operand in F32, and of a 64-bit one in F64. -/
def val32 (c : Ctx) (l : Ln) (a : Src) : FVal := Fmt.f32.decode (src32 .f32 c.tm l a).w.toNat
def val64 (c : Ctx) (l : Ln) (a : Src) : FVal := Fmt.f64.decode (src64 .f64 c.tm l a).val.toNat
/-- Element `j` of a packed operand in format `f`. -/
def val16 (f : Fmt) (c : Ctx) (l : Ln) (a : Src) (j : Nat) : FVal := f.decode (half (src32 f.col c.tm l a).w.toNat j)

/-- The needs of instructions on 64-bit operands. -/
def wide2 (a b : Src) : Issue := { alu := true, wide := [a, b] }

/-- Two packed results. -/
def packed (r : Nat → FRes) : FRes := { bits := (r 0).bits + 2 ^ 16 * (r 1).bits, exc := (r 0).exc ||| (r 1).exc }

/-- The needs of `cvt` with literal `k`: one operand of 64 bits, or the registers of a packing code. -/
def cvtNeeds (k : Nat) (a : Src) : Issue :=
  if cvtIsWide k then { alu := true, wide := [a] } else { alu := true, srcs := groupSrcs (cvtRegs k) a }

/-- The operands of `cvt` as it reads them. -/
def cvtReads (k : Nat) (c : Ctx) (a : Src) : Reads :=
  if cvtIsWide k then ⟨fun l => [(src64 (cvtCol k) c.tm l a, cvtCls k)]⟩
  else ⟨fun l => (groupSrcs (cvtRegs k) a).map fun r => (src32 (cvtCol k) c.tm l r, cvtCls k)⟩

/-- The F32 value that element `j` of lane `k` brings to `qnt4`: zero where the lane is not active (R270). -/
def qntIn (c : Ctx) (a : BitVec 6) (k j : Nat) : FVal :=
  match c.laneAt k with
  | some l => Fmt.f32.decode (l.th.reg (a.toNat + j)).val.toNat
  | none => .fin false 0 0

/-- The 64 codes of a group, and its exceptions (R89, R270). -/
def qntGroup (c : Ctx) (a : BitVec 6) (sg : FVal) : List Nat × BitVec 7 :=
  let ps := (List.range 32).map fun k => qntPair sg (qntIn c a k 0) (qntIn c a k 1)
  (ps.flatMap fun p => [p.1.1, p.1.2], ps.foldl (fun f p => f ||| p.2) 0)

/-- The code plane `k` that `dqnt4` reads from lanes 2k and 2k + 1 (R271). -/
def dqntPlane (c : Ctx) (a : Src) (k : Nat) : Nat :=
  let word (j : Nat) : Nat := match c.laneAt j with
    | some l => (src32 .int c.tm l a).w.toNat
    | none => 0
  word (2 * k) + 2 ^ 32 * word (2 * k + 1)

-- Control transfer and filing.

/-- The raft goes on at `pc` after a switch point, its latches invalid (R214), with nothing else changed. -/
structure Jumped (s t : State) (c : Ctx) (pc : VAddr) : Prop where
  rest : t = { s.counted c with pipes := t.pipes }
  goes : GoesOn s t c pc

/-- A thread that waits at `pc`, in a deck or spilled (R40), and is otherwise as it was. -/
structure Filed (a b : Thread) (pc : VAddr) : Prop where
  same  : a = { b with pc := pc, place := a.place }
  waits : ∃ n, a.place = .deck n ∨ a.place = .spill n

/-- A thread that is as it was, but that a deck freed may have taken it from the spill list (R40). -/
def Unmoved (a b : Thread) : Prop := a = b ∨ ∃ n, b.place = .spill n ∧ a = { b with place := .deck n }

/-- Nothing but threads, pipes and the cores' spill lists differs. -/
def OnlyFiling (s t : State) : Prop := t = { s with threads := t.threads, pipes := t.pipes, cores := t.cores }

/-- The last lane in which a thread stands: its only one, in a state that a run reaches. -/
def Ctx.lastOf (c : Ctx) (id : Nat) : Option Ln := c.lns.reverse.find? fun l => l.tid == id

/-- The raft's threads, changed by `g`, wait each at its own address, and its pipe is free (R47, R44). -/
structure FiledAs (s t : State) (c : Ctx) (g : Thread → Thread) (target : Ln → VAddr) : Prop where
  lanes  : ∀ id l, c.lastOf id = some l → ∃ a b, t.thread id = some a ∧ s.thread id = some b ∧ Filed a (g b) (target l)
  others : ∀ id, c.lastOf id = none → ∀ b, s.thread id = some b → ∃ a, t.thread id = some a ∧ Unmoved a b
  free   : (t.pipe c.core c.p).raft = none
  rafts  : ∀ k p, 4 * k + p ≠ 4 * c.core + c.p → (t.pipe k p).raft = (s.pipe k p).raft

/-- The raft is filed, and nothing else happens. -/
structure FiledEach (s t : State) (c : Ctx) (target : Ln → VAddr) : Prop where
  rest  : OnlyFiling s t
  filed : FiledAs (s.counted c) t c id target

-- Causes.

/-- The raft has entered its handler with a cause that lane `l` raised (R375, R72): the trap CSRs written, its threads in supervisor
mode at TRAPV.VEC || 0, the trap in service, and nothing else changed. -/
structure Entered (s t : State) (c : Ctx) (l : Ln) (f : Fail) (len : Nat) : Prop where
  rest  : t = { s with threads := t.threads, teams := t.teams, pipes := t.pipes, cores := t.cores }
  team  : t.team c.team = (s.team c.team).map fun x =>
    { ((x.setCsr cTRAPCAUSE (BitVec.ofNat 64 (f.cause + 0x100 * l.lane))).setCsr cTRAPPC (c.pc.setWidth 64)).setCsr cTRAPADDR f.detail with
      inService := true, trapLen := len }
  teams : ∀ k, k ≠ c.team → t.team k = s.team k
  filed : ∀ x, s.team c.team = some x →
    FiledAs s t c (fun b => { b with sup := true }) fun _ => (x.csrv cTRAPV).setWidth 57 &&& ~~~1

/-- The team of the raft has ended on a fault that lane `l` met (R380): no thread of it is left, its rafts have stopped, and a record of
KIND 1 with the slice's next SEQ waits for the fault queue. -/
structure EndedOnFault (s t : State) (c : Ctx) (l : Ln) (f : Fail) : Prop where
  rest   : t = { s with threads := t.threads, teams := t.teams, pipes := t.pipes, cores := t.cores, clusters := t.clusters, slices := t.slices }
  gone   : ∀ id a, t.thread id = some a → a.team ≠ c.team
  others : ∀ id b, s.thread id = some b → b.team ≠ c.team → ∃ a, t.thread id = some a ∧ Unmoved a b
  rafts  : ∀ k p r, (t.pipe k p).raft = some r → r.team ≠ c.team ∧ (s.pipe k p).raft = some r
  team   : ∀ x, s.team c.team = some x → ∃ y, t.team c.team = some y ∧
    y = { x with ending := true, inService := false, heldQ := [], parkedQ := [], routine := none, tags := y.tags } ∧
    ∀ k, t.slice k = if k = x.slice then
      { s.slice k with
        fqWait := (s.slice k).fqWait ++ [Rec.bytes { c.recOf l f with kind := 1, lanes := 0 } (s.slice k).seq]
        seq := (s.slice k).seq + 1 }
      else s.slice k
  teams  : ∀ k, k ≠ c.team → t.team k = s.team k

-- Memory.

/-- Addresses of the table entries whose A and D are gathered in a TLB (R117): an access may write them there. -/
def State.tableBytes (s : State) : List Nat := s.tlbEntries.map fun e => e.addr

/-- Every byte of memory reads as before, at its home and in every die, but those of `except` and of table entries. -/
def SameMemory (s t : State) (except : Nat → Prop) : Prop :=
  ∀ a, ¬ except a → a ∉ s.tableBytes → t.home a = s.home a ∧ ∀ d, d < 4 → t.view d a = s.view d a

/-- Every byte of memory reads as before at its home, but those of `except` and of table entries. -/
def SameHome (s t : State) (except : Nat → Prop) : Prop := ∀ a, ¬ except a → a ∉ s.tableBytes → t.home a = s.home a

def Loc.isMem : Loc → Bool
  | .mem _ _ => true
  | _ => false

/-- Nothing but the TLBs, memory and what belongs to it differs. -/
def OnlyMemory (s t : State) : Prop :=
  t = { s with tlb1 := t.tlb1, tlb2 := t.tlb2, mem := t.mem, stale := t.stale, lag := t.lag, vc := t.vc, psnMem := t.psnMem }

/-- The raft's instruction is done in every lane, each lane's thread being `w` of it, and the raft goes on after its four bytes. -/
structure Stepped (s t : State) (c : Ctx) (w : Ln → Thread) : Prop where
  lanes  : ∀ id l, c.laneOf id = some l → t.thread id = some (w l)
  others : ∀ id, c.laneOf id = none → t.thread id = s.thread id
  raft   : GoesOn s t c (c.pc + 4)

/-- A lane of the raft whose thread stands in no other. -/
def Ctx.Sole (c : Ctx) (l : Ln) : Prop := c.laneOf l.tid = some l ∧ c.lastOf l.tid = some l

/-- The byte that the last of some lanes' stores leaves at `a`: `at_` where each begins, `bytes` what it stores (R279). -/
def lastStored (ls : List Ln) (at_ : Ln → Nat) (bytes : Ln → List Byte) (a : Nat) : Option Byte :=
  (ls.reverse.find? fun l => decide (at_ l ≤ a ∧ a < at_ l + (bytes l).length)).map fun l => (bytes l).getD (a - at_ l) 0

/-- Threads blocked on a barrier object may have been noted as woken; nothing else about threads differs. -/
def BarsMarked (s t : State) : Prop :=
  ∀ id, t.thread id = s.thread id ∨ ∃ b o k, s.thread id = some b ∧ b.place = .blocked (.bar o k) false ∧
    t.thread id = some { b with place := .blocked (.bar o k) true }

/-- The lanes `ps` of the raft, the lowest `l0`, park at its instruction on the cause `f`, with one record of KIND 0 that names them all, and no
pipe has the raft any more (R368, R370, R371). -/
structure PartParked (s t : State) (c : Ctx) (l0 : Ln) (f : Fail) (ps : List Ln) : Prop where
  parked : ∀ l ∈ ps, c.Sole l → t.thread l.tid = some { l.th with place := .parked, pc := c.pc }
  others : ∀ id, c.laneOf id = none → ∀ b, s.thread id = some b → ∃ a, t.thread id = some a ∧ Unmoved a b
  free   : (t.pipe c.core c.p).raft = none
  told   : let r : Rec := { c.recOf l0 f with lanes := maskOf ps, len := 4 }
    (∀ k, t.slice k = if k = c.tm.slice then
      { s.slice k with fqWait := (s.slice k).fqWait ++ [r.bytes (s.slice k).seq], seq := (s.slice k).seq + 1 } else s.slice k) ∧
    ∀ k, t.team k = if k = c.team then
      (s.team k).map fun x => { x with parkedQ := x.parkedQ ++ [{ seq := (s.slice c.tm.slice).seq, rec_ := r }] } else s.team k

/-- Some lanes of the raft meet a cause that parks, `bad`, the lowest of them being `l0` with `f`; the others have none, and their access is `acc` of
them (R370). -/
structure PartBad (c : Ctx) (check : Ln → Except Fail (GAcc × VAddr)) (bad : Ln → Option Fail) (acc : Ln → GAcc × VAddr) (l0 : Ln) (f : Fail) :
    Prop where
  bads   : ∀ l ∈ c.lns, ∀ g, bad l = some g → check l = .error g ∧ g.park = true ∧ l.th.sup = false ∧ l.th.inj = none
  goods  : ∀ l ∈ c.lns, bad l = none → check l = .ok (acc l)
  first  : ∃ r, c.lns.filter (fun l => (bad l).isSome) = l0 :: r ∧ ∀ l ∈ r, l0.lane < l.lane
  cause  : bad l0 = some f

-- Matrix products.

/-- The rational that a finite value is; 0 for another. -/
def FVal.exact : FVal → ℚ
  | .fin neg m e => (if neg then -1 else 1) * m * (2 : ℚ) ^ e
  | _ => 0

def FVal.finite : FVal → Prop
  | .fin _ _ _ => True
  | _ => False

/-- The integer of an integer element. -/
def FVal.int : FVal → Int
  | .fin neg m _ => if neg then -m else m
  | _ => 0

/-- The number in `n` bytes from `at_` on, the lowest first. -/
def numAt (f : Nat → Byte) (at_ n : Nat) : Nat := leNat ((List.range n).map fun j => f (at_ + j))

/-- Bytes of an element of a type (R168), and the value of an element's bits, with IV for a signalling NaN (R80, R91). -/
def elemSize (ty : Nat) : Nat := if ty = 4 then 8 else if ty = 3 then 4 else if ty = 5 ∨ ty = 6 then 2 else 1
def elemVal (ty x : Nat) : Term :=
  if ty = 9 then (intVal (BitVec.ofNat 8 x).toInt, false) else ((tyFmt ty).decode x, ((tyFmt ty).decode x).isSig)

/-- Element (r, q) of a dense operand of `rows` rows or columns of `depth` elements whose bytes are `f` (R168). One of N4P has 64 codes to a group,
bit p of code e at bit e of the group's 8-byte plane p, and its scales after the data; `planes` of them are read, or all (R90, R86 to R88). -/
def denseElem (ty planes rows depth : Nat) (f : Nat → Byte) (r q : Nat) : Term :=
  if ty = 10 then
    let grp := r * (depth / 64) + q / 64
    let bit (p e : Nat) : Nat := if (f (32 * grp + 8 * p + e / 8)).getLsbD (e % 8) then 2 ^ p else 0
    let code (e : Nat) : Nat := bit 0 e + bit 1 e + bit 2 e + bit 3 e
    let e := q % 64
    let pair := pairVals (code (e / 2 * 2)) (code (e / 2 * 2 + 1))
    let v : Option FVal :=
      if planes = 0 then if e % 2 = 1 then pair.2 else pair.1
      else some (codeVal (code e &&& if planes = 2 then 0xC else 0xE))
    let sg := Fmt.bf16.decode (numAt f (rows * depth / 2 + 2 * grp) 2)
    (scaled sg v, sg.isSig || (v.map fun x => mulInvalid x sg).getD false)
  else elemVal ty (numAt f ((r * depth + q) * elemSize ty) (elemSize ty))

/-- Element (r, q) of A in headed lines of 128 bytes (R175): the mask first, then the values present in order, at most as many as fit; an absent one
is +0. -/
def headedElem (ty depth : Nat) (f : Nat → Byte) (r q : Nat) : Term :=
  let per := if ty = 5 ∨ ty = 6 then 64 else 128
  let at_ := 128 * (r * (depth / per) + q / per)
  let here (i : Nat) : Bool := (f (at_ + i / 8)).getLsbD (i % 8)
  let n := (List.range (q % per)).countP here
  if here (q % per) = true ∧ n < (if ty = 5 ∨ ty = 6 then 60 else 112) then elemVal ty (numAt f (at_ + per / 8 + n * elemSize ty) (elemSize ty))
  else (.fin false 0 0, false)

-- Links.

/-- What `w` waits for is there (no link is missing: `cut` is false), or it has waited 80,000 cycles (R369). -/
def State.linked (s : State) (w : Waiter) (cut : Bool) : Prop :=
  cut = false ∨ ∃ t0, mfind w.key s.waits = some t0 ∧ t0 + 80000 ≤ s.now

/-- The event `i` waits for a link: it notes the wait once, and changes nothing else of `s1`; it then does not take place for 80,000 cycles. -/
def WaitsForLink (i : Instr) (s s1 : State) (w : Waiter) : Prop :=
  (mfind w.key s.waits = none → exec i s = .next { s1 with waits := mput w.key s1.now s1.waits }) ∧
  ∀ t0, mfind w.key s.waits = some t0 → s1.now < t0 + 80000 → exec i s = .fault .notDue

/-- Every write of a place has been seen by a die, which is what an acquire does (R189). -/
def CaughtUp (t : State) (d : Nat) : Prop := ∀ a, t.view d a = t.home a

end Sys2Proof.Machine
end

