-- ==== Sys2Proof/Certificates/Slice0/Obligations.lean ====
section
/-!
DEFINITION. The statements for the provers: what the spec's rules say each family of instructions and each event does, where it
completes, what it leaves unchanged, and where it traps.
-/

section
open Sys2Proof Sys2Proof.Machine

/-- R227, R228: sums, differences, products, minima, maxima and distances of E(A) and E(B), computed exactly and then wrapped, or clamped
with SAT; the tag is U32 or I32; nothing else is written. -/
def Obligations.IntegerArithmeticResults : Prop :=
  ∀ (s : State) (c : Ctx) (u sat : Bool) (a b : Src) (d : Dst),
    IntResult (.add u sat a b d) s c u sat (fun x y => x + y) a b d ∧
    IntResult (.sub u sat a b d) s c u sat (fun x y => x - y) a b d ∧
    IntResult (.mul u sat a b d) s c u sat (fun x y => x * y) a b d ∧
    IntResult (.mulh u a b d) s c u false (fun x y => Int.fdiv (x * y) (2 ^ 32)) a b d ∧
    IntResult (.min u a b d) s c u false min a b d ∧
    IntResult (.max u a b d) s c u false max a b d ∧
    IntResult (.absd u a b d) s c u false (fun x y => |x - y|) a b d

/-- R227: a quotient is truncated toward zero and a remainder goes with it, where no lane's divisor is zero. -/
def Obligations.DivisionResults : Prop :=
  ∀ (s : State) (c : Ctx) (u : Bool) (a b : Src) (d : Dst),
    DivResult (.div u a b d) s c u Int.tdiv a b d ∧ DivResult (.rem u a b d) s c u Int.tmod a b d

/-- R228, R229: logic, shifts by the whole of B, rotation and bit counts; R241: byte permutation; R237: `mov`. -/
def Obligations.LogicShiftResults : Prop :=
  ∀ (s : State) (c : Ctx) (inv : Bool) (a b : Src) (d : Dst),
    AnyResult (.and inv a b d) s c (fun x y => if inv then ~~~(x &&& y) else x &&& y) a b d ∧
    AnyResult (.or inv a b d) s c (fun x y => if inv then ~~~(x ||| y) else x ||| y) a b d ∧
    AnyResult (.xor inv a b d) s c (fun x y => if inv then ~~~(x ^^^ y) else x ^^^ y) a b d ∧
    AnyResult (.andn inv a b d) s c (fun x y => if inv then ~~~(x &&& ~~~y) else x &&& ~~~y) a b d ∧
    AnyResult (.shl a b d) s c (fun x y => BitVec.ofNat 32 (x.toNat * 2 ^ y.toNat)) a b d ∧
    AnyResult (.shr a b d) s c (fun x y => BitVec.ofNat 32 (x.toNat / 2 ^ y.toNat)) a b d ∧
    AnyResult (.sar a b d) s c (fun x y => BitVec.ofInt 32 (x.toInt / 2 ^ y.toNat)) a b d ∧
    AnyResult (.rot a b d) s c (fun x y => x.rotateLeft y.toNat) a b d ∧
    AnyResult (.prmt a b d) s c prmtOf a b d ∧
    UnaryResult (.clz a d) s c (fun x => if x = 0 then 32 else BitVec.ofNat 32 (31 - Nat.log2 x.toNat)) (some tI32) a d ∧
    UnaryResult (.popc a d) s c (fun x => BitVec.ofNat 32 ((List.range 32).countP x.getLsbD)) (some tI32) a d ∧
    UnaryResult (.brev a d) s c (fun x => x.reverse) none a d ∧
    UnaryResult (.mov a d) s c (fun x => x) none a d

/-- R230, R231, R232: compares write a predicate, inverted or not; `sel` chooses by one; `mad` and `bfi` write vD. -/
def Obligations.CompareSelectResults : Prop :=
  ∀ (s : State) (c : Ctx) (inv u : Bool) (a b : Src) (r : BitVec 6) (p : BitVec 3) (q : BitVec 2) (d : Dst) (e : BitVec 6),
    let x (l : Ln) : Opd := src32 .int c.tm l a
    let y (l : Ln) : Opd := src32 .int c.tm l b
    let z (l : Ln) : Opd := src32 .int c.tm l (.v r)
    TestResult (.cmpeq inv a b p) s c (two a b) false (fun x y => x = y) inv x y p ∧
    TestResult (.cmplt inv u a b p) s c (two a b) u (fun x y => x < y) inv x y p ∧
    TestResult (.cmple inv u a b p) s c (two a b) u (fun x y => x ≤ y) inv x y p ∧
    Computes (.sel q a b d) s c { two a b with pr := true } (fun _ => True) (fun _ => 0)
      (fun l => l.put d (if l.th.p.getLsbD q.toNat then (x l).w else (y l).w) ((x l).tag.getD tI32)) ∧
    Computes (.mad a b r e) s c (three a b r) (fun l => (x l).fits clsInt ∧ (y l).fits clsInt ∧ (z l).fits clsInt)
      (fun l => (x l).fi clsInt ||| (y l).fi clsInt ||| (z l).fi clsInt)
      (fun l => l.put ⟨false, e⟩ ((x l).w * (y l).w + (z l).w) tI32) ∧
    Computes (.bfi a b r e) s c (three a b r) (fun _ => True) (fun _ => 0)
      (fun l => l.put ⟨false, e⟩ (bfiOf (x l).w (y l).w (z l).w) ((x l).tag.getD tI32))

/-- R233, R234: immediate forms, the constant sign-extended, a shift count as it is. -/
def Obligations.ImmediateResults : Prop :=
  ∀ (s : State) (c : Ctx) (imm : BitVec 9) (sh : BitVec 5) (half : BitVec 16) (a : Src) (p : BitVec 3) (d : Dst),
    let x (l : Ln) : Opd := src32 .int c.tm l a
    let k (_ : Ln) : Opd := ⟨(imm9 imm).setWidth 64, none⟩
    let any (op : Word → Word) (l : Ln) : LaneOut := l.put d (op (x l).w) ((x l).tag.getD tI32)
    Computes (.addi imm a d) s c (one a) (fun l => (x l).fits clsInt) (fun l => (x l).fi clsInt)
      (fun l => l.put d ((x l).w + imm9 imm) tI32) ∧
    Computes (.andi imm a d) s c (one a) (fun _ => True) (fun _ => 0) (any fun x => x &&& imm9 imm) ∧
    Computes (.ori imm a d) s c (one a) (fun _ => True) (fun _ => 0) (any fun x => x ||| imm9 imm) ∧
    Computes (.xori imm a d) s c (one a) (fun _ => True) (fun _ => 0) (any fun x => x ^^^ imm9 imm) ∧
    Computes (.shli sh a d) s c (one a) (fun _ => True) (fun _ => 0) (any fun x => x <<< sh.toNat) ∧
    Computes (.shri sh a d) s c (one a) (fun _ => True) (fun _ => 0) (any fun x => x >>> sh.toNat) ∧
    Computes (.sari sh a d) s c (one a) (fun _ => True) (fun _ => 0) (any fun x => x.sshiftRight sh.toNat) ∧
    TestResult (.cmpeqi imm a p) s c (one a) false (fun x y => x = y) false x k p ∧
    TestResult (.cmplti imm a p) s c (one a) false (fun x y => x < y) false x k p ∧
    TestResult (.cmplei imm a p) s c (one a) false (fun x y => x ≤ y) false x k p ∧
    Computes (.movi half d) s c { alu := true } (fun _ => True) (fun _ => 0) (fun l => l.put d (half.signExtend 32) tI32) ∧
    Computes (.movhi half d) s c { alu := true, vr := [d.n.toNat] } (fun _ => True) (fun _ => 0)
      (fun l => l.put d (half ++ (l.th.reg d.n.toNat).val.extractLsb' 0 16) (l.th.reg d.n.toNat).tag)

/-- R234, R235: `movsi`, `movhsi`, `adda` and `addai` execute once and write one uniform or address register. -/
def Obligations.TeamRegisterResults : Prop :=
  ∀ (s : State) (c : Ctx) (half : BitVec 16) (imm : BitVec 9) (b : Src) (d : BitVec 5) (aS aD : BitVec 4),
    let y : Opd := src32 .int c.tm c.counted.elected b
    let once : Issue := { alu := true, once := true }
    ComputesOnce (.movsi half d) s c once True 0 (fun t => t.setS d.toNat (half.signExtend 32)) ∧
    ComputesOnce (.movhsi half d) s c { once with sr := [d.toNat] } True 0
      (fun t => t.setS d.toNat (half ++ (c.tm.sreg d.toNat).extractLsb' 0 16)) ∧
    ComputesOnce (.adda b aS aD) s c { once with srcs := [b], ar := [aS.toNat] } (y.fits clsInt) (y.fi clsInt)
      (fun t => t.setA aD.toNat (c.tm.areg aS.toNat + y.w.signExtend 64)) ∧
    ComputesOnce (.addai imm aS aD) s c { once with ar := [aS.toNat] } True 0
      (fun t => t.setA aD.toNat (c.tm.areg aS.toNat + imm.signExtend 64))

/-- R239 to R242: broadcast, shuffle, votes and `getsr` read the active lanes of the raft; a lane that is not active gives zero with tag
NONE to a broadcast, and the reader's own value to a shuffle. -/
def Obligations.LaneExchangeResults : Prop :=
  ∀ (s : State) (c : Ctx) (a b : Src) (p : BitVec 3) (d : Dst) (k : BitVec 7),
    let x (l : Ln) : Opd := src32 .int c.tm l a
    let lane (n : Nat) : Option Ln := c.counted.lns.find? fun l => l.lane == n
    let set (l : Ln) : Bool := (x l).w != 0
    Computes (.bcst a b d) s c (two a b) (fun _ => True) (fun _ => 0) (fun l =>
      match lane ((src32 .int c.tm c.counted.elected b).w.toNat % 32) with
      | some m => l.put d (x m).w ((x m).tag.getD tI32)
      | none => l.put d 0 tNone) ∧
    Computes (.shfl a b d) s c (two a b) (fun _ => True) (fun _ => 0) (fun l =>
      let m := (lane ((src32 .int c.tm l b).w.toNat % 32)).getD l
      l.put d (x m).w ((x m).tag.getD tI32)) ∧
    Computes (.voteAny a p) s c (one a) (fun _ => True) (fun _ => 0) (fun l => l.putP p (c.counted.lns.any set)) ∧
    Computes (.voteAll a p) s c (one a) (fun _ => True) (fun _ => 0) (fun l => l.putP p (c.counted.lns.all set)) ∧
    Computes (.voteBallot a d) s c (one a) (fun _ => True) (fun _ => 0)
      (fun l => l.put d (BitVec.ofNat 32 (maskOf (c.counted.lns.filter set))) tU32) ∧
    Computes (.getsr k d) s c { alu := true } (fun _ => True) (fun _ => 0)
      (fun l => l.put d (BitVec.ofNat 32 (getsrVal (s.counted c) c.counted l k.toNat)) tU32)

/-- R211, R244, R253: a C16 parcel computes as the R form of the same operation does with D as its first source, signed, rounding by
RMODE, and is two bytes long. -/
def Obligations.CompactForms : Prop :=
  ∀ (s : State) (c : Ctx) (b : Src) (d : BitVec 6),
    let o : Issue := { two (.v d) b with len := 2 }
    let x (l : Ln) : Opd := src32 .int c.tm l (.v d)
    let y (l : Ln) : Opd := src32 .int c.tm l b
    let num (i : Instr) (e : Int → Int → Int) : Prop :=
      Computes i s c o (fun l => (x l).fits clsInt ∧ (y l).fits clsInt) (fun l => (x l).fi clsInt ||| (y l).fi clsInt)
        (fun l => l.put ⟨false, d⟩ (BitVec.ofInt 32 (e (x l).w.toInt (y l).w.toInt)) tI32)
    let any (i : Instr) (op : Word → Word → Word) : Prop :=
      Computes i s c o (fun _ => True) (fun _ => 0) (fun l => l.put ⟨false, d⟩ (op (x l).w (y l).w) ((x l).tag.getD tI32))
    let flt (i : Instr) (op : FVal → FVal → FRes) : Prop :=
      let u (l : Ln) : Opd := src32 .f32 c.tm l (.v d)
      let v (l : Ln) : Opd := src32 .f32 c.tm l b
      let r (l : Ln) : FRes := op (Fmt.f32.decode (u l).w.toNat) (Fmt.f32.decode (v l).w.toNat)
      Computes i s c o (fun l => (u l).fits cF32 ∧ (v l).fits cF32) (fun l => (r l).exc ||| (u l).fi cF32 ||| (v l).fi cF32)
        (fun l => l.put ⟨false, d⟩ (BitVec.ofNat 32 (r l).bits) tF32)
    num (.addC16 b d) (fun x y => x + y) ∧ num (.subC16 b d) (fun x y => x - y) ∧ num (.mulC16 b d) (fun x y => x * y) ∧
    num (.minC16 b d) min ∧ num (.maxC16 b d) max ∧
    any (.andC16 b d) (fun x y => x &&& y) ∧ any (.orC16 b d) (fun x y => x ||| y) ∧ any (.xorC16 b d) (fun x y => x ^^^ y) ∧
    any (.shlC16 b d) (fun x y => BitVec.ofNat 32 (x.toNat * 2 ^ y.toNat)) ∧
    any (.shrC16 b d) (fun x y => BitVec.ofNat 32 (x.toNat / 2 ^ y.toNat)) ∧
    any (.sarC16 b d) (fun x y => BitVec.ofInt 32 (x.toInt / 2 ^ y.toNat)) ∧
    Computes (.movC16 b d) s c { one b with len := 2 } (fun _ => True) (fun _ => 0)
      (fun l => l.put ⟨false, d⟩ (y l).w ((y l).tag.getD tI32)) ∧
    flt (.faddC16 b d) (Fmt.f32.add c.tm.rm c.tm.ftz) ∧ flt (.fsubC16 b d) (Fmt.f32.sub c.tm.rm c.tm.ftz) ∧
    flt (.fmulC16 b d) (Fmt.f32.mul c.tm.rm c.tm.ftz) ∧
    Computes (.fmaxC16 b d) s c o (fun l => (src32 .f32 c.tm l (.v d)).fits cF32 ∧ (src32 .f32 c.tm l b).fits cF32)
      (fun l => (Fmt.f32.pick true (src32 .f32 c.tm l (.v d)).w.toNat (src32 .f32 c.tm l b).w.toNat).exc |||
        (src32 .f32 c.tm l (.v d)).fi cF32 ||| (src32 .f32 c.tm l b).fi cF32)
      (fun l => l.put ⟨false, d⟩
        (BitVec.ofNat 32 (Fmt.f32.pick true (src32 .f32 c.tm l (.v d)).w.toNat (src32 .f32 c.tm l b).w.toNat).bits) tF32)

/-- R252 to R257: sums, differences and products are the exact value rounded once by the mode named; minima and maxima choose an
operand. -/
def Obligations.FloatArithmeticResults : Prop :=
  ∀ (s : State) (c : Ctx) (m : Rm) (a b : Src) (d : Dst),
    let r := reads32 .f32 c cF32 [a, b]
    let w := reads64 c [a, b]
    let f (i : Instr) (op : FVal → FVal → FRes) : Prop :=
      FloatResult i s c (two a b) r tF32 (fun l => op (val32 c l a) (val32 c l b)) d
    let g (i : Instr) (op : FVal → FVal → FRes) : Prop :=
      PairResult i s c (wide2 a b) w tF64 (fun l => op (val64 c l a) (val64 c l b)) d
    let x (l : Ln) (k : Src) : Nat := (src32 .f32 c.tm l k).w.toNat
    let y (l : Ln) (k : Src) : Nat := (src64 .f64 c.tm l k).val.toNat
    f (.fadd m a b d) (Fmt.f32.add m c.tm.ftz) ∧ f (.fsub m a b d) (Fmt.f32.sub m c.tm.ftz) ∧ f (.fmul m a b d) (Fmt.f32.mul m c.tm.ftz) ∧
    FloatResult (.fmin a b d) s c (two a b) r tF32 (fun l => Fmt.f32.pick false (x l a) (x l b)) d ∧
    FloatResult (.fmax a b d) s c (two a b) r tF32 (fun l => Fmt.f32.pick true (x l a) (x l b)) d ∧
    g (.dadd m a b d) (Fmt.f64.add m c.tm.ftz) ∧ g (.dsub m a b d) (Fmt.f64.sub m c.tm.ftz) ∧ g (.dmul m a b d) (Fmt.f64.mul m c.tm.ftz) ∧
    PairResult (.dmin a b d) s c (wide2 a b) w tF64 (fun l => Fmt.f64.pick false (y l a) (y l b)) d ∧
    PairResult (.dmax a b d) s c (wide2 a b) w tF64 (fun l => Fmt.f64.pick true (y l a) (y l b)) d

/-- R210, R256 to R259: packed forms compute two elements alone, in the format that the operands' tags fix; fused forms round the exact sum
of products and addend once, by RMODE; `dot4` sums four products of signed bytes. -/
def Obligations.PackedFusedResults : Prop :=
  ∀ (s : State) (c : Ctx) (m : Rm) (a b : Src) (k e : BitVec 6) (d : Dst) (f : Fmt),
    let z : Src := .v k
    let o := three a b k
    let h2 (i : Instr) (op : FVal → FVal → FRes) : Prop :=
      (∀ l ∈ c.counted.lns, packedFmt [src32 .bf16 c.tm l a, src32 .bf16 c.tm l b] = f) →
      FloatResult i s c (two a b) (reads32 f.col c (clsIs f.tag) [a, b]) f.tag
        (fun l => packed fun j => op (val16 f c l a j) (val16 f c l b j)) d
    h2 (.hadd2 m a b d) (f.add m c.tm.ftz) ∧ h2 (.hmul2 m a b d) (f.mul m c.tm.ftz) ∧
    ((∀ l ∈ c.counted.lns, packedFmt [src32 .bf16 c.tm l a, src32 .bf16 c.tm l b] = f) →
      FloatResult (.hmax2 a b d) s c (two a b) (reads32 f.col c (clsIs f.tag) [a, b]) f.tag
        (fun l => packed fun j => f.pick true (half (src32 f.col c.tm l a).w.toNat j) (half (src32 f.col c.tm l b).w.toNat j)) d) ∧
    FloatResult (.ffma a b k e) s c o (reads32 .f32 c cF32 [a, b, z]) tF32
      (fun l => Fmt.f32.dot c.tm.rm c.tm.ftz [(val32 c l a, val32 c l b)] (val32 c l z)) ⟨false, e⟩ ∧
    PairResult (.dfma a b k e) s c { alu := true, wide := [a, b, z] } (reads64 c [a, b, z]) tF64
      (fun l => Fmt.f64.dot c.tm.rm c.tm.ftz [(val64 c l a, val64 c l b)] (val64 c l z)) ⟨false, e⟩ ∧
    ((∀ l ∈ c.counted.lns, packedFmt [src32 .bf16 c.tm l a, src32 .bf16 c.tm l b, src32 .bf16 c.tm l z] = f) →
      FloatResult (.hfma2 a b k e) s c o (reads32 f.col c (clsIs f.tag) [a, b, z]) f.tag
        (fun l => packed fun j => f.dot c.tm.rm c.tm.ftz [(val16 f c l a j, val16 f c l b j)] (val16 f c l z j)) ⟨false, e⟩) ∧
    ((∀ l ∈ c.counted.lns, packedFmt [src32 .bf16 c.tm l a, src32 .bf16 c.tm l b] = f) →
      FloatResult (.dot2h a b k e) s c o
        ⟨fun l => [(src32 f.col c.tm l a, clsIs f.tag), (src32 f.col c.tm l b, clsIs f.tag), (src32 .f32 c.tm l z, cF32)]⟩ tF32
        (fun l => Fmt.f32.dot c.tm.rm c.tm.ftz [(val16 f c l a 0, val16 f c l b 0), (val16 f c l a 1, val16 f c l b 1)] (val32 c l z))
        ⟨false, e⟩) ∧
    (let x (l : Ln) (k : Src) : Word := (src32 .int c.tm l k).w
     let byte (w : Word) (j : Nat) : Int := (w.extractLsb' (8 * j) 8).toInt
     let r : Reads := ⟨fun l => [(src32 .int c.tm l a, clsIs tI8), (src32 .int c.tm l b, clsIs tI8), (src32 .int c.tm l z, clsInt)]⟩
     Computes (.dot4 a b k e) s c o r.fit r.fi fun l =>
       l.put ⟨false, e⟩ (BitVec.ofInt 32 (byte (x l a) 0 * byte (x l b) 0 + byte (x l a) 1 * byte (x l b) 1 +
         byte (x l a) 2 * byte (x l b) 2 + byte (x l a) 3 * byte (x l b) 3) + x l z) tI32)

/-- R260, R261: compares are false on a NaN, and raise IV on any NaN where they order and on a signalling one otherwise; `fclass` sets
one bit. -/
def Obligations.FloatCompareResults : Prop :=
  ∀ (s : State) (c : Ctx) (a b : Src) (p : BitVec 3) (d : Dst),
    let r := reads32 .f32 c cF32 [a, b]
    let w := reads64 c [a, b]
    let sig (x y : FVal) : BitVec 7 := if x.isSig || y.isSig then fIV else 0
    let nan (x y : FVal) : BitVec 7 := if x.isNan || y.isNan then fIV else 0
    let f (i : Instr) (t : FVal → FVal → Bool) (e : FVal → FVal → BitVec 7) : Prop :=
      FTestResult i s c (two a b) r (fun l => t (val32 c l a) (val32 c l b)) (fun l => e (val32 c l a) (val32 c l b)) p
    let g (k : DCmp) (t : FVal → FVal → Bool) (e : FVal → FVal → BitVec 7) : Prop :=
      FTestResult (.dcmp k a b p) s c (wide2 a b) w (fun l => t (val64 c l a) (val64 c l b)) (fun l => e (val64 c l a) (val64 c l b)) p
    f (.fcmpeq a b p) FVal.eq sig ∧ f (.fcmplt a b p) FVal.lt nan ∧ f (.fcmple a b p) FVal.le nan ∧
    g .eq FVal.eq sig ∧ g .lt FVal.lt nan ∧ g .le FVal.le nan ∧ g .un (fun x y => x.isNan || y.isNan) sig ∧
    Computes (.fclass a d) s c (one a) (reads32 .f32 c cF32 [a]).fit (reads32 .f32 c cF32 [a]).fi
      (fun l => l.put d (BitVec.ofNat 32 (2 ^ classBit (src32 .f32 c.tm l a).w.toNat)) tU32)

/-- R262 to R264: reciprocals and square roots are correctly rounded; the result of `frsq`, `fex2`, `flg2`, `fsin` and `fcos` is one within its
bound (the values within are the model's free values, log 1). A bounded function has one free result for each operand (log 7, DESIGN CHOICE), and
`fex2` between -149 and -126 sets NX alone (log 8, DEDUCED). -/
def Obligations.SingleSourceResults : Prop :=
  ∀ (s : State) (c : Ctx) (m : Rm) (a : Src) (d : Dst),
    let f (i : Instr) (op : Word → FRes) : Prop :=
      FloatResult i s c (one a) (reads32 .f32 c cF32 [a]) tF32 (fun l => op (src32 .f32 c.tm l a).w) d
    f (.frcp m a d) (fun x => Fmt.f32.rcp m x.toNat) ∧ f (.fsqrt m a d) (fun x => Fmt.f32.sqrtOf m x.toNat) ∧
    f (.frsq a d) frsqOf ∧ f (.fex2 a d) fex2Of ∧ f (.flg2 a d) flg2Of ∧ f (.fsin a d) fsinOf ∧ f (.fcos a d) fcosOf ∧
    PairResult (.drcp m a d) s c { alu := true, wide := [a] } (reads64 c [a]) tF64
      (fun l => Fmt.f64.rcp m (src64 .f64 c.tm l a).val.toNat) d

/-- R82, R83: a value that a format represents is returned unchanged by Round, with no exception, in every mode (without FTZ). Between
two neighbours Round goes toward zero by RZ, up by RU and down by RD (up and down of the signed value, said here of magnitudes), and by RNE to
one of the two, exactly when both are one. -/
def Obligations.RoundingRules : Prop :=
  (∀ (f : Fmt) (m : Rm) (x : Nat), x < 2 * f.signBit → (f.decode x).isNan = false → f.ofVal m false (f.decode x) = { bits := x, exc := 0 }) ∧
  (∀ (neg : Bool) (n d : Nat) (sh : Int), 0 < d →
     let up := (roundInt .ru neg n d sh).1
     let dn := (roundInt .rd neg n d sh).1
     let z := (roundInt .rz neg n d sh).1
     let ne := (roundInt .rne neg n d sh).1
     (if neg then up = z ∧ (dn = z ∨ dn = z + 1) else dn = z ∧ (up = z ∨ up = z + 1)) ∧ (ne = up ∨ ne = dn) ∧
       ((roundInt .rne neg n d sh).2 = false ↔ up = dn))

/-- R265 to R271: `cvt` by its literal, `ftag` (which changes the tag alone), and the block formats: `qnt4` writes the four bit planes of
a group's codes to lanes 0 to 7, `dqnt4` reads them back (the signs and the lost partner of an outlier are log 9, DEDUCED and DESIGN CHOICE;
the constants of a wide `ftag` are log 10, DEDUCED). -/
def Obligations.ConversionResults : Prop :=
  ∀ (s : State) (c : Ctx) (m : Rm) (k : BitVec 7) (a b : Src) (v : BitVec 6) (d : Dst),
    (let n := k.toNat
     let r := cvtReads n c a
     let res (l : Ln) : FRes := cvtOf n m c.tm.ftz ((r.ops l).map fun x => x.1.val)
     Computes (.cvt m k a d) s c (cvtNeeds n a) r.fit (fun l => (res l).exc ||| r.fi l) fun l =>
       if cvtIsPair n then l.putPair d (BitVec.ofNat 64 (res l).bits) tF64 else l.put d (BitVec.ofNat 32 (res l).bits) (cvtTag n)) ∧
    (let tag := k.setWidth 4
     if tag = tF64 ∨ tag = tKEY then
       Computes (.ftag k a d) s c { alu := true, wide := [a] } (fun _ => True) (fun _ => 0)
         fun l => l.putPair d (src64 .f64 c.tm l a).val tag
     else Computes (.ftag k a d) s c (one a) (fun _ => True) (fun _ => 0) fun l => l.put d (src32 .int c.tm l a).w tag) ∧
    (let sg := Fmt.bf16.decode (scaleBits c.tm.ftz (src32 .f32 c.tm c.counted.elected b))
     let g := qntGroup c.counted v sg
     let r : Reads := ⟨fun l => [(src32 .f32 c.tm l (.v v), cF32), (src32 .f32 c.tm l (.v (v + 1)), cF32), (src32 .f32 c.tm l b, clsScale)]⟩
     goodScale sg = true →
     Computes (.qnt4 b v d) s c { alu := true, srcs := [.v v, .v (v + 1), b] } r.fit (fun l => g.2 ||| r.fi l) fun l =>
       l.put d (BitVec.ofNat 32 (if l.lane < 8 then planeOf (l.lane / 2) g.1 / 2 ^ (32 * (l.lane % 2)) else 0)) tN4P) ∧
    (let sg := Fmt.bf16.decode (scaleBits c.tm.ftz (src32 .f32 c.tm c.counted.elected b))
     let r : Reads := ⟨fun l => [(src32 .int c.tm l a, clsIs tN4P), (src32 .f32 c.tm l b, clsScale)]⟩
     let el (l : Ln) : Option FVal × Option FVal :=
       pairVals (codeAt (dqntPlane c.counted a) (2 * l.lane)) (codeAt (dqntPlane c.counted a) (2 * l.lane + 1))
     Computes (.dqnt4 a b d) s c (two a b) r.fit (fun l => (decodeElem sg (el l).1).exc ||| (decodeElem sg (el l).2).exc ||| r.fi l)
       fun l => l.putPair d (BitVec.ofNat 64 ((decodeElem sg (el l).1).bits + 2 ^ 32 * (decodeElem sg (el l).2).bits)) tF32)

/-- R72, R76, R77, R85, R222, R227, R426: where the arithmetic instructions of every family trap. A tag outside the class of an operand raises
0x04, with the position of the lane's first such operand as its detail; a zero divisor raises 0x49, where every operand fits; an exception
that TRAPEN enables raises 0x48, where no lane meets either, with the enabled exceptions of the raft as its detail. The lowest lane that meets
the cause raises it, those in supervisor mode first, whose cause ends the team (R376; that order among lanes of two modes is log 53,
DEDUCED). -/
def Obligations.ArithmeticTraps : Prop :=
  ∀ (s : State) (c : Ctx) (u sat inv : Bool) (m : Rm) (a b : Src) (k v e : BitVec 6) (d : Dst) (p : BitVec 3) (imm : BitVec 9)
    (n : BitVec 7) (aS aD : BitVec 4) (dc : DCmp),
    let z : Src := .v k
    let int (srcs : List Src) : Reads := reads32 .int c clsInt srcs
    let none_ (_ : Ln) : BitVec 7 := 0
    let clamps (f : Int → Int → Int) (l : Ln) : BitVec 7 := saturated u sat (f (ex u (src32 .int c.tm l a).w) (ex u (src32 .int c.tm l b).w))
    let divides (i : Instr) : Prop := Traps i s c (two a b) (int [a, b]).bad (fun l => (src32 .int c.tm l b).w == 0) (int [a, b]).fi
    let compact (i : Instr) : Prop := TrapsOn i s c { two z b with len := 2 } (int [z, b]) none_
    let single (srcs : List Src) : Reads := reads32 .f32 c cF32 srcs
    let f2 (i : Instr) (o : Issue) (q r : Src) (op : FVal → FVal → BitVec 7) : Prop :=
      TrapsOn i s c o (single [q, r]) fun l => op (val32 c l q) (val32 c l r)
    let g2 (i : Instr) (op : FVal → FVal → BitVec 7) : Prop :=
      TrapsOn i s c (wide2 a b) (reads64 c [a, b]) fun l => op (val64 c l a) (val64 c l b)
    let picks (i : Instr) (o : Issue) (q r : Src) (up : Bool) : Prop := TrapsOn i s c o (single [q, r]) fun l =>
      (Fmt.f32.pick up (src32 .f32 c.tm l q).w.toNat (src32 .f32 c.tm l r).w.toNat).exc
    let picks64 (i : Instr) (up : Bool) : Prop := TrapsOn i s c (wide2 a b) (reads64 c [a, b]) fun l =>
      (Fmt.f64.pick up (src64 .f64 c.tm l a).val.toNat (src64 .f64 c.tm l b).val.toNat).exc
    let fmt (srcs : List Src) (l : Ln) : Fmt := packedFmt (srcs.map (src32 .bf16 c.tm l))
    let halves (fs srcs : List Src) (l : Ln) : List (Opd × (BitVec 4 → Bool)) :=
      srcs.map fun q => (src32 (fmt fs l).col c.tm l q, clsIs (fmt fs l).tag)
    let el (fs : List Src) (q : Src) (j : Nat) (l : Ln) : FVal := val16 (fmt fs l) c l q j
    let h2 (i : Instr) (op : Fmt → FVal → FVal → FRes) : Prop := TrapsOn i s c (two a b) ⟨halves [a, b] [a, b]⟩ fun l =>
      (packed fun j => op (fmt [a, b] l) (el [a, b] a j l) (el [a, b] b j l)).exc
    let f1 (i : Instr) (op : Word → FRes) : Prop := TrapsOn i s c (one a) (single [a]) fun l => (op (src32 .f32 c.tm l a).w).exc
    let sig (x y : FVal) : BitVec 7 := if x.isSig || y.isSig then fIV else 0
    let nan (x y : FVal) : BitVec 7 := if x.isNan || y.isNan then fIV else 0
    let add (x y : FVal) : BitVec 7 := (Fmt.f32.add m c.tm.ftz x y).exc
    let sub (x y : FVal) : BitVec 7 := (Fmt.f32.sub m c.tm.ftz x y).exc
    let mul (x y : FVal) : BitVec 7 := (Fmt.f32.mul m c.tm.ftz x y).exc
    (TrapsOn (.add u sat a b d) s c (two a b) (int [a, b]) (clamps fun x y => x + y) ∧
     TrapsOn (.sub u sat a b d) s c (two a b) (int [a, b]) (clamps fun x y => x - y) ∧
     TrapsOn (.mul u sat a b d) s c (two a b) (int [a, b]) (clamps fun x y => x * y) ∧
     TrapsOn (.mulh u a b d) s c (two a b) (int [a, b]) none_ ∧ TrapsOn (.min u a b d) s c (two a b) (int [a, b]) none_ ∧
     TrapsOn (.max u a b d) s c (two a b) (int [a, b]) none_ ∧ TrapsOn (.absd u a b d) s c (two a b) (int [a, b]) none_ ∧
     divides (.div u a b d) ∧ divides (.rem u a b d) ∧
     TrapsOn (.cmpeq inv a b p) s c (two a b) (int [a, b]) none_ ∧ TrapsOn (.cmplt inv u a b p) s c (two a b) (int [a, b]) none_ ∧
     TrapsOn (.cmple inv u a b p) s c (two a b) (int [a, b]) none_ ∧ TrapsOn (.mad a b k e) s c (three a b k) (int [a, b, z]) none_ ∧
     TrapsOn (.addi imm a d) s c (one a) (int [a]) none_ ∧ TrapsOn (.cmpeqi imm a p) s c (one a) (int [a]) none_ ∧
     TrapsOn (.cmplti imm a p) s c (one a) (int [a]) none_ ∧ TrapsOn (.cmplei imm a p) s c (one a) (int [a]) none_ ∧
     compact (.addC16 b k) ∧ compact (.subC16 b k) ∧ compact (.mulC16 b k) ∧ compact (.minC16 b k) ∧ compact (.maxC16 b k)) ∧
    (let y : Opd := src32 .int c.tm c.counted.elected b
     let l := c.counted.elected
     let traps (f : Fail) : Prop := exec (.adda b aS aD) s = .next ((s.counted c).raise c.counted l f 4)
     Ready { alu := true, once := true, srcs := [b], ar := [aS.toNat] } s c →
       (tagBad clsInt y.tag = true → traps { cause := 0x04, detail := 2 }) ∧
       (y.fits clsInt → c.tm.enabled (y.fi clsInt) ≠ 0 → traps { cause := 0x48, detail := (c.tm.enabled (y.fi clsInt)).setWidth 64 })) ∧
    (f2 (.fadd m a b d) (two a b) a b add ∧ f2 (.fsub m a b d) (two a b) a b sub ∧ f2 (.fmul m a b d) (two a b) a b mul ∧
     picks (.fmin a b d) (two a b) a b false ∧ picks (.fmax a b d) (two a b) a b true ∧
     (m = c.tm.rm → f2 (.faddC16 b k) { two z b with len := 2 } z b add ∧ f2 (.fsubC16 b k) { two z b with len := 2 } z b sub ∧
       f2 (.fmulC16 b k) { two z b with len := 2 } z b mul) ∧ picks (.fmaxC16 b k) { two z b with len := 2 } z b true ∧
     f2 (.fcmpeq a b p) (two a b) a b sig ∧ f2 (.fcmplt a b p) (two a b) a b nan ∧ f2 (.fcmple a b p) (two a b) a b nan ∧
     TrapsOn (.fclass a d) s c (one a) (single [a]) none_ ∧
     TrapsOn (.ffma a b k e) s c (three a b k) (single [a, b, z])
       fun l => (Fmt.f32.dot c.tm.rm c.tm.ftz [(val32 c l a, val32 c l b)] (val32 c l z)).exc) ∧
    (f1 (.frcp m a d) (fun x => Fmt.f32.rcp m x.toNat) ∧ f1 (.fsqrt m a d) (fun x => Fmt.f32.sqrtOf m x.toNat) ∧
     f1 (.frsq a d) frsqOf ∧ f1 (.fex2 a d) fex2Of ∧ f1 (.flg2 a d) flg2Of ∧ f1 (.fsin a d) fsinOf ∧ f1 (.fcos a d) fcosOf) ∧
    (g2 (.dadd m a b d) (fun x y => (Fmt.f64.add m c.tm.ftz x y).exc) ∧ g2 (.dsub m a b d) (fun x y => (Fmt.f64.sub m c.tm.ftz x y).exc) ∧
     g2 (.dmul m a b d) (fun x y => (Fmt.f64.mul m c.tm.ftz x y).exc) ∧ picks64 (.dmin a b d) false ∧ picks64 (.dmax a b d) true ∧
     g2 (.dcmp dc a b p) (if dc = .eq ∨ dc = .un then sig else nan) ∧
     TrapsOn (.dfma a b k e) s c { alu := true, wide := [a, b, z] } (reads64 c [a, b, z])
       (fun l => (Fmt.f64.dot c.tm.rm c.tm.ftz [(val64 c l a, val64 c l b)] (val64 c l z)).exc) ∧
     TrapsOn (.drcp m a d) s c { alu := true, wide := [a] } (reads64 c [a]) fun l => (Fmt.f64.rcp m (src64 .f64 c.tm l a).val.toNat).exc) ∧
    (h2 (.hadd2 m a b d) (fun f => f.add m c.tm.ftz) ∧ h2 (.hmul2 m a b d) (fun f => f.mul m c.tm.ftz) ∧
     TrapsOn (.hmax2 a b d) s c (two a b) ⟨halves [a, b] [a, b]⟩ (fun l => (packed fun j => (fmt [a, b] l).pick true
       (half (src32 (fmt [a, b] l).col c.tm l a).w.toNat j) (half (src32 (fmt [a, b] l).col c.tm l b).w.toNat j)).exc) ∧
     (let fs : List Src := [a, b, z]
      TrapsOn (.hfma2 a b k e) s c (three a b k) ⟨halves fs fs⟩ fun l =>
        (packed fun j => (fmt fs l).dot c.tm.rm c.tm.ftz [(el fs a j l, el fs b j l)] (el fs z j l)).exc) ∧
     (let fs : List Src := [a, b]
      TrapsOn (.dot2h a b k e) s c (three a b k) ⟨fun l => halves fs fs l ++ [(src32 .f32 c.tm l z, cF32)]⟩ fun l =>
        (Fmt.f32.dot c.tm.rm c.tm.ftz [(el fs a 0 l, el fs b 0 l), (el fs a 1 l, el fs b 1 l)] (val32 c l z)).exc) ∧
     TrapsOn (.dot4 a b k e) s c (three a b k)
       ⟨fun l => [(src32 .int c.tm l a, clsIs tI8), (src32 .int c.tm l b, clsIs tI8), (src32 .int c.tm l z, clsInt)]⟩ none_) ∧
    (let r := cvtReads n.toNat c a
     Traps (.cvt m n a d) s c (cvtNeeds n.toNat a) (fun l => (r.bad l).map fun _ => 1) (fun _ => false)
       fun l => (cvtOf n.toNat m c.tm.ftz ((r.ops l).map fun x => x.1.val)).exc ||| r.fi l) ∧
    (let sg := Fmt.bf16.decode (scaleBits c.tm.ftz (src32 .f32 c.tm c.counted.elected b))
     let q : Reads := ⟨fun l => [(src32 .f32 c.tm l (.v v), cF32), (src32 .f32 c.tm l (.v (v + 1)), cF32), (src32 .f32 c.tm l b, clsScale)]⟩
     let r : Reads := ⟨fun l => [(src32 .int c.tm l a, clsIs tN4P), (src32 .f32 c.tm l b, clsScale)]⟩
     let pair (l : Ln) : Option FVal × Option FVal :=
       pairVals (codeAt (dqntPlane c.counted a) (2 * l.lane)) (codeAt (dqntPlane c.counted a) (2 * l.lane + 1))
     Traps (.qnt4 b v d) s c { alu := true, srcs := [.v v, .v (v + 1), b] } (fun l => (q.bad l).map fun j => if j = 3 then 2 else 1)
       (fun _ => false) (fun l => (if goodScale sg then (qntGroup c.counted v sg).2 else fIV) ||| q.fi l) ∧
     TrapsOn (.dqnt4 a b d) s c (two a b) r fun l => (decodeElem sg (pair l).1).exc ||| (decodeElem sg (pair l).2).exc)

/-- R245 to R247, R251: `br`, `call`, a `brp`, `ret` or `jmpi` whose lanes agree, and `nop` go on at the common next address with the
latches invalid, and nothing else changed; `call` leaves the return offset in v63; the parcel 0x0000 is no `nop`, and no instruction. R247,
R426: an odd target of `ret` or `jmpi` in some lane raises 0x06, whether the targets agree or not: for the lowest such lane, those in
supervisor mode first (log 53, DEDUCED). -/
def Obligations.ControlTransfer : Prop :=
  ∀ (s : State) (c : Ctx) (off : BitVec 23) (off16 : BitVec 16) (neg : Bool) (p : BitVec 3) (a : Src),
    let after : VAddr := c.pc + 4
    let goal : VAddr := c.pc + BitVec.ofInt 57 (2 * off.toInt)
    let goal16 : VAddr := c.pc + BitVec.ofInt 57 (2 * off16.toInt)
    let taken (l : Ln) : Bool := l.th.p.getLsbD p.toNat != neg
    let target (l : Ln) : VAddr := c.tm.codebase + (src32 .int c.tm l a).w.setWidth 57
    let agree (f : Ln → VAddr) (pc : VAddr) : Prop := ∀ l ∈ c.counted.lns, f l = pc
    (Ready {} s c → ∃ t, exec (.br off) s = .next t ∧ Jumped s t c goal) ∧
    (Ready {} s c → ∃ t, exec .nop s = .next t ∧ Jumped s t c after) ∧
    (Ready { pr := true } s c → (∀ l ∈ c.counted.lns, taken l = taken c.counted.elected) →
      ∃ t, exec (.brp off16 neg p) s = .next t ∧ Jumped s t c (if taken c.counted.elected then goal16 else after)) ∧
    (∀ pc, Ready { srcs := [a] } s c → agree target pc → pc.getLsbD 0 = false →
      (∃ t, exec (.ret a) s = .next t ∧ Jumped s t c pc) ∧ ∃ t, exec (.jmpi a) s = .next t ∧ Jumped s t c pc) ∧
    (∀ l, Ready { srcs := [a] } s c → c.counted.raiser (fun x => (target x).getLsbD 0) = some l →
      exec (.ret a) s = .next ((s.counted c).raise c.counted l { cause := 0x06 } 4) ∧
      exec (.jmpi a) s = .next ((s.counted c).raise c.counted l { cause := 0x06 } 4)) ∧
    (Ready {} s c → ∃ t, exec (.call off) s = .next t ∧ OnlyRegisters s t ∧ t.teams = s.teams ∧ GoesOn s t c goal ∧
      (∀ id l, c.counted.laneOf id = some l → t.thread id = some (l.th.setReg 63 ((after - c.tm.codebase).setWidth 32) tU32)) ∧
      ∀ id, c.counted.laneOf id = none → t.thread id = s.thread id) ∧
    ∀ rest, decode (0x00 :: 0x00 :: rest) = .error .zeroParcel

/-- R47, R55, R246 to R248: `reform`, `join` and `yield` file the raft at the following instruction in every case, `yield` with the raft's own
deck ranked last at each pipe's next formation; a `brp` whose predicate differs among the lanes, to whatever addresses it leads, and a `ret`
or `jmpi` whose targets differ, file each thread at its own target. -/
def Obligations.FilingInstructions : Prop :=
  ∀ (s : State) (c : Ctx) (off : BitVec 16) (neg : Bool) (p : BitVec 3) (a : Src),
    let after : VAddr := c.pc + 4
    let taken (l : Ln) : Bool := l.th.p.getLsbD p.toNat != neg
    let way (l : Ln) : VAddr := if taken l then c.pc + BitVec.ofInt 57 (2 * off.toInt) else after
    let target (l : Ln) : VAddr := c.tm.codebase + (src32 .int c.tm l a).w.setWidth 57
    let differ (f : Ln → VAddr) : Prop := ∃ l ∈ c.counted.lns, f l ≠ f c.counted.elected
    (Ready {} s c → ∃ t, exec .reform s = .next t ∧ FiledEach s t c.counted fun _ => after) ∧
    (Ready {} s c → ∃ t, exec .join s = .next t ∧ FiledEach s t c.counted fun _ => after) ∧
    (Ready {} s c → ∃ t, exec .yield s = .next t ∧ FiledEach s t c.counted (fun _ => after) ∧
      ∀ q, q < 4 → (c.team, after, c.injected.isSome) ∈ (t.pipe c.core q).pass ∧
        ∀ x ∈ (t.pipe c.core q).pass, x = (c.team, after, c.injected.isSome) ∨ x ∈ (s.pipe c.core q).pass) ∧
    (Ready { pr := true } s c → (∃ l ∈ c.counted.lns, taken l ≠ taken c.counted.elected) → ∃ t, exec (.brp off neg p) s = .next t ∧ FiledEach s t c.counted way) ∧
    (Ready { srcs := [a] } s c → differ target → (∀ l ∈ c.counted.lns, (target l).getLsbD 0 = false) →
      (∃ t, exec (.ret a) s = .next t ∧ FiledEach s t c.counted target) ∧
      ∃ t, exec (.jmpi a) s = .next t ∧ FiledEach s t c.counted target)

/-- R250, R375, R72: `trap` raises 0x50; a raft in user mode with a handler present and no trap in service enters the handler, and the same holds
of every other cause that does not park. R375: while a trap of the team is in service, the raft that raises a cause is held with it, to be
delivered later. The handler's address is TRAPV of the team as it stands (log 25, DEDUCED); the held deck stays with its team whatever the number
of decks in use (log 60, DESIGN CHOICE); which lane raises the cause of a raft of both modes is log 53 (DEDUCED). -/
def Obligations.TrapEntry : Prop :=
  (∀ (s : State) (c : Ctx) (code : BitVec 16), Ready {} s c →
     let calm (l : Ln) : Prop :=
       l.th.inj = none ∧ l.th.sup = false ∧ (c.tm.csrv cTRAPV).extractLsb' 1 56 ≠ 0 ∧ c.tm.inService = false
     (∀ l ∈ c.counted.lns, calm l → ∀ (f : Fail) (len : Nat), f.cause ≠ 0x61 →
       Entered (s.counted c) ((s.counted c).raise c.counted l f len) c.counted l f len) ∧
     (calm c.counted.whole →
       ∃ t, exec (.trap code) s = .next t ∧ Entered (s.counted c) t c.counted c.counted.whole { cause := 0x50 } 4)) ∧
  (∀ (s : State) (c : Ctx) (code : BitVec 16) (x : Team), Ready {} s c → s.team c.team = some x →
     let l := c.counted.whole
     l.th.inj = none → l.th.sup = false → (c.tm.csrv cTRAPV).extractLsb' 1 56 ≠ 0 → c.tm.inService = true →
     ∃ t, exec (.trap code) s = .next t ∧
       t = { s.counted c with threads := t.threads, teams := t.teams, pipes := t.pipes, cores := t.cores } ∧
       t.team c.team = some { x with heldQ := x.heldQ ++
         [{ threads := c.tids, pc := c.pc, lane := l.lane, cause := 0x50, detail := 0, len := 4 }] } ∧
       (∀ k, k ≠ c.team → t.team k = s.team k) ∧ (t.pipe c.core c.p).raft = none ∧
       (∀ id m, c.counted.laneOf id = some m → ∃ b, (s.counted c).thread id = some b ∧ t.thread id = some { b with place := .held, pc := c.pc }) ∧
       ∀ id, c.counted.laneOf id = none → ∀ b, s.thread id = some b → ∃ a, t.thread id = some a ∧ Unmoved a b)

/-- R368, R376, R380: a cause raised in supervisor mode, or with no handler present, ends the team with a record of KIND 1. That the record waits
for room like any other and holds no pipe, and which lane raises the cause of a raft of both modes, is log 53 (DEDUCED). -/
def Obligations.NoHandlerEndsTeam : Prop :=
  ∀ (s : State) (c : Ctx) (code : BitVec 16), Ready {} s c → s.Keyed →
    let lost (l : Ln) : Prop := l.th.inj = none ∧ (l.th.sup = true ∨ (c.tm.csrv cTRAPV).extractLsb' 1 56 = 0)
    (∀ l ∈ c.counted.lns, lost l → ∀ (f : Fail) (len : Nat),
      EndedOnFault (s.counted c) ((s.counted c).raise c.counted l f len) c.counted l f) ∧
    (lost c.counted.whole →
      ∃ t, exec (.trap code) s = .next t ∧ EndedOnFault (s.counted c) t c.counted c.counted.whole { cause := 0x50 })

/-- R327, R375: `eret` files the raft, out of supervisor mode, at TRAPPC or past the instruction there; the trap ends when no thread of the team
is left in supervisor mode, and the oldest held deck is delivered then: R57, R59: at the restore of the team, where a thread of that deck has been
evicted. The handler's address of the deck delivered is TRAPV of the team as it stands (log 25, DEDUCED). -/
def Obligations.TrapReturn : Prop :=
  ∀ (s : State) (c : Ctx) (skip : Bool) (x : Team), Ready { priv := true } s c → s.team c.team = some x → x.inService = true →
    let pc : VAddr := (c.tm.csrv cTRAPPC).setWidth 57 + if skip then BitVec.ofNat 57 c.tm.trapLen else 0
    let stays : Bool := (s.threadsOf c.team).any fun y => y.2.sup && (c.lastOf y.1).isNone
    let base (t : State) : Prop :=
      t = { s.counted c with threads := t.threads, teams := t.teams, pipes := t.pipes, cores := t.cores } ∧
      (∀ k, k ≠ c.team → t.team k = s.team k)
    (stays = true ∨ x.heldQ = [] → ∃ t, exec (.eret skip) s = .next t ∧ base t ∧
      t.team c.team = some { x with inService := stays } ∧
      FiledAs (s.counted c) t c.counted (fun b => { b with sup := false }) fun _ => pc) ∧
    (∀ h r, stays = false → x.heldQ = h :: r →
      (∃ y ∈ s.threadsOf c.team, y.1 ∈ h.threads ∧ c.laneOf y.1 = none ∧ y.2.isEvicted = true) →
      ∃ t, exec (.eret skip) s = .next t ∧ base t ∧ t.team c.team = some x ∧
        FiledAs (s.counted c) t c.counted (fun b => { b with sup := false }) fun _ => pc) ∧
    ∀ h r, stays = false → x.heldQ = h :: r → (∀ y ∈ s.threadsOf c.team, y.1 ∈ h.threads → y.2.isEvicted = false) →
      ∃ t, exec (.eret skip) s = .next t ∧ base t ∧ t.team c.team = some { (((x.setCsr cTRAPCAUSE (BitVec.ofNat 64 (h.cause + 0x100 * h.lane))).setCsr cTRAPPC (h.pc.setWidth 64)).setCsr
        cTRAPADDR h.detail) with heldQ := r, inService := true, trapLen := h.len } ∧
      ∀ id ∈ h.threads, ∀ b, s.thread id = some b → ∃ a, t.thread id = some a ∧
        Filed a { b with sup := true, inj := a.inj } ((x.csrv cTRAPV).setWidth 57 &&& ~~~1)

/-- R249, R137: `exit` ends every active thread with its cursors; with the last thread of the team the team begins to end; a handler's `exit` ends
the trap when no thread is left in supervisor mode, and the oldest held deck is then delivered (R375). An injected thread ends too (R113). The
handler's address of the deck delivered is TRAPV of the team as it stands (log 25, DEDUCED). -/
def Obligations.ExitEndsThreads : Prop :=
  (∀ (s : State) (c : Ctx), Ready {} s c → ∃ t, exec .exit s = .next t ∧ (t.pipe c.core c.p).raft = none ∧
    (∀ id, (c.laneOf id).isSome → t.thread id = none) ∧ (∀ id, s.thread id = none → t.thread id = none) ∧
    ((∀ l ∈ c.lns, l.th.team = c.team) → ∀ k, k ≠ c.team → t.team k = s.team k) ∧ t.mem = s.mem) ∧
  (∀ (s : State) (c : Ctx) (x : Team) (h : Held) (hs : List Held), Ready {} s c → s.team c.team = some x → x.core = c.core →
    (∀ l ∈ c.lns, l.th.team = c.team ∧ l.th.inj = none) → x.inService = true → x.heldQ = h :: hs →
    (∀ y ∈ s.threadsOf c.team, (c.laneOf y.1).isNone → y.2.sup = false ∧ (y.1 ∈ h.threads → y.2.isEvicted = false)) →
    let rest := (s.threadsOf c.team).filter fun y => (c.laneOf y.1).isNone
    ∃ t, exec .exit s = .next t ∧ (∀ id, (c.laneOf id).isSome → t.thread id = none) ∧ (t.pipe c.core c.p).raft = none ∧
      t.team c.team = some { (((x.setCsr cTRAPCAUSE (BitVec.ofNat 64 (h.cause + 0x100 * h.lane))).setCsr cTRAPPC (h.pc.setWidth 64)).setCsr
        cTRAPADDR h.detail) with heldQ := hs, ending := x.ending || rest.isEmpty, inService := true, trapLen := h.len } ∧
      ∀ id ∈ h.threads, c.laneOf id = none → ∀ b, s.thread id = some b → ∃ a, t.thread id = some a ∧
        Filed a { b with sup := true } ((x.csrv cTRAPV).setWidth 57 &&& ~~~1)) ∧
  ∀ (s : State) (c : Ctx) (x : Team), Ready {} s c → s.team c.team = some x → (∀ l ∈ c.lns, l.th.team = c.team ∧ l.th.inj = none) →
    let rest := (s.threadsOf c.team).filter fun y => (c.laneOf y.1).isNone
    (x.inService = false ∨ x.heldQ = [] ∨ rest.any fun y => y.2.sup) →
    ∃ t, exec .exit s = .next t ∧
      t = { s with threads := t.threads, teams := t.teams, pipes := t.pipes, cores := t.cores, clusters := t.clusters } ∧
      (∀ id, (c.laneOf id).isSome → t.thread id = none) ∧
      (∀ id, c.laneOf id = none → ∀ b, s.thread id = some b → ∃ a, t.thread id = some a ∧ Unmoved a b) ∧
      t.team c.team = some { x with ending := x.ending || rest.isEmpty, inService := x.inService && rest.any fun y => y.2.sup } ∧
      (∀ k, k ≠ c.team → t.team k = s.team k) ∧ (t.pipe c.core c.p).raft = none ∧
      ∀ k, ∃ cs, t.cluster k = { s.cluster k with cursors := cs } ∧
        ∀ id, mfind id cs = (mfind id (s.cluster k).cursors).bind fun y =>
          if k = Config.clusterOf x.core ∧ (c.laneOf y.thread).isSome then none else some y

/-- R220, R222, R221: supervisor-only instructions raise 0x05 for the lowest lane in user mode, before any other cause and with no effect; a
pattern that is no instruction raises 0x01, in either mode and before any other cause. The lane that raises 0x01 in a raft of both modes is that
of log 53 (DEDUCED). -/
def Obligations.PrivilegeTraps : Prop :=
  (∀ (s : State) (c : Ctx) (l : Ln) (skip : Bool) (b : Src) (n csr : BitVec 4) (form : CsrForm),
    s.ctx false = some c → c.injected = none → c.lns.find? (fun x => !x.th.sup) = some l →
    let traps (i : Instr) : Prop := exec i s = .next (s.raise c l { cause := 0x05 } 4)
    traps (.eret skip) ∧ traps (.tlbiPage n b) ∧ traps (.tlbiAsid b) ∧ traps .tlbiAll ∧ traps (.harvAsid b) ∧ traps .harvAll ∧
    (csr.toNat ∈ [3, 4, 5, 6, 8, 9] → traps (.csrw form b csr))) ∧
  ∀ (s : State) (c : Ctx) (len : Nat), s.ctx false = some c →
    exec (.unassignedEncoding len) s = .next (s.raise c c.whole { cause := 0x01 } len)

/-- R325, R326, R73, R330: `csrr` copies a CSR to a pair of uniform registers; `csrw` writes, sets or clears, dropping reserved bits and
bringing AGELIM and SURRBND to the nearer bound of their range, and a write to FLAGS keeps what jobs merged in the same cycle; `sys.info`
answers a word of the device. -/
def Obligations.SpecialRegisterResults : Prop :=
  ∀ (s : State) (c : Ctx) (csr : BitVec 4) (form : CsrForm) (b : Src) (k : BitVec 2) (d : BitVec 5),
    let x : DWord := (src64 .int c.tm c.counted.elected b).val
    let old : DWord := c.tm.csrv csr.toNat
    let kept : DWord := (match form with
      | .write => x
      | .set => old ||| x
      | .clr => old &&& ~~~x) &&& csrMask csr.toNat
    let stored : DWord :=
      if csr = 7 then BitVec.ofNat 64 (max 8 (min 4096 kept.toNat))
      else if csr = 10 then BitVec.ofNat 64 (max 16 (min 4096 kept.toNat)) else kept
    let pair (x : DWord) (t : Team) : Team := (t.setS d.toNat (x.setWidth 32)).setS (d.toNat + 1) (x.extractLsb' 32 32)
    let word : DWord := match k.toNat with
      | 0 => 0x096000000001
      | 1 => s.hub.accepted.setWidth 64
      | 2 => s.hub.accepted.extractLsb' 64 64
      | _ => BitVec.ofNat 64 c.tm.asid
    (Ready {} s c → ∃ t, exec (.csrr csr d) s = .next t ∧ CompletedOnce s t c 4 (pair old) ∧ GoesOn s t c (c.pc + 4)) ∧
    (Ready {} s c → ∃ t, exec (.sysInfo k d) s = .next t ∧ CompletedOnce s t c 4 (pair word) ∧ GoesOn s t c (c.pc + 4)) ∧
    (Ready { wide := [b], once := true, priv := decide (csr.toNat ∈ [3, 4, 5, 6, 8, 9]) } s c →
      ∃ t, exec (.csrw form b csr) s = .next t ∧ GoesOn s t c (c.pc + 4) ∧ CompletedOnce s t c 4 fun y =>
        if csr = 0 then (y.setCsr 0 stored).orFlags y.merged else y.setCsr csr.toNat stored)

/-- R328, R329, R117: `tlbi` and `harv` write the gathered A and D of the matching entries to the tables by atomic OR. `tlbi` then removes those
entries from every TLB of the package; `harv` keeps them, their A and D clear again (that they are cleared is log 26, DEDUCED). Neither changes
anything else. -/
def Obligations.TranslationMaintenance : Prop :=
  ∀ (s : State) (c : Ctx) (n : BitVec 4) (b : Src),
    let asid : Nat := (src32 .int c.tm c.counted.elected b).w.toNat % 256
    let va : Nat := (c.tm.areg n.toNat).toNat % 2 ^ 57
    let o : Issue := { priv := true, once := true }
    let ored (hit : Tlb → Prop) [DecidablePred hit] (a : Nat) : Byte :=
      (s.tlbEntries.filter fun e => e.addr = a ∧ hit e).foldl
        (fun x e => x ||| (if e.a then 0x40 else 0) ||| (if e.d then 0x80 else 0)) (s.home a)
    let wrote (hit : Tlb → Prop) [DecidablePred hit] (t : State) : Prop :=
      (∀ a, t.home a = ored hit a) ∧ GoesOn s t c (c.pc + 4) ∧
      t = { s.counted c with pipes := t.pipes, tlb1 := t.tlb1, tlb2 := t.tlb2, mem := t.mem, stale := t.stale, lag := t.lag, psnMem := t.psnMem }
    let clean (hit : Tlb → Prop) [DecidablePred hit] (e : Tlb) : Tlb := if hit e then { e with a := false, d := false } else e
    let dropped (i : Instr) (hit : Tlb → Prop) [DecidablePred hit] : Prop :=
      ∃ t, exec i s = .next t ∧ wrote hit t ∧ t.tlbEntries = s.tlbEntries.filter fun e => ¬ hit e
    let cleaned (i : Instr) (hit : Tlb → Prop) [DecidablePred hit] : Prop :=
      ∃ t, exec i s = .next t ∧ wrote hit t ∧ t.tlbEntries = s.tlbEntries.map (clean hit)
    (Ready { o with srcs := [b], ar := [n.toNat] } s c → s.inTransit (.page asid va) = false →
      dropped (.tlbiPage n b) fun e => e.asid = asid ∧ e.vbase = va / 2 ^ e.log2) ∧
    (Ready { o with srcs := [b] } s c → s.inTransit (.asid asid) = false → dropped (.tlbiAsid b) fun e => e.asid = asid) ∧
    (Ready o s c → s.inTransit .all = false → dropped .tlbiAll fun _ => True) ∧
    (Ready { o with srcs := [b] } s c → cleaned (.harvAsid b) fun e => e.asid = asid) ∧
    (Ready { priv := true } s c → cleaned .harvAll fun _ => True)

/-- R330, R347: `sys.msg` writes a record at the tail of its slice's message queue, advances TAIL and signals the vector; while the queue is full,
or what the raft has stored before is still on its way (R188), the raft holds its pipe (R46). What the wait is for is log 62 (DEDUCED). -/
def Obligations.MessagePosted : Prop :=
  ∀ (s : State) (c : Ctx) (b : Src), Ready { wide := [b], once := true } s c →
    let q := s.slice c.tm.slice
    let vec : Nat := (s.hreg (0x1010 + 0x100 * c.tm.slice)).toNat % 2 ^ 11
    let tail : Nat := s.homeNat (q.mqCtl + 4) 4
    let at_ : Nat := q.mqBase + 16 * (tail % 2 ^ q.mqLog2)
    let value : DWord := (src64 .int c.tm c.counted.elected b).val
    let words : List Byte := natLe 8 value.toNat ++ natLe 4 ((c.pc - c.tm.codebase).toNat % 2 ^ 32) ++ natLe 4 (c.core * 0x10000 + c.tm.slot)
    let on : Prop := s.sending c.tids = true
    (s.msgFull c.tm.slice = false → ¬ on → at_ + 16 ≤ q.mqCtl + 4 ∨ q.mqCtl + 8 ≤ at_ → ∃ t, exec (.sysMsg b) s = .next t ∧
      t.homeBytes at_ 16 = words ∧ t.homeNat (q.mqCtl + 4) 4 = (tail + 1) % 2 ^ 32 ∧
      (∀ a, ¬(at_ ≤ a ∧ a < at_ + 16) → ¬(q.mqCtl + 4 ≤ a ∧ a < q.mqCtl + 8) → t.home a = s.home a) ∧
      t.hub = (if vec = 0x7FF then s.hub else { s.hub with msi := vec :: s.hub.msi }) ∧ GoesOn s t c (c.pc + 4) ∧
      t = { s.counted c with pipes := t.pipes, hub := t.hub, mem := t.mem, stale := t.stale, lag := t.lag, vc := t.vc, psnMem := t.psnMem }) ∧
    (s.msgFull c.tm.slice = true ∨ on → ∃ t, exec (.sysMsg b) s = .next t ∧ OnlyPipes s t ∧
      t.pipe c.core c.p = { c.pr with start := some (c.pr.start.getD s.now), ready := s.now + 1, fixed := false, cutAt := none })

/-- R276, R278, R280, R281, R284, R75, R30: `ld`, `ldacq`, `ldu` and `lds` write what their addresses hold, extended and tagged by type, and mark
the registers as awaiting their data (that a destination is written at issue and is busy until its data comes is log 56, DEDUCED); a load of
global memory leaves the line its highest lane read in the core's L1 (which accesses bring lines in is log 56, DESIGN CHOICE). R281, R47, R369: an
`ld` or `ldacq` with a lane in another package, or cut off from its memory (log 28, DEDUCED), files the raft: such a lane's thread waits for its
data, and the others go on with theirs; `ldu`, which is made once, blocks the whole raft. R368, R370: where every cause that a lane meets is a
0x10 that parks, in user mode, those lanes park at the instruction with one record of KIND 0, and the others are done and filed at the next; `ldu`
parks the whole raft. Which lanes park is also log 58 (DEDUCED). -/
def Obligations.LoadResults : Prop :=
  (∀ (s : State) (c : Ctx) (ty : MemTy) (sc : Scope) (b64 h : Bool) (n : BitVec 4) (o : Src) (d : BitVec 6) (ds : BitVec 5)
     (acc : Ln → GAcc × VAddr) (loc : Ln → Loc),
     let k := c.counted
     let base := c.tm.areg n.toNat
     let off (l : Ln) : Word := (src32 .int c.tm l o).w
     let reg : Issue := { srcs := [o], ar := [n.toNat] }
     let frame (t : State) (ls : List Ln) : Prop :=
       SameMemory s t (fun a => ∃ l ∈ ls, a = (acc l).1.tlb.addr) ∧
       t = { s with threads := t.threads, teams := t.teams, pipes := t.pipes, tlb1 := t.tlb1, tlb2 := t.tlb2, l1 := t.l1, llc := t.llc,
                    mem := t.mem, stale := t.stale, lag := t.lag, psnMem := t.psnMem } ∧ ∀ j, j ≠ c.core → mget [] j t.l1 = mget [] j s.l1
     let lineIn (t : State) (l : Ln) (size : Nat) : Prop :=
       ∀ pa mt, (acc l).1.loc = .mem pa mt → mt < 2 → ∃ d, ((pa + size - 1) / 256, d) ∈ mget [] c.core t.l1
     let ready (size : Nat) : Prop :=
       (∀ l ∈ k.lns, (s.counted c).laneGlob k l base (off l) size false [] = .ok (acc l) ∧ isRemote (acc l).1.loc = false ∧
         s.cutOff (acc l).1.loc = false) ∧ (s.counted c).mustWait k size false (k.lns.map fun l => (l, acc l)) = false
     let loads (i : Instr) (size : Nat) (w : List Byte → Thread → Thread) (rs : List Nat) : Prop :=
       Ready reg s c → ready size → ∃ t, exec i s = .next t ∧ frame t k.lns ∧ t.teams = s.teams ∧
         (∀ l, k.lns.getLast? = some l → lineIn t l size) ∧ Stepped s t k fun l =>
           { w (s.readAt c.die (acc l).1.loc size) l.th with busyV := rs ++ l.th.busyV }
     loads (.ld ty n o d) ty.size (fun bs => setRegs d.toNat (memTag ty) (memWords ty bs)) (memRegs ty d.toNat) ∧
     loads (.ldacq sc b64 n o d) (if b64 then 8 else 4)
       (fun bs th => if b64 then th.setPair d.toNat (BitVec.ofNat 64 (leNat bs)) tNone else th.setReg d.toNat (BitVec.ofNat 32 (leNat bs)) tI32)
       (if b64 then [d.toNat, d.toNat + 1] else [d.toNat]) ∧
     (let l := k.elected
      Ready { reg with once := true } s c → (s.counted c).laneGlob k l base (off l) ty.size false [] = .ok (acc l) →
      (s.counted c).mustWait k ty.size false [(l, acc l)] = false → isRemote (acc l).1.loc = false → s.cutOff (acc l).1.loc = false →
      ∃ t, exec (.ldu ty n o ds) s = .next t ∧ frame t [l] ∧ GoesOn s t c (c.pc + 4) ∧
        t.team c.team = (s.team c.team).map (setSregs ds.toNat (memWords ty (s.readAt c.die (acc l).1.loc ty.size))) ∧
        (∀ j, j ≠ c.team → t.team j = s.team j) ∧
        lineIn t l ty.size ∧
        t.threads = (((s.counted c).updThread l.tid fun th => { th with busyS := memRegs ty ds.toNat ++ th.busyS })).threads) ∧
     (Ready reg s c → (∀ l ∈ k.lns, (s.counted c).laneLocal k base h (off l) ty.size false = .ok (loc l)) →
      (s.counted c).localWait k ty.size false (k.lns.map fun l => (l, loc l)) = false →
      ∃ t, exec (.lds ty h n o d) s = .next t ∧ t = { s with threads := t.threads, pipes := t.pipes } ∧ Stepped s t k fun l =>
        { setRegs d.toNat (memTag ty) (memWords ty (s.readAt c.die (loc l) ty.size)) l.th with busyV := memRegs ty d.toNat ++ l.th.busyV })) ∧
  (∀ (s : State) (c : Ctx) (ty : MemTy) (n : BitVec 4) (o : Src) (ds : BitVec 5) (x : GAcc × VAddr),
     let k := c.counted
     Ready { srcs := [o], ar := [n.toNat], once := true } s c → c.injected = none →
     (s.counted c).laneGlob k k.elected (c.tm.areg n.toNat) (src32 .int c.tm k.elected o).w ty.size false [] = .ok x →
     (s.counted c).laneWait k ty.size false x = false → isRemote x.1.loc = true ∨ s.cutOff x.1.loc = true →
     ∃ t, exec (.ldu ty n o ds) s = .next t ∧ (t.pipe c.core c.p).raft = none ∧ t.teams = s.teams ∧
       SameMemory s t (fun a => a = x.1.tlb.addr) ∧
       (∀ l ∈ k.lns, k.Sole l → t.thread l.tid = some { l.th with
         pc := c.pc + 4
         place := .blocked (.remote (if l.tid = k.elected.tid then .ldu ty ds else .shared) x.1.loc.at (x.2.setWidth 64) s.now l.lane
           k.elected.tid) false }) ∧
       ∀ id, k.laneOf id = none → ∀ b, s.thread id = some b → ∃ a, t.thread id = some a ∧ Unmoved a b) ∧
  (∀ (s : State) (c : Ctx) (ty : MemTy) (sc : Scope) (b64 : Bool) (n : BitVec 4) (o : Src) (d : BitVec 6) (acc : Ln → GAcc × VAddr),
     let k := c.counted
     let far (l : Ln) : Bool := isRemote (acc l).1.loc || s.cutOff (acc l).1.loc
     let parts (i : Instr) (op : RemoteOp) : Prop :=
       Ready { srcs := [o], ar := [n.toNat] } s c →
       (∀ l ∈ k.lns, (s.counted c).laneGlob k l (c.tm.areg n.toNat) (src32 .int c.tm l o).w op.size false [] = .ok (acc l)) →
       (s.counted c).mustWait k op.size false (k.lns.map fun l => (l, acc l)) = false → (∃ l ∈ k.lns, far l = true) → c.injected = none →
       ∃ t, exec i s = .next t ∧ (t.pipe c.core c.p).raft = none ∧
         SameMemory s t (fun a => ∃ l ∈ k.lns, a = (acc l).1.tlb.addr) ∧
         (∀ l ∈ k.lns, k.Sole l → far l = true → t.thread l.tid = some { l.th with
           pc := c.pc + 4, place := .blocked (.remote op (acc l).1.loc.at ((acc l).2.setWidth 64) s.now l.lane l.tid) false }) ∧
         (∀ l ∈ k.lns, k.Sole l → far l = false → l.th.place = .raft → ∃ a, t.thread l.tid = some a ∧
           Filed a { op.into (s.readAt c.die (acc l).1.loc op.size) l.th with busyV := op.regs ++ l.th.busyV } (c.pc + 4)) ∧
         ∀ id, k.laneOf id = none → ∀ b, s.thread id = some b → ∃ a, t.thread id = some a ∧ Unmoved a b
     parts (.ld ty n o d) (.load ty d) ∧ parts (.ldacq sc b64 n o d) (.acq b64 d)) ∧
  (∀ (s : State) (c : Ctx) (ty : MemTy) (sc : Scope) (b64 : Bool) (n : BitVec 4) (o : Src) (d : BitVec 6) (ds : BitVec 5)
     (bad : Ln → Option Fail) (acc : Ln → GAcc × VAddr) (l0 : Ln) (f : Fail),
     let k := c.counted
     let check (size : Nat) (l : Ln) : Except Fail (GAcc × VAddr) :=
       (s.counted c).laneGlob k l (c.tm.areg n.toNat) (src32 .int c.tm l o).w size false []
     let ps := k.lns.filter fun l => (bad l).isSome
     let oks := k.lns.filter fun l => (bad l).isNone
     let far (l : Ln) : Bool := isRemote (acc l).1.loc || s.cutOff (acc l).1.loc
     (s.slice c.tm.slice).fqWait.length < 16 →
     let parts (i : Instr) (op : RemoteOp) : Prop :=
       Ready { srcs := [o], ar := [n.toNat] } s c → c.injected = none → PartBad k (check op.size) bad acc l0 f →
       (s.counted c).mustWait k op.size false (oks.map fun l => (l, acc l)) = false →
       ∃ t, exec i s = .next t ∧ PartParked s t k l0 f ps ∧ SameMemory s t (fun a => ∃ l ∈ oks, a = (acc l).1.tlb.addr) ∧
         (∀ l ∈ oks, k.Sole l → far l = true → t.thread l.tid = some { l.th with
           pc := c.pc + 4, place := .blocked (.remote op (acc l).1.loc.at ((acc l).2.setWidth 64) s.now l.lane l.tid) false }) ∧
         ∀ l ∈ oks, k.Sole l → far l = false → l.th.place = .raft → ∃ a, t.thread l.tid = some a ∧
           Filed a { op.into (s.readAt c.die (acc l).1.loc op.size) l.th with busyV := op.regs ++ l.th.busyV } (c.pc + 4)
     parts (.ld ty n o d) (.load ty d) ∧ parts (.ldacq sc b64 n o d) (.acq b64 d) ∧
     (∀ r, Ready { srcs := [o], ar := [n.toNat], once := true } s c → k.lns = l0 :: r → check ty.size k.elected = .error f → f.park = true →
       k.elected.th.sup = false → k.elected.th.inj = none →
       ∃ t, exec (.ldu ty n o ds) s = .next t ∧ PartParked s t k l0 f k.lns ∧ SameMemory s t fun _ => False))

/-- R276, R279, R284, R191, R193, R119, R369: `st` and `strel` store the low bytes of B, the highest lane's byte remaining; a store to a page of
replicas, by its own translation or by another lane's alias of the frame, waits for its commit, and one that no link delivers is posted; a `strel`
to another package comes after what its die has applied, and one waits, on its pipe, for what the raft has sent to this package's memory through
the switches, and at domain or system scope beyond the package (log 62); `sts` stores to scratchpad or landing. Nothing else of memory changes.
(That a store by an alias waits with the replicas is log 17, that a store to host memory that no link reaches is posted log 28, both DEDUCED as
log 62 is.) R368, R370: lanes that meet only a 0x10 that parks park at the instruction, and the others' stores are made. Which lanes park is also
log 58 (DEDUCED). -/
def Obligations.StoreResults : Prop :=
  ∀ (s : State) (c : Ctx) (ty : MemTy) (sc : Scope) (b64 h : Bool) (n : BitVec 4) (o b : Src) (acc : Ln → GAcc × VAddr) (loc : Ln → Loc),
    let k := c.counted
    let base := c.tm.areg n.toNat
    let off (l : Ln) : Word := (src32 .int c.tm l o).w
    let stores (i : Instr) (size : Nat) (rel : Option Scope) : Prop :=
      let bytes (l : Ln) : List Byte := storeBytes size c.tm l b
      let place (l : Ln) : Loc := (acc l).1.loc
      let page (l : Ln) : Nat := (place l).at / 0x1000
      let locks (l : Ln) : Bool :=
        (place l).mt == 1 || ((place l).mt == 0 && k.lns.any fun m => (place m).mt == 1 && page m == page l)
      let now := k.lns.filter fun l => !s.cutOff (place l) && !locks l
      let byte (a : Nat) : Option Byte := lastStored now (fun l => (place l).at) bytes a
      Ready (storeIssue size b o n.toNat) s c →
      (∀ l ∈ k.lns, (s.counted c).laneGlob k l base (off l) size true [] = .ok (acc l)) →
      (s.counted c).mustWait k size true (k.lns.map fun l => (l, acc l)) = false →
      (s.relWait rel c.tids = true → ∃ t, exec i s = .next t ∧ OnlyPipes s t ∧
        t.pipe c.core c.p = { c.pr with start := some (c.pr.start.getD s.now), ready := s.now + 1, fixed := false, cutAt := none }) ∧
      (s.relWait rel c.tids = false → ∃ t, exec i s = .next t ∧ GoesOn s t c (c.pc + 4) ∧
        (∀ a, a ∉ s.tableBytes → (∀ l ∈ k.lns, a ≠ (acc l).1.tlb.addr) →
          t.home a = (byte a).getD (s.home a) ∧ (c.die < 4 → ∀ b, byte a = some b → t.view c.die a = b) ∧
          (byte a = none → ∀ e, e < 4 → (∀ l ∈ now, (place l).mt ≠ 3) ∨ (∀ x ∈ s.lag, x.dst = e → ∀ y ∈ x.cells, y.1 ≠ a) →
            t.view e a = s.view e a)) ∧
        (now ≠ [] → (∀ l ∈ now, (place l).mt = 3) → c.die < 4 → ∀ x ∈ t.lag, x.within (s.clock c.die) = false) ∧
        (t.repl.map fun r => { r with stamp := [] }) = (s.repl.map fun r => { r with stamp := [] }) ++
          ((k.lns.filter fun l => !s.cutOff (place l) && locks l).map fun l =>
            { page := page l, addr := (place l).at, bytes := bytes l, tid := l.tid, asid := c.tm.asid, va := (acc l).2.toNat, stamp := [] }) ∧
        t.posted = s.posted ++ ((k.lns.filter fun l => s.cutOff (place l)).map fun l =>
          { pa := (place l).at, va := (acc l).2.setWidth 64, issued := s.now, tid := l.tid, team := c.team, slice := c.tm.slice
            asid := c.tm.asid, core := c.core, slot := c.tm.slot, bytes := bytes l, lanes := s.lanesOf c.tm }) ∧
        t = { s.counted c with pipes := t.pipes, tlb1 := t.tlb1, tlb2 := t.tlb2, mem := t.mem, stale := t.stale, lag := t.lag, vc := t.vc,
                               psnMem := t.psnMem, repl := t.repl, posted := t.posted })
    stores (.st ty n o b) ty.size none ∧ stores (.strel sc b64 n o b) (if b64 then 8 else 4) (some sc) ∧
    (let bytes (l : Ln) : List Byte := storeBytes ty.size c.tm l b
     let isSpad (l : Ln) : Bool := match loc l with
       | .spad _ => true
       | _ => false
     let isLand (l : Ln) : Bool := match loc l with
       | .land _ _ _ => true
       | _ => false
     Ready (storeIssue ty.size b o n.toNat) s c →
     (∀ l ∈ k.lns, (s.counted c).laneLocal k base h (off l) ty.size true = .ok (loc l)) →
     (s.counted c).localWait k ty.size true (k.lns.map fun l => (l, loc l)) = false →
     ∃ t, exec (.sts ty h n o b) s = .next t ∧ GoesOn s t c (c.pc + 4) ∧
       (∀ a, mget 0 a t.spad = (lastStored (k.lns.filter isSpad) (fun l => (loc l).at) bytes a).getD (mget 0 a s.spad)) ∧
       (∀ a, mget 0 a t.land = (lastStored (k.lns.filter isLand) (fun l => (loc l).at) bytes a).getD (mget 0 a s.land)) ∧
       t = { s.counted c with pipes := t.pipes, spad := t.spad, land := t.land, psnSpad := t.psnSpad, psnLand := t.psnLand }) ∧
    ∀ (bad : Ln → Option Fail) (l0 : Ln) (f : Fail),
      let ps := k.lns.filter fun l => (bad l).isSome
      let oks := k.lns.filter fun l => (bad l).isNone
      let bytes (l : Ln) : List Byte := storeBytes ty.size c.tm l b
      let byte (a : Nat) : Option Byte := lastStored oks (fun l => (acc l).1.loc.at) bytes a
      Ready (storeIssue ty.size b o n.toNat) s c →
      PartBad k (fun l => (s.counted c).laneGlob k l base (off l) ty.size true []) bad acc l0 f → (s.slice c.tm.slice).fqWait.length < 16 →
      (s.counted c).mustWait k ty.size true (oks.map fun l => (l, acc l)) = false →
      (∀ l ∈ oks, (acc l).1.loc.mt ≠ 1 ∧ s.cutOff (acc l).1.loc = false) →
      ∃ t, exec (.st ty n o b) s = .next t ∧ PartParked s t k l0 f ps ∧
        (∀ l ∈ oks, k.Sole l → l.th.place = .raft → ∃ a, t.thread l.tid = some a ∧ Filed a l.th (c.pc + 4)) ∧
        ∀ a, a ∉ s.tableBytes → (∀ l ∈ oks, a ≠ (acc l).1.tlb.addr) → t.home a = (byte a).getD (s.home a)

/-- R68, R381, R428, R276: the checks of a global access, in order: no entry for the ASID (0x12), a base that is not canonical (0x10), the
translation's own cause, a permission refused (0x11), a misaligned address (0x06), a memory type refused (0x11: the type in the page's
entry); an access with none of them goes to the page's frame. R428, R385, R93 to R95, R106, R112: those of an access to scratchpad or landing: a
misaligned offset (0x06); in own form a granule transferred out (0x13), then an end past the allocation (0x14); through a buffer's handle one that
is stale or whose holder is another (0x13), then an end past the buffer (0x14); through a landing handle one not held, or an offset beyond its
tiles (0x2B), but for a reclaimed loose lease, which has no place of its own (R109). -/
def Obligations.AccessChecks : Prop :=
  (∀ (s : State) (core team : Nat) (t : Team) (hnd write : Bool) (base : DWord) (off n : Nat), n ≠ 0 →
    let out := s.local core team t hnd base off n write
    let cl := core / 8
    let h := (base.extractLsb' 32 32).toNat
    let causes (cause : Nat) (d : DWord) : Prop := ∃ f, out = .error f ∧ f.cause = cause ∧ f.detail = d ∧ f.write = write ∧ f.park = false
    let own : DWord := BitVec.ofNat 64 off
    let named : DWord := BitVec.ofNat 64 (h * 2 ^ 32 + off)
    (off % n ≠ 0 → causes 0x06 0) ∧
    (off % n = 0 →
      (hnd = false →
        let g := t.spad0 + off / 0x1000
        let gone : Prop := ∃ b ∈ (s.cluster cl).bufs, b.core = core ∧ b.orig = team ∧ b.holder ≠ team ∧ b.first ≤ g ∧ g < b.first + b.count
        (gone → causes 0x13 own) ∧ (¬ gone → t.spadN * 0x1000 < off + n → causes 0x14 own) ∧
        (¬ gone → off + n ≤ t.spadN * 0x1000 → out = .ok (.spad (core * 0x40000 + t.spad0 * 0x1000 + off)))) ∧
      (hnd = true → 2 ^ 31 ≤ h →
        ((∀ b, s.bufBy cl h = some b → b.holder ≠ team) → causes 0x13 named) ∧
        ∀ b, s.bufBy cl h = some b → b.holder = team → (b.count * 0x1000 < off + n → causes 0x14 named) ∧
          (off + n ≤ b.count * 0x1000 → out = .ok (.spad (b.core * 0x40000 + b.first * 0x1000 + off)))) ∧
      (hnd = true → h < 2 ^ 31 →
        let places (lease : Nat) (tiles : List Nat) : Prop :=
          (∀ x, tiles[off / 0x10000]? = some x → out = .ok (.land (cl * 0x800000 + x * 0x10000 + off % 0x10000) (landUnit cl lease) off)) ∧
          (tiles.length ≤ off / 0x10000 → causes 0x2B 0)
        (h = 0x40000000 → places (pinnedLease team) t.pinned) ∧
        (h ≠ 0x40000000 → (s.heldLease cl team h = none → causes 0x2B 0) ∧
          ∀ i l, s.heldLease cl team h = some (i, l) →
            (l.dead = true → out = .ok (.void (landUnit cl i) off)) ∧ (l.dead = false → places i (l.reach s.now)))))) ∧
  ∀ (s : State) (w : Who) (asid : Nat) (base : DWord) (va : VAddr) (size : Nat) (u : Use) (noMt : List Nat),
    let det : DWord := va.setWidth 64
    let out := s.global w asid base va size u noMt
    let causes (x : Except Fail GAcc) (cause : Nat) (d : DWord) : Prop := ∃ f, x = .error f ∧ f.cause = cause ∧ f.detail = d ∧ f.write = u.write
    let sound (t : Tlb) : Prop := s.xlate w asid va.toNat det = .ok t
    let e (t : Tlb) : Nat := t.pte.toNat
    let allowed (t : Tlb) : Prop :=
      (u.write = true → (e t).testBit 4 = true) ∧ (u.fetch = true → (e t).testBit 5 = true) ∧ ((e t).testBit 9 = true → u.sup = true)
    (mfind asid s.hub.asids = none → causes out 0x12 det) ∧
    ((mfind asid s.hub.asids).isSome → base ≠ (base.setWidth 57).signExtend 64 → causes out 0x10 base) ∧
    (base = (base.setWidth 57).signExtend 64 → (mfind asid s.hub.asids).isSome →
      (∀ f, s.xlate w asid va.toNat det = .error f → causes out f.cause f.detail) ∧
      ∀ t, sound t →
        (¬ allowed t → causes out 0x11 det) ∧
        (allowed t → va.toNat % size ≠ 0 → causes out 0x06 0) ∧
        (allowed t → va.toNat % size = 0 →
          (bits (e t) 10 2 ∈ noMt → causes out 0x11 det) ∧
          (bits (e t) 10 2 ∉ noMt → out = .ok { loc := s.locOf t va.toNat, tlb := t })))

/-- R182, R282, R283, R95: `stbmv` writes the stream of a dense vector and its length; `ldbmv` expands a stream into the vector it came from. -/
def Obligations.StreamResults : Prop :=
  ∀ (s : State) (c : Ctx) (ty : MemTy) (n : BitVec 4) (p : BitVec 5) (es : List (List Byte)) (kb : Nat),
    ty.bmvSize = some kb →
    let k := c.counted
    let l := k.elected
    let S (j : Nat) : Nat := (c.tm.sreg (p.toNat + j)).toNat
    let base := c.tm.areg n.toNat
    let va : Nat := base.toNat % 2 ^ 57
    let cnt := es.length
    let key := spadKey c.core (c.tm.spad0 * 0x1000 + S 0)
    let present := (es.filter nonzero).length
    let need := 8 + maskLen cnt + present * kb
    1 ≤ cnt → cnt ≤ 65536 → (∀ e ∈ es, e.length = kb) → S 0 % 4 = 0 → va % 8 = 0 →
    (Ready { ar := [n.toNat], sr := [p.toNat, p.toNat + 1, p.toNat + 2], once := true } s c →
     S 1 = cnt → mgets 0 s.spad key (cnt * kb) = es.flatten → S 2 % 8 = 0 → round8 need ≤ S 2 → S 0 + cnt * kb ≤ c.tm.spadN * 0x1000 →
     s.transferredIn c (S 0) (cnt * kb) = false → hasPsn 8 key (cnt * kb) s.psnSpad = false →
     ∀ ps, (s.counted c).range k.who c.tm.asid base va (round8 need) (l.use true) [] = .ok ps →
     s.conflict c.cluster (gRng c.tm.asid va (round8 need) true :: (Loc.spad key).rng (cnt * kb) false) = false →
     (∀ q ∈ ps, q.loc.mt ≠ 1 → s.shut q.loc = false) →
     ∃ t, exec (.stbmv ty n p) s = .next t ∧ GoesOn s t c (c.pc + 4) ∧
       t.team c.team = (s.team c.team).map (fun x => x.setS (p.toNat + 3) (BitVec.ofNat 32 (round8 need))) ∧
       (∀ j, j ≠ c.team → t.team j = s.team j) ∧ t.threads = (s.counted c).threads ∧
       (let wrote (a : Nat) : Prop := ∃ q ∈ ps, a = q.tlb.addr ∨ (q.loc.at ≤ a ∧ a < q.loc.at + q.n)
        SameHome s t wrote ∧ ((∀ q ∈ ps, q.loc.mt ≠ 3) → SameMemory s t wrote)) ∧
       ∀ q, ps = [q] → q.loc.mt = 0 →
         t.homeBytes q.loc.at (round8 need) = bmvStream kb cnt es) ∧
    (Ready { ar := [n.toNat], sr := [p.toNat, p.toNat + 1], once := true } s c →
     cnt ≤ S 1 → S 0 + S 1 * kb ≤ c.tm.spadN * 0x1000 → s.transferredIn c (S 0) (S 1 * kb) = false →
     ∀ hp ps, (s.counted c).range k.who c.tm.asid base va 8 (l.use false) [] = .ok hp →
     (s.counted c).range k.who c.tm.asid base va need (l.use false) [] = .ok ps →
     s.poisonIn hp = none → s.poisonIn ps = none → (∀ q ∈ hp ++ ps, s.shut q.loc = false) →
     s.readPieces c.die hp = (bmvStream kb cnt es).take 8 → s.readPieces c.die ps = (bmvStream kb cnt es).take need →
     s.conflict c.cluster (gRng c.tm.asid va need false :: (Loc.spad key).rng (cnt * kb) true) = false →
     ∃ t, exec (.ldbmv ty n p) s = .next t ∧ GoesOn s t c (c.pc + 4) ∧
       mgets 0 t.spad key (cnt * kb) = es.flatten ∧ (∀ a, ¬(key ≤ a ∧ a < key + cnt * kb) → mget 0 a t.spad = mget 0 a s.spad) ∧
       t.team c.team = (s.team c.team).map (fun x => x.setS (p.toNat + 2) (BitVec.ofNat 32 present)) ∧
       (∀ j, j ≠ c.team → t.team j = s.team j) ∧ t.threads = (s.counted c).threads ∧
       SameMemory s t fun a => ∃ q ∈ ps, a = q.tlb.addr)

/-- R195, R287, R288, R392: an `atom` makes its raft's operations at one address in ascending lane order, each lane receiving the value before its
own, and on memory of another package its whole raft waits, for operations that are made together; `atomu` makes each lane's at its own address
and gives nothing back: at once, posted where no link delivers it, or, with `.far` in a window, through the switches. An atomic on a page of
replicas commits at once (log 17), an `atomu` that no link carries to host memory is posted (log 28), both DEDUCED. -/
def Obligations.AtomicResults : Prop :=
  ∀ (s : State) (c : Ctx) (op : AtomOp) (near far : Bool) (n : BitVec 4) (b o : Src) (d : BitVec 6) (g : GAcc) (acc : Ln → GAcc × VAddr),
    let k := c.counted
    let base := c.tm.areg n.toNat
    let size := atomSize op
    let cmp (l : Ln) : DWord := if op.wide then l.th.pair d.toNat else (l.th.reg d.toNat).val.setWidth 64
    let next (m : DWord) (l : Ln) : DWord := atomNew op m (atomB op c.tm l b) (cmp l)
    let word (t : State) (a : Nat) : DWord := BitVec.ofNat 64 (t.homeNat a size)
    let rest (t : State) : Prop :=
      t = { s with threads := t.threads, pipes := t.pipes, tlb1 := t.tlb1, tlb2 := t.tlb2, mem := t.mem, stale := t.stale, lag := t.lag,
                   vc := t.vc, psnMem := t.psnMem }
    let tables (ls : List GAcc) (a : Nat) : Prop := a ∈ s.tableBytes ∨ ∃ x ∈ ls, a = x.tlb.addr
    let compared : List Nat := match op with
      | .cas => [d.toNat]
      | .cas64 => [d.toNat, d.toNat + 1]
      | _ => []
    let regs : Issue := if op.wide then { wide := [b], vr := compared, ar := [n.toNat] } else { srcs := [b], vr := compared, ar := [n.toNat] }
    let regsU : Issue := if op.wide then { srcs := [o], wide := [b], ar := [n.toNat] } else { srcs := [b, o], ar := [n.toNat] }
    let addressed (l : Ln) : Prop :=
      (s.counted c).laneAddr k l base (src32 .int c.tm l o).w size true [2] = .ok (acc l) ∧ s.poisonAt (acc l).1.loc size = false
    (Ready regs s c → s.global c.who c.tm.asid base (base.setWidth 57) size (k.elected.use true) [2] = .ok g →
     s.poisonAt g.loc size = false → s.lockedAt g.loc = false → s.conflict c.cluster [gRng c.tm.asid (base.toNat % 2 ^ 57) size true] = false →
     isRemote g.loc = false → (∀ j, j < size → ¬ tables [g] (g.loc.at + j)) →
     ∃ t, exec (.atom op near n b d) s = .next t ∧ rest t ∧ GoesOn s t c (c.pc + 4) ∧
       word t g.loc.at = k.lns.foldl next (word s g.loc.at) ∧
       SameHome s t (fun a => a = g.tlb.addr ∨ (g.loc.at ≤ a ∧ a < g.loc.at + size)) ∧
       (∀ j l, k.lns[j]? = some l → k.Sole l → t.thread l.tid =
         some ((l.th.setAtom op d.toNat ((k.lns.take j).foldl next (word s g.loc.at))).addBusy (atomRegs op d.toNat))) ∧
       ∀ id, k.laneOf id = none → t.thread id = s.thread id) ∧
    (Ready regs s c → c.injected = none → s.global c.who c.tm.asid base (base.setWidth 57) size (k.elected.use true) [2] = .ok g →
     s.poisonAt g.loc size = false → s.lockedAt g.loc = false → s.conflict c.cluster [gRng c.tm.asid (base.toNat % 2 ^ 57) size true] = false →
     isRemote g.loc = true →
     ∃ t, exec (.atom op near n b d) s = .next t ∧ (t.pipe c.core c.p).raft = none ∧ t.teams = s.teams ∧
       SameHome s t (fun a => a = g.tlb.addr) ∧
       (∀ l ∈ k.lns, k.Sole l → t.thread l.tid = some { l.th with
         pc := c.pc + 4
         place := .blocked (.remote (.atom op (atomB op c.tm l b) (cmp l) d) g.loc.at ((base.setWidth 57).setWidth 64) s.now l.lane
           k.elected.tid) false }) ∧
       ∀ id, k.laneOf id = none → ∀ y, s.thread id = some y → ∃ a, t.thread id = some a ∧ Unmoved a y) ∧
    (Ready regsU s c → op.inAtomu = true → (∀ l ∈ k.lns, addressed l) →
     (∀ l ∈ k.lns, s.cutOff (acc l).1.loc = false ∧ s.lockedAt (acc l).1.loc = false) →
     (s.counted c).mustWait k size true (k.lns.map fun l => (l, acc l)) = false →
     (∀ l ∈ k.lns, ∀ j, j < size → ¬ tables (k.lns.map fun l => (acc l).1) ((acc l).1.loc.at + j)) →
     (far = true → s.hub.contribs = [] ∧ ∀ l ∈ k.lns, s.inWindow (acc l).1.loc.at (acc l).1.loc.mt op = false) →
     ∃ t, exec (.atomu op far n b o) s = .next t ∧ rest t ∧ t.threads = (s.counted c).threads ∧ GoesOn s t c (c.pc + 4) ∧
       (∀ l ∈ k.lns, let a := (acc l).1.loc.at
         word t a = (k.lns.filter fun x => (acc x).1.loc.at == a).foldl (fun m x => atomNew op m (atomB op c.tm x b) 0) (word s a)) ∧
       SameHome s t fun a => ∃ l ∈ k.lns, a = (acc l).1.tlb.addr ∨ ((acc l).1.loc.at ≤ a ∧ a < (acc l).1.loc.at + size)) ∧
    (∀ l, k.lns = [l] → Ready regsU s c → op.inAtomu = true → addressed l → s.lockedAt (acc l).1.loc = false →
     (s.counted c).mustWait k size true [(l, acc l)] = false → (∀ j, j < size → ¬ tables [(acc l).1] ((acc l).1.loc.at + j)) →
     s.inWindow (acc l).1.loc.at (acc l).1.loc.mt op = true → s.hub.contribs = [] →
     let a := (acc l).1.loc.at
     ∃ t, exec (.atomu op true n b o) s = .next t ∧ t.threads = (s.counted c).threads ∧ GoesOn s t c (c.pc + 4) ∧
       (s.linkUp = true → word t a = atomNew op (word s a) (atomB op c.tm l b) 0 ∧ t.hub = s.hub ∧
         SameHome s t fun x => x = (acc l).1.tlb.addr ∨ (a ≤ x ∧ x < a + size)) ∧
       (s.linkUp = false → SameHome s t (fun x => x = (acc l).1.tlb.addr) ∧ t.hub = { s.hub with contribs :=
         [{ pa := a, op := op, b := atomB op c.tm l b, issued := s.now, va := (acc l).2.setWidth 64, mt := (acc l).1.loc.mt, tid := l.tid,
            team := c.team, slice := c.tm.slice, asid := c.tm.asid, core := c.core, slot := c.tm.slot, lanes := s.lanesOf c.tm }] })) ∧
    (Ready regsU s c → (∀ l ∈ k.lns, addressed l) →
     (∀ l ∈ k.lns, s.cutOff (acc l).1.loc = true ∧ s.lockedAt (acc l).1.loc = false) → far = false →
     (s.counted c).mustWait k size true (k.lns.map fun l => (l, acc l)) = false →
     ∃ t, exec (.atomu op far n b o) s = .next t ∧ GoesOn s t c (c.pc + 4) ∧ t.threads = (s.counted c).threads ∧
       SameHome s t (fun a => ∃ l ∈ k.lns, a = (acc l).1.tlb.addr) ∧ t.posted = s.posted ++ k.lns.map fun l =>
         { pa := (acc l).1.loc.at, va := (acc l).2.setWidth 64, issued := s.now, tid := l.tid, team := c.team, slice := c.tm.slice,
           asid := c.tm.asid, core := c.core, slot := c.tm.slot, bytes := [], lanes := s.lanesOf c.tm,
           op := some (op, atomB op c.tm l b) })

/-- R285, R286, R192, R188: a fence at package, domain or system scope ends with every write seen in every die, a narrower one and `pref`
change nothing. While a store has replicas locked, while the switches hold a contribution of the raft's own threads to this package's memory,
or, at domain and system scope, while no link has delivered a store or a contribution of any thread (which of them the wait is for is log 62,
DEDUCED), the raft of such a fence holds its pipe, and forced filing does not take it (R46); a narrower fence that orders stores waits, before
it issues, for its own raft's contributions to this package's memory (log 62). -/
def Obligations.FenceAndPrefetch : Prop :=
  ∀ (s : State) (c : Ctx) (sc : Scope) (kind : FenceKind) (l2 : Bool) (n : BitVec 4) (o : Src),
    let wide : Prop := sc = .package ∨ sc = .domain ∨ sc = .system
    let waits : Prop :=
      wide ∧ (s.repl ≠ [] ∨ s.unmerged c.tids = true ∨ (sc ≠ .package ∧ (s.posted ≠ [] ∨ s.hub.contribs ≠ [])))
    (Ready {} s c → waits → ∃ t, exec (.fence sc kind) s = .next t ∧ OnlyPipes s t ∧
      t.pipe c.core c.p = { c.pr with start := some (c.pr.start.getD s.now), ready := s.now + 1, fixed := true, cutAt := none }) ∧
    let stalls : Prop := ¬ wide ∧ kind ≠ .acq ∧ s.unmerged c.tids = true
    (Ready {} s c → stalls → ∃ t, exec (.fence sc kind) s = .next t ∧ OnlyPipes s t ∧
      t.pipe c.core c.p = { c.pr with start := some (c.pr.start.getD s.now), ready := s.now + 1, fixed := false, cutAt := none }) ∧
    (Ready {} s c → ¬ waits → ¬ stalls → ∃ t, exec (.fence sc kind) s = .next t ∧ GoesOn s t c (c.pc + 4) ∧
      if sc = .package ∨ sc = .domain ∨ sc = .system then
        t.lag = [] ∧ (∀ d a, t.view d a = s.home a) ∧ t = { s.counted c with pipes := t.pipes, stale := t.stale, lag := t.lag, vc := t.vc }
      else t = { s.counted c with pipes := t.pipes }) ∧
    (Ready { srcs := [o], ar := [n.toNat] } s c → ∃ t, exec (.pref l2 n o) s = .next t ∧ GoesOn s t c (c.pc + 4) ∧
      t = { s.counted c with pipes := t.pipes })

/-- R96, R97, R290: `taglk` gives each lane the lowest slot of the team that holds its line, `tagset` puts a line in one slot and takes it
out of every other, `tagclr` empties a slot. -/
def Obligations.TagTableResults : Prop :=
  ∀ (s : State) (c : Ctx) (n : BitVec 4) (o b : Src) (d : BitVec 6),
    let k := c.counted
    let first := c.tm.spad0 * 16
    let slots := c.tm.spadN * 16
    let line (l : Ln) : BitVec 49 := (eaOf (c.tm.areg n.toNat) (src32 .int c.tm l o).w).extractLsb' 8 49
    let slot (l : Ln) : Nat := (src32 .int c.tm l b).w.toNat
    let tab (t : State) : Map DWord := (t.core c.core).tagTab
    let holds (m : Map DWord) (j : Nat) (x : BitVec 49) : Bool := (mget 0 j m).getLsbD 63 && (mget 0 j m).extractLsb' 8 49 == x
    let onlyTags (t : State) : Prop :=
      t = { s.counted c with pipes := t.pipes, cores := t.cores, psnTag := t.psnTag } ∧
        (∀ j, t.core j = { s.core j with tagTab := (t.core j).tagTab }) ∧ (∀ j, j ≠ c.core → t.core j = s.core j) ∧ GoesOn s t c (c.pc + 4)
    (Ready { srcs := [o], ar := [n.toNat] } s c → (∀ j, j < slots → c.core * 1024 + first + j ∉ s.psnTag) →
      ∃ t, exec (.taglk n o d) s = .next t ∧ t = { s with threads := t.threads, pipes := t.pipes } ∧ Stepped s t k fun l =>
        l.th.setReg d.toNat (match (List.range slots).find? fun j => holds (tab s) (first + j) (line l) with
          | some j => BitVec.ofNat 32 j
          | none => 0xFFFFFFFF) tU32) ∧
    (Ready { srcs := [o, b], ar := [n.toNat] } s c → (∀ l ∈ k.lns, slot l < slots) →
      ∃ t, exec (.tagset n o b) s = .next t ∧ onlyTags t ∧
        ∀ l, k.lns.getLast? = some l →
          mfind (first + slot l) (tab t) = some (1#1 ++ 0#6 ++ line l ++ 0#8) ∧
          (∀ j, j < slots → j ≠ slot l → holds (tab t) (first + j) (line l) = false) ∧
          ∀ j, (∀ x ∈ k.lns, j ≠ first + slot x ∧ ∀ e, mfind j (tab s) = some e → e.getLsbD 63 = true → e.extractLsb' 8 49 ≠ line x) →
            mfind j (tab t) = mfind j (tab s)) ∧
    (Ready { srcs := [b] } s c → (∀ l ∈ k.lns, slot l < slots) →
      ∃ t, exec (.tagclr b) s = .next t ∧ onlyTags t ∧ t.psnTag = s.psnTag ∧
        ∀ j, mfind j (tab t) = if ∃ l ∈ k.lns, j = first + slot l then none else mfind j (tab s))

/-- R101 to R104, R291: `barinit` writes an object, `bararv` counts an arrival per thread and `barexp` expects bytes, each update ending in the
completion check; as a release, at cluster scope on chip and at domain scope in global memory, it waits on its pipe for what the raft has sent;
`barwait` lets pass the threads whose phase is over, as an acquire, and blocks the others. What an arrival waits for is log 62 (DEDUCED). -/
def Obligations.BarrierResults : Prop :=
  ∀ (s : State) (c : Ctx) (sp : Space) (n : BitVec 4) (b cc : Src) (x : Loc) (tlb : Option Tlb),
    let k := c.counted
    let l := k.elected
    let r : Ref := { space := sp, a := c.tm.areg n.toNat }
    let w (q : Src) (l : Ln) : Word := (src32 .int c.tm l q).w
    let old : BarObj := s.barAt x
    let len := k.lns.length
    let apart : Prop := ∀ j, j < 16 → x.isMem = true → x.at + j ∉ s.tableBytes ∧ ∀ e, tlb = some e → x.at + j ≠ e.addr
    let frame (t : State) : Prop :=
      GoesOn s t c (c.pc + 4) ∧ BarsMarked (s.counted c) t ∧
      t = { s with threads := t.threads, pipes := t.pipes, tlb1 := t.tlb1, tlb2 := t.tlb2, mem := t.mem, stale := t.stale, lag := t.lag,
                   vc := t.vc, psnMem := t.psnMem, spad := t.spad, psnSpad := t.psnSpad, land := t.land, psnLand := t.psnLand } ∧
      SameHome s t (fun a => (∃ e, tlb = some e ∧ a = e.addr) ∨ (x.isMem = true ∧ x.at ≤ a ∧ a < x.at + 16)) ∧
      (∀ a, mget 0 a t.spad ≠ mget 0 a s.spad → ∃ j, x = .spad j ∧ j ≤ a ∧ a < j + 16) ∧
      ∀ a, mget 0 a t.land ≠ mget 0 a s.land → ∃ j u o, x = .land j u o ∧ j ≤ a ∧ a < j + 16
    let becomes (i : Instr) (p : BarObj → Prop) : Prop :=
      apart → (s.counted c).objectRead c.core c.team c.tm l.th.sup r 16 16 true [1, 2] = .ok (x, tlb) → s.cutOff x = false →
      (s.relWait (some (if sp = .glob then .domain else .cluster)) c.tids = false → ∃ t, exec i s = .next t ∧ frame t ∧ p (t.barAt x)) ∧
      (s.relWait (some (if sp = .glob then .domain else .cluster)) c.tids = true → ∃ t, exec i s = .next t ∧ OnlyPipes s t ∧
        t.pipe c.core c.p = { c.pr with start := some (c.pr.start.getD s.now), ready := s.now + 1, fixed := false, cutAt := none })
    (Ready { srcs := [cc, b], ar := [n.toNat], once := true } s c → apart →
      (s.counted c).objectRead c.core c.team c.tm l.th.sup r 16 16 true [1, 2] = .ok (x, tlb) → s.cutOff x = false →
      ∃ t, exec (.barinit sp n b cc) s = .next t ∧ frame t ∧
        let arr := (w cc l).toNat % 2 ^ 31
        let byt := BitVec.ofNat 32 ((w b l).toNat % 2 ^ 31)
        t.barAt x = { phase := false, arr := arr, arrExp := arr, byt := byt, bytExp := byt }) ∧
    (Ready { ar := [n.toNat] } s c → len ≤ old.arr → becomes (.bararv sp n) fun new =>
      new = if old.arr = len ∧ old.byt = 0 then { old with phase := !old.phase, arr := old.arrExp, byt := old.bytExp }
        else { old with arr := old.arr - len }) ∧
    (Ready { srcs := [b], ar := [n.toNat], once := true } s c → becomes (.barexp sp n b) fun new =>
      new = if old.arr = 0 ∧ old.byt + w b l = 0 then { old with phase := !old.phase, arr := old.arrExp, byt := old.bytExp }
        else { old with byt := old.byt + w b l }) ∧
    (Ready { srcs := [b], ar := [n.toNat], noInj := true } s c →
      (s.counted c).objectRead c.core c.team c.tm l.th.sup r 16 16 false [1, 2] = .ok (x, tlb) → s.cutOff x = false → apart →
      ∃ t, exec (.barwait sp n b) s = .next t ∧ (t.pipe c.core c.p).raft = none ∧ SameHome s t (fun a => ∃ e, tlb = some e ∧ a = e.addr) ∧
        t.spad = s.spad ∧ t.land = s.land ∧ t.teams = s.teams ∧
        (∀ m ∈ k.lns, k.Sole m → if (w b m).getLsbD 0 = old.phase
          then t.thread m.tid = some { m.th with pc := c.pc + 4, place := .blocked (.bar r (w b m |>.getLsbD 0)) false }
          else ∃ a, t.thread m.tid = some a ∧ Filed a m.th (c.pc + 4)) ∧
        (∀ id, k.laneOf id = none → ∀ y, s.thread id = some y → ∃ a, t.thread id = some a ∧ Unmoved a y) ∧
        ((∃ m ∈ k.lns, (w b m).getLsbD 0 ≠ old.phase) → c.die < 4 → CaughtUp t c.die))

/-- R105, R298, R299, R377: `ctfind` gives the lowest ready tag of a mask with its status; a `ctwait` whose mask is met files its raft as
an acquire, one that is not blocks it; both merge the flags of the ready tags into FLAGS once. -/
def Obligations.CopyTagResults : Prop :=
  ∀ (s : State) (c : Ctx) (all : Bool) (mask : BitVec 8) (g : BitVec 3) (m : TagMask) (d : BitVec 5) (x : Team),
    s.team c.team = some x →
    let k := c.counted
    let has (w : DWord) (j : Nat) : Bool := w.getLsbD j && (x.ctag j).ready
    let observed (w : DWord) (y : Team) : Prop :=
      (∀ j, y.ctag j = if j < 64 ∧ has w j = true then { x.ctag j with flags := 0 } else x.ctag j) ∧
      y.csrv 0 = x.csrv 0 ||| (((List.range 64).filter (has w)).foldl (fun f j => f ||| (x.ctag j).flags) 0).setWidth 64 ∧
      (∀ j, j ≠ 0 → y.csrv j = x.csrv j) ∧
      y.merged = x.merged ||| ((List.range 64).filter (has w)).foldl (fun f j => f ||| (x.ctag j).flags) 0 ∧
      y = { x with csr := y.csr, tags := y.tags, s := y.s, psnS := y.psnS, merged := y.merged }
    let met (w : DWord) : Prop :=
      w = 0 ∨ if all then ∀ j, j < 64 → w.getLsbD j = true → (x.ctag j).ready = true else ∃ j, j < 64 ∧ has w j = true
    let pair : DWord := match m with
      | .pair r => c.tm.sreg (r.toNat + 1) ++ c.tm.sreg r.toNat
      | .all => 0xFFFFFFFFFFFFFFFF
    let regs : List Nat := match m with
      | .pair r => [r.toNat, r.toNat + 1]
      | .all => []
    let waits (i : Instr) (w : DWord) : Prop :=
      (met w → ∃ t y, exec i s = .next t ∧ t.team c.team = some y ∧ observed w y ∧ y.s = x.s ∧ (∀ j, j ≠ c.team → t.team j = s.team j) ∧
        FiledAs (s.counted c) t k id (fun _ => c.pc + 4) ∧ (c.die < 4 → CaughtUp t c.die) ∧
        t = { s with threads := t.threads, teams := t.teams, pipes := t.pipes, cores := t.cores, stale := t.stale, lag := t.lag, vc := t.vc }) ∧
      (¬ met w → ∃ t, exec i s = .next t ∧ OnlyFiling s t ∧ (t.pipe c.core c.p).raft = none ∧
        (∀ l ∈ k.lns, k.Sole l → t.thread l.tid = some { l.th with pc := c.pc + 4, place := .blocked (.tags all w) false }) ∧
        ∀ id, k.laneOf id = none → ∀ b, s.thread id = some b → ∃ a, t.thread id = some a ∧ Unmoved a b)
    (Ready { sr := regs, once := true } s c → ∃ t y, exec (.ctfind m d) s = .next t ∧ OnlyRegisters s t ∧ t.threads = (s.counted c).threads ∧
      GoesOn s t c (c.pc + 4) ∧ (∀ j, j ≠ c.team → t.team j = s.team j) ∧ t.team c.team = some y ∧ observed pair y ∧
      y.sreg d.toNat = (match (List.range 64).find? (has pair) with
        | some j => BitVec.ofNat 32 (j + 0x100 * (x.ctag j).status)
        | none => 0xFFFFFFFF) ∧ ∀ j, j ≠ d.toNat → y.sreg j = x.sreg j) ∧
    (Ready { noInj := true } s c → waits (.ctwaitGroup all mask g) (mask.setWidth 64 <<< (8 * g.toNat))) ∧
    (Ready { sr := regs, noInj := true } s c → waits (.ctwaitMask all m) pair)

/-- R304, R305: `qres` reserves the next position where the queue has room, `qpub` publishes one, `qtake` takes the next entry or waits for it; a
raft's lanes make their steps in ascending order; `qpub`, a release at domain scope, comes after what its raft has sent. Given in general as the
sequence of the lanes' steps, and in full for a raft of one lane: each instruction's values, state byte and frontiers. What `qpub` waits for is
log 62, and that the frontiers are read from memory at each use is log 30, both DEDUCED. -/
def Obligations.QueueResults : Prop :=
  ∀ (s : State) (c : Ctx) (p : BitVec 3) (n : BitVec 4) (b : Src) (d : BitVec 6) (ps : List Piece),
    let k := c.counted
    let base := c.tm.areg n.toNat
    let va := base.toNat % 2 ^ 57
    let u := k.qwho
    let s0 := s.counted c
    let s1 := s0.touchAll c.who ps true
    let q := queueOf ps (s.homePieces ps)
    let res : Issue := { ar := [n.toNat] }
    let pub : Issue := { srcs := [b], ar := [n.toNat] }
    let take : Issue := { ar := [n.toNat], noInj := true }
    let pos (l : Ln) : Word := (src32 .int c.tm l b).w
    s0.qspan u base va 64 true = .ok ps → (∀ x ∈ ps, s.shut x.loc = false) → s.poisonIn ps = none →
    s.conflict c.cluster [gRng c.tm.asid va 64 true] = false →
    let sent : Prop := s.relWait (some .domain) c.tids = false
    let runs (i : Instr) (o : Issue) (f : State → Queue → Ln → Except Fail (State × Queue × QLane)) (files : Bool) : Prop :=
      Ready o s c → ∀ (s' : State) (q' : Queue) (ys : List (Ln × QLane)), qLanes f s1 q k.lns = (s', q', ys.map fun y => (y.1, .ok y.2)) →
      (∀ y ∈ ys, s0.qwait k y.2 = false ∧ s0.qpoison y.2 = none) →
      ∃ t, exec i s = .next t ∧ t.home = (s'.qsave c.die q').home ∧
        (files = false → t.threads = putThreads (ys.map fun y => (y.2.tid, y.2.th)) (s'.qsave c.die q').threads ∧ GoesOn s t c (c.pc + 4)) ∧
        (files = true → (t.pipe c.core c.p).raft = none ∧ ∀ y ∈ ys, (ys.filter fun z => z.2.tid == y.2.tid).length = 1 →
          (s'.thread y.2.tid).isSome → match y.2.block with
            | some j => t.thread y.2.tid = some { y.2.th with pc := c.pc + 4, place := .blocked (.queue base j d) false }
            | none => ∃ a, t.thread y.2.tid = some a ∧ Filed a y.2.th (c.pc + 4))
    runs (.qres p n d) res (qresLane p d u) false ∧
    (sent → runs (.qpub n b) pub (qpubLane (fun t l => (src32 .int t l b).w) c.tm u) false) ∧
    (¬ sent → Ready pub s c → ∃ t, exec (.qpub n b) s = .next t ∧ OnlyPipes s t ∧
      t.pipe c.core c.p = { c.pr with start := some (c.pr.start.getD s.now), ready := s.now + 1, fixed := false, cutAt := none }) ∧
    runs (.qtake n d) take (qtakeLane d u) true ∧
    ∀ (l : Ln) (dp x y z : Piece), k.lns = [l] → k.Sole l → ps = [dp] →
      let span (st : State) (a n : Nat) (write wr : Bool) (e : Piece) : Prop :=
        st.qspan u ((BitVec.ofNat 57 a).signExtend 64) a n write = .ok [e] ∧ s.shut e.loc = false ∧
          s.conflict c.cluster [gRng c.tm.asid e.va e.n wr] = false ∧ (wr = false → s.poisonIn [e] = none)
      let plain (a : Nat) : Prop := a ∉ s.tableBytes ∧ a ≠ dp.tlb.addr ∧ a ≠ x.tlb.addr ∧ a ≠ y.tlb.addr ∧ a ≠ z.tlb.addr
      let fronts (a : Nat) : Prop := dp.loc.at + 0x10 ≤ a ∧ a < dp.loc.at + 0x20
      let holds (t : State) (resv pubf take free : Word) : Prop :=
        t.homeBytes (dp.loc.at + 0x10) 16 = natLe 4 resv.toNat ++ natLe 4 pubf.toNat ++ natLe 4 take.toNat ++ natLe 4 free.toNat
      let others (t : State) (e : List Piece) (wrote : List Nat) : Prop :=
        SameHome s t fun a => a = dp.tlb.addr ∨ (∃ r ∈ e, a = r.tlb.addr) ∨ a ∈ wrote ∨ fronts a
      let wrote (st : State) (e : Piece) (v : Nat) : State := (st.touchAll c.who [e] true).putPieces c.die [e] (natLe 1 v)
      (Ready res s c → (q.resv - q.free).toNat < q.cap → span s1 (q.stateVa q.resv) 1 true true x → ¬ fronts x.loc.at →
        ∃ t, exec (.qres p n d) s = .next t ∧ GoesOn s t c (c.pc + 4) ∧
          t.thread l.tid = some ((l.th.setReg d.toNat q.resv tU32).setPred p true) ∧ t.home x.loc.at = 1 ∧
          holds t (q.resv + 1) q.pubf q.take q.free ∧ others t [x] [x.loc.at]) ∧
      (Ready res s c → q.cap ≤ (q.resv - q.free).toNat →
        ∃ t, exec (.qres p n d) s = .next t ∧ GoesOn s t c (c.pc + 4) ∧ t.thread l.tid = some (l.th.setPred p false) ∧
          holds t q.resv q.pubf q.take q.free ∧ others t [] []) ∧
      (Ready pub s c → sent → pos l = q.pubf → q.resv = q.pubf + 1 → span s1 (q.stateVa q.pubf) 1 true false y → s.home y.loc.at = 1 →
        span s1 (q.stateVa q.pubf) 1 true true y → plain y.loc.at → ¬ fronts y.loc.at →
        span (wrote s1 y 2) (q.stateVa q.pubf) 1 true false z → z.loc = y.loc →
        ∃ t, exec (.qpub n b) s = .next t ∧ GoesOn s t c (c.pc + 4) ∧ t.threads = (s.counted c).threads ∧ t.home y.loc.at = 2 ∧
          holds t q.resv (q.pubf + 1) q.take q.free ∧ others t [y, z] [y.loc.at]) ∧
      (Ready pub s c → sent → q.resv = q.pubf → span s1 (q.stateVa (pos l)) 1 true false y →
        ∃ t, exec (.qpub n b) s = .next t ∧ GoesOn s t c (c.pc + 4) ∧ t.threads = (s.counted c).threads ∧
          holds t q.resv q.pubf q.take q.free ∧ others t [y] []) ∧
      (Ready take s c → before q.take q.pubf = true → q.free = q.take → q.pubf = q.take + 1 → (∀ j, j < q.size → plain (x.loc.at + j)) →
        span s1 (q.entryVa q.take) q.size false false x → x.n = q.size → plain y.loc.at → ¬ fronts y.loc.at →
        let s2 := s1.touchAll c.who [x] false
        span s2 (q.stateVa q.take) 1 true true y → span (wrote s2 y 3) (q.stateVa q.take) 1 true false z →
        span (wrote s2 y 3) (q.stateVa q.take) 1 true true z → z.loc = y.loc →
        ∃ t a, exec (.qtake n d) s = .next t ∧ (t.pipe c.core c.p).raft = none ∧ t.thread l.tid = some a ∧
          Filed a (setRegs d.toNat tNone (wordsOf (q.size / 4) (s.homeBytes x.loc.at q.size)) (l.th.setReg d.toNat q.take tNone)) (c.pc + 4) ∧
          t.home y.loc.at = 0 ∧ holds t q.resv q.pubf (q.take + 1) (q.take + 1) ∧ others t [x, y, z] [y.loc.at] ∧ (c.die < 4 → CaughtUp t c.die)) ∧
      (Ready take s c → before q.take q.pubf = false →
        ∃ t, exec (.qtake n d) s = .next t ∧ (t.pipe c.core c.p).raft = none ∧
          t.thread l.tid = some { l.th.setReg d.toNat q.take tNone with pc := c.pc + 4, place := .blocked (.queue base q.take d) false } ∧
          holds t q.resv q.pubf (q.take + 1) q.free ∧ others t [] [])

/-- R52, R306, R307: `spawn.t` makes a thread for each lane that finds room, of the lowest free number and the spawner's work identifier,
v0 to v3 from its group, filed at its entry; `spawn.k` queues a launch once what the raft has sent is in place, where feature bit 5 is
accepted, and is no instruction where it is not. -/
def Obligations.SpawnResults : Prop :=
  ∀ (s : State) (c : Ctx) (try_ : Bool) (g n : BitVec 4) (b : Src) (p : BitVec 3) (e : GAcc) (va : VAddr),
    let k := c.counted
    let gr := 4 * g.toNat
    let pc (l : Ln) : VAddr := c.tm.codebase + (src32 .int c.tm l b).w.setWidth 57
    let len := k.lns.length
    let after (r : Bool) (l : Ln) : Thread := if try_ then l.th.setPred p r else l.th
    s.Keyed → c.injected = none →
    (Ready { srcs := [b], vr := [gr, gr + 1, gr + 2, gr + 3], noInj := true } s c → (∀ l ∈ k.lns, (src32 .int c.tm l b).w.getLsbD 0 = false) →
      s.slotsUsed c.core + len ≤ 2032 → s.teamCount c.team + len ≤ 1024 →
      ∃ t, exec (.spawnT try_ g b p) s = .next t ∧ GoesOn s t c (c.pc + 4) ∧
        t = { s with threads := t.threads, pipes := t.pipes, cores := t.cores, fresh := s.fresh + len } ∧
        (∀ id l, k.laneOf id = some l → t.thread id = some (after true l)) ∧
        (∀ id, k.laneOf id = none → id < s.fresh → t.thread id = s.thread id) ∧
        ∀ j l, k.lns[j]? = some l → ∃ a num, t.thread (s.fresh + j) = some a ∧
          ((∀ x ∈ s.threadsOf c.team, x.2.inj = none) → num < 1024) ∧
          (∀ x ∈ s.threadsOf c.team, x.2.tnum ≠ num) ∧ (∀ y, y < num → ∃ x ∈ t.threads, x.2.team = c.team ∧ x.2.tnum = y) ∧
          Filed a { team := c.team, tnum := num, wid := l.th.wid, v := a.v } (pc l) ∧
          (∀ r, r < 4 → a.reg r = l.th.reg (gr + r)) ∧ ∀ r, 4 ≤ r → a.reg r = {}) ∧
    (Ready { srcs := [b], vr := [gr, gr + 1, gr + 2, gr + 3], noInj := true } s c → (∀ l ∈ k.lns, (src32 .int c.tm l b).w.getLsbD 0 = false) →
      s.teamCount c.team = 1024 → (try_ = true → ∃ t, exec (.spawnT try_ g b p) s = .next t ∧ OnlyRegisters s t ∧ t.teams = s.teams ∧ Stepped s t k (after false)) ∧
        (try_ = false → ∃ t, exec (.spawnT try_ g b p) s = .next t ∧ OnlyFiling s t ∧ (t.pipe c.core c.p).raft = none ∧
          ∀ l ∈ k.lns, k.Sole l → t.thread l.tid =
            some { l.th with pc := c.pc + 4, place := .blocked (.spawnT ((pc l).setWidth 64) gr) false })) ∧
    (Ready { ar := [n.toNat], noInj := true } s c → s.hub.accepted.getLsbD 5 = true →
      s.laneGlob k k.elected (c.tm.areg n.toNat) 0 128 false [] = .ok (e, va) →
      s.conflict c.cluster [gRng c.tm.asid va.toNat 128 false] = false → s.shut e.loc = false → s.sending k.tids = false →
      (s.slice c.tm.slice).store.length < 256 →
      ∃ t, exec (.spawnK try_ n p) s = .next t ∧ Stepped s t k (after true) ∧ SameMemory s t (fun a => a = e.tlb.addr) ∧
        (∀ j, t.slice j = if j = c.tm.slice then
          { s.slice j with store := (s.slice j).store ++ [(c.tm.queue, va.setWidth 64, s.readAt c.die e.loc 128)] } else s.slice j) ∧
        t = { s with threads := t.threads, pipes := t.pipes, slices := t.slices, tlb1 := t.tlb1, tlb2 := t.tlb2, l1 := t.l1, llc := t.llc,
                     mem := t.mem, stale := t.stale, lag := t.lag, psnMem := t.psnMem }) ∧
    (s.ctx false = some c → s.hub.accepted.getLsbD 5 = false →
      exec (.spawnK try_ n p) s = .next (s.raise c c.whole { cause := 0x01 } 4))

/-- R293 to R296, R105, R324, R161: `cpy`, `cpyx`, `cpymma` and `tsig` whose card or block passes its checks put one job on their copy tag
and change nothing else; a `cpymma` issues while its core has a place left for the follow-on command (R173; that a place is kept for it from
then on is log 77, DEDUCED). Their issue is a release (R194, R200): it waits, on its pipe, for what its raft has sent to this package's memory
through the switches (log 62, DEDUCED). -/
def Obligations.JobIssue : Prop :=
  ∀ (s : State) (c : Ctx) (n : BitVec 4) (ct : BitVec 6) (g : GAcc),
    let k := c.counted
    let a := c.tm.areg n.toNat
    let issues (i : Instr) (size : Nat) (ok : List Byte → Work → List Rng → Option MPass → Prop) : Prop :=
      Ready { ar := [n.toNat], once := true } s c →
      s.global c.who c.tm.asid a (a.setWidth 57) size (k.elected.use false) [] = .ok g →
      (s.relWait (some .cluster) c.tids = true → s.cutOff g.loc = false → ∃ t, exec i s = .next t ∧ OnlyPipes s t ∧
        t.pipe c.core c.p = { c.pr with start := some (c.pr.start.getD s.now), ready := s.now + 1, fixed := false, cutAt := none }) ∧
      (s.relWait (some .cluster) c.tids = false → s.poisonAt g.loc size = false → s.shut g.loc = false →
      s.conflict c.cluster [gRng c.tm.asid (a.toNat % 2 ^ 57) size false] = false →
      ∀ w foot p, ok (s.readAt c.die g.loc size) w foot p → (c.tm.ctag ct.toNat).count ≠ 255 → s.entries c.cluster < 256 →
      (p.isSome → s.mPlaces c.core < 8) →
      ∃ t, exec i s = .next t ∧ GoesOn s t c (c.pc + 4) ∧ SameMemory s t (fun x => x = g.tlb.addr) ∧
        (let parts : List Rng := match p with
           | some x => foot ++ (x.reads ++ x.cfoot)
           | none => foot ++ []
         let j : Job := { cluster := c.cluster, core := c.core, team := c.team, asid := c.tm.asid, tag := ct.toNat, work := w, foot := parts,
                          sup := k.elected.th.sup, at_ := s.now, issued := s.now, follow := p.map fun x => (x.op, x.reads, x.cfoot, x.flags) }
         t.jobs = mput s.fresh j s.jobs) ∧
        t.team c.team = (s.team c.team).map (fun x =>
          x.setTag ct.toNat { x.ctag ct.toNat with ready := false, count := (x.ctag ct.toNat).count + 1, status := 0 }) ∧
        (∀ j, j ≠ c.team → t.team j = s.team j) ∧
        t = { s.counted c with
          pipes := t.pipes, teams := t.teams, jobs := t.jobs, fresh := s.fresh + 1, tlb1 := t.tlb1, tlb2 := t.tlb2,
          mem := t.mem, stale := t.stale, lag := t.lag, psnMem := t.psnMem })
    let card (want : Nat) (bs : List Byte) (w : Work) (foot : List Rng) (p : Option MPass) : Prop :=
      (s.counted c).cardCheck k k.elected.th.sup want bs (cardOf bs) = .ok p ∧ w = .card (cardOf bs) ∧
        foot = s.cardFoot c.core c.team c.tm (cardOf bs)
    issues (.cpy n ct) 64 (card 1) ∧ issues (.cpyx n ct) 64 (card 2) ∧ issues (.cpymma n ct) 64 (card 3) ∧
    issues (.tsig n ct) 32 fun bs w foot p =>
      let q := sigOf bs
      leNat (bs.drop 0x1C) = 0 ∧ q.pitch ≠ 0 ∧ q.pitch % 128 = 0 ∧ q.entry.toNat % 16 = 0 ∧ q.surf.toNat % 128 = 0 ∧
        q.src + 4096 ≤ c.tm.spadN * 0x1000 ∧ w = .tsig q ∧ foot = State.sigFoot c.core c.tm q ∧ p = none

/-- R296, R194: a job starts once the jobs of its cluster before it have started and no earlier footprint conflicts with its own; R105,
R377: when all of it has landed it leaves the Yarder, and its tag is ready with the last of its jobs and holds the job's flags.
R296, R297, R102: a landing of a plain copy moves its 256-byte line from FROM to TO, subtracts its bytes from the barrier object that its card
names, if any, with the completion check, and is made once; a cause ends the job with the landings before it. -/
def Obligations.YarderEvents : Prop :=
  (∀ (s : State) (id : Nat) (j : Job), mfind id s.jobs = some j →
     (j.started = false → (∀ x ∈ s.jobs, x.2.cluster = j.cluster → x.1 < id → x.2.started = true) →
       s.conflictBefore j.cluster id j.foot = false →
       exec (.yarderJobStart id) s = .next { s with jobs := mupd id (fun x =>
         { x with started := true, total := j.work.landings, todo := List.range j.work.landings, at_ := s.now }) s.jobs }) ∧
     (j.started = true → j.todo = [] → j.follow = none → j.followIn = false → j.cause = 0 → ∀ x, s.team j.team = some x →
       ∃ t, exec (.jobCompletion id) s = .next t ∧ t.jobs = mdel id s.jobs ∧
         t = { s with threads := t.threads, teams := t.teams, jobs := t.jobs } ∧ (∀ k, k ≠ j.team → t.team k = s.team k) ∧
         (let y := x.ctag j.tag
          let f := y.flags ||| if x.ending then 0 else j.flags
          t.team j.team = some (x.setTag j.tag { ready := y.ready || decide (y.count ≤ 1), count := y.count - 1, status := y.status, flags := f })) ∧
         ∀ h, t.thread h = s.thread h ∨ ∃ b w, s.thread h = some b ∧ b.place = .blocked w false ∧
           t.thread h = some { b with place := .blocked w true }) ∧
     (j.started = false ∨ j.todo ≠ [] → exec (.jobCompletion id) s = .fault .notDue)) ∧
  (∀ (s s1 s2 : State) (id k : Nat) (j : Job) (q : Card) (bs : List Byte) (f : Fail), mfind id s.jobs = some j →
     j.work = .card q → q.kind = 1 → q.tmap = 0 → q.fmap = 0 → j.started = true → k ∈ j.todo → j.follow = none →
     let a0 := addrOff q.tsp q.dst % 256
     let o := 256 * k - a0
     let n := Nat.min q.len (256 * (k + 1) - a0) - o
     let done (cause landed : Nat) : Job :=
       { j with
         todo := if cause = 0 then j.todo.filter (· != k) else [], landed := j.landed + landed,
         cause := if j.cause = 0 then cause else j.cause, at_ := s.now }
     (s.jobRead j q.fsp q.src o n = .ok (s1, bs) → bs ≠ [] → s1.jobWrite j q.tsp q.dst o bs = .ok s2 → q.bar = 0 →
       ∃ t, exec (.jobLanding id k) s = .next t ∧ mfind id t.jobs = some (done 0 bs.length) ∧
         t.mem = s2.mem ∧ t.spad = s2.spad ∧ t.land = s2.land) ∧
     (s.jobRead j q.fsp q.src o n = .ok (s1, bs) → bs ≠ [] → s1.jobWrite j q.tsp q.dst o bs = .ok s2 → q.bar ≠ 0 → j.barDead = false →
       ∀ (x : Team) (bl : Loc) (bt : Option Tlb), s2.anyTeam j.team = some x →
       (s2.asIssued j.issued).objectRead j.core j.team x j.sup q.barRef 16 16 true [1, 2] = .ok (bl, bt) →
       (bl.isMem = true → ∀ i, i < 16 → bl.at + i ∉ s2.tableBytes ∧ ∀ y, bt = some y → bl.at + i ≠ y.addr) →
       let old := s2.barAt bl
       let left : BitVec 32 := old.byt - BitVec.ofNat 32 bs.length
       ∃ t, exec (.jobLanding id k) s = .next t ∧ mfind id t.jobs = some (done 0 bs.length) ∧
         t.barAt bl = (if old.arr = 0 ∧ left = 0 then { old with phase := !old.phase, arr := old.arrExp, byt := old.bytExp }
           else { old with byt := left }) ∧
         SameHome s2 t (fun a => (∃ y, bt = some y ∧ a = y.addr) ∨ (bl.isMem = true ∧ bl.at ≤ a ∧ a < bl.at + 16)) ∧
         (∀ a, mget 0 a t.spad ≠ mget 0 a s2.spad → ∃ i, bl = .spad i ∧ i ≤ a ∧ a < i + 16) ∧
         ∀ a, mget 0 a t.land ≠ mget 0 a s2.land → ∃ i u f, bl = .land i u f ∧ i ≤ a ∧ a < i + 16) ∧
     (s.jobRead j q.fsp q.src o n = .error f → f.remote = false → f.cause ≠ 0 →
       ∃ t, exec (.jobLanding id k) s = .next t ∧ mfind id t.jobs = some (done f.cause 0) ∧
         t.mem = s.mem ∧ t.spad = s.spad ∧ t.land = s.land))

/-- R106 to R108, R112, R302, R303: `lease` submits one request, which waits behind those before it and, within its cycle, those of lower
cores, or is refused while one is outstanding; `unlease` and a `surr` of its
surrender thread give a lease up, which takes effect when no engine job covers it; a `surr` that gives nothing up is a refusal. -/
def Obligations.LeaseInstructions : Prop :=
  ∀ (s : State) (c : Ctx) (spad : Bool) (n : BitVec 4) (b cc : Src) (loc : Loc) (tlb : Option Tlb) (idx : Nat) (x : Lease) (i : Inj),
    let k := c.counted
    let l := k.elected
    let r : Ref := { space := if spad then .spad else .glob, a := c.tm.areg n.toNat }
    let w (q : Src) : Nat := (src32 .int c.tm l q).w.toNat
    let ctl := s.wordAt c.die loc 0x10
    let readable : Prop :=
      (s.counted c).objectRead c.core c.team c.tm l.th.sup r 32 32 true [1, 2] = .ok (loc, tlb) ∧ s.shut loc = false ∧
        s.conflict c.cluster (r.rngs c.tm.asid loc 32 true) = false
    let onlyLeases (t : State) (ls : Map Lease) : Prop := t.cluster c.cluster = { s.cluster c.cluster with leases := ls }
    let others (t : State) : Prop := ∀ j, j ≠ c.cluster → t.cluster j = s.cluster j
    let given (g : GiveUp) (y : Lease) : Lease := { y with giveUp := some g, recalled := none, injected := false, refusals := 0 }
    let refused (y : Lease) : Lease := { y with refusals := y.refusals + 1, refusedAt := some s.now, recalled := none, injected := false }
    (Ready { ar := [n.toNat], once := true, noInj := true } s c →
      readable → bits ctl 0 8 ≠ 0 → (bits ctl 8 2 = 1 ∨ bits ctl 8 2 = 2) → c.tm.reqOut = false →
      bits ctl 0 8 ≤ 128 - (s.pinnedTiles c.cluster).length →
      ∃ t, exec (.lease spad n) s = .next t ∧ GoesOn s t c (c.pc + 4) ∧ others t ∧
        t.team c.team = (s.team c.team).map (fun y => { y with reqOut := true }) ∧ (∀ j, j ≠ c.team → t.team j = s.team j) ∧
        SameMemory s t (fun a => ∃ e, tlb = some e ∧ a = e.addr) ∧
        (let q : LeaseReq := { team := some c.team, count := bits ctl 0 8, loose := bits ctl 8 2 == 2, tclass := bits ctl 10 2,
                               routine := s.wordAt c.die loc 0x1C, blk := r, at_ := s.now, core := c.core }
         t.cluster c.cluster = { s.cluster c.cluster with reqs := addReq q (s.cluster c.cluster).reqs })) ∧
    (Ready { ar := [n.toNat], once := true, noInj := true } s c →
      readable → bits ctl 0 8 ≠ 0 → (bits ctl 8 2 = 1 ∨ bits ctl 8 2 = 2) → c.tm.reqOut = true → loc.isMem = true →
      ∀ cl tl, ((s.counted c).touchOpt c.who tlb true).blockLoc c.team r = some (cl, loc, tl) →
      ∃ t, exec (.lease spad n) s = .next t ∧ t.clusters = s.clusters ∧ t.teams = s.teams ∧
        t.homeBytes (loc.at + 0x18) 2 = [1, 0]) ∧
    (Ready { srcs := [b], once := true, noInj := true } s c → s.heldLease c.cluster c.team (w b) = some (idx, x) →
      ∃ t, exec (.unlease b) s = .next t ∧ GoesOn s t c (c.pc + 4) ∧ others t ∧
        onlyLeases t (mupd idx (fun y => match y.giveUp with
          | some g => if g.keep = 0 then y else given { keep := 0, status := 6, report := false, since := s.now } y
          | none => given { keep := 0, status := 6, report := false, since := s.now } y) (s.cluster c.cluster).leases) ∧
        t = { s.counted c with pipes := t.pipes, clusters := t.clusters }) ∧
    (Ready { srcs := [cc, b], once := true } s c → l.th.inj = some i → l.th.team = c.team → s.leaseOf c.cluster i = some x →
      (∃ y, s.team c.team = some y ∧ y.core = c.core) → x.giveUp = none →
      let ended (t : State) : Prop :=
        (t.pipe c.core c.p).raft = none ∧ t.thread l.tid = none ∧ (∀ y, t.team c.team = some y → y.routine = none) ∧
        (∀ id, id ≠ l.tid → ∀ b, s.thread id = some b → ∃ a, t.thread id = some a ∧ Unmoved a b) ∧ t.mem = s.mem ∧ others t
      let gives (keep status : Nat) : Prop := ∃ t, exec (.surr b cc) s = .next t ∧ ended t ∧
        (t.cluster c.cluster).leases = mupd i.lease (fun y => if y.gen = i.gen then given { keep := keep, status := status, report := true, since := s.now } y
          else y) (s.cluster c.cluster).leases
      (w cc = 0 ∨ (w cc = 1 ∧ w b = 0) → gives 0 6) ∧
      (w cc = 1 → w b ≠ 0 → w b < x.held → gives (w b) 5) ∧
      (w cc ≠ 0 → (w cc = 1 → x.held ≤ w b ∧ w b ≠ 0) → x.refusals < 2 → ∃ t, exec (.surr b cc) s = .next t ∧ ended t ∧
        (t.cluster c.cluster).leases = mupd i.lease (fun y => if y.gen = i.gen then refused y else y) (s.cluster c.cluster).leases)) ∧
    (Ready { srcs := [cc, b], once := true } s c → l.th.inj = none →
      exec (.surr b cc) s = .next ((s.counted c).raise k l { cause := 0x2B } 4))

/-- R99, R301: `xfer` hands a buffer, formed from the team's own scratchpad or held, to the team named, writes its handle and makes one arrival.
While an earlier job still covers the buffer or the handle's word, the word's replicas are locked, or what the raft has sent is not where the
arrival's release puts it (R104), the raft holds its pipe, and forced filing does not take it (R46); where no link reaches the word or the object
it holds it in the same way, and once that has lasted 80,000 cycles the cause is 0x10 (R369; log 28, DEDUCED). What the release waits for is log
62 (DEDUCED). -/
def Obligations.BufferTransfer : Prop :=
  ∀ (s : State) (c : Ctx) (spad : Bool) (n : BitVec 4) (loc hl bl : Loc) (tlb ht bt : Option Tlb) (buf : Buf) (rid : Nat) (rt : Team),
    let k := c.counted
    let l := k.elected
    let r : Ref := { space := if spad then .spad else .glob, a := c.tm.areg n.toNat }
    let name := s.wordAt c.die loc 0
    let ctl := s.wordAt c.die loc 0x0C
    let q (o : Nat) : DWord := BitVec.ofNat 64 (s.wordAt c.die loc o + 2 ^ 32 * s.wordAt c.die loc (o + 4))
    let sp (x : Nat) : Space := if x = 0 then .glob else .hnd
    let hr : Ref := { space := sp (bits ctl 8 2), a := q 0x10 }
    let br : Ref := { space := sp (bits ctl 10 2), a := q 0x18 }
    let first := bits name 0 6
    let cnt := bits name 8 6 + 1
    let key (x : Buf) : Nat := x.core * 4096 + x.first * 64 + (x.count - 1)
    let formed : Buf :=
      { core := c.core, first := c.tm.spad0 + first, count := cnt,
        gen := nextGen (mget 0 (c.core * 4096 + (c.tm.spad0 + first) * 64 + (cnt - 1)) (s.cluster c.cluster).bufGen), orig := c.team, holder := c.team }
    Ready { ar := [n.toNat], once := true } s c →
    (s.counted c).objectRead c.core c.team c.tm l.th.sup r 32 32 true [1, 2] = .ok (loc, tlb) → s.shut loc = false →
    s.conflict c.cluster (r.rngs c.tm.asid loc 32 true) = false → bits ctl 10 2 % 2 = 0 → bits ctl 8 2 % 2 = 0 →
    (if name.testBit 31 then s.bufBy c.cluster name = some buf ∧ buf.holder = c.team
     else first + cnt ≤ c.tm.spadN ∧ (∀ g, g < cnt → s.transferred c.cluster c.core c.team (c.tm.spad0 + first + g) = false) ∧ buf = formed) →
    s.teamAt (c.cluster * 8 + bits ctl 4 3) (bits ctl 0 4) = some (rid, rt) → rt.asid = c.tm.asid →
    (s.counted c).object c.core c.team c.tm l.th.sup hr 4 4 true [2] = .ok (hl, ht) →
    (s.counted c).objectRead c.core c.team c.tm l.th.sup br 16 16 true [1, 2] = .ok (bl, bt) →
    let cut : Prop := s.cutOff hl = true ∨ s.cutOff bl = true
    let since := c.pr.cutAt.getD s.now
    let stays : Prop :=
      s.conflict c.cluster ({ space := 1, unit := buf.core, lo := buf.first * 0x1000, n := buf.count * 0x1000, write := true } ::
        hr.rngs c.tm.asid hl 4 true) = true ∨ (hl.mt ≠ 1 ∧ s.lockedAt hl = true) ∨
      s.relWait (some (if bits ctl 10 2 = 0 then .domain else .cluster)) c.tids = true
    let held (at_ : Option Nat) : Prop := ∃ t, exec (.xfer spad n) s = .next t ∧ OnlyPipes s t ∧
      t.pipe c.core c.p = { c.pr with start := some (c.pr.start.getD s.now), ready := s.now + 1, fixed := true, cutAt := at_ }
    let apart : Prop := hl.at + 4 ≤ bl.at ∨ bl.at + 16 ≤ hl.at
    (cut → s.now < since + 80000 → held (some since)) ∧
    (cut → since + 80000 ≤ s.now → exec (.xfer spad n) s = .next ((s.counted c).raiseOnce k l
      { cause := 0x10, detail := if s.cutOff hl then hr.detail else br.detail, park := true, remote := true, write := true } 4)) ∧
    (¬ cut → stays → held none) ∧
    (¬ cut → ¬ stays → ∃ t, exec (.xfer spad n) s = .next t ∧ GoesOn s t c (c.pc + 4) ∧ BarsMarked (s.counted c) t ∧ t.teams = s.teams ∧
      (∀ j, j ≠ c.cluster → t.cluster j = s.cluster j) ∧
      t.cluster c.cluster = { s.cluster c.cluster with
        bufs := { buf with holder := rid } :: (s.cluster c.cluster).bufs.filter fun x =>
          !(x.core == buf.core && decide (x.first < buf.first + buf.count) && decide (buf.first < x.first + x.count))
        bufGen := mput (key buf) buf.gen (s.cluster c.cluster).bufGen } ∧
      (hl.mt ≠ 1 → apart → t.readHome hl 4 = natLe 4 (bufHandle buf)) ∧
      (hl.mt = 1 → ∃ x, t.repl = s.repl ++ [x] ∧ x.addr = hl.at ∧ x.bytes = natLe 4 (bufHandle buf)) ∧
      ((∀ j, j < 16 → bl.isMem = true → bl.at + j ∉ s.tableBytes ∧ ∀ e, e ∈ [tlb, ht, bt] → ∀ y, e = some y → bl.at + j ≠ y.addr) → apart →
        1 ≤ (s.barAt bl).arr →
        let old := s.barAt bl
        t.barAt bl = if old.arr = 1 ∧ old.byt = 0 then { old with phase := !old.phase, arr := old.arrExp, byt := old.bytExp }
          else { old with arr := old.arr - 1 }))

/-- R108 to R112, R387 to R390: what the lease manager does: tiles set aside for the head request and its grant, a lease reclaimed or recalled, an
outcome carried out once no job covers what it gives up, a refusal's hold-off over; R438: the threads of a team whose pinned tiles are granted are
filed in the cycle after. (How many tiles a recall asks for, and that the traversal engine answers its own recalls, is log 22, DEDUCED.) The
expiry of a hold-off advances the cycle counter to its moment (log 31), and the lease granted takes the lowest free index (log 38), both DESIGN
CHOICE; the form of the surrender thread is log 32 (DEDUCED). -/
def Obligations.LeaseManagerEvents : Prop :=
  ∀ (s : State) (cl idx : Nat) (l : Lease),
    let k := s.cluster cl
    (∀ q rest, k.reqs = q :: rest →
      let take := (s.freeTiles cl).take (q.count - q.aside.length)
      let q' := { q with aside := q.aside ++ take }
      (q'.aside.length < q.count → take ≠ [] →
        exec (.leaseSettlement cl) s = .next (s.updCluster cl fun k => { k with reqs := q' :: rest })) ∧
      (q.count ≤ q'.aside.length → q.pinned = false → q.team = none → s.freeLease cl = some idx → ∃ t y,
        exec (.leaseSettlement cl) s = .next t ∧ (t.cluster cl).reqs = rest ∧ mfind idx (t.cluster cl).leases = some y ∧
          y.tiles = q'.aside ∧ y.held = q'.aside.length ∧ y.team = none ∧ y.since = s.now ∧ y.gen = nextGen (mget 0 idx k.leaseGen) ∧
          (t.cluster cl).pass = k.pass.map (fun p => { p with lease := some idx }) ∧
          (∀ x ∈ q'.aside, ∀ j, j < 0x10000 → mget 0 (landKey cl x j) t.land = 0) ∧ t.mem = s.mem) ∧
      (∀ team, q.count ≤ q'.aside.length → q.pinned = false → q.team = some team → s.freeLease cl = some idx → ∃ t y,
        exec (.leaseSettlement cl) s = .next t ∧ (t.cluster cl).reqs = rest ∧ mfind idx (t.cluster cl).leases = some y ∧
          y.tiles = q'.aside ∧ y.held = q'.aside.length ∧ y.team = some team ∧ y.since = s.now ∧ y.loose = q.loose ∧ y.tclass = q.tclass ∧
          y.routine = q.routine ∧ y.blk = q.blk ∧ (∀ z, s.team team = some z → t.team team = some { z with reqOut := false })) ∧
      (∀ team z, q.count ≤ q'.aside.length → q.pinned = true → q.team = some team → s.team team = some z → s.Keyed → ∃ t,
        exec (.leaseSettlement cl) s = .next t ∧ (t.cluster cl).reqs = rest ∧
          t.team team = some { z with pinned := q'.aside, waitPin := 0 } ∧ t.mem = s.mem ∧
          (∀ x ∈ s.threadsOf team, ∃ a, t.thread x.1 = some a ∧ a = { x.2 with place := a.place } ∧
            (a.place = .deck (s.now + 1) ∨ a.place = .spill (s.now + 1))) ∧
          ∀ id y, s.thread id = some y → y.team ≠ team → t.thread id = some y)) ∧
    (k.reqs = [] → exec (.leaseSettlement cl) s = .fault .notDue) ∧
    (youngestLoose k.leases = some (idx, l) → s.lacking cl ≠ 0 → s.jobCovers cl idx 0 = false → ∃ t,
      exec (.looseReclaim cl idx) s = .next t ∧
        (t.cluster cl).leases = mupd idx (fun x => { x with dead := true, tiles := [], held := 0 }) k.leases ∧ t.teams = s.teams) ∧
    (mfind idx k.leases = some l → ∀ g, l.giveUp = some g → s.jobCovers cl idx g.keep = false → ∃ t,
      exec (.surrenderOutcome cl idx) s = .next t ∧ ((∀ j r, g.rec_ = some (j, r) → r.kind ≠ 0) → t.teams = s.teams) ∧
        (∀ j r, g.rec_ = some (j, r) → (t.slice j).fqWait = (s.slice j).fqWait ++ [Rec.bytes r (s.slice j).seq]) ∧
        (t.cluster cl).leases = if g.keep = 0 then mdel idx k.leases
          else mupd idx (fun x => { x with tiles := x.tiles.take g.keep, held := g.keep, giveUp := none }) k.leases) ∧
    (mfind idx k.leases = some l → ∀ g, l.giveUp = some g → s.jobCovers cl idx g.keep = true →
      exec (.surrenderOutcome cl idx) s = .fault .notDue) ∧
    (mfind idx k.leases = some l → ∀ at_, l.refusedAt = some at_ →
      exec (.refusalHoldoffExpiry cl idx) s = .next ((s.advance (at_ + 8000)).updLease cl idx fun x =>
        { x with refusedAt := none })) ∧
    (s.recallDue cl idx = true → mfind idx k.leases = some l → ∀ team x, l.team = some team → s.team team = some x →
      let need := s.lacking cl - s.coming cl
      ∃ t a, exec (.surrenderInjection cl idx) s = .next t ∧ t.thread s.fresh = some a ∧
        (∀ id, id ≠ s.fresh → t.thread id = s.thread id) ∧
        Filed a { team := team, tnum := 0x400, wid := a.wid, v := a.v, inj := some { lease := idx, gen := l.gen, count := 0 } }
          (x.codebase + BitVec.ofNat 57 l.routine) ∧
        a.reg 0 = ⟨BitVec.ofNat 32 (leaseHandle idx l.gen), tU32⟩ ∧ a.reg 1 = ⟨BitVec.ofNat 32 need, tU32⟩ ∧
        a.reg 2 = ⟨BitVec.ofNat 32 l.held, tU32⟩ ∧ (∀ r, 2 < r → a.reg r = {}) ∧
        (t.cluster cl).leases = mupd idx (fun y => { y with recalled := some need, injected := true }) k.leases ∧
        t.team team = some { x with routine := some idx }) ∧
    (s.recallDue cl idx = true → mfind idx k.leases = some l → l.team = none →
      exec (.surrenderInjection cl idx) s = .next (s.updLease cl idx fun x => { x with recalled := some (s.lacking cl - s.coming cl) }))

/-- R173, R314 to R318, R315, R411: a matrix instruction that passes its checks puts one command into its core's queue, at its issue
position, and sets the tags of what it will write; nothing else changes. With 8 commands there, those of `cpymma` still to come counted (log 77,
DEDUCED), it holds its pipe. -/
def Obligations.MatrixIssue : Prop :=
  ∀ (s : State) (c : Ctx) (ty n4 : BitVec 4) (shape n5 : BitVec 5) (wb : Bool) (cnt tile : BitVec 7) (b : Src) (region : BitVec 6),
    let n := cnt.toNat + 1
    let d := tile.toNat
    let word (k : Nat) : Nat := (c.tm.sreg (n5.toNat + k)).toNat
    let off := ((c.tm.areg n4.toNat).setWidth 32).toNat
    let len := (src32 .int c.tm c.counted.elected b).w.toNat
    let acc0 := c.core * 128 + c.tm.acc0 + d
    let issued (i : Instr) (o : Issue) (x : MPass) (acc wbuf : Nat × Nat) (tag : BitVec 4) : Prop :=
      Ready o s c → (8 ≤ s.mPlaces c.core → ∃ t, exec i s = .next t ∧ OnlyPipes s t ∧
        t.pipe c.core c.p = { c.pr with start := some (c.pr.start.getD s.now), ready := s.now + 1, fixed := false, cutAt := none }) ∧
      (s.mPlaces c.core < 8 → s.entries c.cluster < 256 →
      ∃ t, exec i s = .next t ∧ GoesOn s t c (c.pc + 4) ∧ (∀ k, k ≠ c.core → t.core k = s.core k) ∧
        (let m : MCmd :=
           { id := s.fresh, team := c.team, op := x.op, reads := x.reads, cfoot := x.cfoot, issued := s.now, flags := x.flags }
         t.core c.core = { s.core c.core with mq := mqInsert m (s.core c.core).mq }) ∧
        (∀ k, mget tNone k t.accTag = if acc.1 ≤ k ∧ k < acc.1 + acc.2 then tag else mget tNone k s.accTag) ∧
        (∀ k, mget tNone k t.wbTag = if wbuf.1 ≤ k ∧ k < wbuf.1 + wbuf.2 then tag else mget tNone k s.wbTag) ∧
        t = { s.counted c with pipes := t.pipes, cores := t.cores, fresh := s.fresh + 1, accTag := t.accTag, wbTag := t.wbTag })
    let rows : Issue := { sr := [n5.toNat, n5.toNat + 1], once := true }
    let moves : Issue := { ar := [n4.toNat], once := true }
    (∀ x, s.mmaCheck c.core c.tm false ty.toNat shape.toNat wb d (word 0) (word 1) = .ok x →
      issued (.mma ty shape wb n5 tile) rows x (0, 0) (0, 0) 0) ∧
    (∀ x, s.mmaCheck c.core c.tm true ty.toNat shape.toNat wb d (word 0) (word 1) = .ok x →
      issued (.mmas ty shape wb n5 tile) rows x (0, 0) (0, 0) 0) ∧
    (d + n ≤ c.tm.accN →
      issued (.mzero ty cnt tile) { once := true }
        { op := .mzero d n, reads := [], cfoot := [tileRng c.core c.tm d n true], flags := 0 } (acc0, n) (0, 0) ty) ∧
    (region.toNat + (len + 0x3FFF) / 0x4000 ≤ c.tm.wbN → len ≠ 0 → len % 64 = 0 → len ≤ 0x100000 → off % 64 = 0 →
      off + len ≤ c.tm.spadN * 0x1000 →
      issued (.mldw ty n4 b region) { srcs := [b], ar := [n4.toNat], once := true }
        { op := .mldw off len region.toNat, reads := [spadRng c.core c.tm off len false],
          cfoot := [regionRng c.core c.tm region.toNat ((len + 0x3FFF) / 0x4000) true], flags := 0 }
        (0, 0) (c.core * 64 + c.tm.wb0 + region.toNat, (len + 0x3FFF) / 0x4000) ty) ∧
    (d + n ≤ c.tm.accN → off % 64 = 0 → off + n * 0x1000 ≤ c.tm.spadN * 0x1000 →
      issued (.macld ty n4 cnt tile) moves
        { op := .macld off d n, reads := [spadRng c.core c.tm off (n * 0x1000) false], cfoot := [tileRng c.core c.tm d n true], flags := 0 }
        (acc0, n) (0, 0) ty ∧
      issued (.macst n4 cnt tile) moves
        { op := .macst off d n, reads := [],
          cfoot := [tileRng c.core c.tm d n false, spadRng c.core c.tm off (n * 0x1000) true], flags := 0 } (0, 0) (0, 0) 0) ∧
    (Ready { once := true } s c → c.tm.accN < d + n →
      exec (.mzero ty cnt tile) s = .next ((s.counted c).raise c.counted c.counted.elected { cause := 0x22 } 4))

/-- R173, R174, R316 to R319, R407: a command runs when the array is free and the checker lets it, moves its data at the end of its run, and
completes 6 cycles later; `mwait` blocks while covered work is outstanding, then merges its flags, or raises its lowest-numbered failure, whose
delivery clears the causes of all that it covers. Which lane raises the cause of a raft of both modes is log 53 (DEDUCED). -/
def Obligations.MatrixWork : Prop :=
  (∀ (s : State) (c : Ctx) (wb : Bool) (cnt tile : BitVec 7), Ready { noInj := true } s c →
    let n := cnt.toNat + 1
    let d := tile.toNat
    let k := c.counted
    let recs := (s.core c.core).mrec
    let cov (r : MRec) : Bool := r.covered c.team wb d n
    let f : BitVec 7 := (recs.filter cov).foldl (fun f r => f ||| r.flags) 0
    d + n ≤ (if wb then c.tm.wbN else c.tm.accN) →
    (s.mBusy c.core c.team wb d n = false → (∀ r ∈ recs, cov r = true → r.cause = 0) →
      ∃ t, exec (.mwait wb cnt tile) s = .next t ∧ FiledAs (s.counted c) t k id (fun _ => c.pc + 4) ∧ (c.die < 4 → CaughtUp t c.die) ∧
        t.team c.team = (s.team c.team).map (fun x => if f = 0 then x else { x.orFlags f with merged := x.merged ||| f }) ∧
        (∀ j, j ≠ c.team → t.team j = s.team j) ∧
        (t.core c.core).mrec = recs.filter (fun r => !cov r) ∧ (t.core c.core).mq = (s.core c.core).mq ∧
        t = { s with threads := t.threads, teams := t.teams, pipes := t.pipes, cores := t.cores, stale := t.stale, lag := t.lag, vc := t.vc }) ∧
    (s.mBusy c.core c.team wb d n = true → ∃ t, exec (.mwait wb cnt tile) s = .next t ∧ OnlyFiling s t ∧ (t.pipe c.core c.p).raft = none ∧
      (∀ l ∈ k.lns, k.Sole l → t.thread l.tid = some { l.th with pc := c.pc + 4, place := .blocked (.matrix wb d n) false }) ∧
      ∀ id, k.laneOf id = none → ∀ b, s.thread id = some b → ∃ a, t.thread id = some a ∧ Unmoved a b) ∧
    (s.mBusy c.core c.team wb d n = false → ∀ r ∈ recs, cov r = true → r.cause ≠ 0 →
      (∀ q ∈ recs, cov q = true → q.cause ≠ 0 → r.id < q.id ∨ r = q) →
      let l := k.whole
      let g : Fail := { cause := r.cause, detail := BitVec.ofNat 64 r.first }
      ∃ t, exec (.mwait wb cnt tile) s = .next t ∧
        (l.th.inj = none → l.th.sup = false → r.cause ≠ 0x61 → (c.tm.csrv cTRAPV).extractLsb' 1 56 ≠ 0 →
          (∀ y, s.team c.team = some y → y.core = c.core) →
          (c.tm.inService = false → Entered (s.counted c) t k l g 4 ∧
            (t.core c.core).mrec = recs.map fun x => if cov x then { x with cause := 0 } else x) ∧
          (c.tm.inService = true → (t.core c.core).mrec = recs ∧ t.team c.team = (s.team c.team).map fun y =>
            { y with heldQ := y.heldQ ++ [{ threads := c.tids, pc := c.pc, lane := l.lane, cause := r.cause, detail := g.detail, len := 4,
                                            clears := some (wb, d, n) }] })))) ∧
  (∀ (s : State) (core : Nat) (m : MCmd) (x : Team), s.anyTeam m.team = some x →
    let k := s.core core
    (k.mq.find? (fun m => !m.running) = some m → (∀ y ∈ k.mq, y.running = true → y.ran = true) → s.startable core m = true →
      exec (.matrixRunStart core) s = .next (s.updCore core fun k => { k with mq := k.mq.map fun y =>
        if y.id = m.id then { y with running := true, last := s.now + s.runCycles core x m.op - 1 } else y })) ∧
    (k.mq.find? (fun m => m.running && !m.ran) = some m → m.last ≤ s.now →
      (∀ r ∈ m.reads ++ m.cfoot, s.rngGone (Config.clusterOf core) core m.team r = false) → (∀ r ∈ m.reads, s.rngPoison r = false) →
      let ended (t : State) : Prop :=
        (∀ j, j ≠ core → t.core j = s.core j) ∧
        t.core core = { k with
          mq := k.mq.map fun y => if y.id = m.id then { y with ran := true, cause := 0 } else y
          mfree := m.last + 1 } ∧
        t = { s with cores := t.cores, acc := t.acc, spad := t.spad, wbuf := t.wbuf, psnAcc := t.psnAcc, psnSpad := t.psnSpad, psnWb := t.psnWb }
      let put (old new : Map Byte) (lo n : Nat) (v : Nat → Byte) : Prop :=
        ∀ j, mget 0 j new = if lo ≤ j ∧ j < lo + n then v (j - lo) else mget 0 j old
      let ends (goal : State → Prop) : Prop := ∃ t, exec (.matrixRunEnd core) s = .next t ∧ ended t ∧ goal t
      (∀ tile n, m.op = .mzero tile n → ends fun t =>
        put s.acc t.acc (tKey core x tile) (n * 0x1000) (fun _ => 0) ∧ t.spad = s.spad ∧ t.wbuf = s.wbuf) ∧
      (∀ off n r, m.op = .mldw off n r → ends fun t =>
        put s.wbuf t.wbuf (rKey core x r) (n + ((n + 0x3FFF) / 0x4000 * 0x4000 - n))
          (fun j => if j < n then mget 0 (aKey core x off + j) s.spad else 0) ∧ t.acc = s.acc ∧ t.spad = s.spad) ∧
      (∀ off tile n, m.op = .macld off tile n → ends fun t =>
        put s.acc t.acc (tKey core x tile) (n * 0x1000) (fun j => mget 0 (aKey core x off + j) s.spad) ∧ t.spad = s.spad ∧ t.wbuf = s.wbuf) ∧
      (∀ off tile n, m.op = .macst off tile n → ends fun t =>
        put s.spad t.spad (aKey core x off) (n * 0x1000) (fun j => mget 0 (tKey core x tile + j) s.acc) ∧ t.acc = s.acc ∧ t.wbuf = s.wbuf)) ∧
    (k.mq.find? (·.ran) = some m → m.last + 6 ≤ s.now → m.card = none → (∀ j ∈ s.jobs, j.2.follow = none) → x.ending = false →
      ∃ t, exec (.matrixCommandComplete core) s = .next t ∧ t = { s with threads := t.threads, cores := t.cores } ∧
        (∀ j, j ≠ core → t.core j = s.core j) ∧
        t.core core = { k with
          mq := k.mq.filter fun y => y.id != m.id
          mrec := if m.flags = 0 ∧ m.cause = 0 then k.mrec else k.mrec ++
            [{ team := m.team, id := m.id, wb := m.op.tiles.2 == 0, first := if m.op.tiles.2 = 0 then m.op.regions.1 else m.op.tiles.1,
               n := if m.op.tiles.2 = 0 then m.op.regions.2 else m.op.tiles.2, flags := m.flags, cause := m.cause }] } ∧
        ∀ h, t.thread h = s.thread h ∨ ∃ b w, s.thread h = some b ∧ b.place = .blocked w false ∧
          t.thread h = some { b with place := .blocked w true }))

/-- R91, R167, R168, R175: every `mma` and `mmas`, of whatever types, with A dense or in headed lines and B in scratchpad or weight buffer, adds
to each element of C, group by group in ascending K, the sum of the group's products, rounded once to C's format by RNE; an I32 sum wraps. The sum
of a group is exact: where its terms are finite, it is the rational sum of their products. C(i, j) stands in its 32 x 32 block, row by row, in two
tiles for F64. Nothing outside its tiles changes. A dense `mma` of I8 operands is also given byte by byte. What an N4P element is at the corners
of its scale and of its pair is log 9 (DEDUCED). -/
def Obligations.MatrixProduct : Prop :=
  (∀ (s : State) (core : Nat) (m : MCmd) (x : Team) (sparse wb : Bool) (aty bty shape aoff apl boff bpl tile : Nat) (k : Combo),
    s.anyTeam m.team = some x → (s.core core).mq.find? (fun m => m.running && !m.ran) = some m → m.last ≤ s.now →
    (∀ r ∈ m.reads ++ m.cfoot, s.rngGone (Config.clusterOf core) core m.team r = false) → s.runPoison core x m = false →
    m.op = .mma sparse aty bty wb shape aoff apl boff bpl tile → comboOf aty bty = some k → (sparse = true → aty ∈ [5, 6, 7, 8, 9]) →
    let rows := 32 * 2 ^ (shape / 8 % 4)
    let cols := 32 * 2 ^ (shape / 2 % 4)
    let depth := k.k0 * (shape % 2 + 1)
    let a (i q : Nat) : Term :=
      let f (j : Nat) : Byte := mget 0 (aKey core x aoff + j) s.spad
      if sparse then headedElem aty depth f i q else denseElem aty apl rows depth f i q
    let b (j q : Nat) : Term :=
      denseElem bty bpl cols depth (fun j => if wb then mget 0 (rKey core x boff + j) s.wbuf else mget 0 (aKey core x boff + j) s.spad) j q
    let w := if k.c = tF64 then 8 else 4
    let fmt : Fmt := if k.c = tF64 then .f64 else .f32
    let base := tKey core x tile
    let blk (i j : Nat) : Nat := i / 32 * (cols / 32) + j / 32
    let cAt (i j : Nat) : Nat := base +
      if k.c = tF64 then (2 * blk i j + i % 32 / 16) * 4096 + 8 * (32 * (i % 16) + j % 32) else blk i j * 4096 + 4 * (32 * (i % 32) + j % 32)
    let old (i j : Nat) : Nat := leNat (mgets 0 s.acc (cAt i j) w)
    let group (i j g : Nat) : List Term := (List.range k.g).map fun q => (a i (g * k.g + q)).mul (b j (g * k.g + q))
    let sum (i j : Nat) : Nat :=
      (List.range (depth / k.g)).foldl (fun acc g => (fmt.add .rne false (fmt.decode acc) (groupSum (group i j g)).1).bits) (old i j)
    let isum (i j : Nat) : Int := ((List.range depth).map fun q => (a i q).1.int * (b j q).1.int).sum
    ∃ t, exec (.matrixRunEnd core) s = .next t ∧
      (∀ i j, i < rows → j < cols → mgets 0 t.acc (cAt i j) w =
        natLe w (if k.c = tI32 then (BitVec.ofNat 32 (old i j) + BitVec.ofInt 32 (isum i j)).toNat else sum i j)) ∧
      (∀ z, ¬(base ≤ z ∧ z < base + rows * cols * w) → mget 0 z t.acc = mget 0 z s.acc) ∧
      t = { s with cores := t.cores, acc := t.acc, psnAcc := t.psnAcc }) ∧
  (∀ l : List Term, (∀ t ∈ l, t.2 = false ∧ t.1.finite) →
    (groupSum l).2 = false ∧ (groupSum l).1.finite ∧ (groupSum l).1.exact = (l.map fun t => t.1.exact).sum) ∧
  (∀ a b : Term, a.2 = false → b.2 = false → a.1.finite → b.1.finite →
    (a.mul b).2 = false ∧ (a.mul b).1.finite ∧ (a.mul b).1.exact = a.1.exact * b.1.exact) ∧
  ∀ (s : State) (core : Nat) (m : MCmd) (x : Team) (shape aoff boff tile : Nat), s.anyTeam m.team = some x →
    (s.core core).mq.find? (fun m => m.running && !m.ran) = some m → m.last ≤ s.now →
    (∀ r ∈ m.reads ++ m.cfoot, s.rngGone (Config.clusterOf core) core m.team r = false) → (∀ r ∈ m.cfoot, s.rngPoison r = false) →
    m.op = .mma false 9 9 false shape aoff 0 boff 0 tile →
    let rows := 32 * 2 ^ (shape / 8 % 4)
    let cols := 32 * 2 ^ (shape / 2 % 4)
    let depth := 128 * (shape % 2 + 1)
    hasPsn 8 (aKey core x aoff) (rows * depth) s.psnSpad = false → hasPsn 8 (aKey core x boff) (cols * depth) s.psnSpad = false →
    let base := tKey core x tile
    let cAt (i j : Nat) : Nat := base + (i / 32 * (cols / 32) + j / 32) * 4096 + 4 * (32 * (i % 32) + j % 32)
    let c (t : State) (i j : Nat) : Word := BitVec.ofNat 32 (leNat (mgets 0 t.acc (cAt i j) 4))
    let a (i k : Nat) : Int := (mget (0 : Byte) (aKey core x aoff + (i * depth + k)) s.spad).toInt
    let b (j k : Nat) : Int := (mget (0 : Byte) (aKey core x boff + (j * depth + k)) s.spad).toInt
    ∃ t, exec (.matrixRunEnd core) s = .next t ∧
      (∀ i j, i < rows → j < cols →
        c t i j = c s i j + BitVec.ofInt 32 ((List.range depth).map fun k => a i k * b j k).sum) ∧
      (∀ k, ¬(base ≤ k ∧ k < base + rows / 32 * (cols / 32) * 4096) → mget 0 k t.acc = mget 0 k s.acc) ∧
      t = { s with cores := t.cores, acc := t.acc, psnAcc := t.psnAcc }

/-- R310 to R313, R129 to R134, R137, R138: a collection instruction whose Sawyer is idle makes the operations of its lanes in ascending order,
each committed whole, and goes on when all have; a cause in one lane leaves the lanes below it committed. What one lane does is given by the
change that it commits; insertion keeps the order by key and serial, and a cursor returns the next element in order. What a Sawyer detects, and
its index record, is log 18; which free block is taken, and that an operation commits in its instruction's step, log 19; the split at a removal
log 67; which of two elements with equal key and serial is selected log 68: all DESIGN CHOICE. -/
def Obligations.CollectionResults : Prop :=
  ∀ (s : State) (c : Ctx) (n : BitVec 4) (a d : BitVec 6) (e : BitVec 5) (h : Src) (settled : Bool),
    let k := c.counted
    let adr := c.tm.areg n.toNat
    let word (l : Ln) : Word := (src32 .int c.tm l h).w
    let runs (i : Instr) (o : Issue) (f : State → Ln → SawOut) : Prop :=
      Ready o s c → (s.cluster c.cluster).sawyerQ = [] →
      (∀ t, sawWalk f (s.counted c) (o.lanes k) = (t, none) → exec i s = .next (t.goOn k (c.pc + 4) (20 + (o.lanes k).length))) ∧
      ∀ t l g up, sawWalk f (s.counted c) (o.lanes k) = (t, some (l, g, up)) → g.park = false → exec i s = .next (t.raise k l g 4)
    (payBusy a.toNat n (s.counted c) k = false →
      runs (.cins n a d) { vr := regsFrom a.toNat 3, ar := [n.toNat] } (cinsLane a.toNat d.toNat k adr)) ∧
    runs (.cdel n a d) { vr := regsFrom a.toNat 3, ar := [n.toNat] } (cdelLane a.toNat d.toNat k adr) ∧
    runs (.crel n a d) { vr := regsFrom a.toNat 6, ar := [n.toNat] } (crelLane a.toNat d.toNat k adr) ∧
    runs (.copen settled n a d) { vr := regsFrom a.toNat 4, ar := [n.toNat] } (copenLane settled a.toNat d.toNat k adr) ∧
    runs (.ccnt n a d) { vr := regsFrom a.toNat 4, ar := [n.toNat] } (ccntLane a.toNat d.toNat k adr) ∧
    runs (.cnext h d) { srcs := [h] } (cnextLane word d.toNat k) ∧
    runs (.cclose h) { srcs := [h] } (ccloseLane word k) ∧
    runs (.cstep n e) { ar := [n.toNat], once := true } (cstepLane e.toNat k adr) ∧
    -- One lane's operation, on the collection `x` that stands at its descriptor `q`.
    (∀ (s t : State) (l : Ln) (q : Desc) (x : Coll), s.desc (k.saw l) adr = .ok q → mfind q.pa s.colls = some x →
      q.own.all (· == 0) = false → x.image = q.own → x.cluster = c.cluster → x.broken = false →
      [x.cellexp, x.q, x.pw, x.nblk] = [q.cellexp, q.q, q.pw, q.nblk] → x.sen = q.sen →
      let u := k.saw l
      let key := l.key a.toNat
      let key2 := l.key (a.toNat + 2)
      let reg (j : Nat) : Nat := (l.th.reg (a.toNat + j)).val.toNat
      let used := usedBlks x.chain
      let pick := Config.freeNat s.free
      let commits (lo hi : Nat) (y : Change) : Prop := s.commit u q x false lo hi y id = (t, none)
      let gets (r : SawOut) (t : State) : Prop := r = (t, none)
      (∀ ch, s.desc u adr true = .ok q → key < 2 ^ 63 → q.serial ≠ 0 → a.toNat + 3 + x.pw ≤ 64 →
        (∀ j, j < x.pw → l.th.psnV.contains (a.toNat + 3 + j) = false) →
        let serial := if x.sen then q.serial else 0
        let pay : List Word := (List.range x.pw).map fun j => (l.th.reg (a.toNat + 3 + j)).val
        let y : Elem :=
          { key := key, off := reg 2 % 2 ^ (3 * x.q), serial := serial, uid := x.nextUid, stamp := q.step % 4, rel := false, pay := pay }
        let next : Nat := if x.sen then (q.serial + 1) % 2 ^ 32 else q.serial
        x.insert q.step pick used y x.chain = some ch →
        commits key key { chain := ch, nextUid := x.nextUid + 1, step := q.step, serial := next, count := (q.count + 1) % 2 ^ 64 } →
        gets (cinsLane a.toNat d.toNat k adr s l) (setWord l.tid d.toNat serial tU32 t)) ∧
      (key < 2 ^ 63 →
        (x.select key (reg 2) = none → commits key key (x.same q) →
          gets (cdelLane a.toNat d.toNat k adr s l) (setWord l.tid d.toNat 0 tU32 t)) ∧
        ∀ y ch, x.select key (reg 2) = some y → x.remove q.step pick used y x.chain = some ch →
          commits key key { x.same q with chain := ch, count := (q.count + (2 ^ 64 - 1)) % 2 ^ 64, writes := true } →
          gets (cdelLane a.toNat d.toNat k adr s l) (setWord l.tid d.toNat 1 tU32 t)) ∧
      (key < 2 ^ 63 → key2 < 2 ^ 63 →
        (x.select key (reg 4) = none → commits key key (x.same q) →
          gets (crelLane a.toNat d.toNat k adr s l) (setWord l.tid d.toNat 0 tU32 t)) ∧
        ∀ y ch ch', x.select key (reg 4) = some y → x.remove q.step pick used y x.chain = some ch →
          let y' : Elem := { y with key := key2, off := reg 5 % 2 ^ (3 * x.q), uid := if x.sen then y.uid else x.nextUid, stamp := q.step % 4,
                                    rel := true }
          x.insert q.step pick (usedBlks ch) y' ch = some ch' →
          commits key key { x.same q with chain := ch', nextUid := x.nextUid + 1, writes := true } →
          gets (crelLane a.toNat d.toNat k adr s l) (setWord l.tid d.toNat 1 tU32 t)) ∧
      (key ≤ key2 → key2 < 2 ^ 63 →
        (commits key key2 (x.same q) →
          let m := (x.elems.filter fun y => decide (key ≤ y.key) && decide (y.key ≤ key2)).length
          gets (ccntLane a.toNat d.toNat k adr s l)
            (setWord l.tid (d.toNat + 1) (m / 2 ^ 32) tU32 (setWord l.tid d.toNat m tU32 t))) ∧
        ∀ i, (List.range 256).find? (fun j => !((s.cluster c.cluster).cursors.map (·.1)).contains j) = some i →
          commits 1 0 (x.same q) →
          let gen := nextGen (mget 0 i (s.cluster c.cluster).curGen)
          let cur : Cursor :=
            { gen := gen, thread := l.tid, va := adr, coll := q.pa, ident := x.ident, settled := settled, lo := key, hi := key2 }
          gets (copenLane settled a.toNat d.toNat k adr s l) (setWord l.tid d.toNat (i + 0x100 * gen) tU32
            (t.updCluster c.cluster fun z => { z with cursors := mput i cur z.cursors, curGen := mput i gen z.curGen }))) ∧
      (∀ i z r, s.cursorOf c.cluster l.tid (word l) = some (i, z) → s.staleCursor z = false → z.va = adr → x.ident = z.ident → d.toNat + 5 + x.pw ≤ 64 →
        z.ended = false → x.next q.step z = r →
        commits (match z.pos with
          | some p => Nat.max z.lo p.1
          | none => z.lo) (match r with
          | some y => y.1.key
          | none => z.hi) (x.same q) →
        gets (cnextLane word d.toNat k s l) (putRecord l.tid d.toNat (recordRegs x.pw r)
          (t.updCursor c.cluster i fun z => match r with
            | some y => { z with pos := some y.1.pos }
            | none => { z with ended := true }))) ∧
      (∀ i z, s.cursorOf c.cluster l.tid (word l) = some (i, z) →
        gets (ccloseLane word k s l) (s.updCluster c.cluster fun z => { z with cursors := mdel i z.cursors })) ∧
      (s.desc u adr true = .ok q → (q.step + 1) % 65536 ≠ 0 → q.step + 1 < 2 ^ 64 → commits 1 0 { x.same q with step := q.step + 1, writes := true } →
        gets (cstepLane e.toNat k adr s l) (t.updTeam c.team fun y => y.setS e.toNat (BitVec.ofNat 32 (q.step + 1))))) ∧
    -- A descriptor that cannot be written raises its cause first, and so does a cursor of a collection written afresh (R400, R430).
    (∀ (s : State) (l : Ln) (f : Fail), s.desc (k.saw l) adr true = .error f →
      cinsLane a.toNat d.toNat k adr s l = (s, some f) ∧ cstepLane e.toNat k adr s l = (s, some f)) ∧
    (∀ (s : State) (l : Ln) (i : Nat) (z : Cursor), s.cursorOf c.cluster l.tid (word l) = some (i, z) → s.staleCursor z = true →
      cnextLane word d.toNat k s l = (s, some { cause := 0x32 })) ∧
    -- Order (R128 to R130), and the next element of a cursor (R138).
    (∀ (x : Coll) (step pick : Nat) (used : List Nat) (y : Elem) (ch : List Drift),
      let elems (ch : List Drift) : List (Nat × Nat × Nat) := ch.flatMap fun b => b.elems.map Elem.pos
      let ordered (ch : List Drift) : Prop := (elems ch).Pairwise fun p q => posBefore p q = true
      ordered x.chain → (∀ b ∈ x.chain, b.elems ≠ []) → (∀ p ∈ elems x.chain, p ≠ y.pos) → x.insert step pick used y x.chain = some ch →
        ordered ch ∧ (elems ch).Perm (y.pos :: elems x.chain)) ∧
    (∀ (x : Coll) (step : Nat) (z : Cursor) (y : Elem) (age : Nat), x.next step z = some (y, age) →
      y ∈ x.elems ∧ z.lo ≤ y.key ∧ y.key ≤ z.hi ∧ (∀ p, z.pos = some p → posBefore p y.pos = true) ∧ (z.settled = true → age ≠ 0))

/-- R131, R133: the Sawyer makes the rewrite at the head of its queue, or passes over a raft that is gone. A block whose page no longer takes the
write keeps the header that it has, and a rewrite of which no link reaches a block waits (log 18, DESIGN CHOICE). -/
def Obligations.SawyerQueue : Prop :=
  ∀ (s : State) (cl core p pa asid : Nat) (sup : Bool) (rest : List SawyerOp),
    let popped : State := s.updCluster cl fun k => { k with sawyerQ := rest }
    ((s.cluster cl).sawyerQ = .arrived core p :: rest →
      ((s.pipe core p).raft = none ∨ (s.pipe core p).fixed = false → exec (.sawyerCommit cl) s = .next popped) ∧
      ((s.pipe core p).raft ≠ none → (s.pipe core p).fixed = true → exec (.sawyerCommit cl) s = .fault .notDue)) ∧
    ((s.cluster cl).sawyerQ = .rewrite pa asid sup :: rest →
      (mfind pa s.colls = none → exec (.sawyerCommit cl) s = .next popped) ∧
      let page (b : Drift) : Except Fail GAcc :=
        s.sawAt { cluster := cl, asid := asid, sup := sup } (s.homeNat (pa + 8) 8 + 256 * b.blk) true
      (∀ x, mfind pa s.colls = some x → (∀ b ∈ x.chain, ∀ f, page b = .error f → f.remote = false) →
        ∃ t y, exec (.sawyerCommit cl) s = .next t ∧ mfind pa t.colls = some y ∧
          y.chain.map (·.blk) = x.chain.map (·.blk) ∧ y = { x with chain := y.chain } ∧
          (∀ b ∈ y.chain, (∀ g, page b = .ok g → b.hstep = s.homeNat (pa + 0x18) 8 % 2 ^ 18) ∧ ∀ f, page b = .error f → b ∈ x.chain) ∧
          (t.cluster cl).sawyerQ = rest ∧ t.threads = s.threads ∧ t.teams = s.teams) ∧
      ∀ x b f, mfind pa s.colls = some x → b ∈ x.chain → page b = .error f → f.remote = true → exec (.sawyerCommit cl) s = .fault .notDue) ∧
    ((s.cluster cl).sawyerQ = [] → exec (.sawyerCommit cl) s = .fault .notDue)

/-- R151 to R154, R320 to R322: `tray` takes a ticket, the lowest free one (log 38, DESIGN CHOICE), and queues its ray at node 0 of ROOT, `tnext`
starts a ticket's next round, which ends at once where LAST is set, `twait` returns the first word of the hit record, `tres` frees a ticket (each
given for a raft of one lane); the Skidder asks for the tiles of the subtree that ranks first (which ray of a queue is its oldest is log 72,
DESIGN CHOICE), and its pass begins when they are granted and gives them back when it ends. (That the ray record is read at the round's start,
and the scene at each pass, is log 23, DEDUCED.) The issue of a round is a release: `tray` and `tnext` wait, on their pipe, for what the raft has
sent to this package's memory (log 62, DEDUCED); where no link reaches an entry or a spill area that the round needs they hold it as well, `tray`
with its ticket, and after 80,000 cycles the round starts without, or ends where it is the root's (R397; log 28, DEDUCED); a pass waits for a
link in the same way. -/
def Obligations.RayResults : Prop :=
  (∀ (s : State) (c : Ctx) (m n : BitVec 4) (o b : Src) (d : BitVec 6) (l : Ln) (g sg : GAcc) (sc : Scene), c.lns = [l] →
    let k := c.counted
    let e := k.elected
    let s0 := s.counted c
    let cl := s.cluster c.cluster
    let w : Word := (src32 .int c.tm e b).w
    let starts (t : State) (y : Ticket) (i : Nat) (scene : DWord) : Prop :=
      let q : SubQ :=
        { asid := c.tm.asid, scene := scene, sub := sc.root, head := true,
          rays := [{ ticket := i, since := s.now, starts := cl.passes }] }
      y.active = true ∧ y.hits = [] ∧ y.seen = [sc.root] ∧ y.team = c.team ∧ y.asid = c.tm.asid ∧
        (t.cluster c.cluster).subqs = cl.subqs ++ [q]
    let slotAt (a : DWord) (va : VAddr) : Prop :=
      s0.slotSpot k.who c.tm.asid l.th.sup a va = .ok g ∧ s0.slotFault c.die g va = none ∧ s0.slotWait k g va.toNat = false ∧
        s0.slotBusy c.cluster g.loc.pa = false
    let sceneOf (a : DWord) : Prop :=
      s0.sceneSpot k.who c.tm.asid l.th.sup a = .ok sg ∧ s0.sceneWait k sg a = false ∧ s0.sceneRead c.die sg a = .ok sc
    let room (a : DWord) : Prop :=
      (∀ x ∈ cl.skHeld, x.1 ≠ c.team) ∧ (cl.subqs.filter fun q => !q.rays.isEmpty).length < 64 ∧
        ∀ q ∈ cl.subqs, q.of c.tm.asid a = false ∨ q.sub ≠ sc.root
    let held (i : Instr) (got : List Nat) (since : Option Nat) (t : State) : Prop :=
      exec i s = .next t ∧ t.pipe c.core c.p =
        { c.pr with start := some (c.pr.start.getD s.now), ready := s.now + 1, fixed := false, cutAt := since, tickets := got }
    let since : Option Nat := some (c.pr.cutAt.getD s.now)
    let sent : Bool := s.relWait (some .cluster) c.tids
    -- The subtrees of the footprint whose entries could not be read, where the root's is not among them.
    let reached (y : Ticket) : Prop := ∀ x ∈ y.lost, x.1 ≠ sc.root
    (let scene := c.tm.areg m.toNat
     let slot := eaOf (c.tm.areg n.toNat) (src32 .int c.tm e o).w
     let i := lowestFree (s0.usedTickets c.cluster) 0 4096
     let gen := nextGen (mget 0 i cl.tickGen)
     let trial := (((s0.takeTickets c.cluster 1 []).1.clearCut c.cluster).touch k.who sg.tlb false).openTicket k e i g (slot.signExtend 64) scene sc d
     Ready { srcs := [o], ar := [n.toNat, m.toNat] } s c → sceneOf scene →
      (sent = true → ∃ t, held (.tray m n o d) c.pr.tickets none t ∧ OnlyPipes s t) ∧
      (sent = false → slotAt (c.tm.areg n.toNat) slot → s.entries c.cluster < 256 → c.pr.tickets = [] → i < 4096 → room scene →
       (s0.startCut k trial = true → ∃ t, held (.tray m n o d) [i] since t ∧ t = { s with pipes := t.pipes, clusters := t.clusters } ∧
         (∀ j, j ≠ c.cluster → t.cluster j = s.cluster j) ∧ t.cluster c.cluster = { cl with tickGen := mput i gen cl.tickGen }) ∧
       (s0.startCut k trial = false → ∃ t y, exec (.tray m n o d) s = .next t ∧ GoesOn s t c (c.pc + 4) ∧ t.teams = s.teams ∧
         (t.pipe c.core c.p).tickets = [] ∧ mfind i (t.cluster c.cluster).tickets = some y ∧ y.gen = gen ∧ y.slot = slot.signExtend 64 ∧
         y.scene = scene ∧ (¬ reached y → y.active = false) ∧
         (reached y → starts t y i scene ∧
           t.thread l.tid = some (e.th.setReg d.toNat (BitVec.ofNat 32 (i + 4096 * gen)) tU32) ∧
           (∀ id, id ≠ l.tid → t.thread id = s.thread id) ∧
           ∀ j, j ≠ i → mfind j (t.cluster c.cluster).tickets = mfind j cl.tickets)))) ∧
    (∀ i x, Ready { srcs := [b] } s c → s.ticketOf c.cluster c.team w = some (i, x) → x.active = false →
      slotAt x.slot (x.slot.setWidth 57) → sceneOf x.scene →
      let last := (((s0.touch k.who g.tlb true).touch k.who sg.tlb false).slotWord c.cluster
        { x with sup := l.th.sup, slotPa := g.loc.pa } 0x40).getLsbD 16
      let trial := (s0.clearCut c.cluster).nextRound k
        { idx := i, t := { x with sup := l.th.sup, slotPa := g.loc.pa }, ray := s0.readAt c.die g.loc 64, sc := sc, slot := g, desc := sg }
      (sent = true → ∃ t, held (.tnext b) c.pr.tickets none t ∧ OnlyPipes s t) ∧
      (sent = false → s.entries c.cluster < 256 →
       (s0.startCut k trial = true → ∃ t, held (.tnext b) c.pr.tickets since t ∧ OnlyPipes s t) ∧
       (s0.startCut k trial = false → ∃ t y, exec (.tnext b) s = .next t ∧ GoesOn s t c (c.pc + 4) ∧ t.teams = s.teams ∧
         mfind i (t.cluster c.cluster).tickets = some y ∧ y.gen = x.gen ∧
         (last = true → y.active = false ∧ y.foot = [] ∧ y.hits = []) ∧
         (last = false → room x.scene → x.asid = c.tm.asid → (reached y → starts t y i x.scene) ∧ (¬ reached y → y.active = false))))) ∧
    (∀ i x v, Ready { srcs := [b], noInj := true } s c → s.ticketOf c.cluster c.team w = some (i, x) →
      s.ticketResult c.cluster c.team w = some v →
      ∃ t, exec (.twait b d) s = .next t ∧ FiledAs (s.counted c) t k (fun y => y.setReg d.toNat v tU32) (fun _ => c.pc + 4) ∧
        (c.die < 4 → CaughtUp t c.die) ∧
        t = { s with threads := t.threads, pipes := t.pipes, cores := t.cores, stale := t.stale, lag := t.lag, vc := t.vc }) ∧
    (∀ i x, Ready { srcs := [b], noInj := true } s c → s.ticketOf c.cluster c.team w = some (i, x) →
      s.ticketResult c.cluster c.team w = none →
      ∃ t, exec (.twait b d) s = .next t ∧ OnlyFiling s t ∧ (t.pipe c.core c.p).raft = none ∧
        t.thread l.tid = some { e.th with pc := c.pc + 4, place := .blocked (.ticket w d) false }) ∧
    (∀ i x, Ready { srcs := [b] } s c → s.ticketOf c.cluster c.team w = some (i, x) →
      ∃ t, exec (.tres b) s = .next t ∧ GoesOn s t c (c.pc + 4) ∧ t.teams = s.teams ∧ (t.cluster c.cluster).tickGen = cl.tickGen ∧
        (cl.inPass i = true → ∃ y, mfind i (t.cluster c.cluster).tickets = some y ∧ y.withdrawn = true) ∧
        (cl.inPass i = false → x.active = false → (∀ q ∈ cl.subqs, ∀ r ∈ q.rays, r.spill = none) →
          (t.cluster c.cluster).tickets = mdel i cl.tickets ∧ t.mem = s.mem))) ∧
  (∀ (s : State) (cl : Nat) (q : SubQ) (p : Pass),
    let k := s.cluster cl
    (k.pass = none → s.chooseQ cl = some q →
      let p : Pass := { asid := q.asid, sup := s.supRays cl (s.liveRays cl q), scene := q.scene, sub := q.sub, asked := s.now }
      (∀ s1 sc a size, s.imageOf cl p = .ok (s1, sc, a, size) → ∃ t, exec (.passStart cl) s = .next t ∧
        t = { s1 with clusters := t.clusters } ∧ s1.teams = s.teams ∧ s1.threads = s.threads ∧
        (let r : LeaseReq := { team := none, count := (size + 0xFFFF) / 0x10000, tclass := 3, blk := { space := .glob, a := 0 }, at_ := s.now,
                               core := Config.cores }
         t.cluster cl = { k with pass := some p, reqs := addReq r k.reqs }) ∧ ∀ j, j ≠ cl → t.cluster j = s.cluster j) ∧
      (s.liveRays cl q ≠ [] ∧ q ∈ k.subqs ∧ ∀ x ∈ k.subqs, s.liveRays cl x ≠ [] →
        rankLess (x.rank s.now k.passes (s.liveRays cl x)) (q.rank s.now k.passes (s.liveRays cl q)) = false)) ∧
    (k.pass = some p → p.started = false → p.ended = false → p.lease ≠ none → ((s.beginPass cl p).cluster cl).passCut = true →
      WaitsForLink (.passStart cl) s s (.passStart cl)) ∧
    (k.pass = some p → p.started = false → p.ended = false → p.lease ≠ none →
      s.linked (.passStart cl) ((s.beginPass cl p).cluster cl).passCut → ∃ t y, exec (.passStart cl) s = .next t ∧
      (t.cluster cl).pass = some y ∧ y.started = true ∧ y.rays.length ≤ 512 ∧ (t.cluster cl).passes = k.passes + 1 ∧
      (t.cluster cl).tickets = k.tickets ∧ t.teams = s.teams ∧ t.threads = s.threads) ∧
    (k.pass = some p → p.started = true → p.rays = [] → p.fails = [] → p.rec_ = none → k.subqs = [] →
      (∀ x ∈ s.teams, x.2.preempt = none) → s.saved = [] →
      ∃ t, exec (.passEnd cl) s = .next t ∧ t = { s with clusters := t.clusters, free := t.free, waits := t.waits } ∧ (∀ j, j ≠ cl → t.cluster j = s.cluster j) ∧
        t.cluster cl = { k with pass := none, leases := match p.lease with
          | some i => mdel i k.leases
          | none => k.leases }))

/-- R157 to R159, R323: `rast` completes wherever it issues: it gives the active lanes, in order, the next covered samples of the walk from the
token's position on, with their pixel, barycentrics and depth, clears the predicate of the lanes that get none, sets IV where a coordinate cannot
be snapped, and leaves the next token, 0 when no covered sample is left. Blocks by floor, IV from x and y alone and barycentrics rounded once are
log 24 (DEDUCED). -/
def Obligations.RasterResults : Prop :=
  (∀ (s : State) (c : Ctx) (p : BitVec 3) (v : BitVec 5) (d : BitVec 6),
    let regs := (List.range 10).map (v.toNat + ·)
    let r := rastStep (regs.map fun n => (c.tm.sreg n).toNat) (c.tm.sreg (v.toNat + 9)).toNat c.lns.length
    Ready { sr := regs } s c → ∃ t, exec (.rast p v d) s = .next t ∧ OnlyRegisters s t ∧ GoesOn s t c (c.pc + 4) ∧
      (∀ (i : Nat) l, c.counted.lns[i]? = some l → c.counted.Sole l → t.thread l.tid = some (match r.samples[i]? with
        | none => l.th.setPred p false
        | some (ws : List Nat) =>
          let w (j : Nat) : Word := BitVec.ofNat 32 (ws.getD j 0)
          ((((l.th.setReg d.toNat (w 0) tU32).setReg (d.toNat + 1) (w 1) tF32).setReg (d.toNat + 2) (w 2) tF32).setReg (d.toNat + 3) (w 3)
            tF32).setPred p true)) ∧
      (∀ id, c.counted.laneOf id = none → t.thread id = s.thread id) ∧ (∀ k, k ≠ c.team → t.team k = s.team k) ∧
      t.team c.team = (s.team c.team).map fun x =>
        let y := x.setS (v.toNat + 9) (BitVec.ofNat 32 r.token)
        if r.iv then y.orFlags fIV else y) ∧
  (∀ (t : Tri) (g : Grid) (start n : Nat), start ≤ g.size →
    t.walk g (g.size - start) start n =
      (((List.range g.size).drop start).filter fun l => t.covers (g.pixel l).1 (g.pixel l).2).take n) ∧
  (∀ (vs : List Nat) (token n : Nat), 0 < n →
    let v (k : Nat) : Nat := vs.getD k 0
    let r := rastStep vs token n
    ((∃ k ∈ [0, 1, 3, 4, 6, 7], snap (v k) = none) → r.iv = true ∧ r.token = 0 ∧ r.samples = []) ∧
    (∀ x0 y0 x1 y1 x2 y2, snap (v 0) = some x0 → snap (v 1) = some y0 → snap (v 3) = some x1 → snap (v 4) = some y1 → snap (v 6) = some x2 →
      snap (v 7) = some y2 →
      let t : Tri := { x := [x0, x1, x2], y := [y0, y1, y2], z := [v 2, v 5, v 8] }
      let g := t.grid
      let left := ((List.range g.size).drop (token - 1)).filter fun l => t.covers (g.pixel l).1 (g.pixel l).2
      let sample (l : Nat) : List Nat :=
        let p := g.pixel l
        let b (e : Int × Bool) : Nat := if e.1 = 0 then 0 else (Fmt.f32.round .rne false (decide (e.1 < 0)) e.1.natAbs t.area.natAbs 0).bits
        let b1 := b (t.edge 2 0 p.1 p.2)
        let b2 := b (t.edge 0 1 p.1 p.2)
        [p.1 + 0x10000 * p.2, b1, b2, rAdd (rAdd (v 2) (rMul b1 (rSub (v 5) (v 2)))) (rMul b2 (rSub (v 8) (v 2)))]
      r.iv = false ∧
      (token = 0 ∨ t.area = 0 ∨ g.size ≤ token - 1 → r.token = 0 ∧ r.samples = []) ∧
      (token ≠ 0 → t.area ≠ 0 → token - 1 < g.size → r.samples = (left.take n).map sample ∧
        (left.length ≤ n → r.token = 0) ∧ (n < left.length → ∃ l, left[n - 1]? = some l ∧ r.token = l + 2))))

/-- R42 to R45, R56, R64, R281: a pipe without a raft takes one from the deck that ranks first, at most 32 threads with the longest wait; a raft
past its limit is filed while a deck is aged; a met wait files its thread; an idle core is gated, and woken 40 cycles before it issues. DECK_AGED
advances the cycle counter to its moment (log 31, DESIGN CHOICE); what is left of a deck that is cut is log 33, the registers that await data are
log 56, and that the time for which an access has had no link goes on through forced filing is log 28, all DEDUCED. -/
def Obligations.SchedulingEvents : Prop :=
  ∀ (s : State) (core p tid : Nat) (b : Bin) (c : Ctx) (th : Thread) (x : Team),
    let k := s.core core
    (b ∈ s.bins core → s.now ≤ b.oldest + b.age → (∀ y ∈ s.bins core, s.now ≤ y.oldest + y.age → b.oldest + b.age ≤ y.oldest + y.age) →
      exec (.deckAged core) s = .next (s.advance (b.oldest + b.age + 1))) ∧
    (s.chooseBin core p = some b →
      b ∈ s.bins core ∧ b.eligible s.now k.cuts = true ∧
      ∀ y ∈ s.bins core, y.eligible s.now k.cuts = true → (s.pipe core p).pass.contains (y.team, y.pc, y.inj) = false →
        lexLess (y.key s.now k.cuts) (b.key s.now k.cuts) = false) ∧
    (s.needsRaft core p = true → s.lowerFirst core p = false → s.chooseBin core p = some b → ∃ t, exec (.raftFormation core p) s = .next t ∧ OnlyFiling s t ∧
      (t.pipe core p).raft = some { team := b.team, pc := b.pc, lanes := b.take } ∧ b.take.length ≤ 32 ∧
      (t.pipe core p).ready = max (s.now + 1) k.wakeAt ∧ (∀ j, j ≠ 4 * core + p → mfind j t.pipes = mfind j s.pipes) ∧
      (t.pipe core p).cutAt = (b.take.filterMap fun y => (s.thread y.2).bind (·.cutAt)).min? ∧
      (∀ y ∈ b.take, ∀ a, s.thread y.2 = some a → t.thread y.2 = some { a with place := .raft, cutAt := none }) ∧
      ∀ h, (∀ y ∈ b.take, y.2 ≠ h) → ∀ a, s.thread h = some a → ∃ a', t.thread h = some a' ∧ Unmoved a' a) ∧
    (s.ctx false = some c → s.forcedDue c.core c.p = true → ∃ t, exec (.forcedFiling c.core c.p) s = .next t ∧ OnlyFiling s t ∧
      (FiledAs s t c (fun b => { b with cutAt := c.pr.cutAt }) fun _ => c.pc) ∧ (t.pipe c.core c.p).tickets = []) ∧
    (s.thread tid = some th → s.team th.team = some x →
      let woken (mine : Thread → Prop) : Prop := ∃ t a, exec (.threadWake tid) s = .next t ∧ t.thread tid = some a ∧ mine a ∧
        (∀ h, h ≠ tid → ∀ y, s.thread h = some y → ∃ z, t.thread h = some z ∧ Unmoved z y) ∧
        (Config.dieOf x.core < 4 → CaughtUp t (Config.dieOf x.core)) ∧
        (∀ j, j ≠ th.team → t.team j = s.team j) ∧ t.mem = s.mem
      (∀ o q, th.place = .blocked (.bar o q) true → woken fun a => Filed a th th.pc) ∧
      (∀ w d, th.place = .blocked (.ticket w d) true → woken fun a => Filed a th th.pc) ∧
      (∀ all w, th.place = .blocked (.tags all w) true → woken fun a => Filed a th th.pc) ∧
      (∀ op pa va at_ lane lead, th.place = .blocked (.remote op pa va at_ lane lead) false → s.remoteGroup lead = [(lane, tid, op)] →
        s.cutPa pa = false → hasPsn 32 pa op.size s.psnMem = false →
        let die := Config.dieOf x.core
        let loc : Loc := .mem pa (if remoteBase ≤ pa then 3 else 2)
        let back (m : State) (mine : Thread) : Prop := ∃ t a, exec (.threadWake tid) s = .next t ∧ t.thread tid = some a ∧
          Filed a mine th.pc ∧ t.mem = m.mem ∧ ∀ j, j ≠ th.team → t.team j = s.team j
        (∀ mt d, op = .load mt d → back s (op.into (s.readAt die loc mt.size) th)) ∧
        (∀ o b c d, op = .atom o b c d → let y := s.atomAt die loc o b c
          back y.1 (th.setAtom o d.toNat y.2)) ∧
        (∀ mt d, op = .ldu mt d → back s th ∧ ∀ t, exec (.threadWake tid) s = .next t →
          t.team th.team = some (setSregs d.toNat (memWords mt (s.readAt die loc mt.size)) x))) ∧
      (∀ o q, th.place = .blocked (.bar o q) false → exec (.threadWake tid) s = .fault .notDue)) ∧
    (s.thread tid = some th → (th.busyV ≠ [] ∨ th.busyS ≠ []) → ∃ t, exec (.loadDataWritten tid) s = .next t ∧
      t = { s with threads := t.threads } ∧ t.thread tid = some { th with busyV := [], busyS := [] } ∧
      ∀ h, h ≠ tid → t.thread h = s.thread h) ∧
    (k.gated = false → k.idle = true → s.asleep core = true → exec (.clockGate core) s = .next (s.updCore core fun k => { k with gated := true })) ∧
    (k.gated = true → s.asleep core = false →
      exec (.clockWake core) s = .next (s.updCore core fun k => { k with gated := false, wakeAt := s.now + 40 }))

/-- R191, R193, R339, R345, R391, R394, R395: writes in flight reach the dies they were sent to, a replicated store is written and its page
unlocked, the host and other packages read and write memory at its home, and memory errors poison or are counted. R189: what the host or
another package writes comes after every write that it has seen (that they count as one reader is log 78, DEDUCED). The sweep clears the
gathered A and D (log 26), a scrub reports to every slice (log 45), and the counts that the RAS core reports are those of log 48, all DEDUCED;
what places the hub's own accesses reach is log 59 (DESIGN CHOICE). -/
def Obligations.MemoryEvents : Prop :=
  ∀ (s : State) (die k : Nat) (l : Lag) (rest : List Lag) (r : Repl) (pa n : Nat) (bs : List Byte) (op : AtomOp) (b c : DWord) (w : Word)
    (site : EccSite),
    let wrote (t : State) (pa : Nat) (bs : List Byte) : Prop :=
      t.homeBytes pa bs.length = bs ∧ (∀ a, ¬(pa ≤ a ∧ a < pa + bs.length) → t.home a = s.home a) ∧
      (∀ a d, d < 4 → pa ≤ a → a < pa + bs.length → t.view d a = t.home a)
    let caught (t : State) : Prop := ∀ x ∈ t.lag, x.within s.hub.seen = false
    let reached (n : Nat) : Prop := pa + n ≤ Config.hbmBytes ∧ s.pageLocked pa = false ∧ s.pageLocked (pa + n - 1) = false
    let object (f : BarObj → BarObj) (i : Instr) : Prop := s.linkUp = true → reached 16 → pa % 16 = 0 →
      ∃ t, exec i s = .next t ∧ caught t ∧ BarsMarked s t ∧ t.homeBytes pa 16 = (f (s.barAt (.mem pa 3))).bytes ∧
        (∀ a, ¬(pa ≤ a ∧ a < pa + 16) → t.home a = s.home a) ∧
        t = { s with threads := t.threads, mem := t.mem, stale := t.stale, lag := t.lag, vc := t.vc, psnMem := t.psnMem }
    (s.firstLag die s.lag = some (l, rest) → ∃ t, exec (.remoteWriteApply die) s = .next t ∧ t.lag = rest ∧ l.dst = die ∧
      (∀ a, t.home a = s.home a) ∧ (die < 4 → ∀ d a, d < 4 → d ≠ die → t.view d a = s.view d a) ∧
      t = { s with stale := t.stale, lag := rest, vc := t.vc }) ∧
    (s.lag = [] → exec (.remoteWriteApply die) s = .fault .notDue) ∧
    (s.repl[k]? = some r → (∀ j x, j < k → s.repl[j]? = some x → x.page ≠ r.page) →
      ∃ t, exec (.replicatedStoreCommit k) s = .next t ∧ t.repl = s.repl.eraseIdx k ∧ t.threads = s.threads ∧ t.teams = s.teams ∧
        (s.hub.contribs = [] → wrote t r.addr r.bytes ∧
          t = { s with mem := t.mem, stale := t.stale, lag := t.lag, vc := t.vc, repl := t.repl, psnMem := t.psnMem })) ∧
    (∃ t, exec .adSweep s = .next t ∧ t.hub = { s.hub with sweptAt := s.now } ∧
      t.tlbEntries = s.tlbEntries.map (fun e => { e with a := false, d := false }) ∧
      (∀ a, t.home a = s.tlbEntries.foldl (fun x e => if e.addr = a then x ||| (if e.a then 0x40 else 0) ||| (if e.d then 0x80 else 0) else x)
        (s.home a)) ∧ t.threads = s.threads ∧ t.teams = s.teams) ∧
    (s.hub.cxlUp = true → pa + n ≤ 2 ^ 52 → exec (.cxlMemRead pa n) s = .next (s.noted pa n)) ∧
    (s.hub.cxlUp = true → pa + bs.length ≤ 2 ^ 52 → ∃ t, exec (.cxlMemWrite pa bs) s = .next t ∧ wrote t pa bs ∧ caught t ∧ BarsMarked s t ∧
      t.teams = s.teams) ∧
    (s.hub.cxlUp = false → exec (.cxlMemRead pa n) s = .fault .notDue ∧ exec (.cxlMemWrite pa bs) s = .fault .notDue) ∧
    (s.linkUp = true →
      (reached n → exec (.remoteAccess (.load pa n)) s = .next (s.noted pa n)) ∧
      (reached bs.length → ∃ t, exec (.remoteAccess (.store pa bs)) s = .next t ∧ wrote t pa bs ∧ caught t ∧ BarsMarked s t ∧ t.teams = s.teams) ∧
      (let z := if op.wide then 8 else 4
       reached z → pa % z = 0 → hasPsn 32 pa z s.psnMem = false → ∃ t, exec (.remoteAccess (.atom op pa b c)) s = .next t ∧
         wrote t pa (natLe z (atomNew op (BitVec.ofNat 64 (s.homeNat pa z)) b c).toNat) ∧ caught t ∧ BarsMarked s t)) ∧
    object (arrivals n) (.remoteAccess (.arrive pa n)) ∧ object (BarObj.expect w) (.remoteAccess (.expect pa w)) ∧
    (s.siteOk site = true → exec (.eccError site false) s = .next { s with hub := { s.hub with
      eccCount := s.hub.eccCount + 1, eccTold := if s.rasRuns then s.hub.eccCount + 1 else s.hub.eccTold } }) ∧
    (∀ site g, site = .mem g ∨ site = .llc g ∨ (∃ core, site = .l1 core g) → s.siteOk site = true →
      ∃ t, exec (.eccError site true) s = .next t ∧ (∀ j, j ∈ t.psnMem ↔ j = g ∨ j ∈ s.psnMem) ∧
        t = { s with psnMem := t.psnMem, hub := { s.hub with
          scrubbed := if g ∈ s.psnMem then s.hub.scrubbed else s.hub.scrubbed.filter (· != g) } }) ∧
    (∀ id x j, j < 64 → s.thread id = some x → ∃ t y, exec (.eccError (.vreg id j) true) s = .next t ∧ t = { s with threads := t.threads } ∧
      t.thread id = some y ∧ y = { x with psnV := y.psnV } ∧ (∀ i, i ∈ y.psnV ↔ i = j ∨ i ∈ x.psnV) ∧
      ∀ h, h ≠ id → t.thread h = s.thread h) ∧
    (∀ core g, core < Config.cores → g < 1024 → ∃ t, exec (.eccError (.tagEntry core g) true) s = .next t ∧ t = { s with psnTag := t.psnTag } ∧
      ∀ j, j ∈ t.psnTag ↔ j = core * 1024 + g ∨ j ∈ s.psnTag) ∧
    ((∀ g ∈ s.psnMem, 32 * g < Config.hbmBytes → g ∈ s.hub.scrubbed) →
      exec .scrub s = .next { s with hub := { s.hub with scrubbed := s.hub.scrubbed.filter fun g => s.psnMem.contains g } }) ∧
    (∀ g, s.psnMem.find? (fun g => !s.hub.scrubbed.contains g && decide (32 * g < Config.hbmBytes)) = some g → ∃ t, exec .scrub s = .next t ∧ g ∈ t.hub.scrubbed ∧
      t = { s with hub := { s.hub with scrubbed := t.hub.scrubbed }, slices := t.slices } ∧
      ∀ j, j < 8 → t.slice j = { s.slice j with
        fqWait := (s.slice j).fqWait ++
          [Rec.bytes { kind := 4, cause := 0x60, tnum := 0x7FF, addr := BitVec.ofNat 64 (32 * g) } (s.slice j).seq]
        seq := (s.slice j).seq + 1 })

/-- R347, R368, R369, R372 to R374, R392, R414: the oldest waiting record reaches the fault queue when that has room; a reply retries, delivers or
ends; what no link delivers in time is reported, once, and kept for a link that returns (log 27, DEDUCED), or parked. The timeouts take place at
their moment, the cycle counter advanced to it (log 31, DESIGN CHOICE). -/
def Obligations.FaultEvents : Prop :=
  ∀ (s : State) (k : Nat),
    let sl := s.slice k
    let posts (t : State) (j : Nat) (r : Rec) : Prop :=
      (∀ i, i ≠ j → t.slice i = s.slice i) ∧ t.slice j = { s.slice j with
        fqWait := (s.slice j).fqWait ++ [r.bytes (s.slice j).seq]
        seq := (s.slice j).seq + 1 }
    (∀ r rest, sl.fqWait = r :: rest → r.length = 64 → sl.fq = true → s.ringFull sl.fqCtl sl.fqLog2 = false → (∀ x ∈ s.pipes, x.2.hold = none) →
      let tail := s.homeNat (sl.fqCtl + 4) 4
      let at_ := sl.fqRing + 64 * (tail % 2 ^ sl.fqLog2)
      let vec := (s.hreg (0x1008 + 0x100 * k)).toNat % 2 ^ 11
      at_ + 64 ≤ sl.fqCtl + 4 ∨ sl.fqCtl + 8 ≤ at_ →
      ∃ t, exec (.faultRecordPost k) s = .next t ∧ t.homeBytes at_ 64 = r ∧ t.homeNat (sl.fqCtl + 4) 4 = (tail + 1) % 2 ^ 32 ∧
        (∀ a, ¬(at_ ≤ a ∧ a < at_ + 64) → ¬(sl.fqCtl + 4 ≤ a ∧ a < sl.fqCtl + 8) → t.home a = s.home a) ∧
        t.slice k = { sl with fqWait := rest } ∧ (∀ j, j ≠ k → t.slice j = s.slice j) ∧
        t.hub = (if vec = 0x7FF then s.hub else { s.hub with msi := vec :: s.hub.msi }) ∧ t.threads = s.threads ∧ t.teams = s.teams) ∧
    (sl.fqWait = [] → exec (.faultRecordPost k) s = .fault .notDue) ∧
    (∀ q r rest, sl.mqWait = (q, r) :: rest → s.msgFull k = true → ∃ t, exec (.messageRecordAppend k) s = .next t ∧
      t = { s with slices := t.slices } ∧ (t.slice k).mqWait = rest ∧ (t.slice k).fqWait = sl.fqWait ++
        [Rec.bytes { kind := 4, cause := 0x76, tnum := 0x7FF, lanes := q, addr := BitVec.ofNat 64 (leNat (r.take 8)) } sl.seq]) ∧
    (∀ q r rest, sl.mqWait = (q, r) :: rest → s.msgFull k = false → ∃ t, exec (.messageRecordAppend k) s = .next t ∧
      (t.slice k).mqWait = rest ∧ (t.slice k).fqWait = sl.fqWait ∧ t.threads = s.threads ∧ t.teams = s.teams) ∧
    -- Replies (R372).
    (∀ (w : BitVec 64) (id : Nat) (x : Team) (p : Parked), s.hub.cxlUp = true → replyOk w = true →
      s.parkedOf k (w.extractLsb' 0 48).toNat = some (id, x, p) → s.team id = some x →
      let deck := s.parkedAt id p.pc
      ((w.extractLsb' 56 2) = 0 → s.deckEvicted id x p.pc = false → ∃ t, exec (.faultReplyRetry k w) s = .next t ∧
        (∀ h ∈ deck, ∀ b, s.thread h = some b → ∃ a, t.thread h = some a ∧ Filed a b p.pc) ∧
        (∀ h, h ∉ deck → ∀ b, s.thread h = some b → ∃ a, t.thread h = some a ∧ Unmoved a b) ∧
        t.team id = some { x with parkedQ := x.parkedQ.filter fun y => y.pc != p.pc } ∧
        t = { s with threads := t.threads, teams := t.teams, cores := t.cores }) ∧
      ((w.extractLsb' 56 2) = 1 → s.deckEvicted id x p.pc = false → (x.csrv cTRAPV).extractLsb' 1 56 ≠ 0 → x.inService = false → ∃ t y, exec (.faultReplyDeliver k w) s = .next t ∧
        (∀ h ∈ deck, ∀ b, s.thread h = some b → ∃ a, t.thread h = some a ∧
          Filed a { b with sup := true } ((x.csrv cTRAPV).setWidth 57 &&& ~~~1)) ∧
        t.team id = some y ∧ y.inService = true ∧ y.csrv cTRAPPC = p.pc.setWidth 64 ∧ y.csrv cTRAPADDR = p.rec_.addr ∧
        y.csrv cTRAPCAUSE = BitVec.ofNat 64 ((w.extractLsb' 48 8).toNat + 0x100 * p.rec_.lane) ∧ y.trapLen = p.rec_.len ∧
        y.parkedQ = x.parkedQ.filter fun y => y.pc != p.pc) ∧
      ((w.extractLsb' 56 2) = 2 → ∃ t y, exec (.faultReplyEnd k w) s = .next t ∧ (∀ h a, t.thread h = some a → a.team ≠ id) ∧
        t.team id = some y ∧ y.ending = true ∧ posts t x.slice { p.rec_ with kind := 1, lanes := 0, core := x.core, tslot := x.slot })) ∧
    (∀ w : BitVec 64, replyOk w = false →
      ((w.extractLsb' 56 2) = 0 → exec (.faultReplyRetry k w) s = .next s) ∧ ((w.extractLsb' 56 2) = 1 → exec (.faultReplyDeliver k w) s = .next s)) ∧
    -- Timeouts.
    (∀ p, s.posted[k]? = some p → p.reported = false → ∃ t, exec (.postedAckTimeout k) s = .next t ∧
      t.posted = s.posted.set k { p with reported := true } ∧ t.now = max s.now (p.issued + 80000) ∧
      t = { s.advance (p.issued + 80000) with posted := t.posted, slices := t.slices } ∧
      posts t p.slice
        { kind := 4, cause := 0x75, tnum := 0x7FF, addr := p.va, core := p.core, tslot := p.slot, asid := p.asid, lanes := p.lanes }) ∧
    (∀ c, s.hub.contribs[k]? = some c → c.reported = false → ∃ t, exec (.postedAckTimeout (s.posted.length + k)) s = .next t ∧
      t.hub = { s.hub with contribs := s.hub.contribs.set k { c with reported := true } } ∧ t.now = max s.now (c.issued + 80000) ∧
      t = { s.advance (c.issued + 80000) with hub := t.hub, slices := t.slices } ∧
      posts t c.slice
        { kind := 4, cause := 0x75, tnum := 0x7FF, addr := c.va, core := c.core, tslot := c.slot, asid := c.asid, lanes := c.lanes }) ∧
    (∀ c, s.hub.contribs[k]? = some c →
      let s1 := s.advance (c.issued + 80000)
      let n := atomSize c.op
      (c.pa < 2 ^ 52 → (s.linkUp = false ∨ s.lockedAt (.mem c.pa c.mt) = true) → exec (.switchForwardTimeout k) s = .next
        { s1 with hub := { s.hub with contribs := s.hub.contribs.map fun x =>
          if x.pa = c.pa then { x with issued := max s.now (c.issued + 80000) } else x } }) ∧
      (2 ^ 52 ≤ c.pa ∨ (s.linkUp = true ∧ s.lockedAt (.mem c.pa c.mt) = false) → ∃ t, exec (.switchForwardTimeout k) s = .next t ∧
        t.hub = { s.hub with contribs := s.hub.contribs.filter fun x => x.pa != c.pa } ∧
        (∀ a, ¬(c.pa ≤ a ∧ a < c.pa + 8) → t.home a = s.home a) ∧
        (s.hub.contribs.filter (fun x => x.pa == c.pa) = [c] →
          t.homeBytes c.pa n = natLe n (atomNew c.op (BitVec.ofNat 64 (s.homeNat c.pa n)) c.b 0).toNat))) ∧
    (∀ (th : Thread) (x : Team) op pa va at_ lane lead met, s.thread k = some th → s.team th.team = some x →
      th.place = .blocked (.remote op pa va at_ lane lead) met → (∀ y ∈ s.remoteGroup lead, lane ≤ y.1) →
      (s.slice x.slice).fqWait.length < 16 →
      let group := s.remoteGroup lead
      let r : Rec :=
        { kind := 0, cause := 0x10, sup := th.sup, rem := true, core := x.core, tslot := x.slot, asid := x.asid, tnum := th.tnum,
          write := (match op with
            | .atom _ _ _ _ => true
            | _ => false)
          lanes := group.foldl (fun m y => m + 2 ^ y.1) 0, pc := (th.pc - 4).setWidth 64, addr := va }
      (th.sup = false → ∃ t, exec (.remoteTimeout k) s = .next t ∧ t.now = max s.now (at_ + 80000) ∧
        (∀ y ∈ group, ∀ b, s.thread y.2.1 = some b → t.thread y.2.1 = some { b with place := .parked, pc := th.pc - 4 }) ∧
        (∀ h, (∀ y ∈ group, y.2.1 ≠ h) → ∀ b, s.thread h = some b → ∃ a, t.thread h = some a ∧ Unmoved a b) ∧
        posts t x.slice r ∧ t.mem = s.mem) ∧
      (th.sup = true → ∃ t y, exec (.remoteTimeout k) s = .next t ∧ t.now = max s.now (at_ + 80000) ∧ t.team th.team = some y ∧
        y.ending = true ∧ (∀ h a, t.thread h = some a → a.team ≠ th.team) ∧ posts t x.slice { r with kind := 1, lanes := 0 }))

/-- R36 to R38, R57 to R63, R249, R335, R336, R344, R378, R414, R438: a draw picks a queue with odds by its tickets and admits the next team of
its launch, or of the record it checks, or refuses that record; a team that a pre-emption names is evicted, saved and restored, torn when that
takes too long, and freed when it has ended. A pre-empted team is evicted and saved in steps TEAM_SAVE (log 29), a refused record keeps its queue
the winner (log 34), a saved team ends by R249 (log 41), and the waits for a link are log 28, all DEDUCED; the watchdog advances the cycle counter
(log 31), which free place and index a team gets is log 38, what a context slot keeps log 39, and that a restore is one step, in which teams that
hold buffers round in a cycle go together, log 40, all DESIGN CHOICE. -/
def Obligations.TeamEvents : Prop :=
  (∀ (s : State) (k lid : Nat) (l : Launch) (a : Alloc) (set : List (Nat × Nat)) (drawn : List Nat) (store : Bool) (addr : DWord)
      (hdr : Option (List Byte)),
    let sl := s.slice k
    let x := xorshift sl.x
    let q := pickQueue (x.toNat % totalTickets set) set
    let s1 := s.updSlice k fun y => { y with x := x, draw := some set, drawn := drawn }
    let went (t : State) (b : Slice) : Prop := t.slice k = b ∧ ∀ j, j ≠ k → t.slice j = s.slice j
    sl.created = true → s.schedulerRuns = true → s.physCut sl.qtable = false → (∀ j, j < 64 → sl.overfilled.contains j = true ∨ (s.qEntry k j).full = false) →
    sl.winner = none → (sl.draw = some set ∧ drawn = sl.drawn ∨ sl.draw = none ∧ s.drawStarts k = some set ∧ drawn = set.map (·.1)) →
    s.nextRecord k q = some (store, addr, hdr) →
    let run := s.launches.find? fun y => y.2.slice == k && y.2.queue == q && y.2.store == store && decide (y.2.next < y.2.teams)
    let admits (s0 : State) (lid : Nat) : Prop :=
      let id := s0.fresh
      let pc : VAddr := l.codebase.setWidth 57 + BitVec.ofNat 57 (recField l.hdr 4 4)
      let moved : Slice := { sl with x := x, draw := none, winner := none, drawn := drawn, mayDraw := true }
      ∃ t, exec (.lotteryDraw k) s = .next t ∧
        t.team id = some (l.team lid a) ∧ t.fresh = id + 1 + hdrSize l.hdr ∧ (∀ j, j ≠ id → t.team j = s.team j) ∧
        (∀ i, i < hdrSize l.hdr →
          let new : Thread := { team := id, tnum := i, wid := l.wid l.next i, pc := pc, place := .waiting }
          ∃ th, t.thread (id + 1 + i) = some th ∧ if hdrPin l.hdr = 0 then Filed th new pc else th = new) ∧
        (hdrPin l.hdr ≠ 0 →
          let r : LeaseReq := { team := some id, pinned := true, count := hdrPin l.hdr, blk := { space := .glob, a := 0 }, at_ := s.now, core := a.core }
          (t.cluster (Config.clusterOf a.core)).reqs = addReq r (s.cluster (Config.clusterOf a.core)).reqs) ∧
        mfind lid t.launches = some { l with next := l.next + 1 } ∧
        (∀ j, j < hdrSpad l.hdr / 0x1000 * 0x1000 → mget 0 (spadKey a.core (a.spad0 * 0x1000) + j) t.spad = 0) ∧
        (l.next + 1 ≠ l.teams → went t moved ∧ t.mem = s0.mem) ∧
        (l.next + 1 = l.teams → store = true → went t { moved with store := dropFirst (fun y => y.1 == q) sl.store } ∧ t.mem = s0.mem) ∧
        (l.next + 1 = l.teams → store = false → went t moved ∧ t.homeNat (s.qAddr k q + 0x14) 4 = ((s0.qEntry k q).head + 1) % 2 ^ 32 ∧
          ∀ b, ¬(s.qAddr k q + 0x14 ≤ b ∧ b < s.qAddr k q + 0x18) → t.home b = s0.home b)
    (run = some (lid, l) → s.placeTeam l = some a → admits s lid) ∧
    (∀ s2, run = none → s1.checkRecord k q (s1.qEntry k q).asid store addr hdr = .ok (s2, l) → s2.placeTeam l = some a →
      admits { s2 with fresh := s2.fresh + 1 } s2.fresh) ∧
    (∀ f, run = none → s1.checkRecord k q (s1.qEntry k q).asid store addr hdr = .error f →
      (f.remote = true → WaitsForLink (.lotteryDraw k) s (s1.updSlice k fun y => { y with winner := some q }) (.draw k)) ∧
      (s.linked (.draw k) f.remote → sl.fqWait.length < 16 →
      ∃ t, exec (.lotteryDraw k) s = .next t ∧ t.teams = s.teams ∧ t.threads = s.threads ∧ t.launches = s.launches ∧
        went t { sl with
          x := x, draw := some set, winner := some q, drawn := drawn, seq := sl.seq + 1
          store := if store then dropFirst (fun y => y.1 == q) sl.store else sl.store
          fqWait := sl.fqWait ++ [Rec.bytes { kind := 3, cause := f.cause, rem := f.remote, tnum := 0x7FF, addr := addr,
                                              lanes := q + if store then 64 else 0 } sl.seq] } ∧
        (store = true → t.mem = s.mem) ∧
        (store = false → t.homeNat (s.qAddr k q + 0x14) 4 = ((s.qEntry k q).head + 1) % 2 ^ 32 ∧
          ∀ b, ¬(s.qAddr k q + 0x14 ≤ b ∧ b < s.qAddr k q + 0x18) → t.home b = s.home b))) ∧
    (run = some (lid, l) → s.placeTeam l = none → ∃ t, exec (.lotteryDraw k) s = .next t ∧ t = { s with slices := t.slices } ∧
      let rest := set.filter fun y => y.1 != q
      went t (if rest = [] then { sl with x := x, draw := none, winner := none, drawn := drawn, mayDraw := false }
        else { sl with x := x, draw := some rest, winner := none, drawn := drawn }))) ∧
  (∀ (w : Nat) (set : List (Nat × Nat)), w < totalTickets set → ∃ i t, set[i]? = some (pickQueue w set, t) ∧
    totalTickets (set.take i) ≤ w ∧ w < totalTickets (set.take i) + t) ∧
  (∀ (s : State) (k q : Nat) (store : Bool) (addr : DWord) (hdr : Option (List Byte)) (f : Fail),
    let sl := s.slice k
    sl.created = true → s.schedulerRuns = true → s.physCut sl.qtable = false →
    (∀ j, j < 64 → sl.overfilled.contains j = true ∨ (s.qEntry k j).full = false) → sl.winner = some q →
    s.nextRecord k q = some (store, addr, hdr) →
    (∀ y ∈ s.launches, y.2.slice = k → y.2.queue = q → y.2.store = store → y.2.teams ≤ y.2.next) →
    s.checkRecord k q (s.qEntry k q).asid store addr hdr = .error f →
    (f.remote = true → WaitsForLink (.lotteryDraw k) s (s.updSlice k fun y => { y with winner := some q }) (.draw k)) ∧
    (s.linked (.draw k) f.remote → sl.fqWait.length < 16 → ∃ t, exec (.lotteryDraw k) s = .next t ∧ t.teams = s.teams ∧ t.threads = s.threads ∧
      t.launches = s.launches ∧ (∀ j, j ≠ k → t.slice j = s.slice j) ∧ (t.slice k).winner = some q ∧
      (t.slice k).fqWait = sl.fqWait ++ [Rec.bytes { kind := 3, cause := f.cause, rem := f.remote, tnum := 0x7FF, addr := addr,
                                                     lanes := q + if store then 64 else 0 } sl.seq])) ∧
  (∀ (s : State) (team : Nat) (x : Team) (base : Nat), s.Keyed → s.team team = some x → x.preempt.isSome = true → x.ending = false →
    s.ctxSlot x.asid x.core x.slot = some base → s.slotGone x = false →
    let mine := s.threadsOf team
    ((∃ y ∈ mine, y.2.evictable = true) → ∃ t, exec (.teamSave team) s = .next t ∧ t.teams = s.teams ∧
      (∀ id b, s.thread id = some b → if b.team = team ∧ b.evictable = true then t.thread id = some { b with place := .evicted b.wakeOf }
        else ∃ a, t.thread id = some a ∧ Unmoved a b) ∧
      ∀ y, mine.filter (fun y => y.2.evictable) = [y] →
        ∃ f, f.length = 11 ∧ t.homeBytes (base + 0x50000 + 0x140 * y.2.tnum) 0x140 = threadRecord f y.2 y.2.wakeOf) ∧
    ((∀ y ∈ mine, y.2.isEvicted = true) →
      (x.saveAt = none → exec (.teamSave team) s = .next (s.updTeam team fun y => { y with saveAt := some s.now })) ∧
      (x.saveAt.isSome = true → s.spadBusy team x = false → s.lentOut team x = false → ∃ t y, exec (.teamSave team) s = .next t ∧
        t.team team = none ∧ (∀ id a, t.thread id = some a → a.team ≠ team) ∧ (∀ k, k ≠ team → t.team k = s.team k) ∧
        mfind (x.asid * 10240 + 16 * x.core + x.slot) t.saved = some y ∧ y.id = team ∧ y.threads = mine ∧ y.team.s = x.s ∧ y.team.a = x.a ∧
        (s.naming x [6] = [] → x.spadN ≤ 64 →
          (∀ j, j < x.spadN * 0x1000 → t.home (base + j) = mget 0 (spadKey x.core (x.spad0 * 0x1000) + j) s.spad) ∧
          (∀ n, n < 32 → t.homeNat (base + 0x40000 + 4 * n) 4 = (x.sreg n).toNat) ∧
          ∀ n, n < 16 → t.homeNat (base + 0x40080 + 8 * n) 8 = (x.areg n).toNat)))) ∧
  (∀ (s : State) (key : Nat) (x : Saved) (a : Alloc), s.Keyed → mfind key s.saved = some x → x.restoring ≠ [] → x.discard = [] →
    s.ownersBack x.id x.team = true → s.mates (Config.clusterOf x.team.core) x.id = [] → s.refit key x = some a →
    (∀ base, s.ctxSlot x.team.asid x.team.core x.team.slot = some base → s.restoreFails x = none →
      x.team.verdicts = [] → x.team.heldQ = [] → x.team.inService = false → (∀ y ∈ x.threads, y.2.place = .evicted none) →
      (s.cluster (Config.clusterOf a.core)).skHeld = [] →
      ∃ t y, exec (.teamRestore key) s = .next t ∧ mfind key t.saved = none ∧ t.team x.id = some y ∧ y.core = a.core ∧ y.slot = a.slot ∧
        y.spad0 = a.spad0 ∧ y.preempt = none ∧
        (∀ n, n < 32 → y.sreg n = BitVec.ofNat 32 (s.homeNat (base + 0x40000 + 4 * n) 4)) ∧
        (∀ n, n < 16 → y.areg n = BitVec.ofNat 64 (s.homeNat (base + 0x40080 + 8 * n) 8)) ∧
        ∀ z ∈ x.threads, (x.threads.filter fun y => y.1 == z.1) = [z] →
          let at_ := base + 0x50000 + 0x140 * z.2.tnum
          ∃ b, t.thread z.1 = some b ∧ b.place = .parked ∧ b.tnum = z.2.tnum ∧
            (∀ n, n < 64 → (b.reg n).val = BitVec.ofNat 32 (s.homeNat (at_ + 4 * n) 4)) ∧
            b.pc = BitVec.ofNat 57 (s.homeNat (at_ + 0x120) 8 / 2 * 2) ∧ b.p = BitVec.ofNat 8 (s.homeNat (at_ + 0x13C) 1)) ∧
    (∀ c, s.restoreFails x = some c → ∃ t y, exec (.teamRestore key) s = .next t ∧ mfind key t.saved = none ∧ t.team x.id = some y ∧
      y.ending = true ∧ (∀ id b, t.thread id = some b → b.team ≠ x.id) ∧
      let r : Rec := { kind := 2, cause := c, core := a.core, tslot := a.slot, asid := x.team.asid, tnum := 0x7FF }
      (t.slice x.team.slice).fqWait = (s.slice x.team.slice).fqWait ++ [r.bytes (s.slice x.team.slice).seq])) ∧
  (∀ (s t : State) (key : Nat) (x : Saved), s.Keyed → mfind key s.saved = some x → exec (.teamRestore key) s = .next t →
    ∀ k z, (k = key ∧ z = x) ∨ ((k, z) ∈ s.saved ∧ z.id ∈ s.mates (Config.clusterOf x.team.core) x.id) →
      z.restoring ≠ [] ∧ z.discard = [] ∧ mfind k t.saved = none ∧ (t.team z.id).isSome) ∧
  (∀ (s : State) (team : Nat) (x : Team) (at_ : Nat), s.team team = some x → x.saveAt = some at_ →
    let r : Rec := { kind := 2, cause := 0x61, write := true, core := x.core, tslot := x.slot, asid := x.asid, tnum := 0x7FF }
    ∃ t y, exec (.watchdogExpiry team) s = .next t ∧ t.now = max s.now (at_ + 1048576) ∧
      (∀ id b, t.thread id = some b → b.team ≠ team) ∧ t.team team = some y ∧ y.ending = true ∧
      t.slice x.slice = { s.slice x.slice with
        fqWait := (s.slice x.slice).fqWait ++ [r.bytes (s.slice x.slice).seq]
        seq := (s.slice x.slice).seq + 1 }) ∧
  (∀ (s : State) (team key : Nat) (y : Saved) (a : Alloc), s.team team = none → s.saved.find? (fun x => x.2.id == team) = some (key, y) →
    y.restoring ≠ [] → y.discard = [] → s.refit key y = some a →
    ∃ t z, exec (.watchdogExpiry team) s = .next t ∧ t.now = s.now + 1048576 ∧ t.team team = some z ∧ z.ending = true ∧
      ∀ id b, t.thread id = some b → b.team ≠ team) ∧
  (∀ (s : State) (team : Nat) (x : Team), s.team team = some x → x.ending = true →
    ((s.cluster (Config.clusterOf x.core)).tickets.any (fun y => y.2.team == team && !y.2.withdrawn) = true →
      ∃ t, exec (.teamEnd team) s = .next t ∧ t.teams = s.teams) ∧
    (s.teamQuiet team x = true → s.doneCut x = true → WaitsForLink (.teamEnd team) s s (.teamEnd team)) ∧
    (s.teamQuiet team x = true → s.linked (.teamEnd team) (s.doneCut x) → ∃ t, exec (.teamEnd team) s = .next t ∧ t.team team = none ∧ (∀ k, k ≠ team → t.team k = s.team k) ∧
      ∀ l, s.naming x [6] = [] → s.naming x [8] = [] → mfind x.launch s.launches = some l → recField l.hdr 0x20 8 = 0 → l.ended + 1 < l.teams →
        t.threads = s.threads ∧ (∃ y, mfind x.launch t.launches = some y ∧ y.ended = l.ended + 1 ∧ y.next = l.next) ∧
        t.slice x.slice = { s.slice x.slice with mayDraw := true } ∧ t.mem = s.mem)) ∧
  (∀ (s : State) (team key : Nat) (y : Saved), s.team team = none → s.saved.find? (fun x => x.2.id == team && !x.2.discard.isEmpty) = some (key, y) →
    s.teamQuiet team y.team = true → (s.doneCut y.team = true → WaitsForLink (.teamEnd team) s s (.teamEnd team)) ∧
    (s.linked (.teamEnd team) (s.doneCut y.team) → ∃ t, exec (.teamEnd team) s = .next t ∧ t.saved = mdel key s.saved ∧ t.teams = s.teams))

/-- R162 to R165, R221, R340, R351, R419: display registers are latched by FLIP and taken at the next boundary, encoders number their frames, and
register writes arrive while the host link is up; the trusted root starts the management cores and restarts a halted one. (That a register write
is lost while the link is down is log 51, and the length of a frame in cycles log 50, both DEDUCED.) A frame boundary takes place at its moment,
the cycle counter advanced to it (log 31, DESIGN CHOICE); a boundary, an arrival and a frame wait for a link as log 28 says (DEDUCED). What a
reset keeps, and which core is which, is log 47 (DESIGN CHOICE) and log 48 (DEDUCED). -/
def Obligations.HubEvents : Prop :=
  (∀ (s : State) (p e : Nat) (off : Nat) (w : BitVec 64),
    let d := s.disp p
    let enabled (e : Nat) : Bool := (s.hreg (0x3000 + 0x100 * e)).getLsbD 0
    (p < 8 → (s.hreg (0x2000 + 0x100 * p)).getLsbD 0 = true → s.displayRuns = true → d.fence = none →
      (s.enc (2 * p)).todo = none → (s.enc (2 * p + 1)).todo = none →
      let s1 := s.advance (d.at_ + 800000000 / d.cur.rate)
      let f := match d.pend with
        | some x => d.cur.take (s.slice p).asids x
        | none => d.cur
      s1.anyLocked (s1.entrySpan f) = false →
      (s1.anyCut (s1.entrySpan f) = true → WaitsForLink (.frameBoundary p) s s1 (.frame p)) ∧
      (s1.linked (.frame p) (s1.anyCut (s1.entrySpan f)) →
      ∃ t, exec (.frameBoundary p) s = .next t ∧ t.now = max s.now (d.at_ + 800000000 / d.cur.rate) ∧
        t.disp p = { cur := f, pend := none, frames := d.frames + 1, at_ := (mfind (Waiter.frame p).key s.waits).getD t.now,
                     fence := if d.pend.isSome && f.fence != 0 then some f.fence else none } ∧
        (∀ j, j ≠ p → t.disp j = s.disp j) ∧ (∀ j, j = 2 * p ∨ j = 2 * p + 1 → (t.enc j).todo.isSome = enabled j) ∧
        t.threads = s.threads ∧ t.teams = s1.teams)) ∧
    (∀ a, d.fence = some a → (s.enc (2 * p)).todo = none → (s.enc (2 * p + 1)).todo = none →
      let cut := s.anyCut (s.hubSpan d.cur.asid a 0 16 true)
      (cut = true → WaitsForLink (.fenceArrival p) s s (.fence p)) ∧
      (s.linked (.fence p) cut →
      ∃ t, exec (.fenceArrival p) s = .next t ∧ t.disp p = { d with fence := none } ∧ (∀ j, j ≠ p → t.disp j = s.disp j) ∧ BarsMarked s t ∧
        t.teams = s.teams)) ∧
    (∀ x, (s.enc e).todo = some x → s.displayRuns = true →
      let k := s.coding e (s.enc e) x
      let cut := s.anyCut (k.out ++ k.src)
      s.anyLocked k.out = false →
      (cut = true → WaitsForLink (.encoderFrame e) s s (.encoder e)) ∧
      (s.linked (.encoder e) cut → ∃ t, exec (.encoderFrame e) s = .next t ∧ (t.enc e).frame = (s.enc e).frame + 1 ∧
      (t.enc e).todo = none ∧ (∀ j, j ≠ e → t.enc j = s.enc j) ∧ t.threads = s.threads ∧ t.teams = s.teams)) ∧
    (s.hub.cxlUp = true →
      (p < 8 → exec (.flip p) s = .next (s.setDisp p { d with pend := some (s.frameRegs p) })) ∧
      (e < 16 → exec (.keyreq e) s = .next (s.setEnc e { s.enc e with key := true })) ∧
      exec (.registerWrite 8 w) s = .next (s.setHreg 8 w) ∧
      exec (.registerWrite 0x18 w) s = .next (s.setHreg 0x18 (w &&& 0x7FF)) ∧
      (s.hub.mail = none → ∃ t, exec (.registerWrite 0x10 1) s = .next t ∧ t = { s with hub := { s.hub with mail := t.hub.mail } } ∧
        t.hub.mail.isSome = true)) ∧
    (s.hub.cxlUp = false → exec (.registerWrite off w) s = .next s ∧ (p < 8 → exec (.flip p) s = .next s) ∧
      (e < 16 → exec (.keyreq e) s = .next s))) ∧
  (∀ (s : State) (a b : FwImage) (min k : Nat),
    let ok (i : FwImage) : Prop := i.sigValid = true ∧ min ≤ i.version
    let started (hub : Hub) : State :=
      { State.reset with agenda := s.agenda, free := s.free, mem := s.mem, psnMem := s.psnMem, hub := hub }
    let running : Map Mcore := [(0, { running := true }), (1, { running := true }), (2, { running := true }), (3, { running := true })]
    (ok a → exec (.deviceReset a b min) s = .next
      (started { minVersion := min, rootOk := true, image := 1, measured := [a.digest], mcores := running })) ∧
    (¬ ok a → ok b → exec (.deviceReset a b min) s = .next
      (started { minVersion := min, rootOk := true, image := 2, measured := [b.digest], mcores := running })) ∧
    (¬ ok a → ¬ ok b → exec (.deviceReset a b min) s = .next (started { minVersion := min })) ∧
    (k < 4 → (mget {} k s.hub.mcores).running = true →
      let past := (mget {} k s.hub.mcores).restarts.filter fun t => decide (s.now < t + 3600 * 800000000)
      let again : Bool := decide (past.length < 3) && (a.sigValid && decide (s.hub.minVersion ≤ a.version))
      let m : Mcore := { running := again, restarts := if again then past ++ [s.now] else past }
      let r : Rec := { kind := 4, cause := 0x77, tnum := 0x7FF, addr := BitVec.ofNat 64 (k + if again then 0 else 0x100) }
      let halted (i : Instr) : Prop := ∃ t, exec i s = .next t ∧ t.threads = s.threads ∧ t.teams = s.teams ∧
        t.hub = { s.hub with
          mcores := mput k m s.hub.mcores
          eccTold := if (mget {} 2 (mput k m s.hub.mcores)).running then s.hub.eccCount else s.hub.eccTold } ∧
        ∀ j, j < 8 → (t.slice j).fqWait = (s.slice j).fqWait ++ [r.bytes (s.slice j).seq]
      halted (.heartbeatMiss k a) ∧ halted (.firewallViolation k a)) ∧
    (let answers (i : Instr) (x : Spdm → Prop) : Prop := ∃ t r, exec i s = .next t ∧ x r ∧
       t = { s with hub := { s.hub with spdm := r :: s.hub.spdm }, free := t.free }
     answers .spdmVersion (· = .versions [0x12, 0x13]) ∧ answers .spdmMeasurements (· = .measurements s.hub.rootOk s.hub.measured) ∧
     answers .spdmCapabilities (∃ m, · = .capabilities m) ∧ answers .spdmCertificates (∃ m, · = .certificates m) ∧
     answers .spdmChallenge (∃ m, · = .challenge m))) ∧
  (∀ (s : State) (c : Ctx) (len : Nat), s.ctx false = some c →
    exec (.unassignedEncoding len) s = .next (s.raise c c.whole { cause := 0x01 } len))

/-- R339, R350, R414 to R416: replays take a port down, training brings it back with what waited for it, its retraining and its class 0 bound
expire in their times; the host link goes down and returns, with a notice to every slice. The expiries advance the cycle counter to their moment
(log 31), and which flit a replay is of is log 46, both DESIGN CHOICE. -/
def Obligations.LinkEvents : Prop :=
  ∀ (s : State) (k : Nat) (hp : Bool), k < 18 →
    let p := s.port k
    let told (t : State) (r : Rec) : Prop :=
      ∀ j, j < 8 → (t.slice j).fqWait = (s.slice j).fqWait ++ [r.bytes (s.slice j).seq] ∧ (t.slice j).seq = (s.slice j).seq + 1
    (p.up = true → ∃ t, exec (.flitReplay k) s = .next t ∧
      ((t.port k).replays = 1 ∨ (p.replays < 8 ∧ (t.port k).replays = p.replays + 1)) ∧ (t.port k).up = true ∧
      (∀ j, j ≠ k → t.port j = s.port j) ∧ t.threads = s.threads ∧ t.mem = s.mem) ∧
    (p.up = true → 8 ≤ p.replays → ∃ t, exec (.portDown k) s = .next t ∧ (t.port k).up = false ∧ (t.port k).failed = false ∧
      (t.port k).downAt = s.now ∧ (t.port k).replays = 0 ∧ (t.port k).bound0 = true ∧ (∀ j, j ≠ k → t.port j = s.port j) ∧
      t.threads = s.threads ∧ t.mem = s.mem) ∧
    (p.up = true → p.replays < 8 → exec (.portDown k) s = .fault .notDue) ∧
    (p.up = false → p.failed = false → s.now ≤ p.downAt + 8000000 → ∃ t, exec (.portRetrained k hp) s = .next t ∧ (t.port k).up = true ∧
      (t.port k).hardpan = hp ∧ (t.port k).downAt = s.now ∧ (∀ j, j ≠ k → t.port j = s.port j) ∧ (s.repl = [] → t.hub.contribs = []) ∧
      (∀ x ∈ t.posted, x ∈ s.posted ∧ x.pa < 2 ^ 52)) ∧
    (p.up = false → p.failed = false → ∃ t, exec (.portRetrainExpiry k) s = .next t ∧ t.port k = { p with failed := true } ∧
      t.now = max s.now (p.downAt + 8000000) ∧ (∀ j, j ≠ k → t.port j = s.port j) ∧
      t = { s.advance (p.downAt + 8000000) with hub := { s.hub with ports := t.hub.ports } }) ∧
    (p.up = true → p.bound0 = true → ∃ t, exec (.class0BoundRestored k) s = .next t ∧ t.port k = { p with bound0 := false } ∧
      t.now = max s.now (p.downAt + 800000) ∧ (∀ j, j ≠ k → t.port j = s.port j) ∧
      t = { s.advance (p.downAt + 800000) with hub := { s.hub with ports := t.hub.ports } }) ∧
    (s.hub.cxlUp = true →
      (∃ t, exec .cxlLinkDown s = .next t ∧ t.hub = { s.hub with cxlUp := false, cxlDownAt := s.now } ∧ t.mem = s.mem ∧
        t.threads = s.threads ∧ told t { kind := 4, cause := 0x74, tnum := 0x7FF, addr := 0 }) ∧
      exec .cxlFlitRetry s = .next { s with hub := { s.hub with cxlErrors := s.hub.cxlErrors + 1 } } ∧
      exec (.cxlLinkRetrained hp) s = .fault .notDue) ∧
    (s.hub.cxlUp = false → (∃ t, exec (.cxlLinkRetrained hp) s = .next t ∧ t.hub = { s.hub with cxlUp := true, cxlHardpan := hp } ∧
        (∀ x ∈ t.posted, x ∈ s.posted ∧ 2 ^ 52 ≤ x.pa) ∧ told t { kind := 4, cause := 0x74, tnum := 0x7FF, addr := 1 }) ∧
      exec .cxlLinkDown s = .fault .notDue)

/-- R341 to R346, R352, R353, R418, R421: a mailbox command that waits to be carried out takes the effect of its table and a status; a block out
of line is status 4; reserved fields are zero, or ignored in a command of a newer minor version; completion writes the status, clears the doorbell
and signals MBVEC. HARVEST clears the gathered A and D (log 26), CREATE_SLICE and RESET_SLICE drop launches and report as log 44 says, both
DEDUCED; the outcome of RETRAIN_PORT is an argument (log 46, DESIGN CHOICE). -/
def Obligations.MailboxCommands : Prop :=
  ∀ (s : State) (m : Mail), s.hub.mail = some m →
    let f (o n : Nat) : Nat := leNat ((m.blk.drop o).take n)
    let runs (i : Instr) (op : Nat) (status : Nat) (goal : State → Prop) : Prop :=
      m.status = none → m.op = op → m.arg % blockAlign op = 0 → ∃ t, exec i s = .next t ∧
        t.hub.mail = some { m with status := some status } ∧ goal t
    let exactly (u t : State) : Prop := t = u.setMail t.hub.mail
    let zero (x : Nat) : Prop := m.minor ≠ 0 ∨ x = 0
    let w := f 0 8
    (s.physCut m.arg = false → runs .version 0 0 (exactly (s.putHome m.arg (natLe 16 s.hub.offered.toNat ++ natLe 8 0x096000000001 ++ natLe 8 0)))) ∧
    (let w := BitVec.ofNat 128 (f 0 16)
     (w &&& ~~~s.hub.offered = 0 →
       runs .acceptFeatures 1 0 (exactly { s with hub := { s.hub with accepted := w, didAccept := true } })) ∧
     (w &&& ~~~s.hub.offered ≠ 0 → runs .acceptFeatures 1 3 (exactly s))) ∧
    (let k := bits w 0 3
     let log2 := bits (f 0x24 4) 0 5
     zero (bits w 3 61) → zero (bits (f 0x24 4) 5 27) → zero (f 0x28 8) →
       4 ≤ log2 → log2 ≤ 12 → f 0x20 4 ≠ 0 → f 0x18 8 % 8 = 0 → f 0x10 8 % 16 = 0 → f 8 8 % 32 = 0 →
       (s.sliceBusy k = true → runs .createSlice 2 1 (exactly s)) ∧
       (s.sliceBusy k = false → s.schedulerRuns = true → runs .createSlice 2 0 fun t =>
         t.slice k = { s.slice k with
           created := true, asids := (List.range 256).filter fun a => (m.blk.getD (0x40 + a / 8) 0).getLsbD (a % 8), qtable := f 8 8
           x := BitVec.ofNat 32 (f 0x20 4), mqBase := f 0x10 8, mqCtl := f 0x18 8, mqLog2 := log2, draw := none, winner := none
           drawn := [], mayDraw := true, overfilled := [] } ∧
         (∀ j, j ≠ k → t.slice j = s.slice j) ∧ t.hub.everSlice = true ∧ t.threads = s.threads ∧ t.teams = s.teams ∧ t.mem = s.mem)) ∧
    (let k := m.arg
     k < 8 → runs .resetSlice 3 0 fun t =>
       (∀ id x, t.team id = some x → x.slice ≠ k) ∧ (∀ id x, s.team id = some x → x.slice ≠ k → t.team id = some x) ∧
       (∀ id a, t.thread id = some a → ∀ x, s.team a.team = some x → x.slice ≠ k) ∧
       (∀ c p, p < 4 → c / 80 = k → (t.pipe c p).raft = none) ∧ (∀ x ∈ t.jobs, x.2.cluster / 10 ≠ k) ∧ (∀ x ∈ t.launches, x.2.slice = k → x.2.store = true → x.2.next = x.2.teams) ∧
       (∀ id l, mfind id s.launches = some l → (l.slice ≠ k ∨ l.store = false) → (∀ y ∈ s.teams, y.2.slice = k → y.2.launch ≠ id) →
         (∀ y ∈ s.saved, y.2.team.slice = k → y.2.team.launch ≠ id) → mfind id t.launches = some l) ∧
       (t.slice k).store = [] ∧ (t.slice k).seq = (s.slice k).seq + 1) ∧
    (zero (bits w 12 52) → zero (bits w 3 5) → zero (f 0x18 8) → 4 ≤ bits w 8 4 → bits w 8 4 ≤ 12 → f 8 8 % 64 = 0 → f 0x10 8 % 8 = 0 →
      runs .faultQueue 4 0 (exactly (s.updSlice (bits w 0 3) fun x =>
        { x with fq := true, fqRing := f 8 8, fqCtl := f 0x10 8, fqLog2 := bits w 8 4 }))) ∧
    (let asid := bits w 0 8
     let root := f 8 8
     let ctx := f 0x10 8
     zero (bits w 9 55) → zero (f 0x18 8) → root % 0x200000 = 0 → ctx % 0x1000 = 0 →
       ((∀ x ∈ s.saved, x.2.team.asid ≠ asid) ∨ mfind asid s.hub.ctx = some ctx → runs .setContext 5 0 fun t =>
         mfind asid t.hub.asids = (if w.testBit 8 then some root else none) ∧ mfind asid t.hub.ctx = some ctx ∧
         (∀ j, j ≠ asid → mfind j t.hub.asids = mfind j s.hub.asids ∧ mfind j t.hub.ctx = mfind j s.hub.ctx) ∧
         t.tlbEntries = s.tlbEntries.filter (fun e => e.asid != asid) ∧ t.threads = s.threads ∧ t.teams = s.teams) ∧
       ((∃ x ∈ s.saved, x.2.team.asid = asid) → mfind asid s.hub.ctx ≠ some ctx → runs .setContext 5 1 (exactly s))) ∧
    (∀ b, teamBlk m = some b → s.Keyed → b.byAsid = false →
      (runs .preEmpt 6 0 fun t => ∀ n ∈ b.names, ∀ id x, s.liveAt b n = some (id, x) →
        t.team id = some { x with preempt := some s.fresh }) ∧
      (runs .restore 7 0 fun t => ∀ n ∈ b.names, ∀ key, s.savedAt b n = some key →
        ∃ x, mfind key t.saved = some x ∧ s.fresh ∈ x.restoring) ∧
      (runs .endTeams 8 0 fun t => ∀ n ∈ b.names, ∀ id x, s.liveAt b n = some (id, x) →
        (∀ h a, t.thread h = some a → a.team ≠ id) ∧ ∃ y, t.team id = some y ∧ y.ending = true) ∧
      (runs .endTeams 8 0 fun t => ∀ n ∈ b.names, s.liveAt b n = none → ∀ key, s.savedAt b n = some key →
        ∃ x, mfind key t.saved = some x ∧ s.fresh ∈ x.discard)) ∧
    (let asid := bits w 8 8
     let va := f 8 8 % 2 ^ 57
     (bits w 0 2 = 0 → s.inTransit (.page asid va) = false → runs .invalidate 9 0 fun t =>
       t.tlbEntries = s.tlbEntries.filter (fun e => !e.matches asid va) ∧ t.threads = s.threads) ∧
     (bits w 0 2 = 2 → s.inTransit .all = false → runs .invalidate 9 0 fun t => t.tlbEntries = [] ∧ t.threads = s.threads) ∧
     (bits w 0 2 = 1 → s.inTransit (.asid asid) = false → runs .invalidate 9 0 fun t =>
       t.tlbEntries = s.tlbEntries.filter (fun e => e.asid != asid) ∧ t.threads = s.threads) ∧
     (bits w 0 2 = 3 → runs .invalidate 9 4 (exactly s))) ∧
    (runs .harvest 10 0 fun t => t.threads = s.threads ∧ t.teams = s.teams ∧
      t.tlbEntries = s.tlbEntries.map fun e =>
        if m.arg.testBit 8 ∨ e.asid = m.arg % 256 then { e with a := false, d := false } else e) ∧
    (let i := bits w 0 6
     let op := bits w 8 4
     (s.feature 2 = false → runs .setWindow 11 3 (exactly s)) ∧
     (s.feature 2 = true → zero (bits w 6 2) → zero (bits w 12 3) → zero (bits w 16 48) → zero (f 0x18 8) → f 8 8 % 0x1000 = 0 → f 8 8 < 2 ^ 52 →
       windowOp op = true → (w.testBit 15 = true ∨ f 0x10 8 ≠ 0 ∧ f 0x10 8 % 0x1000 = 0 ∧ ∀ x ∈ s.hub.windows, x.1 ≠ i →
         x.2.base + x.2.size ≤ f 8 8 ∨ f 8 8 + f 0x10 8 ≤ x.2.base) →
       runs .setWindow 11 0 fun t => t.threads = s.threads ∧ (∀ j, j ≠ i → mfind j t.hub.windows = mfind j s.hub.windows) ∧
         mfind i t.hub.windows = if w.testBit 15 then none else some { base := f 8 8, size := f 0x10 8, op := op })) ∧
    ((s.hub.everSlice = true → runs .domain 12 3 (exactly s)) ∧
     (s.hub.everSlice = false → zero (bits w 6 2) → zero (bits w 14 50) → zero (f 8 8) → bits w 0 6 ≤ bits w 8 6 →
       runs .domain 12 0 fun t => t.hub.npkg = bits w 8 6 + 1 ∧ t.hub.pkg = bits w 0 6 ∧ t.threads = s.threads ∧ t.teams = s.teams)) ∧
    (∀ up, (18 ≤ m.arg → runs (.retrainPort up) 13 4 (exactly s)) ∧
      (m.arg < 18 → (runs (.retrainPort true) 13 0 fun t => (t.port m.arg).up = true ∧ ∀ j, j ≠ m.arg → t.port j = s.port j) ∧
        runs (.retrainPort false) 13 3 fun t => (t.port m.arg).up = false ∧ (t.port m.arg).failed = true)) ∧
    (m.status = none → 14 ≤ m.op → exec .mailboxReservedOp s = .next (s.setMail (some { m with status := some 4 }))) ∧
    (m.status = none → m.op = 2 → m.arg % 32 ≠ 0 → exec .createSlice s = .next (s.setMail (some { m with status := some 4 }))) ∧
    (m.status = none → m.op ≠ 0 → exec .version s = .fault .notDue) ∧
    (∀ st, m.status = some st → s.physCut m.hdr = false → ∃ t, exec .mailboxCompletion s = .next t ∧ t.home (m.hdr + 6) = BitVec.ofNat 8 st ∧
      (∀ a, a ≠ m.hdr + 6 → ¬(st = 2 ∧ m.hdr ≤ a ∧ a < m.hdr + 4) → t.home a = s.home a) ∧
      (st = 2 → t.homeBytes m.hdr 4 = [0, 0, 1, 0]) ∧
      (let vec := (s.hreg 0x18).toNat % 2 ^ 11
       t.hub = { s.hub with mail := none, msi := if vec = 0x7FF then s.hub.msi else vec :: s.hub.msi }) ∧
      t.threads = s.threads ∧ t.teams = s.teams)

/-- What holds right after device reset: no team, no thread, no raft and no work of an engine; the time counter at zero (R243), the device
feature list offered and none of it accepted (R353), the register window as R340 gives it, memory and the on-chip memories unwritten; the
invariants of the model hold (logs 2 to 4 name the values that the spec leaves open). -/
def Obligations.ResetState : Prop :=
  let s := State.reset
  s.now = 0 ∧ s.threads = [] ∧ s.teams = [] ∧ (∀ c p, (s.pipe c p).raft = none) ∧ (∀ c, (s.core c).mq = [] ∧ (s.core c).spill = []) ∧
  (∀ k, (s.cluster k).leases = [] ∧ (s.cluster k).tickets = [] ∧ (s.cluster k).cursors = [] ∧ (s.cluster k).reqs = []) ∧
  (∀ k, (s.slice k).created = false ∧ (s.slice k).seq = 1) ∧ s.jobs = [] ∧ s.launches = [] ∧ s.hub.mail = none ∧
  s.hreg 0x18 = 0x7FF ∧ (∀ k, k < 8 → s.hreg (0x1008 + 0x100 * k) = 0x7FF ∧ s.hreg (0x1010 + 0x100 * k) = 0x7FF) ∧
  (∀ a, s.home a = 0) ∧ s.spad = [] ∧ s.land = [] ∧ s.acc = [] ∧ s.wbuf = [] ∧ s.hub.accepted = 0 ∧ s.hub.didAccept = false ∧
  (∀ k, s.hub.offered.getLsbD k = decide (k < 8)) ∧ s.Canon ∧ s.Keyed

/-- R201, R202, R423: when no event is asked for and the raft in turn may issue, the bytes at its address are fetched through the TLB and step
executes what they decode to, then passes the turn; a pattern that is no instruction raises 0x01, a fetch that fails its cause; a fetch from
memory that no link reaches holds the pipe and fails after 80,000 cycles (R369, R415), and one from a page that a store has locked waits (R193);
an event asked for takes place at once. That such a fetch holds the pipe and fails in that time is log 28, and that a fetch is made in the elected
thread's mode log 53, both DEDUCED; an odd address is fetched as it stands (log 80), and the order of turns and events is log 20, both DESIGN
CHOICE. -/
def Obligations.StepRunsDecoded : Prop :=
  ∀ (s : State) (c : Ctx) (g h : GAcc) (i : Instr), s.agenda = [] → s.ctx false = some c → c.pr.hold = none →
    s.forcedDue c.core c.p = false → c.pr.ready ≤ s.now →
    let u : Use := { fetch := true, sup := c.elected.th.sup }
    let at_ (s : State) (va : VAddr) : Except Fail GAcc := s.global c.who c.tm.asid (va.signExtend 64) va 1 u []
    let s1 := s.touch c.who g.tlb false
    let s2 := s1.touch c.who h.tlb false
    let b := s.readAt c.die g.loc 2
    let b2 := s1.readAt c.die h.loc 2
    let runs (i : Instr) (s : State) : Out := match exec i s with
      | .next t => .next t.passTurn
      | .fault f => .fault f
      | .refused r => .refused r
    let caught (s : State) (f : Fail) (len : Nat) : Out := .next (s.raiseOnce c c.whole { f with detail := c.pc.setWidth 64, fetch := true } len).passTurn
    (at_ s c.pc = .ok g → s.cutOff g.loc = false → s.poisonAt g.loc 2 = false → s.lockedAt g.loc = false →
      (leNat b % 2 = 0 → (decode b = .ok (i, []) → step s = runs i s1) ∧
        ∀ e, decode b = .error e → step s = runs (.unassignedEncoding 2) s1) ∧
      (leNat b % 2 = 1 → at_ s1 (c.pc + 2) = .ok h → s1.cutOff h.loc = false → s1.poisonAt h.loc 2 = false → s1.lockedAt h.loc = false →
        (decode (b ++ b2) = .ok (i, []) → step s = runs i s2) ∧
        ∀ e, decode (b ++ b2) = .error e → step s = runs (.unassignedEncoding 4) s2) ∧
      (leNat b % 2 = 1 → ∀ f, at_ s1 (c.pc + 2) = .error f → step s = caught s1 f 4)) ∧
    (∀ f, at_ s c.pc = .error f → step s = caught s f 2) ∧
    (at_ s c.pc = .ok g →
      (let since := c.pr.cutAt.getD s.now
       s.cutOff g.loc = true →
         (since + 80000 ≤ s.now → step s = caught s { cause := 0x10, park := true, remote := true } 2) ∧
         (s.now < since + 80000 → step s = .next ((s.stall c).setPipe c.core c.p
           { c.pr with start := some (c.pr.start.getD s.now), ready := s.now + 1, fixed := false, cutAt := some since }).passTurn)) ∧
      (s.cutOff g.loc = false → s.lockedAt g.loc = false → s.poisonAt g.loc 2 = true → step s = caught s { cause := 0x60 } 2) ∧
      (s.cutOff g.loc = false → s.lockedAt g.loc = true → step s = .next (s.stall c).passTurn)) ∧
    (∀ e r, isEvent e = true → step { s with agenda := e :: r } = exec e { s with agenda := r })

/-- The spec's own words decode to the instructions they stand for (R203 to R220, and the examples of each family); 0x0000 is none
(R212). -/
def Obligations.DecodeWords : Prop :=
  decodeTableWord 32 0xF68106A9 = some (.cmplt true true (.v 1) (.c 5) 3) ∧
  decodeTableWord 32 0x428404B9 = some (.sel 1 (.v 4) (.v 5) ⟨false, 2⟩) ∧
  decodeTableWord 32 0x40810407 = some (.ld .i32 1 (.v 1) 2) ∧
  decodeTableWord 32 0x123400CD = some (.trap 0x1234) ∧
  decodeTableWord 32 0x100001CF = some (.eret true) ∧
  decodeTableWord 32 0x4000045F = some (.fence .package .acq) ∧
  decodeTableWord 32 0x020006A7 = some (.cpy 4 3) ∧
  decodeTableWord 32 0x00000177 = some (.mwait false 0 0) ∧
  decodeTableWord 16 0 = none

/-- Decoding undoes encoding: every word that the encoder gives for a well-formed instruction is read back as that instruction, with what
follows it left over (R201 to R221). -/
def Obligations.DecodeEncodeRoundTrip : Prop :=
  ∀ (i : Instr) (w : BitVec 16 ⊕ BitVec 32) (rest : List Byte), i.wf = true → encode i = some w →
    decode (wordBytes w ++ rest) = .ok (i, rest)

/-- Every step keeps the form of the state: memory and the on-chip memories stay in canonical form, threads and teams keep distinct
identities, and the next identity stays above those in use, whatever instruction or event the step makes. -/
def Obligations.StepKeepsForm : Prop :=
  ∀ s t : State, s.Canon → s.Keyed → step s = .next t → t.Canon ∧ t.Keyed

end
end

