-- ==== Sys2Proof/Laws/Tables.lean ====
section
/-!
SUPPORT. What the operations on sparse tables do: reading after writing, and that the canonical form is kept.
-/

namespace Sys2Proof.Machine

variable {α : Type}

@[simp] theorem mfind_nil (k : Nat) : mfind k ([] : Map α) = none := rfl

theorem mfind_cons (k j : Nat) (x : α) (r : Map α) : mfind k ((j, x) :: r) = if j = k then some x else mfind k r := rfl

/-- Reading the key just put, in any table. -/
@[simp] theorem mfind_mput_self (k : Nat) (x : α) (m : Map α) : mfind k (mput k x m) = some x := by
  induction m with
  | nil => simp [mput, mfind_cons]
  | cons e r ih =>
    obtain ⟨i, y⟩ := e
    simp only [mput]
    split
    · simp [mfind_cons]
    · split
      · simp [mfind_cons]
      · simp [mfind_cons, *]

/-- Reading another key, in any table. -/
@[simp] theorem mfind_mput_ne {k j : Nat} (h : j ≠ k) (x : α) (m : Map α) : mfind j (mput k x m) = mfind j m := by
  induction m with
  | nil => simp [mput, mfind_cons, h.symm]
  | cons e r ih =>
    obtain ⟨i, y⟩ := e
    simp only [mput]
    split
    · subst i; simp [mfind_cons, h.symm]
    · split
      · simp [mfind_cons, h.symm]
      · simp [mfind_cons, ih]

theorem mfind_mput (k j : Nat) (x : α) (m : Map α) : mfind j (mput k x m) = if j = k then some x else mfind j m := by
  by_cases h : j = k
  · subst j; simp
  · simp [h]

@[simp] theorem mget_mput_self (d : α) (k : Nat) (x : α) (m : Map α) : mget d k (mput k x m) = x := by simp [mget]
@[simp] theorem mget_mput_ne (d : α) {k j : Nat} (h : j ≠ k) (x : α) (m : Map α) : mget d j (mput k x m) = mget d j m := by
  simp [mget, h]

@[simp] theorem mfind_mdel_self (k : Nat) (m : Map α) : mfind k (mdel k m) = none := by
  induction m with
  | nil => rfl
  | cons e r ih =>
    obtain ⟨i, y⟩ := e
    simp only [mdel]
    split
    · exact ih
    · simp [mfind_cons, *]

@[simp] theorem mfind_mdel_ne {k j : Nat} (h : j ≠ k) (m : Map α) : mfind j (mdel k m) = mfind j m := by
  induction m with
  | nil => rfl
  | cons e r ih =>
    obtain ⟨i, y⟩ := e
    simp only [mdel]
    split
    · subst i; simp [mfind_cons, h.symm, ih]
    · simp [mfind_cons, ih]

section
variable [DecidableEq α]

@[simp] theorem mget_mputD_self (d : α) (k : Nat) (x : α) (m : Map α) : mget d k (mputD d k x m) = x := by
  unfold mputD; split
  · simp [mget, *]
  · simp

@[simp] theorem mget_mputD_ne (d : α) {k j : Nat} (h : j ≠ k) (x : α) (m : Map α) :
    mget d j (mputD d k x m) = mget d j m := by
  unfold mputD; split <;> simp [mget, h]

/-- Reading after a write of consecutive cells. -/
theorem mget_mputs (d : α) (j k : Nat) (xs : List α) (m : Map α) :
    mget d j (mputs d k xs m) = if k ≤ j ∧ j < k + xs.length then xs.getD (j - k) d else mget d j m := by
  induction xs generalizing k m with
  | nil => rw [mputs, if_neg (by simp only [List.length_nil]; omega)]
  | cons x r ih =>
    simp only [mputs, ih, List.length_cons]
    by_cases h1 : j = k
    · subst j; rw [if_neg (by omega), if_pos (by omega)]; simp
    · by_cases h2 : k + 1 ≤ j ∧ j < k + 1 + r.length
      · rw [if_pos h2, if_pos (by omega), show j - k = (j - (k + 1)) + 1 by omega]; simp
      · rw [if_neg h2, if_neg (by omega), mget_mputD_ne _ h1]

/-- Cells outside those written read as before. -/
theorem mget_mputs_out (d : α) {j k : Nat} (xs : List α) (m : Map α) (h : j < k ∨ k + xs.length ≤ j) :
    mget d j (mputs d k xs m) = mget d j m := by
  rw [mget_mputs, if_neg (by omega)]

end

theorem msorted_mono {lo lo' : Nat} (h : lo' ≤ lo) (m : Map α) (hm : msorted lo m = true) : msorted lo' m = true := by
  cases m with
  | nil => rfl
  | cons e r =>
    simp only [msorted, Bool.and_eq_true, decide_eq_true_eq] at hm ⊢
    exact ⟨by omega, hm.2⟩

theorem msorted_mput (lo k : Nat) (x : α) (m : Map α) (hk : lo ≤ k) (h : msorted lo m = true) :
    msorted lo (mput k x m) = true := by
  induction m generalizing lo with
  | nil => simp [mput, msorted, hk]
  | cons e r ih =>
    obtain ⟨i, y⟩ := e
    simp only [msorted, Bool.and_eq_true, decide_eq_true_eq] at h
    simp only [mput]
    split
    · subst i; simpa [msorted, hk] using h.2
    · split
      · simp only [msorted, Bool.and_eq_true, decide_eq_true_eq]
        exact ⟨hk, by omega, h.2⟩
      · simp only [msorted, Bool.and_eq_true, decide_eq_true_eq]
        exact ⟨h.1, ih _ (by omega) h.2⟩

theorem msorted_mdel (lo k : Nat) (m : Map α) (h : msorted lo m = true) : msorted lo (mdel k m) = true := by
  induction m generalizing lo with
  | nil => rfl
  | cons e r ih =>
    obtain ⟨i, y⟩ := e
    simp only [msorted, Bool.and_eq_true, decide_eq_true_eq] at h
    simp only [mdel]
    split
    · exact msorted_mono (by omega) _ (ih _ h.2)
    · simp only [msorted, Bool.and_eq_true, decide_eq_true_eq]
      exact ⟨h.1, ih _ h.2⟩

theorem msorted_filter (f : Nat → α → Bool) (lo : Nat) (m : Map α) (h : msorted lo m = true) :
    msorted lo (mfilter f m) = true := by
  induction m generalizing lo with
  | nil => rfl
  | cons e r ih =>
    obtain ⟨i, y⟩ := e
    simp only [msorted, Bool.and_eq_true, decide_eq_true_eq] at h
    simp only [mfilter, List.filter_cons]
    split
    · simp only [msorted, Bool.and_eq_true, decide_eq_true_eq]
      exact ⟨h.1, ih _ h.2⟩
    · exact msorted_mono (by omega) _ (ih _ h.2)

theorem all_mput (p : Nat × α → Bool) (k : Nat) (x : α) (m : Map α) (hx : p (k, x) = true) (h : m.all p = true) :
    (mput k x m).all p = true := by
  induction m with
  | nil => simp [mput, hx]
  | cons e r ih =>
    obtain ⟨i, y⟩ := e
    simp only [List.all_cons, Bool.and_eq_true] at h
    simp only [mput]
    split
    · simp [hx]; simpa using h.2
    · split
      · simp only [List.all_cons, Bool.and_eq_true]; exact ⟨hx, h⟩
      · simp only [List.all_cons, Bool.and_eq_true]; exact ⟨h.1, ih h.2⟩

theorem all_mdel (p : Nat × α → Bool) (k : Nat) (m : Map α) (h : m.all p = true) : (mdel k m).all p = true := by
  induction m with
  | nil => rfl
  | cons e r ih =>
    obtain ⟨i, y⟩ := e
    simp only [List.all_cons, Bool.and_eq_true] at h
    simp only [mdel]
    split
    · exact ih h.2
    · simp only [List.all_cons, Bool.and_eq_true]; exact ⟨h.1, ih h.2⟩

section
variable [DecidableEq α]

@[simp] theorem mwf_nil (d : α) : mwf d ([] : Map α) = true := rfl

theorem mwf_mputD (d : α) (k : Nat) (x : α) (m : Map α) (h : mwf d m = true) : mwf d (mputD d k x m) = true := by
  simp only [mwf, Bool.and_eq_true] at h ⊢
  unfold mputD
  split
  · exact ⟨msorted_mdel _ _ _ h.1, all_mdel _ _ _ h.2⟩
  · exact ⟨msorted_mput _ _ _ _ (Nat.zero_le _) h.1, all_mput _ _ _ _ (by simpa using ‹_›) h.2⟩

theorem mwf_mputs (d : α) (k : Nat) (xs : List α) (m : Map α) (h : mwf d m = true) : mwf d (mputs d k xs m) = true := by
  induction xs generalizing k m with
  | nil => exact h
  | cons x r ih => exact ih _ _ (mwf_mputD _ _ _ _ h)

theorem mwf_mfilter (d : α) (f : Nat → α → Bool) (m : Map α) (h : mwf d m = true) : mwf d (mfilter f m) = true := by
  simp only [mwf, Bool.and_eq_true] at h ⊢
  refine ⟨msorted_filter _ _ _ h.1, ?_⟩
  simp only [mfilter, List.all_eq_true] at h ⊢
  exact fun e he => h.2 e (List.mem_filter.1 he).1

theorem mwf_mclear (d : α) (k n : Nat) (m : Map α) (h : mwf d m = true) : mwf d (mclear k n m) = true := mwf_mfilter _ _ _ h

/-- Tables in canonical form that read alike are the same data. -/
theorem mwf_ext (d : α) (m m' : Map α) (h : mwf d m = true) (h' : mwf d m' = true) (e : ∀ k, mget d k m = mget d k m') :
    m = m' := by
  suffices H : ∀ (m m' : Map α) lo, msorted lo m = true → (m.all fun e => e.2 != d) = true →
      msorted lo m' = true → (m'.all fun e => e.2 != d) = true → (∀ k, mget d k m = mget d k m') → m = m' by
    simp only [mwf, Bool.and_eq_true] at h h'
    exact H m m' 0 h.1 h.2 h'.1 h'.2 e
  clear h h' e m m'
  have low : ∀ (m : Map α) lo, msorted lo m = true → ∀ k, k < lo → mfind k m = none := by
    intro m
    induction m with
    | nil => intros; rfl
    | cons e r ih =>
      obtain ⟨i, y⟩ := e
      intro lo h k hk
      simp only [msorted, Bool.and_eq_true, decide_eq_true_eq] at h
      rw [mfind_cons, if_neg (by omega), ih _ h.2 _ (by omega)]
  intro m
  induction m with
  | nil =>
    intro m' lo _ _ h' n' e
    cases m' with
    | nil => rfl
    | cons a r =>
      obtain ⟨i, y⟩ := a
      have := e i
      simp [mget, mfind_cons] at this
      simp [this] at n'
  | cons a r ih =>
    obtain ⟨i, y⟩ := a
    intro m' lo h n h' n' e
    simp only [msorted, Bool.and_eq_true, decide_eq_true_eq] at h
    simp only [List.all_cons, Bool.and_eq_true, bne_iff_ne] at n
    cases m' with
    | nil =>
      have := e i
      simp [mget, mfind_cons] at this
      exact absurd this n.1
    | cons b r' =>
      obtain ⟨j, z⟩ := b
      simp only [msorted, Bool.and_eq_true, decide_eq_true_eq] at h'
      simp only [List.all_cons, Bool.and_eq_true, bne_iff_ne] at n'
      have hij : i = j := by
        rcases Nat.lt_trichotomy i j with c | c | c
        · have := e i
          rw [mget, mget, mfind_cons, if_pos rfl, mfind_cons, if_neg (by omega), low _ _ h'.2 _ (by omega)] at this
          exact absurd this n.1
        · exact c
        · have := e j
          rw [mget, mget, mfind_cons, if_neg (by omega), mfind_cons, if_pos rfl, low _ _ h.2 _ (by omega)] at this
          exact absurd this.symm n'.1
      subst j
      have hy : y = z := by simpa [mget, mfind_cons] using e i
      subst z
      congr 1
      refine ih r' (i + 1) h.2 n.2 h'.2 n'.2 fun k => ?_
      by_cases hk : k ≤ i
      · rw [mget, mget, low _ _ h.2 _ (by omega), low _ _ h'.2 _ (by omega)]
      · have := e k
        simpa [mget, mfind_cons, show ¬ i = k by omega] using this

end

@[simp] theorem mfind_mmap (k : Nat) (f : Nat → α → α) (m : Map α) : mfind k (mmap f m) = (mfind k m).map (f k) := by
  induction m with
  | nil => rfl
  | cons e r ih =>
    obtain ⟨i, y⟩ := e
    simp only [mmap, mfind_cons]
    split
    · subst i; rfl
    · exact ih

@[simp] theorem mfind_mupd_self (k : Nat) (f : α → α) (m : Map α) : mfind k (mupd k f m) = (mfind k m).map f := by
  simp [mupd]

@[simp] theorem mfind_mupd_ne {k j : Nat} (h : j ≠ k) (f : α → α) (m : Map α) : mfind j (mupd k f m) = mfind j m := by
  simp [mupd, h]

/-- Little-endian bytes: their number is the value they were made of (R10). -/
theorem leNat_natLe (n x : Nat) : leNat (natLe n x) = x % 256 ^ n := by
  induction n generalizing x with
  | zero => simp [natLe, leNat, Nat.mod_one]
  | succ n ih =>
    simp only [natLe, leNat, ih, BitVec.toNat_ofNat, Nat.pow_succ']
    exact (Nat.mod_mul (x := x) (a := 256) (b := 256 ^ n)).symm

@[simp] theorem length_natLe (n x : Nat) : (natLe n x).length = n := by
  induction n generalizing x with
  | zero => rfl
  | succ n ih => simp [natLe, ih]

end Sys2Proof.Machine
end

