-- ==== Sys2Proof/Laws/State.lean ====
section
/-!
SUPPORT. What each basic update of the state does to each field, so that no proof unfolds a record update; and reading a unit
after changing it.
-/

namespace Sys2Proof.Machine

@[simp] theorem State.updCore_now (s : State) (c : Nat) (f : Core → Core) : (s.updCore c f).now = s.now := rfl
@[simp] theorem State.updCore_agenda (s : State) (c : Nat) (f : Core → Core) : (s.updCore c f).agenda = s.agenda := rfl
@[simp] theorem State.updCore_turn (s : State) (c : Nat) (f : Core → Core) : (s.updCore c f).turn = s.turn := rfl
@[simp] theorem State.updCore_free (s : State) (c : Nat) (f : Core → Core) : (s.updCore c f).free = s.free := rfl
@[simp] theorem State.updCore_fresh (s : State) (c : Nat) (f : Core → Core) : (s.updCore c f).fresh = s.fresh := rfl
@[simp] theorem State.updCore_threads (s : State) (c : Nat) (f : Core → Core) : (s.updCore c f).threads = s.threads := rfl
@[simp] theorem State.updCore_teams (s : State) (c : Nat) (f : Core → Core) : (s.updCore c f).teams = s.teams := rfl
@[simp] theorem State.updCore_pipes (s : State) (c : Nat) (f : Core → Core) : (s.updCore c f).pipes = s.pipes := rfl
@[simp] theorem State.updCore_cores (s : State) (c : Nat) (f : Core → Core) : (s.updCore c f).cores = mput c (f (s.core c)) s.cores := rfl
@[simp] theorem State.updCore_clusters (s : State) (c : Nat) (f : Core → Core) : (s.updCore c f).clusters = s.clusters := rfl
@[simp] theorem State.updCore_slices (s : State) (c : Nat) (f : Core → Core) : (s.updCore c f).slices = s.slices := rfl
@[simp] theorem State.updCore_jobs (s : State) (c : Nat) (f : Core → Core) : (s.updCore c f).jobs = s.jobs := rfl
@[simp] theorem State.updCore_launches (s : State) (c : Nat) (f : Core → Core) : (s.updCore c f).launches = s.launches := rfl
@[simp] theorem State.updCore_saved (s : State) (c : Nat) (f : Core → Core) : (s.updCore c f).saved = s.saved := rfl
@[simp] theorem State.updCore_requests (s : State) (c : Nat) (f : Core → Core) : (s.updCore c f).requests = s.requests := rfl
@[simp] theorem State.updCore_colls (s : State) (c : Nat) (f : Core → Core) : (s.updCore c f).colls = s.colls := rfl
@[simp] theorem State.updCore_spad (s : State) (c : Nat) (f : Core → Core) : (s.updCore c f).spad = s.spad := rfl
@[simp] theorem State.updCore_land (s : State) (c : Nat) (f : Core → Core) : (s.updCore c f).land = s.land := rfl
@[simp] theorem State.updCore_acc (s : State) (c : Nat) (f : Core → Core) : (s.updCore c f).acc = s.acc := rfl
@[simp] theorem State.updCore_wbuf (s : State) (c : Nat) (f : Core → Core) : (s.updCore c f).wbuf = s.wbuf := rfl
@[simp] theorem State.updCore_accTag (s : State) (c : Nat) (f : Core → Core) : (s.updCore c f).accTag = s.accTag := rfl
@[simp] theorem State.updCore_wbTag (s : State) (c : Nat) (f : Core → Core) : (s.updCore c f).wbTag = s.wbTag := rfl
@[simp] theorem State.updCore_mem (s : State) (c : Nat) (f : Core → Core) : (s.updCore c f).mem = s.mem := rfl
@[simp] theorem State.updCore_stale (s : State) (c : Nat) (f : Core → Core) : (s.updCore c f).stale = s.stale := rfl
@[simp] theorem State.updCore_lag (s : State) (c : Nat) (f : Core → Core) : (s.updCore c f).lag = s.lag := rfl
@[simp] theorem State.updCore_vc (s : State) (c : Nat) (f : Core → Core) : (s.updCore c f).vc = s.vc := rfl
@[simp] theorem State.updCore_repl (s : State) (c : Nat) (f : Core → Core) : (s.updCore c f).repl = s.repl := rfl
@[simp] theorem State.updCore_dropped (s : State) (c : Nat) (f : Core → Core) : (s.updCore c f).dropped = s.dropped := rfl
@[simp] theorem State.updCore_posted (s : State) (c : Nat) (f : Core → Core) : (s.updCore c f).posted = s.posted := rfl
@[simp] theorem State.updCore_psnMem (s : State) (c : Nat) (f : Core → Core) : (s.updCore c f).psnMem = s.psnMem := rfl
@[simp] theorem State.updCore_psnSpad (s : State) (c : Nat) (f : Core → Core) : (s.updCore c f).psnSpad = s.psnSpad := rfl
@[simp] theorem State.updCore_psnLand (s : State) (c : Nat) (f : Core → Core) : (s.updCore c f).psnLand = s.psnLand := rfl
@[simp] theorem State.updCore_psnAcc (s : State) (c : Nat) (f : Core → Core) : (s.updCore c f).psnAcc = s.psnAcc := rfl
@[simp] theorem State.updCore_psnWb (s : State) (c : Nat) (f : Core → Core) : (s.updCore c f).psnWb = s.psnWb := rfl
@[simp] theorem State.updCore_psnTag (s : State) (c : Nat) (f : Core → Core) : (s.updCore c f).psnTag = s.psnTag := rfl
@[simp] theorem State.updCore_tlb1 (s : State) (c : Nat) (f : Core → Core) : (s.updCore c f).tlb1 = s.tlb1 := rfl
@[simp] theorem State.updCore_l1 (s : State) (c : Nat) (f : Core → Core) : (s.updCore c f).l1 = s.l1 := rfl
@[simp] theorem State.updCore_llc (s : State) (c : Nat) (f : Core → Core) : (s.updCore c f).llc = s.llc := rfl
@[simp] theorem State.updCore_waits (s : State) (c : Nat) (f : Core → Core) : (s.updCore c f).waits = s.waits := rfl
@[simp] theorem State.updCore_tlb2 (s : State) (c : Nat) (f : Core → Core) : (s.updCore c f).tlb2 = s.tlb2 := rfl
@[simp] theorem State.updCore_hub (s : State) (c : Nat) (f : Core → Core) : (s.updCore c f).hub = s.hub := rfl

@[simp] theorem State.setPipe_now (s : State) (c p : Nat) (x : Pipe) : (s.setPipe c p x).now = s.now := rfl
@[simp] theorem State.setPipe_agenda (s : State) (c p : Nat) (x : Pipe) : (s.setPipe c p x).agenda = s.agenda := rfl
@[simp] theorem State.setPipe_turn (s : State) (c p : Nat) (x : Pipe) : (s.setPipe c p x).turn = s.turn := rfl
@[simp] theorem State.setPipe_free (s : State) (c p : Nat) (x : Pipe) : (s.setPipe c p x).free = s.free := rfl
@[simp] theorem State.setPipe_fresh (s : State) (c p : Nat) (x : Pipe) : (s.setPipe c p x).fresh = s.fresh := rfl
@[simp] theorem State.setPipe_threads (s : State) (c p : Nat) (x : Pipe) : (s.setPipe c p x).threads = s.threads := rfl
@[simp] theorem State.setPipe_teams (s : State) (c p : Nat) (x : Pipe) : (s.setPipe c p x).teams = s.teams := rfl
@[simp] theorem State.setPipe_pipes (s : State) (c p : Nat) (x : Pipe) : (s.setPipe c p x).pipes = mput (4 * c + p) x s.pipes := rfl
@[simp] theorem State.setPipe_cores (s : State) (c p : Nat) (x : Pipe) : (s.setPipe c p x).cores = s.cores := rfl
@[simp] theorem State.setPipe_clusters (s : State) (c p : Nat) (x : Pipe) : (s.setPipe c p x).clusters = s.clusters := rfl
@[simp] theorem State.setPipe_slices (s : State) (c p : Nat) (x : Pipe) : (s.setPipe c p x).slices = s.slices := rfl
@[simp] theorem State.setPipe_jobs (s : State) (c p : Nat) (x : Pipe) : (s.setPipe c p x).jobs = s.jobs := rfl
@[simp] theorem State.setPipe_launches (s : State) (c p : Nat) (x : Pipe) : (s.setPipe c p x).launches = s.launches := rfl
@[simp] theorem State.setPipe_saved (s : State) (c p : Nat) (x : Pipe) : (s.setPipe c p x).saved = s.saved := rfl
@[simp] theorem State.setPipe_requests (s : State) (c p : Nat) (x : Pipe) : (s.setPipe c p x).requests = s.requests := rfl
@[simp] theorem State.setPipe_colls (s : State) (c p : Nat) (x : Pipe) : (s.setPipe c p x).colls = s.colls := rfl
@[simp] theorem State.setPipe_spad (s : State) (c p : Nat) (x : Pipe) : (s.setPipe c p x).spad = s.spad := rfl
@[simp] theorem State.setPipe_land (s : State) (c p : Nat) (x : Pipe) : (s.setPipe c p x).land = s.land := rfl
@[simp] theorem State.setPipe_acc (s : State) (c p : Nat) (x : Pipe) : (s.setPipe c p x).acc = s.acc := rfl
@[simp] theorem State.setPipe_wbuf (s : State) (c p : Nat) (x : Pipe) : (s.setPipe c p x).wbuf = s.wbuf := rfl
@[simp] theorem State.setPipe_accTag (s : State) (c p : Nat) (x : Pipe) : (s.setPipe c p x).accTag = s.accTag := rfl
@[simp] theorem State.setPipe_wbTag (s : State) (c p : Nat) (x : Pipe) : (s.setPipe c p x).wbTag = s.wbTag := rfl
@[simp] theorem State.setPipe_mem (s : State) (c p : Nat) (x : Pipe) : (s.setPipe c p x).mem = s.mem := rfl
@[simp] theorem State.setPipe_stale (s : State) (c p : Nat) (x : Pipe) : (s.setPipe c p x).stale = s.stale := rfl
@[simp] theorem State.setPipe_lag (s : State) (c p : Nat) (x : Pipe) : (s.setPipe c p x).lag = s.lag := rfl
@[simp] theorem State.setPipe_vc (s : State) (c p : Nat) (x : Pipe) : (s.setPipe c p x).vc = s.vc := rfl
@[simp] theorem State.setPipe_repl (s : State) (c p : Nat) (x : Pipe) : (s.setPipe c p x).repl = s.repl := rfl
@[simp] theorem State.setPipe_dropped (s : State) (c p : Nat) (x : Pipe) : (s.setPipe c p x).dropped = s.dropped := rfl
@[simp] theorem State.setPipe_posted (s : State) (c p : Nat) (x : Pipe) : (s.setPipe c p x).posted = s.posted := rfl
@[simp] theorem State.setPipe_psnMem (s : State) (c p : Nat) (x : Pipe) : (s.setPipe c p x).psnMem = s.psnMem := rfl
@[simp] theorem State.setPipe_psnSpad (s : State) (c p : Nat) (x : Pipe) : (s.setPipe c p x).psnSpad = s.psnSpad := rfl
@[simp] theorem State.setPipe_psnLand (s : State) (c p : Nat) (x : Pipe) : (s.setPipe c p x).psnLand = s.psnLand := rfl
@[simp] theorem State.setPipe_psnAcc (s : State) (c p : Nat) (x : Pipe) : (s.setPipe c p x).psnAcc = s.psnAcc := rfl
@[simp] theorem State.setPipe_psnWb (s : State) (c p : Nat) (x : Pipe) : (s.setPipe c p x).psnWb = s.psnWb := rfl
@[simp] theorem State.setPipe_psnTag (s : State) (c p : Nat) (x : Pipe) : (s.setPipe c p x).psnTag = s.psnTag := rfl
@[simp] theorem State.setPipe_tlb1 (s : State) (c p : Nat) (x : Pipe) : (s.setPipe c p x).tlb1 = s.tlb1 := rfl
@[simp] theorem State.setPipe_l1 (s : State) (c p : Nat) (x : Pipe) : (s.setPipe c p x).l1 = s.l1 := rfl
@[simp] theorem State.setPipe_llc (s : State) (c p : Nat) (x : Pipe) : (s.setPipe c p x).llc = s.llc := rfl
@[simp] theorem State.setPipe_waits (s : State) (c p : Nat) (x : Pipe) : (s.setPipe c p x).waits = s.waits := rfl
@[simp] theorem State.setPipe_tlb2 (s : State) (c p : Nat) (x : Pipe) : (s.setPipe c p x).tlb2 = s.tlb2 := rfl
@[simp] theorem State.setPipe_hub (s : State) (c p : Nat) (x : Pipe) : (s.setPipe c p x).hub = s.hub := rfl

@[simp] theorem State.updCluster_now (s : State) (k : Nat) (f : Cluster → Cluster) : (s.updCluster k f).now = s.now := rfl
@[simp] theorem State.updCluster_agenda (s : State) (k : Nat) (f : Cluster → Cluster) : (s.updCluster k f).agenda = s.agenda := rfl
@[simp] theorem State.updCluster_turn (s : State) (k : Nat) (f : Cluster → Cluster) : (s.updCluster k f).turn = s.turn := rfl
@[simp] theorem State.updCluster_free (s : State) (k : Nat) (f : Cluster → Cluster) : (s.updCluster k f).free = s.free := rfl
@[simp] theorem State.updCluster_fresh (s : State) (k : Nat) (f : Cluster → Cluster) : (s.updCluster k f).fresh = s.fresh := rfl
@[simp] theorem State.updCluster_threads (s : State) (k : Nat) (f : Cluster → Cluster) : (s.updCluster k f).threads = s.threads := rfl
@[simp] theorem State.updCluster_teams (s : State) (k : Nat) (f : Cluster → Cluster) : (s.updCluster k f).teams = s.teams := rfl
@[simp] theorem State.updCluster_pipes (s : State) (k : Nat) (f : Cluster → Cluster) : (s.updCluster k f).pipes = s.pipes := rfl
@[simp] theorem State.updCluster_cores (s : State) (k : Nat) (f : Cluster → Cluster) : (s.updCluster k f).cores = s.cores := rfl
@[simp] theorem State.updCluster_clusters (s : State) (k : Nat) (f : Cluster → Cluster) : (s.updCluster k f).clusters = mput k (f (s.cluster k)) s.clusters := rfl
@[simp] theorem State.updCluster_slices (s : State) (k : Nat) (f : Cluster → Cluster) : (s.updCluster k f).slices = s.slices := rfl
@[simp] theorem State.updCluster_jobs (s : State) (k : Nat) (f : Cluster → Cluster) : (s.updCluster k f).jobs = s.jobs := rfl
@[simp] theorem State.updCluster_launches (s : State) (k : Nat) (f : Cluster → Cluster) : (s.updCluster k f).launches = s.launches := rfl
@[simp] theorem State.updCluster_saved (s : State) (k : Nat) (f : Cluster → Cluster) : (s.updCluster k f).saved = s.saved := rfl
@[simp] theorem State.updCluster_requests (s : State) (k : Nat) (f : Cluster → Cluster) : (s.updCluster k f).requests = s.requests := rfl
@[simp] theorem State.updCluster_colls (s : State) (k : Nat) (f : Cluster → Cluster) : (s.updCluster k f).colls = s.colls := rfl
@[simp] theorem State.updCluster_spad (s : State) (k : Nat) (f : Cluster → Cluster) : (s.updCluster k f).spad = s.spad := rfl
@[simp] theorem State.updCluster_land (s : State) (k : Nat) (f : Cluster → Cluster) : (s.updCluster k f).land = s.land := rfl
@[simp] theorem State.updCluster_acc (s : State) (k : Nat) (f : Cluster → Cluster) : (s.updCluster k f).acc = s.acc := rfl
@[simp] theorem State.updCluster_wbuf (s : State) (k : Nat) (f : Cluster → Cluster) : (s.updCluster k f).wbuf = s.wbuf := rfl
@[simp] theorem State.updCluster_accTag (s : State) (k : Nat) (f : Cluster → Cluster) : (s.updCluster k f).accTag = s.accTag := rfl
@[simp] theorem State.updCluster_wbTag (s : State) (k : Nat) (f : Cluster → Cluster) : (s.updCluster k f).wbTag = s.wbTag := rfl
@[simp] theorem State.updCluster_mem (s : State) (k : Nat) (f : Cluster → Cluster) : (s.updCluster k f).mem = s.mem := rfl
@[simp] theorem State.updCluster_stale (s : State) (k : Nat) (f : Cluster → Cluster) : (s.updCluster k f).stale = s.stale := rfl
@[simp] theorem State.updCluster_lag (s : State) (k : Nat) (f : Cluster → Cluster) : (s.updCluster k f).lag = s.lag := rfl
@[simp] theorem State.updCluster_vc (s : State) (k : Nat) (f : Cluster → Cluster) : (s.updCluster k f).vc = s.vc := rfl
@[simp] theorem State.updCluster_repl (s : State) (k : Nat) (f : Cluster → Cluster) : (s.updCluster k f).repl = s.repl := rfl
@[simp] theorem State.updCluster_dropped (s : State) (k : Nat) (f : Cluster → Cluster) : (s.updCluster k f).dropped = s.dropped := rfl
@[simp] theorem State.updCluster_posted (s : State) (k : Nat) (f : Cluster → Cluster) : (s.updCluster k f).posted = s.posted := rfl
@[simp] theorem State.updCluster_psnMem (s : State) (k : Nat) (f : Cluster → Cluster) : (s.updCluster k f).psnMem = s.psnMem := rfl
@[simp] theorem State.updCluster_psnSpad (s : State) (k : Nat) (f : Cluster → Cluster) : (s.updCluster k f).psnSpad = s.psnSpad := rfl
@[simp] theorem State.updCluster_psnLand (s : State) (k : Nat) (f : Cluster → Cluster) : (s.updCluster k f).psnLand = s.psnLand := rfl
@[simp] theorem State.updCluster_psnAcc (s : State) (k : Nat) (f : Cluster → Cluster) : (s.updCluster k f).psnAcc = s.psnAcc := rfl
@[simp] theorem State.updCluster_psnWb (s : State) (k : Nat) (f : Cluster → Cluster) : (s.updCluster k f).psnWb = s.psnWb := rfl
@[simp] theorem State.updCluster_psnTag (s : State) (k : Nat) (f : Cluster → Cluster) : (s.updCluster k f).psnTag = s.psnTag := rfl
@[simp] theorem State.updCluster_tlb1 (s : State) (k : Nat) (f : Cluster → Cluster) : (s.updCluster k f).tlb1 = s.tlb1 := rfl
@[simp] theorem State.updCluster_l1 (s : State) (k : Nat) (f : Cluster → Cluster) : (s.updCluster k f).l1 = s.l1 := rfl
@[simp] theorem State.updCluster_llc (s : State) (k : Nat) (f : Cluster → Cluster) : (s.updCluster k f).llc = s.llc := rfl
@[simp] theorem State.updCluster_waits (s : State) (k : Nat) (f : Cluster → Cluster) : (s.updCluster k f).waits = s.waits := rfl
@[simp] theorem State.updCluster_tlb2 (s : State) (k : Nat) (f : Cluster → Cluster) : (s.updCluster k f).tlb2 = s.tlb2 := rfl
@[simp] theorem State.updCluster_hub (s : State) (k : Nat) (f : Cluster → Cluster) : (s.updCluster k f).hub = s.hub := rfl

@[simp] theorem State.updSlice_now (s : State) (k : Nat) (f : Slice → Slice) : (s.updSlice k f).now = s.now := rfl
@[simp] theorem State.updSlice_agenda (s : State) (k : Nat) (f : Slice → Slice) : (s.updSlice k f).agenda = s.agenda := rfl
@[simp] theorem State.updSlice_turn (s : State) (k : Nat) (f : Slice → Slice) : (s.updSlice k f).turn = s.turn := rfl
@[simp] theorem State.updSlice_free (s : State) (k : Nat) (f : Slice → Slice) : (s.updSlice k f).free = s.free := rfl
@[simp] theorem State.updSlice_fresh (s : State) (k : Nat) (f : Slice → Slice) : (s.updSlice k f).fresh = s.fresh := rfl
@[simp] theorem State.updSlice_threads (s : State) (k : Nat) (f : Slice → Slice) : (s.updSlice k f).threads = s.threads := rfl
@[simp] theorem State.updSlice_teams (s : State) (k : Nat) (f : Slice → Slice) : (s.updSlice k f).teams = s.teams := rfl
@[simp] theorem State.updSlice_pipes (s : State) (k : Nat) (f : Slice → Slice) : (s.updSlice k f).pipes = s.pipes := rfl
@[simp] theorem State.updSlice_cores (s : State) (k : Nat) (f : Slice → Slice) : (s.updSlice k f).cores = s.cores := rfl
@[simp] theorem State.updSlice_clusters (s : State) (k : Nat) (f : Slice → Slice) : (s.updSlice k f).clusters = s.clusters := rfl
@[simp] theorem State.updSlice_slices (s : State) (k : Nat) (f : Slice → Slice) : (s.updSlice k f).slices = mput k (f (s.slice k)) s.slices := rfl
@[simp] theorem State.updSlice_jobs (s : State) (k : Nat) (f : Slice → Slice) : (s.updSlice k f).jobs = s.jobs := rfl
@[simp] theorem State.updSlice_launches (s : State) (k : Nat) (f : Slice → Slice) : (s.updSlice k f).launches = s.launches := rfl
@[simp] theorem State.updSlice_saved (s : State) (k : Nat) (f : Slice → Slice) : (s.updSlice k f).saved = s.saved := rfl
@[simp] theorem State.updSlice_requests (s : State) (k : Nat) (f : Slice → Slice) : (s.updSlice k f).requests = s.requests := rfl
@[simp] theorem State.updSlice_colls (s : State) (k : Nat) (f : Slice → Slice) : (s.updSlice k f).colls = s.colls := rfl
@[simp] theorem State.updSlice_spad (s : State) (k : Nat) (f : Slice → Slice) : (s.updSlice k f).spad = s.spad := rfl
@[simp] theorem State.updSlice_land (s : State) (k : Nat) (f : Slice → Slice) : (s.updSlice k f).land = s.land := rfl
@[simp] theorem State.updSlice_acc (s : State) (k : Nat) (f : Slice → Slice) : (s.updSlice k f).acc = s.acc := rfl
@[simp] theorem State.updSlice_wbuf (s : State) (k : Nat) (f : Slice → Slice) : (s.updSlice k f).wbuf = s.wbuf := rfl
@[simp] theorem State.updSlice_accTag (s : State) (k : Nat) (f : Slice → Slice) : (s.updSlice k f).accTag = s.accTag := rfl
@[simp] theorem State.updSlice_wbTag (s : State) (k : Nat) (f : Slice → Slice) : (s.updSlice k f).wbTag = s.wbTag := rfl
@[simp] theorem State.updSlice_mem (s : State) (k : Nat) (f : Slice → Slice) : (s.updSlice k f).mem = s.mem := rfl
@[simp] theorem State.updSlice_stale (s : State) (k : Nat) (f : Slice → Slice) : (s.updSlice k f).stale = s.stale := rfl
@[simp] theorem State.updSlice_lag (s : State) (k : Nat) (f : Slice → Slice) : (s.updSlice k f).lag = s.lag := rfl
@[simp] theorem State.updSlice_vc (s : State) (k : Nat) (f : Slice → Slice) : (s.updSlice k f).vc = s.vc := rfl
@[simp] theorem State.updSlice_repl (s : State) (k : Nat) (f : Slice → Slice) : (s.updSlice k f).repl = s.repl := rfl
@[simp] theorem State.updSlice_dropped (s : State) (k : Nat) (f : Slice → Slice) : (s.updSlice k f).dropped = s.dropped := rfl
@[simp] theorem State.updSlice_posted (s : State) (k : Nat) (f : Slice → Slice) : (s.updSlice k f).posted = s.posted := rfl
@[simp] theorem State.updSlice_psnMem (s : State) (k : Nat) (f : Slice → Slice) : (s.updSlice k f).psnMem = s.psnMem := rfl
@[simp] theorem State.updSlice_psnSpad (s : State) (k : Nat) (f : Slice → Slice) : (s.updSlice k f).psnSpad = s.psnSpad := rfl
@[simp] theorem State.updSlice_psnLand (s : State) (k : Nat) (f : Slice → Slice) : (s.updSlice k f).psnLand = s.psnLand := rfl
@[simp] theorem State.updSlice_psnAcc (s : State) (k : Nat) (f : Slice → Slice) : (s.updSlice k f).psnAcc = s.psnAcc := rfl
@[simp] theorem State.updSlice_psnWb (s : State) (k : Nat) (f : Slice → Slice) : (s.updSlice k f).psnWb = s.psnWb := rfl
@[simp] theorem State.updSlice_psnTag (s : State) (k : Nat) (f : Slice → Slice) : (s.updSlice k f).psnTag = s.psnTag := rfl
@[simp] theorem State.updSlice_tlb1 (s : State) (k : Nat) (f : Slice → Slice) : (s.updSlice k f).tlb1 = s.tlb1 := rfl
@[simp] theorem State.updSlice_l1 (s : State) (k : Nat) (f : Slice → Slice) : (s.updSlice k f).l1 = s.l1 := rfl
@[simp] theorem State.updSlice_llc (s : State) (k : Nat) (f : Slice → Slice) : (s.updSlice k f).llc = s.llc := rfl
@[simp] theorem State.updSlice_waits (s : State) (k : Nat) (f : Slice → Slice) : (s.updSlice k f).waits = s.waits := rfl
@[simp] theorem State.updSlice_tlb2 (s : State) (k : Nat) (f : Slice → Slice) : (s.updSlice k f).tlb2 = s.tlb2 := rfl
@[simp] theorem State.updSlice_hub (s : State) (k : Nat) (f : Slice → Slice) : (s.updSlice k f).hub = s.hub := rfl

@[simp] theorem State.updThread_now (s : State) (i : Nat) (f : Thread → Thread) : (s.updThread i f).now = s.now := rfl
@[simp] theorem State.updThread_agenda (s : State) (i : Nat) (f : Thread → Thread) : (s.updThread i f).agenda = s.agenda := rfl
@[simp] theorem State.updThread_turn (s : State) (i : Nat) (f : Thread → Thread) : (s.updThread i f).turn = s.turn := rfl
@[simp] theorem State.updThread_free (s : State) (i : Nat) (f : Thread → Thread) : (s.updThread i f).free = s.free := rfl
@[simp] theorem State.updThread_fresh (s : State) (i : Nat) (f : Thread → Thread) : (s.updThread i f).fresh = s.fresh := rfl
@[simp] theorem State.updThread_threads (s : State) (i : Nat) (f : Thread → Thread) : (s.updThread i f).threads = mupd i f s.threads := rfl
@[simp] theorem State.updThread_teams (s : State) (i : Nat) (f : Thread → Thread) : (s.updThread i f).teams = s.teams := rfl
@[simp] theorem State.updThread_pipes (s : State) (i : Nat) (f : Thread → Thread) : (s.updThread i f).pipes = s.pipes := rfl
@[simp] theorem State.updThread_cores (s : State) (i : Nat) (f : Thread → Thread) : (s.updThread i f).cores = s.cores := rfl
@[simp] theorem State.updThread_clusters (s : State) (i : Nat) (f : Thread → Thread) : (s.updThread i f).clusters = s.clusters := rfl
@[simp] theorem State.updThread_slices (s : State) (i : Nat) (f : Thread → Thread) : (s.updThread i f).slices = s.slices := rfl
@[simp] theorem State.updThread_jobs (s : State) (i : Nat) (f : Thread → Thread) : (s.updThread i f).jobs = s.jobs := rfl
@[simp] theorem State.updThread_launches (s : State) (i : Nat) (f : Thread → Thread) : (s.updThread i f).launches = s.launches := rfl
@[simp] theorem State.updThread_saved (s : State) (i : Nat) (f : Thread → Thread) : (s.updThread i f).saved = s.saved := rfl
@[simp] theorem State.updThread_requests (s : State) (i : Nat) (f : Thread → Thread) : (s.updThread i f).requests = s.requests := rfl
@[simp] theorem State.updThread_colls (s : State) (i : Nat) (f : Thread → Thread) : (s.updThread i f).colls = s.colls := rfl
@[simp] theorem State.updThread_spad (s : State) (i : Nat) (f : Thread → Thread) : (s.updThread i f).spad = s.spad := rfl
@[simp] theorem State.updThread_land (s : State) (i : Nat) (f : Thread → Thread) : (s.updThread i f).land = s.land := rfl
@[simp] theorem State.updThread_acc (s : State) (i : Nat) (f : Thread → Thread) : (s.updThread i f).acc = s.acc := rfl
@[simp] theorem State.updThread_wbuf (s : State) (i : Nat) (f : Thread → Thread) : (s.updThread i f).wbuf = s.wbuf := rfl
@[simp] theorem State.updThread_accTag (s : State) (i : Nat) (f : Thread → Thread) : (s.updThread i f).accTag = s.accTag := rfl
@[simp] theorem State.updThread_wbTag (s : State) (i : Nat) (f : Thread → Thread) : (s.updThread i f).wbTag = s.wbTag := rfl
@[simp] theorem State.updThread_mem (s : State) (i : Nat) (f : Thread → Thread) : (s.updThread i f).mem = s.mem := rfl
@[simp] theorem State.updThread_stale (s : State) (i : Nat) (f : Thread → Thread) : (s.updThread i f).stale = s.stale := rfl
@[simp] theorem State.updThread_lag (s : State) (i : Nat) (f : Thread → Thread) : (s.updThread i f).lag = s.lag := rfl
@[simp] theorem State.updThread_vc (s : State) (i : Nat) (f : Thread → Thread) : (s.updThread i f).vc = s.vc := rfl
@[simp] theorem State.updThread_repl (s : State) (i : Nat) (f : Thread → Thread) : (s.updThread i f).repl = s.repl := rfl
@[simp] theorem State.updThread_dropped (s : State) (i : Nat) (f : Thread → Thread) : (s.updThread i f).dropped = s.dropped := rfl
@[simp] theorem State.updThread_posted (s : State) (i : Nat) (f : Thread → Thread) : (s.updThread i f).posted = s.posted := rfl
@[simp] theorem State.updThread_psnMem (s : State) (i : Nat) (f : Thread → Thread) : (s.updThread i f).psnMem = s.psnMem := rfl
@[simp] theorem State.updThread_psnSpad (s : State) (i : Nat) (f : Thread → Thread) : (s.updThread i f).psnSpad = s.psnSpad := rfl
@[simp] theorem State.updThread_psnLand (s : State) (i : Nat) (f : Thread → Thread) : (s.updThread i f).psnLand = s.psnLand := rfl
@[simp] theorem State.updThread_psnAcc (s : State) (i : Nat) (f : Thread → Thread) : (s.updThread i f).psnAcc = s.psnAcc := rfl
@[simp] theorem State.updThread_psnWb (s : State) (i : Nat) (f : Thread → Thread) : (s.updThread i f).psnWb = s.psnWb := rfl
@[simp] theorem State.updThread_psnTag (s : State) (i : Nat) (f : Thread → Thread) : (s.updThread i f).psnTag = s.psnTag := rfl
@[simp] theorem State.updThread_tlb1 (s : State) (i : Nat) (f : Thread → Thread) : (s.updThread i f).tlb1 = s.tlb1 := rfl
@[simp] theorem State.updThread_l1 (s : State) (i : Nat) (f : Thread → Thread) : (s.updThread i f).l1 = s.l1 := rfl
@[simp] theorem State.updThread_llc (s : State) (i : Nat) (f : Thread → Thread) : (s.updThread i f).llc = s.llc := rfl
@[simp] theorem State.updThread_waits (s : State) (i : Nat) (f : Thread → Thread) : (s.updThread i f).waits = s.waits := rfl
@[simp] theorem State.updThread_tlb2 (s : State) (i : Nat) (f : Thread → Thread) : (s.updThread i f).tlb2 = s.tlb2 := rfl
@[simp] theorem State.updThread_hub (s : State) (i : Nat) (f : Thread → Thread) : (s.updThread i f).hub = s.hub := rfl

@[simp] theorem State.updTeam_now (s : State) (i : Nat) (f : Team → Team) : (s.updTeam i f).now = s.now := rfl
@[simp] theorem State.updTeam_agenda (s : State) (i : Nat) (f : Team → Team) : (s.updTeam i f).agenda = s.agenda := rfl
@[simp] theorem State.updTeam_turn (s : State) (i : Nat) (f : Team → Team) : (s.updTeam i f).turn = s.turn := rfl
@[simp] theorem State.updTeam_free (s : State) (i : Nat) (f : Team → Team) : (s.updTeam i f).free = s.free := rfl
@[simp] theorem State.updTeam_fresh (s : State) (i : Nat) (f : Team → Team) : (s.updTeam i f).fresh = s.fresh := rfl
@[simp] theorem State.updTeam_threads (s : State) (i : Nat) (f : Team → Team) : (s.updTeam i f).threads = s.threads := rfl
@[simp] theorem State.updTeam_teams (s : State) (i : Nat) (f : Team → Team) : (s.updTeam i f).teams = mupd i f s.teams := rfl
@[simp] theorem State.updTeam_pipes (s : State) (i : Nat) (f : Team → Team) : (s.updTeam i f).pipes = s.pipes := rfl
@[simp] theorem State.updTeam_cores (s : State) (i : Nat) (f : Team → Team) : (s.updTeam i f).cores = s.cores := rfl
@[simp] theorem State.updTeam_clusters (s : State) (i : Nat) (f : Team → Team) : (s.updTeam i f).clusters = s.clusters := rfl
@[simp] theorem State.updTeam_slices (s : State) (i : Nat) (f : Team → Team) : (s.updTeam i f).slices = s.slices := rfl
@[simp] theorem State.updTeam_jobs (s : State) (i : Nat) (f : Team → Team) : (s.updTeam i f).jobs = s.jobs := rfl
@[simp] theorem State.updTeam_launches (s : State) (i : Nat) (f : Team → Team) : (s.updTeam i f).launches = s.launches := rfl
@[simp] theorem State.updTeam_saved (s : State) (i : Nat) (f : Team → Team) : (s.updTeam i f).saved = s.saved := rfl
@[simp] theorem State.updTeam_requests (s : State) (i : Nat) (f : Team → Team) : (s.updTeam i f).requests = s.requests := rfl
@[simp] theorem State.updTeam_colls (s : State) (i : Nat) (f : Team → Team) : (s.updTeam i f).colls = s.colls := rfl
@[simp] theorem State.updTeam_spad (s : State) (i : Nat) (f : Team → Team) : (s.updTeam i f).spad = s.spad := rfl
@[simp] theorem State.updTeam_land (s : State) (i : Nat) (f : Team → Team) : (s.updTeam i f).land = s.land := rfl
@[simp] theorem State.updTeam_acc (s : State) (i : Nat) (f : Team → Team) : (s.updTeam i f).acc = s.acc := rfl
@[simp] theorem State.updTeam_wbuf (s : State) (i : Nat) (f : Team → Team) : (s.updTeam i f).wbuf = s.wbuf := rfl
@[simp] theorem State.updTeam_accTag (s : State) (i : Nat) (f : Team → Team) : (s.updTeam i f).accTag = s.accTag := rfl
@[simp] theorem State.updTeam_wbTag (s : State) (i : Nat) (f : Team → Team) : (s.updTeam i f).wbTag = s.wbTag := rfl
@[simp] theorem State.updTeam_mem (s : State) (i : Nat) (f : Team → Team) : (s.updTeam i f).mem = s.mem := rfl
@[simp] theorem State.updTeam_stale (s : State) (i : Nat) (f : Team → Team) : (s.updTeam i f).stale = s.stale := rfl
@[simp] theorem State.updTeam_lag (s : State) (i : Nat) (f : Team → Team) : (s.updTeam i f).lag = s.lag := rfl
@[simp] theorem State.updTeam_vc (s : State) (i : Nat) (f : Team → Team) : (s.updTeam i f).vc = s.vc := rfl
@[simp] theorem State.updTeam_repl (s : State) (i : Nat) (f : Team → Team) : (s.updTeam i f).repl = s.repl := rfl
@[simp] theorem State.updTeam_dropped (s : State) (i : Nat) (f : Team → Team) : (s.updTeam i f).dropped = s.dropped := rfl
@[simp] theorem State.updTeam_posted (s : State) (i : Nat) (f : Team → Team) : (s.updTeam i f).posted = s.posted := rfl
@[simp] theorem State.updTeam_psnMem (s : State) (i : Nat) (f : Team → Team) : (s.updTeam i f).psnMem = s.psnMem := rfl
@[simp] theorem State.updTeam_psnSpad (s : State) (i : Nat) (f : Team → Team) : (s.updTeam i f).psnSpad = s.psnSpad := rfl
@[simp] theorem State.updTeam_psnLand (s : State) (i : Nat) (f : Team → Team) : (s.updTeam i f).psnLand = s.psnLand := rfl
@[simp] theorem State.updTeam_psnAcc (s : State) (i : Nat) (f : Team → Team) : (s.updTeam i f).psnAcc = s.psnAcc := rfl
@[simp] theorem State.updTeam_psnWb (s : State) (i : Nat) (f : Team → Team) : (s.updTeam i f).psnWb = s.psnWb := rfl
@[simp] theorem State.updTeam_psnTag (s : State) (i : Nat) (f : Team → Team) : (s.updTeam i f).psnTag = s.psnTag := rfl
@[simp] theorem State.updTeam_tlb1 (s : State) (i : Nat) (f : Team → Team) : (s.updTeam i f).tlb1 = s.tlb1 := rfl
@[simp] theorem State.updTeam_l1 (s : State) (i : Nat) (f : Team → Team) : (s.updTeam i f).l1 = s.l1 := rfl
@[simp] theorem State.updTeam_llc (s : State) (i : Nat) (f : Team → Team) : (s.updTeam i f).llc = s.llc := rfl
@[simp] theorem State.updTeam_waits (s : State) (i : Nat) (f : Team → Team) : (s.updTeam i f).waits = s.waits := rfl
@[simp] theorem State.updTeam_tlb2 (s : State) (i : Nat) (f : Team → Team) : (s.updTeam i f).tlb2 = s.tlb2 := rfl
@[simp] theorem State.updTeam_hub (s : State) (i : Nat) (f : Team → Team) : (s.updTeam i f).hub = s.hub := rfl

@[simp] theorem State.nextCycle_agenda (s : State) (t : Nat) : (s.nextCycle t).agenda = s.agenda := rfl
@[simp] theorem State.nextCycle_turn (s : State) (t : Nat) : (s.nextCycle t).turn = s.turn := rfl
@[simp] theorem State.nextCycle_free (s : State) (t : Nat) : (s.nextCycle t).free = s.free := rfl
@[simp] theorem State.nextCycle_fresh (s : State) (t : Nat) : (s.nextCycle t).fresh = s.fresh := rfl
@[simp] theorem State.nextCycle_threads (s : State) (t : Nat) : (s.nextCycle t).threads = s.threads := rfl
@[simp] theorem State.nextCycle_pipes (s : State) (t : Nat) : (s.nextCycle t).pipes = s.pipes := rfl
@[simp] theorem State.nextCycle_clusters (s : State) (t : Nat) : (s.nextCycle t).clusters = s.clusters := rfl
@[simp] theorem State.nextCycle_slices (s : State) (t : Nat) : (s.nextCycle t).slices = s.slices := rfl
@[simp] theorem State.nextCycle_jobs (s : State) (t : Nat) : (s.nextCycle t).jobs = s.jobs := rfl
@[simp] theorem State.nextCycle_launches (s : State) (t : Nat) : (s.nextCycle t).launches = s.launches := rfl
@[simp] theorem State.nextCycle_saved (s : State) (t : Nat) : (s.nextCycle t).saved = s.saved := rfl
@[simp] theorem State.nextCycle_requests (s : State) (t : Nat) : (s.nextCycle t).requests = s.requests := rfl
@[simp] theorem State.nextCycle_colls (s : State) (t : Nat) : (s.nextCycle t).colls = s.colls := rfl
@[simp] theorem State.nextCycle_spad (s : State) (t : Nat) : (s.nextCycle t).spad = s.spad := rfl
@[simp] theorem State.nextCycle_land (s : State) (t : Nat) : (s.nextCycle t).land = s.land := rfl
@[simp] theorem State.nextCycle_acc (s : State) (t : Nat) : (s.nextCycle t).acc = s.acc := rfl
@[simp] theorem State.nextCycle_wbuf (s : State) (t : Nat) : (s.nextCycle t).wbuf = s.wbuf := rfl
@[simp] theorem State.nextCycle_accTag (s : State) (t : Nat) : (s.nextCycle t).accTag = s.accTag := rfl
@[simp] theorem State.nextCycle_wbTag (s : State) (t : Nat) : (s.nextCycle t).wbTag = s.wbTag := rfl
@[simp] theorem State.nextCycle_mem (s : State) (t : Nat) : (s.nextCycle t).mem = s.mem := rfl
@[simp] theorem State.nextCycle_stale (s : State) (t : Nat) : (s.nextCycle t).stale = s.stale := rfl
@[simp] theorem State.nextCycle_lag (s : State) (t : Nat) : (s.nextCycle t).lag = s.lag := rfl
@[simp] theorem State.nextCycle_vc (s : State) (t : Nat) : (s.nextCycle t).vc = s.vc := rfl
@[simp] theorem State.nextCycle_repl (s : State) (t : Nat) : (s.nextCycle t).repl = s.repl := rfl
@[simp] theorem State.nextCycle_dropped (s : State) (t : Nat) : (s.nextCycle t).dropped = s.dropped := rfl
@[simp] theorem State.nextCycle_posted (s : State) (t : Nat) : (s.nextCycle t).posted = s.posted := rfl
@[simp] theorem State.nextCycle_psnMem (s : State) (t : Nat) : (s.nextCycle t).psnMem = s.psnMem := rfl
@[simp] theorem State.nextCycle_psnSpad (s : State) (t : Nat) : (s.nextCycle t).psnSpad = s.psnSpad := rfl
@[simp] theorem State.nextCycle_psnLand (s : State) (t : Nat) : (s.nextCycle t).psnLand = s.psnLand := rfl
@[simp] theorem State.nextCycle_psnAcc (s : State) (t : Nat) : (s.nextCycle t).psnAcc = s.psnAcc := rfl
@[simp] theorem State.nextCycle_psnWb (s : State) (t : Nat) : (s.nextCycle t).psnWb = s.psnWb := rfl
@[simp] theorem State.nextCycle_psnTag (s : State) (t : Nat) : (s.nextCycle t).psnTag = s.psnTag := rfl
@[simp] theorem State.nextCycle_tlb1 (s : State) (t : Nat) : (s.nextCycle t).tlb1 = s.tlb1 := rfl
@[simp] theorem State.nextCycle_l1 (s : State) (t : Nat) : (s.nextCycle t).l1 = s.l1 := rfl
@[simp] theorem State.nextCycle_llc (s : State) (t : Nat) : (s.nextCycle t).llc = s.llc := rfl
@[simp] theorem State.nextCycle_waits (s : State) (t : Nat) : (s.nextCycle t).waits = s.waits := rfl
@[simp] theorem State.nextCycle_tlb2 (s : State) (t : Nat) : (s.nextCycle t).tlb2 = s.tlb2 := rfl
@[simp] theorem State.nextCycle_hub (s : State) (t : Nat) : (s.nextCycle t).hub = s.hub := rfl
@[simp] theorem State.nextCycle_now (s : State) (t : Nat) : (s.nextCycle t).now = t := rfl

@[simp] theorem State.putHome_now (s : State) (a : Nat) (bs : List Byte) : (s.putHome a bs).now = s.now := rfl
@[simp] theorem State.putHome_agenda (s : State) (a : Nat) (bs : List Byte) : (s.putHome a bs).agenda = s.agenda := rfl
@[simp] theorem State.putHome_turn (s : State) (a : Nat) (bs : List Byte) : (s.putHome a bs).turn = s.turn := rfl
@[simp] theorem State.putHome_free (s : State) (a : Nat) (bs : List Byte) : (s.putHome a bs).free = s.free := rfl
@[simp] theorem State.putHome_fresh (s : State) (a : Nat) (bs : List Byte) : (s.putHome a bs).fresh = s.fresh := rfl
@[simp] theorem State.putHome_threads (s : State) (a : Nat) (bs : List Byte) : (s.putHome a bs).threads = s.threads := rfl
@[simp] theorem State.putHome_teams (s : State) (a : Nat) (bs : List Byte) : (s.putHome a bs).teams = s.teams := rfl
@[simp] theorem State.putHome_pipes (s : State) (a : Nat) (bs : List Byte) : (s.putHome a bs).pipes = s.pipes := rfl
@[simp] theorem State.putHome_cores (s : State) (a : Nat) (bs : List Byte) : (s.putHome a bs).cores = s.cores := rfl
@[simp] theorem State.putHome_clusters (s : State) (a : Nat) (bs : List Byte) : (s.putHome a bs).clusters = s.clusters := rfl
@[simp] theorem State.putHome_slices (s : State) (a : Nat) (bs : List Byte) : (s.putHome a bs).slices = s.slices := rfl
@[simp] theorem State.putHome_jobs (s : State) (a : Nat) (bs : List Byte) : (s.putHome a bs).jobs = s.jobs := rfl
@[simp] theorem State.putHome_launches (s : State) (a : Nat) (bs : List Byte) : (s.putHome a bs).launches = s.launches := rfl
@[simp] theorem State.putHome_saved (s : State) (a : Nat) (bs : List Byte) : (s.putHome a bs).saved = s.saved := rfl
@[simp] theorem State.putHome_requests (s : State) (a : Nat) (bs : List Byte) : (s.putHome a bs).requests = s.requests := rfl
@[simp] theorem State.putHome_colls (s : State) (a : Nat) (bs : List Byte) : (s.putHome a bs).colls = s.colls := rfl
@[simp] theorem State.putHome_spad (s : State) (a : Nat) (bs : List Byte) : (s.putHome a bs).spad = s.spad := rfl
@[simp] theorem State.putHome_land (s : State) (a : Nat) (bs : List Byte) : (s.putHome a bs).land = s.land := rfl
@[simp] theorem State.putHome_acc (s : State) (a : Nat) (bs : List Byte) : (s.putHome a bs).acc = s.acc := rfl
@[simp] theorem State.putHome_wbuf (s : State) (a : Nat) (bs : List Byte) : (s.putHome a bs).wbuf = s.wbuf := rfl
@[simp] theorem State.putHome_accTag (s : State) (a : Nat) (bs : List Byte) : (s.putHome a bs).accTag = s.accTag := rfl
@[simp] theorem State.putHome_wbTag (s : State) (a : Nat) (bs : List Byte) : (s.putHome a bs).wbTag = s.wbTag := rfl
@[simp] theorem State.putHome_mem (s : State) (a : Nat) (bs : List Byte) : (s.putHome a bs).mem = mputs unwritten a bs s.mem := rfl
@[simp] theorem State.putHome_vc (s : State) (a : Nat) (bs : List Byte) : (s.putHome a bs).vc = s.vc := rfl
@[simp] theorem State.putHome_repl (s : State) (a : Nat) (bs : List Byte) : (s.putHome a bs).repl = s.repl := rfl
@[simp] theorem State.putHome_dropped (s : State) (a : Nat) (bs : List Byte) : (s.putHome a bs).dropped = s.dropped := rfl
@[simp] theorem State.putHome_posted (s : State) (a : Nat) (bs : List Byte) : (s.putHome a bs).posted = s.posted := rfl
@[simp] theorem State.putHome_psnMem (s : State) (a : Nat) (bs : List Byte) : (s.putHome a bs).psnMem = clearPsn 32 a bs.length s.psnMem := rfl
@[simp] theorem State.putHome_psnSpad (s : State) (a : Nat) (bs : List Byte) : (s.putHome a bs).psnSpad = s.psnSpad := rfl
@[simp] theorem State.putHome_psnLand (s : State) (a : Nat) (bs : List Byte) : (s.putHome a bs).psnLand = s.psnLand := rfl
@[simp] theorem State.putHome_psnAcc (s : State) (a : Nat) (bs : List Byte) : (s.putHome a bs).psnAcc = s.psnAcc := rfl
@[simp] theorem State.putHome_psnWb (s : State) (a : Nat) (bs : List Byte) : (s.putHome a bs).psnWb = s.psnWb := rfl
@[simp] theorem State.putHome_psnTag (s : State) (a : Nat) (bs : List Byte) : (s.putHome a bs).psnTag = s.psnTag := rfl
@[simp] theorem State.putHome_tlb1 (s : State) (a : Nat) (bs : List Byte) : (s.putHome a bs).tlb1 = s.tlb1 := rfl
@[simp] theorem State.putHome_l1 (s : State) (a : Nat) (bs : List Byte) : (s.putHome a bs).l1 = s.l1 := rfl
@[simp] theorem State.putHome_llc (s : State) (a : Nat) (bs : List Byte) : (s.putHome a bs).llc = s.llc := rfl
@[simp] theorem State.putHome_waits (s : State) (a : Nat) (bs : List Byte) : (s.putHome a bs).waits = s.waits := rfl
@[simp] theorem State.putHome_tlb2 (s : State) (a : Nat) (bs : List Byte) : (s.putHome a bs).tlb2 = s.tlb2 := rfl
@[simp] theorem State.putHome_hub (s : State) (a : Nat) (bs : List Byte) : (s.putHome a bs).hub = s.hub := rfl

@[simp] theorem State.dieWrite_now (s : State) (d a : Nat) (bs : List Byte) : (s.dieWrite d a bs).now = s.now := rfl
@[simp] theorem State.dieWrite_agenda (s : State) (d a : Nat) (bs : List Byte) : (s.dieWrite d a bs).agenda = s.agenda := rfl
@[simp] theorem State.dieWrite_turn (s : State) (d a : Nat) (bs : List Byte) : (s.dieWrite d a bs).turn = s.turn := rfl
@[simp] theorem State.dieWrite_free (s : State) (d a : Nat) (bs : List Byte) : (s.dieWrite d a bs).free = s.free := rfl
@[simp] theorem State.dieWrite_fresh (s : State) (d a : Nat) (bs : List Byte) : (s.dieWrite d a bs).fresh = s.fresh := rfl
@[simp] theorem State.dieWrite_threads (s : State) (d a : Nat) (bs : List Byte) : (s.dieWrite d a bs).threads = s.threads := rfl
@[simp] theorem State.dieWrite_teams (s : State) (d a : Nat) (bs : List Byte) : (s.dieWrite d a bs).teams = s.teams := rfl
@[simp] theorem State.dieWrite_pipes (s : State) (d a : Nat) (bs : List Byte) : (s.dieWrite d a bs).pipes = s.pipes := rfl
@[simp] theorem State.dieWrite_cores (s : State) (d a : Nat) (bs : List Byte) : (s.dieWrite d a bs).cores = s.cores := rfl
@[simp] theorem State.dieWrite_clusters (s : State) (d a : Nat) (bs : List Byte) : (s.dieWrite d a bs).clusters = s.clusters := rfl
@[simp] theorem State.dieWrite_slices (s : State) (d a : Nat) (bs : List Byte) : (s.dieWrite d a bs).slices = s.slices := rfl
@[simp] theorem State.dieWrite_jobs (s : State) (d a : Nat) (bs : List Byte) : (s.dieWrite d a bs).jobs = s.jobs := rfl
@[simp] theorem State.dieWrite_launches (s : State) (d a : Nat) (bs : List Byte) : (s.dieWrite d a bs).launches = s.launches := rfl
@[simp] theorem State.dieWrite_saved (s : State) (d a : Nat) (bs : List Byte) : (s.dieWrite d a bs).saved = s.saved := rfl
@[simp] theorem State.dieWrite_requests (s : State) (d a : Nat) (bs : List Byte) : (s.dieWrite d a bs).requests = s.requests := rfl
@[simp] theorem State.dieWrite_colls (s : State) (d a : Nat) (bs : List Byte) : (s.dieWrite d a bs).colls = s.colls := rfl
@[simp] theorem State.dieWrite_spad (s : State) (d a : Nat) (bs : List Byte) : (s.dieWrite d a bs).spad = s.spad := rfl
@[simp] theorem State.dieWrite_land (s : State) (d a : Nat) (bs : List Byte) : (s.dieWrite d a bs).land = s.land := rfl
@[simp] theorem State.dieWrite_acc (s : State) (d a : Nat) (bs : List Byte) : (s.dieWrite d a bs).acc = s.acc := rfl
@[simp] theorem State.dieWrite_wbuf (s : State) (d a : Nat) (bs : List Byte) : (s.dieWrite d a bs).wbuf = s.wbuf := rfl
@[simp] theorem State.dieWrite_accTag (s : State) (d a : Nat) (bs : List Byte) : (s.dieWrite d a bs).accTag = s.accTag := rfl
@[simp] theorem State.dieWrite_wbTag (s : State) (d a : Nat) (bs : List Byte) : (s.dieWrite d a bs).wbTag = s.wbTag := rfl
@[simp] theorem State.dieWrite_mem (s : State) (d a : Nat) (bs : List Byte) : (s.dieWrite d a bs).mem = mputs unwritten a bs s.mem := rfl
@[simp] theorem State.dieWrite_repl (s : State) (d a : Nat) (bs : List Byte) : (s.dieWrite d a bs).repl = s.repl := rfl
@[simp] theorem State.dieWrite_dropped (s : State) (d a : Nat) (bs : List Byte) : (s.dieWrite d a bs).dropped = s.dropped := rfl
@[simp] theorem State.dieWrite_posted (s : State) (d a : Nat) (bs : List Byte) : (s.dieWrite d a bs).posted = s.posted := rfl
@[simp] theorem State.dieWrite_psnMem (s : State) (d a : Nat) (bs : List Byte) : (s.dieWrite d a bs).psnMem = clearPsn 32 a bs.length s.psnMem := rfl
@[simp] theorem State.dieWrite_psnSpad (s : State) (d a : Nat) (bs : List Byte) : (s.dieWrite d a bs).psnSpad = s.psnSpad := rfl
@[simp] theorem State.dieWrite_psnLand (s : State) (d a : Nat) (bs : List Byte) : (s.dieWrite d a bs).psnLand = s.psnLand := rfl
@[simp] theorem State.dieWrite_psnAcc (s : State) (d a : Nat) (bs : List Byte) : (s.dieWrite d a bs).psnAcc = s.psnAcc := rfl
@[simp] theorem State.dieWrite_psnWb (s : State) (d a : Nat) (bs : List Byte) : (s.dieWrite d a bs).psnWb = s.psnWb := rfl
@[simp] theorem State.dieWrite_psnTag (s : State) (d a : Nat) (bs : List Byte) : (s.dieWrite d a bs).psnTag = s.psnTag := rfl
@[simp] theorem State.dieWrite_tlb1 (s : State) (d a : Nat) (bs : List Byte) : (s.dieWrite d a bs).tlb1 = s.tlb1 := rfl
@[simp] theorem State.dieWrite_l1 (s : State) (d a : Nat) (bs : List Byte) : (s.dieWrite d a bs).l1 = s.l1 := rfl
@[simp] theorem State.dieWrite_llc (s : State) (d a : Nat) (bs : List Byte) : (s.dieWrite d a bs).llc = s.llc := rfl
@[simp] theorem State.dieWrite_waits (s : State) (d a : Nat) (bs : List Byte) : (s.dieWrite d a bs).waits = s.waits := rfl
@[simp] theorem State.dieWrite_tlb2 (s : State) (d a : Nat) (bs : List Byte) : (s.dieWrite d a bs).tlb2 = s.tlb2 := rfl
@[simp] theorem State.dieWrite_hub (s : State) (d a : Nat) (bs : List Byte) : (s.dieWrite d a bs).hub = s.hub := rfl

@[simp] theorem State.applyLag_now (s : State) (l : Lag) (r : List Lag) : (s.applyLag l r).now = s.now := rfl
@[simp] theorem State.applyLag_agenda (s : State) (l : Lag) (r : List Lag) : (s.applyLag l r).agenda = s.agenda := rfl
@[simp] theorem State.applyLag_turn (s : State) (l : Lag) (r : List Lag) : (s.applyLag l r).turn = s.turn := rfl
@[simp] theorem State.applyLag_free (s : State) (l : Lag) (r : List Lag) : (s.applyLag l r).free = s.free := rfl
@[simp] theorem State.applyLag_fresh (s : State) (l : Lag) (r : List Lag) : (s.applyLag l r).fresh = s.fresh := rfl
@[simp] theorem State.applyLag_threads (s : State) (l : Lag) (r : List Lag) : (s.applyLag l r).threads = s.threads := rfl
@[simp] theorem State.applyLag_teams (s : State) (l : Lag) (r : List Lag) : (s.applyLag l r).teams = s.teams := rfl
@[simp] theorem State.applyLag_pipes (s : State) (l : Lag) (r : List Lag) : (s.applyLag l r).pipes = s.pipes := rfl
@[simp] theorem State.applyLag_cores (s : State) (l : Lag) (r : List Lag) : (s.applyLag l r).cores = s.cores := rfl
@[simp] theorem State.applyLag_clusters (s : State) (l : Lag) (r : List Lag) : (s.applyLag l r).clusters = s.clusters := rfl
@[simp] theorem State.applyLag_slices (s : State) (l : Lag) (r : List Lag) : (s.applyLag l r).slices = s.slices := rfl
@[simp] theorem State.applyLag_jobs (s : State) (l : Lag) (r : List Lag) : (s.applyLag l r).jobs = s.jobs := rfl
@[simp] theorem State.applyLag_launches (s : State) (l : Lag) (r : List Lag) : (s.applyLag l r).launches = s.launches := rfl
@[simp] theorem State.applyLag_saved (s : State) (l : Lag) (r : List Lag) : (s.applyLag l r).saved = s.saved := rfl
@[simp] theorem State.applyLag_requests (s : State) (l : Lag) (r : List Lag) : (s.applyLag l r).requests = s.requests := rfl
@[simp] theorem State.applyLag_colls (s : State) (l : Lag) (r : List Lag) : (s.applyLag l r).colls = s.colls := rfl
@[simp] theorem State.applyLag_spad (s : State) (l : Lag) (r : List Lag) : (s.applyLag l r).spad = s.spad := rfl
@[simp] theorem State.applyLag_land (s : State) (l : Lag) (r : List Lag) : (s.applyLag l r).land = s.land := rfl
@[simp] theorem State.applyLag_acc (s : State) (l : Lag) (r : List Lag) : (s.applyLag l r).acc = s.acc := rfl
@[simp] theorem State.applyLag_wbuf (s : State) (l : Lag) (r : List Lag) : (s.applyLag l r).wbuf = s.wbuf := rfl
@[simp] theorem State.applyLag_accTag (s : State) (l : Lag) (r : List Lag) : (s.applyLag l r).accTag = s.accTag := rfl
@[simp] theorem State.applyLag_wbTag (s : State) (l : Lag) (r : List Lag) : (s.applyLag l r).wbTag = s.wbTag := rfl
@[simp] theorem State.applyLag_mem (s : State) (l : Lag) (r : List Lag) : (s.applyLag l r).mem = s.mem := rfl
@[simp] theorem State.applyLag_lag (s : State) (l : Lag) (r : List Lag) : (s.applyLag l r).lag = r := rfl
@[simp] theorem State.applyLag_repl (s : State) (l : Lag) (r : List Lag) : (s.applyLag l r).repl = s.repl := rfl
@[simp] theorem State.applyLag_dropped (s : State) (l : Lag) (r : List Lag) : (s.applyLag l r).dropped = s.dropped := rfl
@[simp] theorem State.applyLag_posted (s : State) (l : Lag) (r : List Lag) : (s.applyLag l r).posted = s.posted := rfl
@[simp] theorem State.applyLag_psnMem (s : State) (l : Lag) (r : List Lag) : (s.applyLag l r).psnMem = s.psnMem := rfl
@[simp] theorem State.applyLag_psnSpad (s : State) (l : Lag) (r : List Lag) : (s.applyLag l r).psnSpad = s.psnSpad := rfl
@[simp] theorem State.applyLag_psnLand (s : State) (l : Lag) (r : List Lag) : (s.applyLag l r).psnLand = s.psnLand := rfl
@[simp] theorem State.applyLag_psnAcc (s : State) (l : Lag) (r : List Lag) : (s.applyLag l r).psnAcc = s.psnAcc := rfl
@[simp] theorem State.applyLag_psnWb (s : State) (l : Lag) (r : List Lag) : (s.applyLag l r).psnWb = s.psnWb := rfl
@[simp] theorem State.applyLag_psnTag (s : State) (l : Lag) (r : List Lag) : (s.applyLag l r).psnTag = s.psnTag := rfl
@[simp] theorem State.applyLag_tlb1 (s : State) (l : Lag) (r : List Lag) : (s.applyLag l r).tlb1 = s.tlb1 := rfl
@[simp] theorem State.applyLag_l1 (s : State) (l : Lag) (r : List Lag) : (s.applyLag l r).l1 = s.l1 := rfl
@[simp] theorem State.applyLag_llc (s : State) (l : Lag) (r : List Lag) : (s.applyLag l r).llc = s.llc := rfl
@[simp] theorem State.applyLag_waits (s : State) (l : Lag) (r : List Lag) : (s.applyLag l r).waits = s.waits := rfl
@[simp] theorem State.applyLag_tlb2 (s : State) (l : Lag) (r : List Lag) : (s.applyLag l r).tlb2 = s.tlb2 := rfl
@[simp] theorem State.applyLag_hub (s : State) (l : Lag) (r : List Lag) : (s.applyLag l r).hub = s.hub := rfl

@[simp] theorem State.drain_now (s : State) : (s.drain).now = s.now := rfl
@[simp] theorem State.drain_agenda (s : State) : (s.drain).agenda = s.agenda := rfl
@[simp] theorem State.drain_turn (s : State) : (s.drain).turn = s.turn := rfl
@[simp] theorem State.drain_free (s : State) : (s.drain).free = s.free := rfl
@[simp] theorem State.drain_fresh (s : State) : (s.drain).fresh = s.fresh := rfl
@[simp] theorem State.drain_threads (s : State) : (s.drain).threads = s.threads := rfl
@[simp] theorem State.drain_teams (s : State) : (s.drain).teams = s.teams := rfl
@[simp] theorem State.drain_pipes (s : State) : (s.drain).pipes = s.pipes := rfl
@[simp] theorem State.drain_cores (s : State) : (s.drain).cores = s.cores := rfl
@[simp] theorem State.drain_clusters (s : State) : (s.drain).clusters = s.clusters := rfl
@[simp] theorem State.drain_slices (s : State) : (s.drain).slices = s.slices := rfl
@[simp] theorem State.drain_jobs (s : State) : (s.drain).jobs = s.jobs := rfl
@[simp] theorem State.drain_launches (s : State) : (s.drain).launches = s.launches := rfl
@[simp] theorem State.drain_saved (s : State) : (s.drain).saved = s.saved := rfl
@[simp] theorem State.drain_requests (s : State) : (s.drain).requests = s.requests := rfl
@[simp] theorem State.drain_colls (s : State) : (s.drain).colls = s.colls := rfl
@[simp] theorem State.drain_spad (s : State) : (s.drain).spad = s.spad := rfl
@[simp] theorem State.drain_land (s : State) : (s.drain).land = s.land := rfl
@[simp] theorem State.drain_acc (s : State) : (s.drain).acc = s.acc := rfl
@[simp] theorem State.drain_wbuf (s : State) : (s.drain).wbuf = s.wbuf := rfl
@[simp] theorem State.drain_accTag (s : State) : (s.drain).accTag = s.accTag := rfl
@[simp] theorem State.drain_wbTag (s : State) : (s.drain).wbTag = s.wbTag := rfl
@[simp] theorem State.drain_mem (s : State) : (s.drain).mem = s.mem := rfl
@[simp] theorem State.drain_stale (s : State) : (s.drain).stale = [] := rfl
@[simp] theorem State.drain_lag (s : State) : (s.drain).lag = [] := rfl
@[simp] theorem State.drain_repl (s : State) : (s.drain).repl = s.repl := rfl
@[simp] theorem State.drain_dropped (s : State) : (s.drain).dropped = s.dropped := rfl
@[simp] theorem State.drain_posted (s : State) : (s.drain).posted = s.posted := rfl
@[simp] theorem State.drain_psnMem (s : State) : (s.drain).psnMem = s.psnMem := rfl
@[simp] theorem State.drain_psnSpad (s : State) : (s.drain).psnSpad = s.psnSpad := rfl
@[simp] theorem State.drain_psnLand (s : State) : (s.drain).psnLand = s.psnLand := rfl
@[simp] theorem State.drain_psnAcc (s : State) : (s.drain).psnAcc = s.psnAcc := rfl
@[simp] theorem State.drain_psnWb (s : State) : (s.drain).psnWb = s.psnWb := rfl
@[simp] theorem State.drain_psnTag (s : State) : (s.drain).psnTag = s.psnTag := rfl
@[simp] theorem State.drain_tlb1 (s : State) : (s.drain).tlb1 = s.tlb1 := rfl
@[simp] theorem State.drain_l1 (s : State) : (s.drain).l1 = s.l1 := rfl
@[simp] theorem State.drain_llc (s : State) : (s.drain).llc = s.llc := rfl
@[simp] theorem State.drain_waits (s : State) : (s.drain).waits = s.waits := rfl
@[simp] theorem State.drain_tlb2 (s : State) : (s.drain).tlb2 = s.tlb2 := rfl
@[simp] theorem State.drain_hub (s : State) : (s.drain).hub = s.hub := rfl

@[simp] theorem State.catchUp_now (s : State) (e : Nat) : (s.catchUp e).now = s.now := rfl
@[simp] theorem State.catchUp_agenda (s : State) (e : Nat) : (s.catchUp e).agenda = s.agenda := rfl
@[simp] theorem State.catchUp_turn (s : State) (e : Nat) : (s.catchUp e).turn = s.turn := rfl
@[simp] theorem State.catchUp_free (s : State) (e : Nat) : (s.catchUp e).free = s.free := rfl
@[simp] theorem State.catchUp_fresh (s : State) (e : Nat) : (s.catchUp e).fresh = s.fresh := rfl
@[simp] theorem State.catchUp_threads (s : State) (e : Nat) : (s.catchUp e).threads = s.threads := rfl
@[simp] theorem State.catchUp_teams (s : State) (e : Nat) : (s.catchUp e).teams = s.teams := rfl
@[simp] theorem State.catchUp_pipes (s : State) (e : Nat) : (s.catchUp e).pipes = s.pipes := rfl
@[simp] theorem State.catchUp_cores (s : State) (e : Nat) : (s.catchUp e).cores = s.cores := rfl
@[simp] theorem State.catchUp_clusters (s : State) (e : Nat) : (s.catchUp e).clusters = s.clusters := rfl
@[simp] theorem State.catchUp_slices (s : State) (e : Nat) : (s.catchUp e).slices = s.slices := rfl
@[simp] theorem State.catchUp_jobs (s : State) (e : Nat) : (s.catchUp e).jobs = s.jobs := rfl
@[simp] theorem State.catchUp_launches (s : State) (e : Nat) : (s.catchUp e).launches = s.launches := rfl
@[simp] theorem State.catchUp_saved (s : State) (e : Nat) : (s.catchUp e).saved = s.saved := rfl
@[simp] theorem State.catchUp_requests (s : State) (e : Nat) : (s.catchUp e).requests = s.requests := rfl
@[simp] theorem State.catchUp_colls (s : State) (e : Nat) : (s.catchUp e).colls = s.colls := rfl
@[simp] theorem State.catchUp_spad (s : State) (e : Nat) : (s.catchUp e).spad = s.spad := rfl
@[simp] theorem State.catchUp_land (s : State) (e : Nat) : (s.catchUp e).land = s.land := rfl
@[simp] theorem State.catchUp_acc (s : State) (e : Nat) : (s.catchUp e).acc = s.acc := rfl
@[simp] theorem State.catchUp_wbuf (s : State) (e : Nat) : (s.catchUp e).wbuf = s.wbuf := rfl
@[simp] theorem State.catchUp_accTag (s : State) (e : Nat) : (s.catchUp e).accTag = s.accTag := rfl
@[simp] theorem State.catchUp_wbTag (s : State) (e : Nat) : (s.catchUp e).wbTag = s.wbTag := rfl
@[simp] theorem State.catchUp_mem (s : State) (e : Nat) : (s.catchUp e).mem = s.mem := rfl
@[simp] theorem State.catchUp_lag (s : State) (e : Nat) : (s.catchUp e).lag = s.lag.filter fun l => l.dst != e := rfl
@[simp] theorem State.catchUp_repl (s : State) (e : Nat) : (s.catchUp e).repl = s.repl := rfl
@[simp] theorem State.catchUp_dropped (s : State) (e : Nat) : (s.catchUp e).dropped = s.dropped := rfl
@[simp] theorem State.catchUp_posted (s : State) (e : Nat) : (s.catchUp e).posted = s.posted := rfl
@[simp] theorem State.catchUp_psnMem (s : State) (e : Nat) : (s.catchUp e).psnMem = s.psnMem := rfl
@[simp] theorem State.catchUp_psnSpad (s : State) (e : Nat) : (s.catchUp e).psnSpad = s.psnSpad := rfl
@[simp] theorem State.catchUp_psnLand (s : State) (e : Nat) : (s.catchUp e).psnLand = s.psnLand := rfl
@[simp] theorem State.catchUp_psnAcc (s : State) (e : Nat) : (s.catchUp e).psnAcc = s.psnAcc := rfl
@[simp] theorem State.catchUp_psnWb (s : State) (e : Nat) : (s.catchUp e).psnWb = s.psnWb := rfl
@[simp] theorem State.catchUp_psnTag (s : State) (e : Nat) : (s.catchUp e).psnTag = s.psnTag := rfl
@[simp] theorem State.catchUp_tlb1 (s : State) (e : Nat) : (s.catchUp e).tlb1 = s.tlb1 := rfl
@[simp] theorem State.catchUp_l1 (s : State) (e : Nat) : (s.catchUp e).l1 = s.l1 := rfl
@[simp] theorem State.catchUp_llc (s : State) (e : Nat) : (s.catchUp e).llc = s.llc := rfl
@[simp] theorem State.catchUp_waits (s : State) (e : Nat) : (s.catchUp e).waits = s.waits := rfl
@[simp] theorem State.catchUp_tlb2 (s : State) (e : Nat) : (s.catchUp e).tlb2 = s.tlb2 := rfl
@[simp] theorem State.catchUp_hub (s : State) (e : Nat) : (s.catchUp e).hub = s.hub := rfl

@[simp] theorem State.putSpad_now (s : State) (k : Nat) (bs : List Byte) : (s.putSpad k bs).now = s.now := rfl
@[simp] theorem State.putSpad_agenda (s : State) (k : Nat) (bs : List Byte) : (s.putSpad k bs).agenda = s.agenda := rfl
@[simp] theorem State.putSpad_turn (s : State) (k : Nat) (bs : List Byte) : (s.putSpad k bs).turn = s.turn := rfl
@[simp] theorem State.putSpad_free (s : State) (k : Nat) (bs : List Byte) : (s.putSpad k bs).free = s.free := rfl
@[simp] theorem State.putSpad_fresh (s : State) (k : Nat) (bs : List Byte) : (s.putSpad k bs).fresh = s.fresh := rfl
@[simp] theorem State.putSpad_threads (s : State) (k : Nat) (bs : List Byte) : (s.putSpad k bs).threads = s.threads := rfl
@[simp] theorem State.putSpad_teams (s : State) (k : Nat) (bs : List Byte) : (s.putSpad k bs).teams = s.teams := rfl
@[simp] theorem State.putSpad_pipes (s : State) (k : Nat) (bs : List Byte) : (s.putSpad k bs).pipes = s.pipes := rfl
@[simp] theorem State.putSpad_cores (s : State) (k : Nat) (bs : List Byte) : (s.putSpad k bs).cores = s.cores := rfl
@[simp] theorem State.putSpad_clusters (s : State) (k : Nat) (bs : List Byte) : (s.putSpad k bs).clusters = s.clusters := rfl
@[simp] theorem State.putSpad_slices (s : State) (k : Nat) (bs : List Byte) : (s.putSpad k bs).slices = s.slices := rfl
@[simp] theorem State.putSpad_jobs (s : State) (k : Nat) (bs : List Byte) : (s.putSpad k bs).jobs = s.jobs := rfl
@[simp] theorem State.putSpad_launches (s : State) (k : Nat) (bs : List Byte) : (s.putSpad k bs).launches = s.launches := rfl
@[simp] theorem State.putSpad_saved (s : State) (k : Nat) (bs : List Byte) : (s.putSpad k bs).saved = s.saved := rfl
@[simp] theorem State.putSpad_requests (s : State) (k : Nat) (bs : List Byte) : (s.putSpad k bs).requests = s.requests := rfl
@[simp] theorem State.putSpad_colls (s : State) (k : Nat) (bs : List Byte) : (s.putSpad k bs).colls = s.colls := rfl
@[simp] theorem State.putSpad_spad (s : State) (k : Nat) (bs : List Byte) : (s.putSpad k bs).spad = mputs 0 k bs s.spad := rfl
@[simp] theorem State.putSpad_land (s : State) (k : Nat) (bs : List Byte) : (s.putSpad k bs).land = s.land := rfl
@[simp] theorem State.putSpad_acc (s : State) (k : Nat) (bs : List Byte) : (s.putSpad k bs).acc = s.acc := rfl
@[simp] theorem State.putSpad_wbuf (s : State) (k : Nat) (bs : List Byte) : (s.putSpad k bs).wbuf = s.wbuf := rfl
@[simp] theorem State.putSpad_accTag (s : State) (k : Nat) (bs : List Byte) : (s.putSpad k bs).accTag = s.accTag := rfl
@[simp] theorem State.putSpad_wbTag (s : State) (k : Nat) (bs : List Byte) : (s.putSpad k bs).wbTag = s.wbTag := rfl
@[simp] theorem State.putSpad_mem (s : State) (k : Nat) (bs : List Byte) : (s.putSpad k bs).mem = s.mem := rfl
@[simp] theorem State.putSpad_stale (s : State) (k : Nat) (bs : List Byte) : (s.putSpad k bs).stale = s.stale := rfl
@[simp] theorem State.putSpad_lag (s : State) (k : Nat) (bs : List Byte) : (s.putSpad k bs).lag = s.lag := rfl
@[simp] theorem State.putSpad_vc (s : State) (k : Nat) (bs : List Byte) : (s.putSpad k bs).vc = s.vc := rfl
@[simp] theorem State.putSpad_repl (s : State) (k : Nat) (bs : List Byte) : (s.putSpad k bs).repl = s.repl := rfl
@[simp] theorem State.putSpad_dropped (s : State) (k : Nat) (bs : List Byte) : (s.putSpad k bs).dropped = s.dropped := rfl
@[simp] theorem State.putSpad_posted (s : State) (k : Nat) (bs : List Byte) : (s.putSpad k bs).posted = s.posted := rfl
@[simp] theorem State.putSpad_psnMem (s : State) (k : Nat) (bs : List Byte) : (s.putSpad k bs).psnMem = s.psnMem := rfl
@[simp] theorem State.putSpad_psnSpad (s : State) (k : Nat) (bs : List Byte) : (s.putSpad k bs).psnSpad = clearPsn 8 k bs.length s.psnSpad := rfl
@[simp] theorem State.putSpad_psnLand (s : State) (k : Nat) (bs : List Byte) : (s.putSpad k bs).psnLand = s.psnLand := rfl
@[simp] theorem State.putSpad_psnAcc (s : State) (k : Nat) (bs : List Byte) : (s.putSpad k bs).psnAcc = s.psnAcc := rfl
@[simp] theorem State.putSpad_psnWb (s : State) (k : Nat) (bs : List Byte) : (s.putSpad k bs).psnWb = s.psnWb := rfl
@[simp] theorem State.putSpad_psnTag (s : State) (k : Nat) (bs : List Byte) : (s.putSpad k bs).psnTag = s.psnTag := rfl
@[simp] theorem State.putSpad_tlb1 (s : State) (k : Nat) (bs : List Byte) : (s.putSpad k bs).tlb1 = s.tlb1 := rfl
@[simp] theorem State.putSpad_l1 (s : State) (k : Nat) (bs : List Byte) : (s.putSpad k bs).l1 = s.l1 := rfl
@[simp] theorem State.putSpad_llc (s : State) (k : Nat) (bs : List Byte) : (s.putSpad k bs).llc = s.llc := rfl
@[simp] theorem State.putSpad_waits (s : State) (k : Nat) (bs : List Byte) : (s.putSpad k bs).waits = s.waits := rfl
@[simp] theorem State.putSpad_tlb2 (s : State) (k : Nat) (bs : List Byte) : (s.putSpad k bs).tlb2 = s.tlb2 := rfl
@[simp] theorem State.putSpad_hub (s : State) (k : Nat) (bs : List Byte) : (s.putSpad k bs).hub = s.hub := rfl

@[simp] theorem State.putLand_now (s : State) (k : Nat) (bs : List Byte) : (s.putLand k bs).now = s.now := rfl
@[simp] theorem State.putLand_agenda (s : State) (k : Nat) (bs : List Byte) : (s.putLand k bs).agenda = s.agenda := rfl
@[simp] theorem State.putLand_turn (s : State) (k : Nat) (bs : List Byte) : (s.putLand k bs).turn = s.turn := rfl
@[simp] theorem State.putLand_free (s : State) (k : Nat) (bs : List Byte) : (s.putLand k bs).free = s.free := rfl
@[simp] theorem State.putLand_fresh (s : State) (k : Nat) (bs : List Byte) : (s.putLand k bs).fresh = s.fresh := rfl
@[simp] theorem State.putLand_threads (s : State) (k : Nat) (bs : List Byte) : (s.putLand k bs).threads = s.threads := rfl
@[simp] theorem State.putLand_teams (s : State) (k : Nat) (bs : List Byte) : (s.putLand k bs).teams = s.teams := rfl
@[simp] theorem State.putLand_pipes (s : State) (k : Nat) (bs : List Byte) : (s.putLand k bs).pipes = s.pipes := rfl
@[simp] theorem State.putLand_cores (s : State) (k : Nat) (bs : List Byte) : (s.putLand k bs).cores = s.cores := rfl
@[simp] theorem State.putLand_clusters (s : State) (k : Nat) (bs : List Byte) : (s.putLand k bs).clusters = s.clusters := rfl
@[simp] theorem State.putLand_slices (s : State) (k : Nat) (bs : List Byte) : (s.putLand k bs).slices = s.slices := rfl
@[simp] theorem State.putLand_jobs (s : State) (k : Nat) (bs : List Byte) : (s.putLand k bs).jobs = s.jobs := rfl
@[simp] theorem State.putLand_launches (s : State) (k : Nat) (bs : List Byte) : (s.putLand k bs).launches = s.launches := rfl
@[simp] theorem State.putLand_saved (s : State) (k : Nat) (bs : List Byte) : (s.putLand k bs).saved = s.saved := rfl
@[simp] theorem State.putLand_requests (s : State) (k : Nat) (bs : List Byte) : (s.putLand k bs).requests = s.requests := rfl
@[simp] theorem State.putLand_colls (s : State) (k : Nat) (bs : List Byte) : (s.putLand k bs).colls = s.colls := rfl
@[simp] theorem State.putLand_spad (s : State) (k : Nat) (bs : List Byte) : (s.putLand k bs).spad = s.spad := rfl
@[simp] theorem State.putLand_land (s : State) (k : Nat) (bs : List Byte) : (s.putLand k bs).land = mputs 0 k bs s.land := rfl
@[simp] theorem State.putLand_acc (s : State) (k : Nat) (bs : List Byte) : (s.putLand k bs).acc = s.acc := rfl
@[simp] theorem State.putLand_wbuf (s : State) (k : Nat) (bs : List Byte) : (s.putLand k bs).wbuf = s.wbuf := rfl
@[simp] theorem State.putLand_accTag (s : State) (k : Nat) (bs : List Byte) : (s.putLand k bs).accTag = s.accTag := rfl
@[simp] theorem State.putLand_wbTag (s : State) (k : Nat) (bs : List Byte) : (s.putLand k bs).wbTag = s.wbTag := rfl
@[simp] theorem State.putLand_mem (s : State) (k : Nat) (bs : List Byte) : (s.putLand k bs).mem = s.mem := rfl
@[simp] theorem State.putLand_stale (s : State) (k : Nat) (bs : List Byte) : (s.putLand k bs).stale = s.stale := rfl
@[simp] theorem State.putLand_lag (s : State) (k : Nat) (bs : List Byte) : (s.putLand k bs).lag = s.lag := rfl
@[simp] theorem State.putLand_vc (s : State) (k : Nat) (bs : List Byte) : (s.putLand k bs).vc = s.vc := rfl
@[simp] theorem State.putLand_repl (s : State) (k : Nat) (bs : List Byte) : (s.putLand k bs).repl = s.repl := rfl
@[simp] theorem State.putLand_dropped (s : State) (k : Nat) (bs : List Byte) : (s.putLand k bs).dropped = s.dropped := rfl
@[simp] theorem State.putLand_posted (s : State) (k : Nat) (bs : List Byte) : (s.putLand k bs).posted = s.posted := rfl
@[simp] theorem State.putLand_psnMem (s : State) (k : Nat) (bs : List Byte) : (s.putLand k bs).psnMem = s.psnMem := rfl
@[simp] theorem State.putLand_psnSpad (s : State) (k : Nat) (bs : List Byte) : (s.putLand k bs).psnSpad = s.psnSpad := rfl
@[simp] theorem State.putLand_psnLand (s : State) (k : Nat) (bs : List Byte) : (s.putLand k bs).psnLand = clearPsn 8 k bs.length s.psnLand := rfl
@[simp] theorem State.putLand_psnAcc (s : State) (k : Nat) (bs : List Byte) : (s.putLand k bs).psnAcc = s.psnAcc := rfl
@[simp] theorem State.putLand_psnWb (s : State) (k : Nat) (bs : List Byte) : (s.putLand k bs).psnWb = s.psnWb := rfl
@[simp] theorem State.putLand_psnTag (s : State) (k : Nat) (bs : List Byte) : (s.putLand k bs).psnTag = s.psnTag := rfl
@[simp] theorem State.putLand_tlb1 (s : State) (k : Nat) (bs : List Byte) : (s.putLand k bs).tlb1 = s.tlb1 := rfl
@[simp] theorem State.putLand_l1 (s : State) (k : Nat) (bs : List Byte) : (s.putLand k bs).l1 = s.l1 := rfl
@[simp] theorem State.putLand_llc (s : State) (k : Nat) (bs : List Byte) : (s.putLand k bs).llc = s.llc := rfl
@[simp] theorem State.putLand_waits (s : State) (k : Nat) (bs : List Byte) : (s.putLand k bs).waits = s.waits := rfl
@[simp] theorem State.putLand_tlb2 (s : State) (k : Nat) (bs : List Byte) : (s.putLand k bs).tlb2 = s.tlb2 := rfl
@[simp] theorem State.putLand_hub (s : State) (k : Nat) (bs : List Byte) : (s.putLand k bs).hub = s.hub := rfl

@[simp] theorem State.putAcc_now (s : State) (k : Nat) (bs : List Byte) : (s.putAcc k bs).now = s.now := rfl
@[simp] theorem State.putAcc_agenda (s : State) (k : Nat) (bs : List Byte) : (s.putAcc k bs).agenda = s.agenda := rfl
@[simp] theorem State.putAcc_turn (s : State) (k : Nat) (bs : List Byte) : (s.putAcc k bs).turn = s.turn := rfl
@[simp] theorem State.putAcc_free (s : State) (k : Nat) (bs : List Byte) : (s.putAcc k bs).free = s.free := rfl
@[simp] theorem State.putAcc_fresh (s : State) (k : Nat) (bs : List Byte) : (s.putAcc k bs).fresh = s.fresh := rfl
@[simp] theorem State.putAcc_threads (s : State) (k : Nat) (bs : List Byte) : (s.putAcc k bs).threads = s.threads := rfl
@[simp] theorem State.putAcc_teams (s : State) (k : Nat) (bs : List Byte) : (s.putAcc k bs).teams = s.teams := rfl
@[simp] theorem State.putAcc_pipes (s : State) (k : Nat) (bs : List Byte) : (s.putAcc k bs).pipes = s.pipes := rfl
@[simp] theorem State.putAcc_cores (s : State) (k : Nat) (bs : List Byte) : (s.putAcc k bs).cores = s.cores := rfl
@[simp] theorem State.putAcc_clusters (s : State) (k : Nat) (bs : List Byte) : (s.putAcc k bs).clusters = s.clusters := rfl
@[simp] theorem State.putAcc_slices (s : State) (k : Nat) (bs : List Byte) : (s.putAcc k bs).slices = s.slices := rfl
@[simp] theorem State.putAcc_jobs (s : State) (k : Nat) (bs : List Byte) : (s.putAcc k bs).jobs = s.jobs := rfl
@[simp] theorem State.putAcc_launches (s : State) (k : Nat) (bs : List Byte) : (s.putAcc k bs).launches = s.launches := rfl
@[simp] theorem State.putAcc_saved (s : State) (k : Nat) (bs : List Byte) : (s.putAcc k bs).saved = s.saved := rfl
@[simp] theorem State.putAcc_requests (s : State) (k : Nat) (bs : List Byte) : (s.putAcc k bs).requests = s.requests := rfl
@[simp] theorem State.putAcc_colls (s : State) (k : Nat) (bs : List Byte) : (s.putAcc k bs).colls = s.colls := rfl
@[simp] theorem State.putAcc_spad (s : State) (k : Nat) (bs : List Byte) : (s.putAcc k bs).spad = s.spad := rfl
@[simp] theorem State.putAcc_land (s : State) (k : Nat) (bs : List Byte) : (s.putAcc k bs).land = s.land := rfl
@[simp] theorem State.putAcc_acc (s : State) (k : Nat) (bs : List Byte) : (s.putAcc k bs).acc = mputs 0 k bs s.acc := rfl
@[simp] theorem State.putAcc_wbuf (s : State) (k : Nat) (bs : List Byte) : (s.putAcc k bs).wbuf = s.wbuf := rfl
@[simp] theorem State.putAcc_accTag (s : State) (k : Nat) (bs : List Byte) : (s.putAcc k bs).accTag = s.accTag := rfl
@[simp] theorem State.putAcc_wbTag (s : State) (k : Nat) (bs : List Byte) : (s.putAcc k bs).wbTag = s.wbTag := rfl
@[simp] theorem State.putAcc_mem (s : State) (k : Nat) (bs : List Byte) : (s.putAcc k bs).mem = s.mem := rfl
@[simp] theorem State.putAcc_stale (s : State) (k : Nat) (bs : List Byte) : (s.putAcc k bs).stale = s.stale := rfl
@[simp] theorem State.putAcc_lag (s : State) (k : Nat) (bs : List Byte) : (s.putAcc k bs).lag = s.lag := rfl
@[simp] theorem State.putAcc_vc (s : State) (k : Nat) (bs : List Byte) : (s.putAcc k bs).vc = s.vc := rfl
@[simp] theorem State.putAcc_repl (s : State) (k : Nat) (bs : List Byte) : (s.putAcc k bs).repl = s.repl := rfl
@[simp] theorem State.putAcc_dropped (s : State) (k : Nat) (bs : List Byte) : (s.putAcc k bs).dropped = s.dropped := rfl
@[simp] theorem State.putAcc_posted (s : State) (k : Nat) (bs : List Byte) : (s.putAcc k bs).posted = s.posted := rfl
@[simp] theorem State.putAcc_psnMem (s : State) (k : Nat) (bs : List Byte) : (s.putAcc k bs).psnMem = s.psnMem := rfl
@[simp] theorem State.putAcc_psnSpad (s : State) (k : Nat) (bs : List Byte) : (s.putAcc k bs).psnSpad = s.psnSpad := rfl
@[simp] theorem State.putAcc_psnLand (s : State) (k : Nat) (bs : List Byte) : (s.putAcc k bs).psnLand = s.psnLand := rfl
@[simp] theorem State.putAcc_psnAcc (s : State) (k : Nat) (bs : List Byte) : (s.putAcc k bs).psnAcc = clearPsn 8 k bs.length s.psnAcc := rfl
@[simp] theorem State.putAcc_psnWb (s : State) (k : Nat) (bs : List Byte) : (s.putAcc k bs).psnWb = s.psnWb := rfl
@[simp] theorem State.putAcc_psnTag (s : State) (k : Nat) (bs : List Byte) : (s.putAcc k bs).psnTag = s.psnTag := rfl
@[simp] theorem State.putAcc_tlb1 (s : State) (k : Nat) (bs : List Byte) : (s.putAcc k bs).tlb1 = s.tlb1 := rfl
@[simp] theorem State.putAcc_l1 (s : State) (k : Nat) (bs : List Byte) : (s.putAcc k bs).l1 = s.l1 := rfl
@[simp] theorem State.putAcc_llc (s : State) (k : Nat) (bs : List Byte) : (s.putAcc k bs).llc = s.llc := rfl
@[simp] theorem State.putAcc_waits (s : State) (k : Nat) (bs : List Byte) : (s.putAcc k bs).waits = s.waits := rfl
@[simp] theorem State.putAcc_tlb2 (s : State) (k : Nat) (bs : List Byte) : (s.putAcc k bs).tlb2 = s.tlb2 := rfl
@[simp] theorem State.putAcc_hub (s : State) (k : Nat) (bs : List Byte) : (s.putAcc k bs).hub = s.hub := rfl

@[simp] theorem State.putWb_now (s : State) (k : Nat) (bs : List Byte) : (s.putWb k bs).now = s.now := rfl
@[simp] theorem State.putWb_agenda (s : State) (k : Nat) (bs : List Byte) : (s.putWb k bs).agenda = s.agenda := rfl
@[simp] theorem State.putWb_turn (s : State) (k : Nat) (bs : List Byte) : (s.putWb k bs).turn = s.turn := rfl
@[simp] theorem State.putWb_free (s : State) (k : Nat) (bs : List Byte) : (s.putWb k bs).free = s.free := rfl
@[simp] theorem State.putWb_fresh (s : State) (k : Nat) (bs : List Byte) : (s.putWb k bs).fresh = s.fresh := rfl
@[simp] theorem State.putWb_threads (s : State) (k : Nat) (bs : List Byte) : (s.putWb k bs).threads = s.threads := rfl
@[simp] theorem State.putWb_teams (s : State) (k : Nat) (bs : List Byte) : (s.putWb k bs).teams = s.teams := rfl
@[simp] theorem State.putWb_pipes (s : State) (k : Nat) (bs : List Byte) : (s.putWb k bs).pipes = s.pipes := rfl
@[simp] theorem State.putWb_cores (s : State) (k : Nat) (bs : List Byte) : (s.putWb k bs).cores = s.cores := rfl
@[simp] theorem State.putWb_clusters (s : State) (k : Nat) (bs : List Byte) : (s.putWb k bs).clusters = s.clusters := rfl
@[simp] theorem State.putWb_slices (s : State) (k : Nat) (bs : List Byte) : (s.putWb k bs).slices = s.slices := rfl
@[simp] theorem State.putWb_jobs (s : State) (k : Nat) (bs : List Byte) : (s.putWb k bs).jobs = s.jobs := rfl
@[simp] theorem State.putWb_launches (s : State) (k : Nat) (bs : List Byte) : (s.putWb k bs).launches = s.launches := rfl
@[simp] theorem State.putWb_saved (s : State) (k : Nat) (bs : List Byte) : (s.putWb k bs).saved = s.saved := rfl
@[simp] theorem State.putWb_requests (s : State) (k : Nat) (bs : List Byte) : (s.putWb k bs).requests = s.requests := rfl
@[simp] theorem State.putWb_colls (s : State) (k : Nat) (bs : List Byte) : (s.putWb k bs).colls = s.colls := rfl
@[simp] theorem State.putWb_spad (s : State) (k : Nat) (bs : List Byte) : (s.putWb k bs).spad = s.spad := rfl
@[simp] theorem State.putWb_land (s : State) (k : Nat) (bs : List Byte) : (s.putWb k bs).land = s.land := rfl
@[simp] theorem State.putWb_acc (s : State) (k : Nat) (bs : List Byte) : (s.putWb k bs).acc = s.acc := rfl
@[simp] theorem State.putWb_wbuf (s : State) (k : Nat) (bs : List Byte) : (s.putWb k bs).wbuf = mputs 0 k bs s.wbuf := rfl
@[simp] theorem State.putWb_accTag (s : State) (k : Nat) (bs : List Byte) : (s.putWb k bs).accTag = s.accTag := rfl
@[simp] theorem State.putWb_wbTag (s : State) (k : Nat) (bs : List Byte) : (s.putWb k bs).wbTag = s.wbTag := rfl
@[simp] theorem State.putWb_mem (s : State) (k : Nat) (bs : List Byte) : (s.putWb k bs).mem = s.mem := rfl
@[simp] theorem State.putWb_stale (s : State) (k : Nat) (bs : List Byte) : (s.putWb k bs).stale = s.stale := rfl
@[simp] theorem State.putWb_lag (s : State) (k : Nat) (bs : List Byte) : (s.putWb k bs).lag = s.lag := rfl
@[simp] theorem State.putWb_vc (s : State) (k : Nat) (bs : List Byte) : (s.putWb k bs).vc = s.vc := rfl
@[simp] theorem State.putWb_repl (s : State) (k : Nat) (bs : List Byte) : (s.putWb k bs).repl = s.repl := rfl
@[simp] theorem State.putWb_dropped (s : State) (k : Nat) (bs : List Byte) : (s.putWb k bs).dropped = s.dropped := rfl
@[simp] theorem State.putWb_posted (s : State) (k : Nat) (bs : List Byte) : (s.putWb k bs).posted = s.posted := rfl
@[simp] theorem State.putWb_psnMem (s : State) (k : Nat) (bs : List Byte) : (s.putWb k bs).psnMem = s.psnMem := rfl
@[simp] theorem State.putWb_psnSpad (s : State) (k : Nat) (bs : List Byte) : (s.putWb k bs).psnSpad = s.psnSpad := rfl
@[simp] theorem State.putWb_psnLand (s : State) (k : Nat) (bs : List Byte) : (s.putWb k bs).psnLand = s.psnLand := rfl
@[simp] theorem State.putWb_psnAcc (s : State) (k : Nat) (bs : List Byte) : (s.putWb k bs).psnAcc = s.psnAcc := rfl
@[simp] theorem State.putWb_psnWb (s : State) (k : Nat) (bs : List Byte) : (s.putWb k bs).psnWb = clearPsn 8 k bs.length s.psnWb := rfl
@[simp] theorem State.putWb_psnTag (s : State) (k : Nat) (bs : List Byte) : (s.putWb k bs).psnTag = s.psnTag := rfl
@[simp] theorem State.putWb_tlb1 (s : State) (k : Nat) (bs : List Byte) : (s.putWb k bs).tlb1 = s.tlb1 := rfl
@[simp] theorem State.putWb_l1 (s : State) (k : Nat) (bs : List Byte) : (s.putWb k bs).l1 = s.l1 := rfl
@[simp] theorem State.putWb_llc (s : State) (k : Nat) (bs : List Byte) : (s.putWb k bs).llc = s.llc := rfl
@[simp] theorem State.putWb_waits (s : State) (k : Nat) (bs : List Byte) : (s.putWb k bs).waits = s.waits := rfl
@[simp] theorem State.putWb_tlb2 (s : State) (k : Nat) (bs : List Byte) : (s.putWb k bs).tlb2 = s.tlb2 := rfl
@[simp] theorem State.putWb_hub (s : State) (k : Nat) (bs : List Byte) : (s.putWb k bs).hub = s.hub := rfl

@[simp] theorem State.core_updCore_self (s : State) (k : Nat) (f : Core → Core) : (s.updCore k f).core k = f (s.core k) := by
  simp [State.core]
@[simp] theorem State.core_updCore_ne (s : State) {k j : Nat} (h : j ≠ k) (f : Core → Core) : (s.updCore k f).core j = s.core j := by
  simp [State.core, h]
@[simp] theorem State.cluster_updCluster_self (s : State) (k : Nat) (f : Cluster → Cluster) : (s.updCluster k f).cluster k = f (s.cluster k) := by
  simp [State.cluster]
@[simp] theorem State.cluster_updCluster_ne (s : State) {k j : Nat} (h : j ≠ k) (f : Cluster → Cluster) : (s.updCluster k f).cluster j = s.cluster j := by
  simp [State.cluster, h]
@[simp] theorem State.slice_updSlice_self (s : State) (k : Nat) (f : Slice → Slice) : (s.updSlice k f).slice k = f (s.slice k) := by
  simp [State.slice]
@[simp] theorem State.slice_updSlice_ne (s : State) {k j : Nat} (h : j ≠ k) (f : Slice → Slice) : (s.updSlice k f).slice j = s.slice j := by
  simp [State.slice, h]
@[simp] theorem State.pipe_setPipe_self (s : State) (c p : Nat) (x : Pipe) : (s.setPipe c p x).pipe c p = x := by
  simp [State.pipe]
theorem State.pipe_setPipe_ne (s : State) {c p c' p' : Nat} (h : 4 * c' + p' ≠ 4 * c + p) (x : Pipe) :
    (s.setPipe c p x).pipe c' p' = s.pipe c' p' := by
  simp [State.pipe, h]
@[simp] theorem State.team_updTeam_self (s : State) (i : Nat) (f : Team → Team) : (s.updTeam i f).team i = (s.team i).map f := by
  simp [State.team]
@[simp] theorem State.team_updTeam_ne (s : State) {i j : Nat} (h : j ≠ i) (f : Team → Team) : (s.updTeam i f).team j = s.team j := by
  simp [State.team, h]

-- Units that an update does not touch.

@[simp] theorem State.pipe_updCore (s : State) (c : Nat) (f : Core → Core) (j_ q_ : Nat) : (s.updCore c f).pipe j_ q_ = s.pipe j_ q_ := rfl
@[simp] theorem State.cluster_updCore (s : State) (c : Nat) (f : Core → Core) (j_ : Nat) : (s.updCore c f).cluster j_ = s.cluster j_ := rfl
@[simp] theorem State.slice_updCore (s : State) (c : Nat) (f : Core → Core) (j_ : Nat) : (s.updCore c f).slice j_ = s.slice j_ := rfl
@[simp] theorem State.team_updCore (s : State) (c : Nat) (f : Core → Core) (j_ : Nat) : (s.updCore c f).team j_ = s.team j_ := rfl
@[simp] theorem State.home_updCore (s : State) (c : Nat) (f : Core → Core) (j_ : Nat) : (s.updCore c f).home j_ = s.home j_ := rfl
@[simp] theorem State.core_setPipe (s : State) (c p : Nat) (x : Pipe) (j_ : Nat) : (s.setPipe c p x).core j_ = s.core j_ := rfl
@[simp] theorem State.cluster_setPipe (s : State) (c p : Nat) (x : Pipe) (j_ : Nat) : (s.setPipe c p x).cluster j_ = s.cluster j_ := rfl
@[simp] theorem State.slice_setPipe (s : State) (c p : Nat) (x : Pipe) (j_ : Nat) : (s.setPipe c p x).slice j_ = s.slice j_ := rfl
@[simp] theorem State.team_setPipe (s : State) (c p : Nat) (x : Pipe) (j_ : Nat) : (s.setPipe c p x).team j_ = s.team j_ := rfl
@[simp] theorem State.home_setPipe (s : State) (c p : Nat) (x : Pipe) (j_ : Nat) : (s.setPipe c p x).home j_ = s.home j_ := rfl
@[simp] theorem State.core_updCluster (s : State) (k : Nat) (f : Cluster → Cluster) (j_ : Nat) : (s.updCluster k f).core j_ = s.core j_ := rfl
@[simp] theorem State.pipe_updCluster (s : State) (k : Nat) (f : Cluster → Cluster) (j_ q_ : Nat) : (s.updCluster k f).pipe j_ q_ = s.pipe j_ q_ := rfl
@[simp] theorem State.slice_updCluster (s : State) (k : Nat) (f : Cluster → Cluster) (j_ : Nat) : (s.updCluster k f).slice j_ = s.slice j_ := rfl
@[simp] theorem State.team_updCluster (s : State) (k : Nat) (f : Cluster → Cluster) (j_ : Nat) : (s.updCluster k f).team j_ = s.team j_ := rfl
@[simp] theorem State.home_updCluster (s : State) (k : Nat) (f : Cluster → Cluster) (j_ : Nat) : (s.updCluster k f).home j_ = s.home j_ := rfl
@[simp] theorem State.core_updSlice (s : State) (k : Nat) (f : Slice → Slice) (j_ : Nat) : (s.updSlice k f).core j_ = s.core j_ := rfl
@[simp] theorem State.pipe_updSlice (s : State) (k : Nat) (f : Slice → Slice) (j_ q_ : Nat) : (s.updSlice k f).pipe j_ q_ = s.pipe j_ q_ := rfl
@[simp] theorem State.cluster_updSlice (s : State) (k : Nat) (f : Slice → Slice) (j_ : Nat) : (s.updSlice k f).cluster j_ = s.cluster j_ := rfl
@[simp] theorem State.team_updSlice (s : State) (k : Nat) (f : Slice → Slice) (j_ : Nat) : (s.updSlice k f).team j_ = s.team j_ := rfl
@[simp] theorem State.home_updSlice (s : State) (k : Nat) (f : Slice → Slice) (j_ : Nat) : (s.updSlice k f).home j_ = s.home j_ := rfl
@[simp] theorem State.core_updThread (s : State) (i : Nat) (f : Thread → Thread) (j_ : Nat) : (s.updThread i f).core j_ = s.core j_ := rfl
@[simp] theorem State.pipe_updThread (s : State) (i : Nat) (f : Thread → Thread) (j_ q_ : Nat) : (s.updThread i f).pipe j_ q_ = s.pipe j_ q_ := rfl
@[simp] theorem State.cluster_updThread (s : State) (i : Nat) (f : Thread → Thread) (j_ : Nat) : (s.updThread i f).cluster j_ = s.cluster j_ := rfl
@[simp] theorem State.slice_updThread (s : State) (i : Nat) (f : Thread → Thread) (j_ : Nat) : (s.updThread i f).slice j_ = s.slice j_ := rfl
@[simp] theorem State.team_updThread (s : State) (i : Nat) (f : Thread → Thread) (j_ : Nat) : (s.updThread i f).team j_ = s.team j_ := rfl
@[simp] theorem State.home_updThread (s : State) (i : Nat) (f : Thread → Thread) (j_ : Nat) : (s.updThread i f).home j_ = s.home j_ := rfl
@[simp] theorem State.core_updTeam (s : State) (i : Nat) (f : Team → Team) (j_ : Nat) : (s.updTeam i f).core j_ = s.core j_ := rfl
@[simp] theorem State.pipe_updTeam (s : State) (i : Nat) (f : Team → Team) (j_ q_ : Nat) : (s.updTeam i f).pipe j_ q_ = s.pipe j_ q_ := rfl
@[simp] theorem State.cluster_updTeam (s : State) (i : Nat) (f : Team → Team) (j_ : Nat) : (s.updTeam i f).cluster j_ = s.cluster j_ := rfl
@[simp] theorem State.slice_updTeam (s : State) (i : Nat) (f : Team → Team) (j_ : Nat) : (s.updTeam i f).slice j_ = s.slice j_ := rfl
@[simp] theorem State.home_updTeam (s : State) (i : Nat) (f : Team → Team) (j_ : Nat) : (s.updTeam i f).home j_ = s.home j_ := rfl
@[simp] theorem State.pipe_nextCycle (s : State) (t : Nat) (j_ q_ : Nat) : (s.nextCycle t).pipe j_ q_ = s.pipe j_ q_ := rfl
@[simp] theorem State.cluster_nextCycle (s : State) (t : Nat) (j_ : Nat) : (s.nextCycle t).cluster j_ = s.cluster j_ := rfl
@[simp] theorem State.slice_nextCycle (s : State) (t : Nat) (j_ : Nat) : (s.nextCycle t).slice j_ = s.slice j_ := rfl
@[simp] theorem State.home_nextCycle (s : State) (t : Nat) (j_ : Nat) : (s.nextCycle t).home j_ = s.home j_ := rfl
@[simp] theorem State.core_putHome (s : State) (a : Nat) (bs : List Byte) (j_ : Nat) : (s.putHome a bs).core j_ = s.core j_ := rfl
@[simp] theorem State.pipe_putHome (s : State) (a : Nat) (bs : List Byte) (j_ q_ : Nat) : (s.putHome a bs).pipe j_ q_ = s.pipe j_ q_ := rfl
@[simp] theorem State.cluster_putHome (s : State) (a : Nat) (bs : List Byte) (j_ : Nat) : (s.putHome a bs).cluster j_ = s.cluster j_ := rfl
@[simp] theorem State.slice_putHome (s : State) (a : Nat) (bs : List Byte) (j_ : Nat) : (s.putHome a bs).slice j_ = s.slice j_ := rfl
@[simp] theorem State.team_putHome (s : State) (a : Nat) (bs : List Byte) (j_ : Nat) : (s.putHome a bs).team j_ = s.team j_ := rfl
@[simp] theorem State.core_dieWrite (s : State) (d a : Nat) (bs : List Byte) (j_ : Nat) : (s.dieWrite d a bs).core j_ = s.core j_ := rfl
@[simp] theorem State.pipe_dieWrite (s : State) (d a : Nat) (bs : List Byte) (j_ q_ : Nat) : (s.dieWrite d a bs).pipe j_ q_ = s.pipe j_ q_ := rfl
@[simp] theorem State.cluster_dieWrite (s : State) (d a : Nat) (bs : List Byte) (j_ : Nat) : (s.dieWrite d a bs).cluster j_ = s.cluster j_ := rfl
@[simp] theorem State.slice_dieWrite (s : State) (d a : Nat) (bs : List Byte) (j_ : Nat) : (s.dieWrite d a bs).slice j_ = s.slice j_ := rfl
@[simp] theorem State.team_dieWrite (s : State) (d a : Nat) (bs : List Byte) (j_ : Nat) : (s.dieWrite d a bs).team j_ = s.team j_ := rfl
@[simp] theorem State.core_applyLag (s : State) (l : Lag) (r : List Lag) (j_ : Nat) : (s.applyLag l r).core j_ = s.core j_ := rfl
@[simp] theorem State.pipe_applyLag (s : State) (l : Lag) (r : List Lag) (j_ q_ : Nat) : (s.applyLag l r).pipe j_ q_ = s.pipe j_ q_ := rfl
@[simp] theorem State.cluster_applyLag (s : State) (l : Lag) (r : List Lag) (j_ : Nat) : (s.applyLag l r).cluster j_ = s.cluster j_ := rfl
@[simp] theorem State.slice_applyLag (s : State) (l : Lag) (r : List Lag) (j_ : Nat) : (s.applyLag l r).slice j_ = s.slice j_ := rfl
@[simp] theorem State.team_applyLag (s : State) (l : Lag) (r : List Lag) (j_ : Nat) : (s.applyLag l r).team j_ = s.team j_ := rfl
@[simp] theorem State.home_applyLag (s : State) (l : Lag) (r : List Lag) (j_ : Nat) : (s.applyLag l r).home j_ = s.home j_ := rfl
@[simp] theorem State.core_drain (s : State) (j_ : Nat) : (s.drain).core j_ = s.core j_ := rfl
@[simp] theorem State.pipe_drain (s : State) (j_ q_ : Nat) : (s.drain).pipe j_ q_ = s.pipe j_ q_ := rfl
@[simp] theorem State.cluster_drain (s : State) (j_ : Nat) : (s.drain).cluster j_ = s.cluster j_ := rfl
@[simp] theorem State.slice_drain (s : State) (j_ : Nat) : (s.drain).slice j_ = s.slice j_ := rfl
@[simp] theorem State.team_drain (s : State) (j_ : Nat) : (s.drain).team j_ = s.team j_ := rfl
@[simp] theorem State.home_drain (s : State) (j_ : Nat) : (s.drain).home j_ = s.home j_ := rfl
@[simp] theorem State.core_catchUp (s : State) (e : Nat) (j_ : Nat) : (s.catchUp e).core j_ = s.core j_ := rfl
@[simp] theorem State.pipe_catchUp (s : State) (e : Nat) (j_ q_ : Nat) : (s.catchUp e).pipe j_ q_ = s.pipe j_ q_ := rfl
@[simp] theorem State.cluster_catchUp (s : State) (e : Nat) (j_ : Nat) : (s.catchUp e).cluster j_ = s.cluster j_ := rfl
@[simp] theorem State.slice_catchUp (s : State) (e : Nat) (j_ : Nat) : (s.catchUp e).slice j_ = s.slice j_ := rfl
@[simp] theorem State.team_catchUp (s : State) (e : Nat) (j_ : Nat) : (s.catchUp e).team j_ = s.team j_ := rfl
@[simp] theorem State.home_catchUp (s : State) (e : Nat) (j_ : Nat) : (s.catchUp e).home j_ = s.home j_ := rfl
@[simp] theorem State.core_putSpad (s : State) (k : Nat) (bs : List Byte) (j_ : Nat) : (s.putSpad k bs).core j_ = s.core j_ := rfl
@[simp] theorem State.pipe_putSpad (s : State) (k : Nat) (bs : List Byte) (j_ q_ : Nat) : (s.putSpad k bs).pipe j_ q_ = s.pipe j_ q_ := rfl
@[simp] theorem State.cluster_putSpad (s : State) (k : Nat) (bs : List Byte) (j_ : Nat) : (s.putSpad k bs).cluster j_ = s.cluster j_ := rfl
@[simp] theorem State.slice_putSpad (s : State) (k : Nat) (bs : List Byte) (j_ : Nat) : (s.putSpad k bs).slice j_ = s.slice j_ := rfl
@[simp] theorem State.team_putSpad (s : State) (k : Nat) (bs : List Byte) (j_ : Nat) : (s.putSpad k bs).team j_ = s.team j_ := rfl
@[simp] theorem State.home_putSpad (s : State) (k : Nat) (bs : List Byte) (j_ : Nat) : (s.putSpad k bs).home j_ = s.home j_ := rfl
@[simp] theorem State.core_putLand (s : State) (k : Nat) (bs : List Byte) (j_ : Nat) : (s.putLand k bs).core j_ = s.core j_ := rfl
@[simp] theorem State.pipe_putLand (s : State) (k : Nat) (bs : List Byte) (j_ q_ : Nat) : (s.putLand k bs).pipe j_ q_ = s.pipe j_ q_ := rfl
@[simp] theorem State.cluster_putLand (s : State) (k : Nat) (bs : List Byte) (j_ : Nat) : (s.putLand k bs).cluster j_ = s.cluster j_ := rfl
@[simp] theorem State.slice_putLand (s : State) (k : Nat) (bs : List Byte) (j_ : Nat) : (s.putLand k bs).slice j_ = s.slice j_ := rfl
@[simp] theorem State.team_putLand (s : State) (k : Nat) (bs : List Byte) (j_ : Nat) : (s.putLand k bs).team j_ = s.team j_ := rfl
@[simp] theorem State.home_putLand (s : State) (k : Nat) (bs : List Byte) (j_ : Nat) : (s.putLand k bs).home j_ = s.home j_ := rfl
@[simp] theorem State.core_putAcc (s : State) (k : Nat) (bs : List Byte) (j_ : Nat) : (s.putAcc k bs).core j_ = s.core j_ := rfl
@[simp] theorem State.pipe_putAcc (s : State) (k : Nat) (bs : List Byte) (j_ q_ : Nat) : (s.putAcc k bs).pipe j_ q_ = s.pipe j_ q_ := rfl
@[simp] theorem State.cluster_putAcc (s : State) (k : Nat) (bs : List Byte) (j_ : Nat) : (s.putAcc k bs).cluster j_ = s.cluster j_ := rfl
@[simp] theorem State.slice_putAcc (s : State) (k : Nat) (bs : List Byte) (j_ : Nat) : (s.putAcc k bs).slice j_ = s.slice j_ := rfl
@[simp] theorem State.team_putAcc (s : State) (k : Nat) (bs : List Byte) (j_ : Nat) : (s.putAcc k bs).team j_ = s.team j_ := rfl
@[simp] theorem State.home_putAcc (s : State) (k : Nat) (bs : List Byte) (j_ : Nat) : (s.putAcc k bs).home j_ = s.home j_ := rfl
@[simp] theorem State.core_putWb (s : State) (k : Nat) (bs : List Byte) (j_ : Nat) : (s.putWb k bs).core j_ = s.core j_ := rfl
@[simp] theorem State.pipe_putWb (s : State) (k : Nat) (bs : List Byte) (j_ q_ : Nat) : (s.putWb k bs).pipe j_ q_ = s.pipe j_ q_ := rfl
@[simp] theorem State.cluster_putWb (s : State) (k : Nat) (bs : List Byte) (j_ : Nat) : (s.putWb k bs).cluster j_ = s.cluster j_ := rfl
@[simp] theorem State.slice_putWb (s : State) (k : Nat) (bs : List Byte) (j_ : Nat) : (s.putWb k bs).slice j_ = s.slice j_ := rfl
@[simp] theorem State.team_putWb (s : State) (k : Nat) (bs : List Byte) (j_ : Nat) : (s.putWb k bs).team j_ = s.team j_ := rfl
@[simp] theorem State.home_putWb (s : State) (k : Nat) (bs : List Byte) (j_ : Nat) : (s.putWb k bs).home j_ = s.home j_ := rfl

/-- A byte of the home after a write to it (R186). -/
theorem State.home_putHome (s : State) (a : Nat) (bs : List Byte) (j : Nat) :
    (s.putHome a bs).home j = if a ≤ j ∧ j < a + bs.length then bs.getD (j - a) unwritten else s.home j := by
  simp [State.home, mget_mputs]
theorem State.home_dieWrite (s : State) (d a : Nat) (bs : List Byte) (j : Nat) :
    (s.dieWrite d a bs).home j = if a ≤ j ∧ j < a + bs.length then bs.getD (j - a) unwritten else s.home j := by
  simp [State.home, mget_mputs]

-- Threads' and teams' registers.

@[simp] theorem Thread.reg_setReg_self (t : Thread) (n : Nat) (x : Word) (g : BitVec 4) : (t.setReg n x g).reg n = ⟨x, g⟩ := by
  simp [Thread.reg, Thread.setReg]
@[simp] theorem Thread.reg_setReg_ne (t : Thread) {n k : Nat} (h : k ≠ n) (x : Word) (g : BitVec 4) : (t.setReg n x g).reg k = t.reg k := by
  simp [Thread.reg, Thread.setReg, h]

@[simp] theorem Thread.setReg_team (t : Thread) (n : Nat) (x : Word) (g : BitVec 4) : (t.setReg n x g).team = t.team := rfl
@[simp] theorem Thread.setReg_tnum (t : Thread) (n : Nat) (x : Word) (g : BitVec 4) : (t.setReg n x g).tnum = t.tnum := rfl
@[simp] theorem Thread.setReg_wid (t : Thread) (n : Nat) (x : Word) (g : BitVec 4) : (t.setReg n x g).wid = t.wid := rfl
@[simp] theorem Thread.setReg_pc (t : Thread) (n : Nat) (x : Word) (g : BitVec 4) : (t.setReg n x g).pc = t.pc := rfl
@[simp] theorem Thread.setReg_sup (t : Thread) (n : Nat) (x : Word) (g : BitVec 4) : (t.setReg n x g).sup = t.sup := rfl
@[simp] theorem Thread.setReg_inj (t : Thread) (n : Nat) (x : Word) (g : BitVec 4) : (t.setReg n x g).inj = t.inj := rfl
@[simp] theorem Thread.setReg_place (t : Thread) (n : Nat) (x : Word) (g : BitVec 4) : (t.setReg n x g).place = t.place := rfl
@[simp] theorem Thread.setReg_p (t : Thread) (n : Nat) (x : Word) (g : BitVec 4) : (t.setReg n x g).p = t.p := rfl
@[simp] theorem Thread.setReg_busyV (t : Thread) (n : Nat) (x : Word) (g : BitVec 4) : (t.setReg n x g).busyV = t.busyV := rfl
@[simp] theorem Thread.setReg_busyS (t : Thread) (n : Nat) (x : Word) (g : BitVec 4) : (t.setReg n x g).busyS = t.busyS := rfl
@[simp] theorem Thread.setReg_psnP (t : Thread) (n : Nat) (x : Word) (g : BitVec 4) : (t.setReg n x g).psnP = t.psnP := rfl
@[simp] theorem Thread.setPred_team (t : Thread) (k : BitVec 3) (b : Bool) : (t.setPred k b).team = t.team := rfl
@[simp] theorem Thread.setPred_tnum (t : Thread) (k : BitVec 3) (b : Bool) : (t.setPred k b).tnum = t.tnum := rfl
@[simp] theorem Thread.setPred_wid (t : Thread) (k : BitVec 3) (b : Bool) : (t.setPred k b).wid = t.wid := rfl
@[simp] theorem Thread.setPred_pc (t : Thread) (k : BitVec 3) (b : Bool) : (t.setPred k b).pc = t.pc := rfl
@[simp] theorem Thread.setPred_sup (t : Thread) (k : BitVec 3) (b : Bool) : (t.setPred k b).sup = t.sup := rfl
@[simp] theorem Thread.setPred_inj (t : Thread) (k : BitVec 3) (b : Bool) : (t.setPred k b).inj = t.inj := rfl
@[simp] theorem Thread.setPred_place (t : Thread) (k : BitVec 3) (b : Bool) : (t.setPred k b).place = t.place := rfl
@[simp] theorem Thread.setPred_v (t : Thread) (k : BitVec 3) (b : Bool) : (t.setPred k b).v = t.v := rfl
@[simp] theorem Thread.setPred_busyV (t : Thread) (k : BitVec 3) (b : Bool) : (t.setPred k b).busyV = t.busyV := rfl
@[simp] theorem Thread.setPred_busyS (t : Thread) (k : BitVec 3) (b : Bool) : (t.setPred k b).busyS = t.busyS := rfl
@[simp] theorem Thread.setPred_psnV (t : Thread) (k : BitVec 3) (b : Bool) : (t.setPred k b).psnV = t.psnV := rfl
@[simp] theorem Thread.setPred_psnP (t : Thread) (k : BitVec 3) (b : Bool) : (t.setPred k b).psnP = t.psnP := rfl
@[simp] theorem Team.setS_core (t : Team) (n : Nat) (x : Word) : (t.setS n x).core = t.core := rfl
@[simp] theorem Team.setS_slot (t : Team) (n : Nat) (x : Word) : (t.setS n x).slot = t.slot := rfl
@[simp] theorem Team.setS_asid (t : Team) (n : Nat) (x : Word) : (t.setS n x).asid = t.asid := rfl
@[simp] theorem Team.setS_slice (t : Team) (n : Nat) (x : Word) : (t.setS n x).slice = t.slice := rfl
@[simp] theorem Team.setS_queue (t : Team) (n : Nat) (x : Word) : (t.setS n x).queue = t.queue := rfl
@[simp] theorem Team.setS_launch (t : Team) (n : Nat) (x : Word) : (t.setS n x).launch = t.launch := rfl
@[simp] theorem Team.setS_num (t : Team) (n : Nat) (x : Word) : (t.setS n x).num = t.num := rfl
@[simp] theorem Team.setS_size (t : Team) (n : Nat) (x : Word) : (t.setS n x).size = t.size := rfl
@[simp] theorem Team.setS_ext (t : Team) (n : Nat) (x : Word) : (t.setS n x).ext = t.ext := rfl
@[simp] theorem Team.setS_a (t : Team) (n : Nat) (x : Word) : (t.setS n x).a = t.a := rfl
@[simp] theorem Team.setS_csr (t : Team) (n : Nat) (x : Word) : (t.setS n x).csr = t.csr := rfl
@[simp] theorem Team.setS_sWas (t : Team) (n : Nat) (x : Word) : (t.setS n x).sWas = t.sWas := rfl
@[simp] theorem Team.setS_aWas (t : Team) (n : Nat) (x : Word) : (t.setS n x).aWas = t.aWas := rfl
@[simp] theorem Team.setS_csrWas (t : Team) (n : Nat) (x : Word) : (t.setS n x).csrWas = t.csrWas := rfl
@[simp] theorem Team.setS_tags (t : Team) (n : Nat) (x : Word) : (t.setS n x).tags = t.tags := rfl
@[simp] theorem Team.setS_trapLen (t : Team) (n : Nat) (x : Word) : (t.setS n x).trapLen = t.trapLen := rfl
@[simp] theorem Team.setS_inService (t : Team) (n : Nat) (x : Word) : (t.setS n x).inService = t.inService := rfl
@[simp] theorem Team.setS_heldQ (t : Team) (n : Nat) (x : Word) : (t.setS n x).heldQ = t.heldQ := rfl
@[simp] theorem Team.setS_parkedQ (t : Team) (n : Nat) (x : Word) : (t.setS n x).parkedQ = t.parkedQ := rfl
@[simp] theorem Team.setS_verdicts (t : Team) (n : Nat) (x : Word) : (t.setS n x).verdicts = t.verdicts := rfl
@[simp] theorem Team.setS_spad0 (t : Team) (n : Nat) (x : Word) : (t.setS n x).spad0 = t.spad0 := rfl
@[simp] theorem Team.setS_spadN (t : Team) (n : Nat) (x : Word) : (t.setS n x).spadN = t.spadN := rfl
@[simp] theorem Team.setS_acc0 (t : Team) (n : Nat) (x : Word) : (t.setS n x).acc0 = t.acc0 := rfl
@[simp] theorem Team.setS_accN (t : Team) (n : Nat) (x : Word) : (t.setS n x).accN = t.accN := rfl
@[simp] theorem Team.setS_wb0 (t : Team) (n : Nat) (x : Word) : (t.setS n x).wb0 = t.wb0 := rfl
@[simp] theorem Team.setS_wbN (t : Team) (n : Nat) (x : Word) : (t.setS n x).wbN = t.wbN := rfl
@[simp] theorem Team.setS_pinned (t : Team) (n : Nat) (x : Word) : (t.setS n x).pinned = t.pinned := rfl
@[simp] theorem Team.setS_waitPin (t : Team) (n : Nat) (x : Word) : (t.setS n x).waitPin = t.waitPin := rfl
@[simp] theorem Team.setS_reqOut (t : Team) (n : Nat) (x : Word) : (t.setS n x).reqOut = t.reqOut := rfl
@[simp] theorem Team.setS_routine (t : Team) (n : Nat) (x : Word) : (t.setS n x).routine = t.routine := rfl
@[simp] theorem Team.setS_ending (t : Team) (n : Nat) (x : Word) : (t.setS n x).ending = t.ending := rfl
@[simp] theorem Team.setS_preempt (t : Team) (n : Nat) (x : Word) : (t.setS n x).preempt = t.preempt := rfl
@[simp] theorem Team.setS_saveAt (t : Team) (n : Nat) (x : Word) : (t.setS n x).saveAt = t.saveAt := rfl
@[simp] theorem Team.setS_merged (t : Team) (n : Nat) (x : Word) : (t.setS n x).merged = t.merged := rfl
@[simp] theorem Team.setS_psnA (t : Team) (n : Nat) (x : Word) : (t.setS n x).psnA = t.psnA := rfl
@[simp] theorem Team.setA_core (t : Team) (n : Nat) (x : DWord) : (t.setA n x).core = t.core := rfl
@[simp] theorem Team.setA_slot (t : Team) (n : Nat) (x : DWord) : (t.setA n x).slot = t.slot := rfl
@[simp] theorem Team.setA_asid (t : Team) (n : Nat) (x : DWord) : (t.setA n x).asid = t.asid := rfl
@[simp] theorem Team.setA_slice (t : Team) (n : Nat) (x : DWord) : (t.setA n x).slice = t.slice := rfl
@[simp] theorem Team.setA_queue (t : Team) (n : Nat) (x : DWord) : (t.setA n x).queue = t.queue := rfl
@[simp] theorem Team.setA_launch (t : Team) (n : Nat) (x : DWord) : (t.setA n x).launch = t.launch := rfl
@[simp] theorem Team.setA_num (t : Team) (n : Nat) (x : DWord) : (t.setA n x).num = t.num := rfl
@[simp] theorem Team.setA_size (t : Team) (n : Nat) (x : DWord) : (t.setA n x).size = t.size := rfl
@[simp] theorem Team.setA_ext (t : Team) (n : Nat) (x : DWord) : (t.setA n x).ext = t.ext := rfl
@[simp] theorem Team.setA_s (t : Team) (n : Nat) (x : DWord) : (t.setA n x).s = t.s := rfl
@[simp] theorem Team.setA_csr (t : Team) (n : Nat) (x : DWord) : (t.setA n x).csr = t.csr := rfl
@[simp] theorem Team.setA_sWas (t : Team) (n : Nat) (x : DWord) : (t.setA n x).sWas = t.sWas := rfl
@[simp] theorem Team.setA_aWas (t : Team) (n : Nat) (x : DWord) : (t.setA n x).aWas = t.aWas := rfl
@[simp] theorem Team.setA_csrWas (t : Team) (n : Nat) (x : DWord) : (t.setA n x).csrWas = t.csrWas := rfl
@[simp] theorem Team.setA_tags (t : Team) (n : Nat) (x : DWord) : (t.setA n x).tags = t.tags := rfl
@[simp] theorem Team.setA_trapLen (t : Team) (n : Nat) (x : DWord) : (t.setA n x).trapLen = t.trapLen := rfl
@[simp] theorem Team.setA_inService (t : Team) (n : Nat) (x : DWord) : (t.setA n x).inService = t.inService := rfl
@[simp] theorem Team.setA_heldQ (t : Team) (n : Nat) (x : DWord) : (t.setA n x).heldQ = t.heldQ := rfl
@[simp] theorem Team.setA_parkedQ (t : Team) (n : Nat) (x : DWord) : (t.setA n x).parkedQ = t.parkedQ := rfl
@[simp] theorem Team.setA_verdicts (t : Team) (n : Nat) (x : DWord) : (t.setA n x).verdicts = t.verdicts := rfl
@[simp] theorem Team.setA_spad0 (t : Team) (n : Nat) (x : DWord) : (t.setA n x).spad0 = t.spad0 := rfl
@[simp] theorem Team.setA_spadN (t : Team) (n : Nat) (x : DWord) : (t.setA n x).spadN = t.spadN := rfl
@[simp] theorem Team.setA_acc0 (t : Team) (n : Nat) (x : DWord) : (t.setA n x).acc0 = t.acc0 := rfl
@[simp] theorem Team.setA_accN (t : Team) (n : Nat) (x : DWord) : (t.setA n x).accN = t.accN := rfl
@[simp] theorem Team.setA_wb0 (t : Team) (n : Nat) (x : DWord) : (t.setA n x).wb0 = t.wb0 := rfl
@[simp] theorem Team.setA_wbN (t : Team) (n : Nat) (x : DWord) : (t.setA n x).wbN = t.wbN := rfl
@[simp] theorem Team.setA_pinned (t : Team) (n : Nat) (x : DWord) : (t.setA n x).pinned = t.pinned := rfl
@[simp] theorem Team.setA_waitPin (t : Team) (n : Nat) (x : DWord) : (t.setA n x).waitPin = t.waitPin := rfl
@[simp] theorem Team.setA_reqOut (t : Team) (n : Nat) (x : DWord) : (t.setA n x).reqOut = t.reqOut := rfl
@[simp] theorem Team.setA_routine (t : Team) (n : Nat) (x : DWord) : (t.setA n x).routine = t.routine := rfl
@[simp] theorem Team.setA_ending (t : Team) (n : Nat) (x : DWord) : (t.setA n x).ending = t.ending := rfl
@[simp] theorem Team.setA_preempt (t : Team) (n : Nat) (x : DWord) : (t.setA n x).preempt = t.preempt := rfl
@[simp] theorem Team.setA_saveAt (t : Team) (n : Nat) (x : DWord) : (t.setA n x).saveAt = t.saveAt := rfl
@[simp] theorem Team.setA_merged (t : Team) (n : Nat) (x : DWord) : (t.setA n x).merged = t.merged := rfl
@[simp] theorem Team.setA_psnS (t : Team) (n : Nat) (x : DWord) : (t.setA n x).psnS = t.psnS := rfl
@[simp] theorem Team.setCsr_core (t : Team) (n : Nat) (x : DWord) : (t.setCsr n x).core = t.core := rfl
@[simp] theorem Team.setCsr_slot (t : Team) (n : Nat) (x : DWord) : (t.setCsr n x).slot = t.slot := rfl
@[simp] theorem Team.setCsr_asid (t : Team) (n : Nat) (x : DWord) : (t.setCsr n x).asid = t.asid := rfl
@[simp] theorem Team.setCsr_slice (t : Team) (n : Nat) (x : DWord) : (t.setCsr n x).slice = t.slice := rfl
@[simp] theorem Team.setCsr_queue (t : Team) (n : Nat) (x : DWord) : (t.setCsr n x).queue = t.queue := rfl
@[simp] theorem Team.setCsr_launch (t : Team) (n : Nat) (x : DWord) : (t.setCsr n x).launch = t.launch := rfl
@[simp] theorem Team.setCsr_num (t : Team) (n : Nat) (x : DWord) : (t.setCsr n x).num = t.num := rfl
@[simp] theorem Team.setCsr_size (t : Team) (n : Nat) (x : DWord) : (t.setCsr n x).size = t.size := rfl
@[simp] theorem Team.setCsr_ext (t : Team) (n : Nat) (x : DWord) : (t.setCsr n x).ext = t.ext := rfl
@[simp] theorem Team.setCsr_s (t : Team) (n : Nat) (x : DWord) : (t.setCsr n x).s = t.s := rfl
@[simp] theorem Team.setCsr_a (t : Team) (n : Nat) (x : DWord) : (t.setCsr n x).a = t.a := rfl
@[simp] theorem Team.setCsr_sWas (t : Team) (n : Nat) (x : DWord) : (t.setCsr n x).sWas = t.sWas := rfl
@[simp] theorem Team.setCsr_aWas (t : Team) (n : Nat) (x : DWord) : (t.setCsr n x).aWas = t.aWas := rfl
@[simp] theorem Team.setCsr_csrWas (t : Team) (n : Nat) (x : DWord) : (t.setCsr n x).csrWas = t.csrWas := rfl
@[simp] theorem Team.setCsr_tags (t : Team) (n : Nat) (x : DWord) : (t.setCsr n x).tags = t.tags := rfl
@[simp] theorem Team.setCsr_trapLen (t : Team) (n : Nat) (x : DWord) : (t.setCsr n x).trapLen = t.trapLen := rfl
@[simp] theorem Team.setCsr_inService (t : Team) (n : Nat) (x : DWord) : (t.setCsr n x).inService = t.inService := rfl
@[simp] theorem Team.setCsr_heldQ (t : Team) (n : Nat) (x : DWord) : (t.setCsr n x).heldQ = t.heldQ := rfl
@[simp] theorem Team.setCsr_parkedQ (t : Team) (n : Nat) (x : DWord) : (t.setCsr n x).parkedQ = t.parkedQ := rfl
@[simp] theorem Team.setCsr_verdicts (t : Team) (n : Nat) (x : DWord) : (t.setCsr n x).verdicts = t.verdicts := rfl
@[simp] theorem Team.setCsr_spad0 (t : Team) (n : Nat) (x : DWord) : (t.setCsr n x).spad0 = t.spad0 := rfl
@[simp] theorem Team.setCsr_spadN (t : Team) (n : Nat) (x : DWord) : (t.setCsr n x).spadN = t.spadN := rfl
@[simp] theorem Team.setCsr_acc0 (t : Team) (n : Nat) (x : DWord) : (t.setCsr n x).acc0 = t.acc0 := rfl
@[simp] theorem Team.setCsr_accN (t : Team) (n : Nat) (x : DWord) : (t.setCsr n x).accN = t.accN := rfl
@[simp] theorem Team.setCsr_wb0 (t : Team) (n : Nat) (x : DWord) : (t.setCsr n x).wb0 = t.wb0 := rfl
@[simp] theorem Team.setCsr_wbN (t : Team) (n : Nat) (x : DWord) : (t.setCsr n x).wbN = t.wbN := rfl
@[simp] theorem Team.setCsr_pinned (t : Team) (n : Nat) (x : DWord) : (t.setCsr n x).pinned = t.pinned := rfl
@[simp] theorem Team.setCsr_waitPin (t : Team) (n : Nat) (x : DWord) : (t.setCsr n x).waitPin = t.waitPin := rfl
@[simp] theorem Team.setCsr_reqOut (t : Team) (n : Nat) (x : DWord) : (t.setCsr n x).reqOut = t.reqOut := rfl
@[simp] theorem Team.setCsr_routine (t : Team) (n : Nat) (x : DWord) : (t.setCsr n x).routine = t.routine := rfl
@[simp] theorem Team.setCsr_ending (t : Team) (n : Nat) (x : DWord) : (t.setCsr n x).ending = t.ending := rfl
@[simp] theorem Team.setCsr_preempt (t : Team) (n : Nat) (x : DWord) : (t.setCsr n x).preempt = t.preempt := rfl
@[simp] theorem Team.setCsr_saveAt (t : Team) (n : Nat) (x : DWord) : (t.setCsr n x).saveAt = t.saveAt := rfl
@[simp] theorem Team.setCsr_merged (t : Team) (n : Nat) (x : DWord) : (t.setCsr n x).merged = t.merged := rfl
@[simp] theorem Team.setCsr_psnS (t : Team) (n : Nat) (x : DWord) : (t.setCsr n x).psnS = t.psnS := rfl
@[simp] theorem Team.setCsr_psnA (t : Team) (n : Nat) (x : DWord) : (t.setCsr n x).psnA = t.psnA := rfl
@[simp] theorem Team.setTag_core (t : Team) (n : Nat) (x : CTag) : (t.setTag n x).core = t.core := rfl
@[simp] theorem Team.setTag_slot (t : Team) (n : Nat) (x : CTag) : (t.setTag n x).slot = t.slot := rfl
@[simp] theorem Team.setTag_asid (t : Team) (n : Nat) (x : CTag) : (t.setTag n x).asid = t.asid := rfl
@[simp] theorem Team.setTag_slice (t : Team) (n : Nat) (x : CTag) : (t.setTag n x).slice = t.slice := rfl
@[simp] theorem Team.setTag_queue (t : Team) (n : Nat) (x : CTag) : (t.setTag n x).queue = t.queue := rfl
@[simp] theorem Team.setTag_launch (t : Team) (n : Nat) (x : CTag) : (t.setTag n x).launch = t.launch := rfl
@[simp] theorem Team.setTag_num (t : Team) (n : Nat) (x : CTag) : (t.setTag n x).num = t.num := rfl
@[simp] theorem Team.setTag_size (t : Team) (n : Nat) (x : CTag) : (t.setTag n x).size = t.size := rfl
@[simp] theorem Team.setTag_ext (t : Team) (n : Nat) (x : CTag) : (t.setTag n x).ext = t.ext := rfl
@[simp] theorem Team.setTag_s (t : Team) (n : Nat) (x : CTag) : (t.setTag n x).s = t.s := rfl
@[simp] theorem Team.setTag_a (t : Team) (n : Nat) (x : CTag) : (t.setTag n x).a = t.a := rfl
@[simp] theorem Team.setTag_csr (t : Team) (n : Nat) (x : CTag) : (t.setTag n x).csr = t.csr := rfl
@[simp] theorem Team.setTag_sWas (t : Team) (n : Nat) (x : CTag) : (t.setTag n x).sWas = t.sWas := rfl
@[simp] theorem Team.setTag_aWas (t : Team) (n : Nat) (x : CTag) : (t.setTag n x).aWas = t.aWas := rfl
@[simp] theorem Team.setTag_csrWas (t : Team) (n : Nat) (x : CTag) : (t.setTag n x).csrWas = t.csrWas := rfl
@[simp] theorem Team.setTag_trapLen (t : Team) (n : Nat) (x : CTag) : (t.setTag n x).trapLen = t.trapLen := rfl
@[simp] theorem Team.setTag_inService (t : Team) (n : Nat) (x : CTag) : (t.setTag n x).inService = t.inService := rfl
@[simp] theorem Team.setTag_heldQ (t : Team) (n : Nat) (x : CTag) : (t.setTag n x).heldQ = t.heldQ := rfl
@[simp] theorem Team.setTag_parkedQ (t : Team) (n : Nat) (x : CTag) : (t.setTag n x).parkedQ = t.parkedQ := rfl
@[simp] theorem Team.setTag_verdicts (t : Team) (n : Nat) (x : CTag) : (t.setTag n x).verdicts = t.verdicts := rfl
@[simp] theorem Team.setTag_spad0 (t : Team) (n : Nat) (x : CTag) : (t.setTag n x).spad0 = t.spad0 := rfl
@[simp] theorem Team.setTag_spadN (t : Team) (n : Nat) (x : CTag) : (t.setTag n x).spadN = t.spadN := rfl
@[simp] theorem Team.setTag_acc0 (t : Team) (n : Nat) (x : CTag) : (t.setTag n x).acc0 = t.acc0 := rfl
@[simp] theorem Team.setTag_accN (t : Team) (n : Nat) (x : CTag) : (t.setTag n x).accN = t.accN := rfl
@[simp] theorem Team.setTag_wb0 (t : Team) (n : Nat) (x : CTag) : (t.setTag n x).wb0 = t.wb0 := rfl
@[simp] theorem Team.setTag_wbN (t : Team) (n : Nat) (x : CTag) : (t.setTag n x).wbN = t.wbN := rfl
@[simp] theorem Team.setTag_pinned (t : Team) (n : Nat) (x : CTag) : (t.setTag n x).pinned = t.pinned := rfl
@[simp] theorem Team.setTag_waitPin (t : Team) (n : Nat) (x : CTag) : (t.setTag n x).waitPin = t.waitPin := rfl
@[simp] theorem Team.setTag_reqOut (t : Team) (n : Nat) (x : CTag) : (t.setTag n x).reqOut = t.reqOut := rfl
@[simp] theorem Team.setTag_routine (t : Team) (n : Nat) (x : CTag) : (t.setTag n x).routine = t.routine := rfl
@[simp] theorem Team.setTag_ending (t : Team) (n : Nat) (x : CTag) : (t.setTag n x).ending = t.ending := rfl
@[simp] theorem Team.setTag_preempt (t : Team) (n : Nat) (x : CTag) : (t.setTag n x).preempt = t.preempt := rfl
@[simp] theorem Team.setTag_saveAt (t : Team) (n : Nat) (x : CTag) : (t.setTag n x).saveAt = t.saveAt := rfl
@[simp] theorem Team.setTag_merged (t : Team) (n : Nat) (x : CTag) : (t.setTag n x).merged = t.merged := rfl
@[simp] theorem Team.setTag_psnS (t : Team) (n : Nat) (x : CTag) : (t.setTag n x).psnS = t.psnS := rfl
@[simp] theorem Team.setTag_psnA (t : Team) (n : Nat) (x : CTag) : (t.setTag n x).psnA = t.psnA := rfl
@[simp] theorem Team.sreg_setS_self (t : Team) (n : Nat) (x : Word) : (t.setS n x).sreg n = x := by simp [Team.sreg, Team.setS]
@[simp] theorem Team.sreg_setS_ne (t : Team) {n k : Nat} (h : k ≠ n) (x : Word) : (t.setS n x).sreg k = t.sreg k := by
  simp [Team.sreg, Team.setS, h]
@[simp] theorem Team.areg_setA_self (t : Team) (n : Nat) (x : DWord) : (t.setA n x).areg n = x := by simp [Team.areg, Team.setA]
@[simp] theorem Team.areg_setA_ne (t : Team) {n k : Nat} (h : k ≠ n) (x : DWord) : (t.setA n x).areg k = t.areg k := by
  simp [Team.areg, Team.setA, h]
@[simp] theorem Team.csrv_setCsr_self (t : Team) (n : Nat) (x : DWord) : (t.setCsr n x).csrv n = x := by simp [Team.csrv, Team.setCsr]
@[simp] theorem Team.csrv_setCsr_ne (t : Team) {n k : Nat} (h : k ≠ n) (x : DWord) : (t.setCsr n x).csrv k = t.csrv k := by
  simp [Team.csrv, Team.setCsr, h]
@[simp] theorem Team.ctag_setTag_self (t : Team) (n : Nat) (x : CTag) : (t.setTag n x).ctag n = x := by simp [Team.ctag, Team.setTag]
@[simp] theorem Team.ctag_setTag_ne (t : Team) {n k : Nat} (h : k ≠ n) (x : CTag) : (t.setTag n x).ctag k = t.ctag k := by
  simp [Team.ctag, Team.setTag, h]

end Sys2Proof.Machine
end

