-- ==== Sys2Proof/Laws/Issue.lean ====
section
/-!
SUPPORT. Issue: what it does when no shared cause is met, everything it can do, and the completion of the instructions that write
registers only.
-/

namespace Sys2Proof.Machine

theorem find?_none_of {α : Type} {f : α → Bool} {l : List α} (h : ∀ x ∈ l, f x = false) : l.find? f = none := by
  simpa [List.find?_eq_none] using h

/-- No lane meets a cause, so none raises it. -/
theorem Ctx.raiser_none {c : Ctx} {p : Ln → Bool} (h : ∀ l ∈ c.lns, p l = false) : c.raiser p = none := by
  unfold Ctx.raiser
  rw [find?_none_of fun l hl => by simp [h l hl], find?_none_of h]
  rfl

/-- The lane that raises a cause meets it, and is the lowest to do so: of those in supervisor mode, where one of them meets it. -/
theorem Ctx.raiser_some {c : Ctx} {p : Ln → Bool} {l : Ln} (h : c.raiser p = some l) :
    l ∈ c.lns ∧ p l = true ∧ (l.th.sup = false → ∀ k ∈ c.lns, p k = true → k.th.sup = false) := by
  unfold Ctx.raiser at h
  cases h1 : c.lns.find? fun l => p l && l.th.sup with
  | some k =>
    rw [h1] at h
    cases h
    have hm := List.mem_of_find?_eq_some h1
    have := List.find?_some h1
    simp only [Bool.and_eq_true] at this
    exact ⟨hm, this.1, fun hs => by simp [hs] at this⟩
  | none =>
    rw [h1] at h
    refine ⟨List.mem_of_find?_eq_some h, List.find?_some h, fun _ k hk hp => ?_⟩
    simpa [hp] using List.find?_eq_none.1 h1 k hk

/-- An instruction that issues does what its meaning says on the raft. -/
theorem State.issue_ready {o : Issue} {s : State} {c : Ctx} (h : Ready o s c) (k : State → Ctx → Out) :
    s.issue o k = k (s.counted c) c.counted := by
  have h1 : o.barred c = false := by
    unfold Issue.barred
    cases hi : c.injected with
    | none => rfl
    | some i =>
      have := h.bound i hi
      simp only [this.1, Bool.false_or, decide_eq_false_iff_not]
      omega
  have h2 : o.userLane c = none := by
    unfold Issue.userLane
    split
    · exact find?_none_of fun l hl => by simp [h.mode ‹_› l hl]
    · rfl
  have h3 : o.badLatch c = none := Ctx.raiser_none fun l hl => by
    simp only [List.any_eq_false, decide_eq_true_eq, Nat.not_le]
    exact fun n hn => h.valid l hl n hn
  have h4 : o.waits c = false := by
    simp only [Issue.waits, List.any_eq_false, Bool.not_eq_true]
    exact h.free
  have h5 : o.poison c = none := by
    unfold Issue.poison
    split
    · rename_i ho
      exact find?_none_of fun l hl => by simp [h.clean l (by simpa [Issue.lanes, ho] using hl)]
    · rename_i ho
      exact Ctx.raiser_none fun l hl => by simp [h.clean l (by simpa [Issue.lanes, ho] using hl)]
  simp [State.issue, h.raft, h1, h2, h3, h4, h5]

-- The raft in turn.

/-- What the raft in turn is made of. -/
theorem State.ctx_some {alu : Bool} {s : State} {c : Ctx} (h : s.ctx alu = some c) :
    s.turn = .pipe c.core c.p ∧ c.pr = s.pipe c.core c.p ∧
    ∃ r tm, (s.pipe c.core c.p).raft = some r ∧ s.team r.team = some tm ∧ c.team = r.team ∧ c.tm = tm.seen ∧ c.pc = r.pc ∧
      gather s.threads (if alu && decide (16 ≤ c.pr.run) then [] else c.pr.latches) r.lanes = some c.lns ∧ c.lns ≠ [] := by
  unfold State.ctx at h
  split at h
  · cases h
  · rename_i k p ht
    simp only at h
    split at h
    · cases h
    · rename_i r hr
      split at h
      · rename_i tm l ls htm hg
        cases h
        exact ⟨ht, rfl, r, tm, hr, htm, rfl, rfl, rfl, hg, by simp⟩
      · cases h

/-- A lane's thread is the thread of that identity. -/
theorem gather_thread {ths : Map Thread} {lat : Map (List Latch)} {rs : List (Nat × Nat)} {ls : List Ln}
    (h : gather ths lat rs = some ls) : ∀ l ∈ ls, mfind l.tid ths = some l.th := by
  induction rs generalizing ls with
  | nil => cases h; simp
  | cons e r ih =>
    obtain ⟨k, id⟩ := e
    simp only [gather] at h
    split at h
    · rename_i t l' ht hl
      cases h
      intro l hm
      rcases List.mem_cons.1 hm with rfl | hm
      · exact ht
      · exact ih hl l hm
    · cases h

@[simp] theorem State.thread_counted_ne {s : State} {c : Ctx} {id : Nat} (h : id ≠ c.elected.tid) :
    (s.counted c).thread id = s.thread id := by
  unfold State.counted
  split
  · rfl
  · simp [State.thread, h]

/-- The fields that counting leaves alone: all but the threads. -/
theorem State.counted_rest (s : State) (c : Ctx) : s.counted c = { s with threads := (s.counted c).threads } := by
  unfold State.counted
  split <;> rfl

@[simp] theorem State.counted_teams (s : State) (c : Ctx) : (s.counted c).teams = s.teams := by
  rw [State.counted_rest]
@[simp] theorem State.counted_pipes (s : State) (c : Ctx) : (s.counted c).pipes = s.pipes := by
  rw [State.counted_rest]
@[simp] theorem State.counted_now (s : State) (c : Ctx) : (s.counted c).now = s.now := by
  rw [State.counted_rest]

@[simp] theorem Ctx.counted_core (c : Ctx) : c.counted.core = c.core := rfl
@[simp] theorem Ctx.counted_p (c : Ctx) : c.counted.p = c.p := rfl
@[simp] theorem Ctx.counted_pr (c : Ctx) : c.counted.pr = c.pr := rfl
@[simp] theorem Ctx.counted_team (c : Ctx) : c.counted.team = c.team := rfl
@[simp] theorem Ctx.counted_tm (c : Ctx) : c.counted.tm = c.tm := rfl
@[simp] theorem Ctx.counted_pc (c : Ctx) : c.counted.pc = c.pc := rfl

theorem Ctx.elected_mem {c : Ctx} (h : c.lns ≠ []) : c.elected ∈ c.lns := by
  unfold Ctx.elected
  cases hl : c.lns with
  | nil => exact absurd hl h
  | cons a r => simp

theorem Ctx.counted_elected_tid (c : Ctx) (h : c.lns ≠ []) : c.counted.elected.tid = c.elected.tid := by
  unfold Ctx.elected Ctx.counted
  cases hl : c.lns with
  | nil => exact absurd hl h
  | cons a r => rfl

/-- Counting looks only at whose raft it is. -/
theorem State.counted_counted (s : State) {c : Ctx} (h : c.lns ≠ []) : s.counted c.counted = s.counted c := by
  have e := c.counted_elected_tid h
  have i : c.counted.injected.isSome = c.injected.isSome := by
    unfold Ctx.injected Ctx.elected Ctx.counted
    cases hl : c.lns with
    | nil => exact absurd hl h
    | cons a r => simp
  unfold State.counted
  cases h1 : c.injected <;> cases h2 : c.counted.injected <;> simp_all

/-- Every lane's thread is in the machine, before and after it is counted. -/
theorem State.counted_thread_isSome {alu : Bool} {s : State} {c : Ctx} (h : s.ctx alu = some c) {l : Ln} (hl : l ∈ c.lns) :
    ((s.counted c).thread l.tid).isSome = true := by
  obtain ⟨-, -, r, tm, -, -, -, -, -, hg, -⟩ := State.ctx_some h
  have ht := gather_thread hg l hl
  unfold State.counted State.thread
  split
  · simp [ht]
  · by_cases he : l.tid = c.elected.tid
    · rw [← he]; simp [ht]
    · simp [he, ht]

theorem Ctx.laneOf_some {c : Ctx} {id : Nat} {l : Ln} (h : c.laneOf id = some l) : l ∈ c.lns ∧ l.tid = id := by
  have := List.find?_some h
  exact ⟨List.mem_of_find?_eq_some h, by simpa using this⟩

theorem Ctx.counted_laneOf_none {c : Ctx} {id : Nat} (h : c.counted.laneOf id = none) : ∀ l ∈ c.lns, l.tid ≠ id := by
  intro l hl e
  simp only [Ctx.laneOf, Ctx.counted, List.find?_eq_none, List.mem_map, beq_iff_eq] at h
  exact h _ ⟨l, hl, rfl⟩ e

-- Completion of the instructions that write registers only.

theorem mfind_zip_map {ls : List Ln} {g : Ln → Thread} (id : Nat) :
    mfind id (ls.map fun l => (l.tid, g l)) = (ls.find? fun l => l.tid == id).map g := by
  induction ls with
  | nil => rfl
  | cons l r ih =>
    simp only [List.map_cons, mfind_cons, List.find?_cons, ih]
    by_cases h : l.tid = id
    · simp [h]
    · simp [h, beq_eq_false_iff_ne.2 h]

theorem zip_map_self {α β : Type} (l : List α) (f : α → β) : l.zip (l.map f) = l.map fun x => (x, f x) := by
  induction l with
  | nil => rfl
  | cons a r ih => simp [ih]

/-- A lane's latches are the pipe's, as the instruction sees them. -/
theorem gather_lat {ths : Map Thread} {lat : Map (List Latch)} {rs : List (Nat × Nat)} {ls : List Ln}
    (h : gather ths lat rs = some ls) : ∀ l ∈ ls, l.lat = mget [] l.lane lat := by
  induction rs generalizing ls with
  | nil => cases h; simp
  | cons e r ih =>
    obtain ⟨k, id⟩ := e
    simp only [gather] at h
    split at h
    · rename_i t l' ht hl
      cases h
      intro l hm
      rcases List.mem_cons.1 hm with rfl | hm
      · rfl
      · exact ih hl l hm
    · cases h

/-- What the results of some lanes leave in the latches of lane `l`, no other lane bearing its number. -/
theorem shiftLatch_get {ls : List Ln} {g : Ln → Res} {l : Ln} (m : Map (List Latch)) (hu : ∀ x ∈ ls, x.lane = l.lane → x = l) :
    let m' := (ls.map fun x => (x, g x)).foldl (fun (m : Map (List Latch)) (x : Ln × Res) => match x.2.wr.latch with
      | some y => mput x.1.lane ((y :: x.1.lat).take 4) m
      | none => m) m
    (∀ y, (g l).wr.latch = some y → (l ∈ ls ∨ mget [] l.lane m = (y :: l.lat).take 4) → mget [] l.lane m' = (y :: l.lat).take 4) ∧
    ((g l).wr.latch = none → mget [] l.lane m' = mget [] l.lane m) := by
  induction ls generalizing m with
  | nil => exact ⟨fun y _ h => h.resolve_left (by simp), fun _ => rfl⟩
  | cons a r ih =>
    have hr : ∀ x ∈ r, x.lane = l.lane → x = l := fun x hx => hu x (by simp [hx])
    simp only [List.map_cons, List.foldl_cons]
    by_cases ha : a.lane = l.lane
    · obtain rfl := hu a (by simp) ha
      cases hw : (g a).wr.latch with
      | none => exact ⟨fun y hy => by simp at hy, fun _ => (ih m hr).2 hw⟩
      | some z =>
        refine ⟨fun y hy _ => ?_, fun hn => by simp at hn⟩
        cases hy
        exact (ih _ hr).1 z hw (.inr (by simp [mget]))
    · have hm : mget [] l.lane (match (g a).wr.latch with
          | some y => mput a.lane ((y :: a.lat).take 4) m
          | none => m) = mget [] l.lane m := by
        cases (g a).wr.latch with
        | none => rfl
        | some y => simp [mget, Ne.symm ha]
      refine ⟨fun y hy h => (ih _ hr).1 y hy ?_, fun hn => ((ih _ hr).2 hn).trans hm⟩
      rcases h with h | h
      · rcases List.mem_cons.1 h with rfl | h
        · exact absurd rfl ha
        · exact .inl h
      · exact .inr (hm.trans h)

/-- What the completion of an ALU instruction does, all of it but the time. -/
theorem State.aluDone_completed {s : State} {c : Ctx} (h : s.ctx true = some c) (len occ : Nat) (g : Ln → Res) :
    Completed s ((s.counted c).aluDone c.counted len occ (c.counted.lns.map g)) c.counted len (orAllExc (c.counted.lns.map g))
      fun l => { th := (g l).wr.apply l.th, lat := (g l).wr.latch } := by
  obtain ⟨-, hpr, r, tm, hr, htm, hct, -, -, hg, hne⟩ := State.ctx_some h
  have hthr : ∀ id, ((s.counted c).aluDone c.counted len occ (c.counted.lns.map g)).thread id =
      ((s.counted c).thread id).map fun t => ((c.counted.laneOf id).map fun l => (g l).wr.apply l.th).getD t := by
    intro id
    unfold State.aluDone State.thread
    simp only [zip_map_self, List.map_map, Function.comp_def, putThreads]
    split <;> simp [mfind_zip_map, Ctx.laneOf]
  constructor
  · unfold OnlyRegisters State.aluDone
    rw [State.counted_rest s c]
    simp only
    split <;> rfl
  · intro id l hl
    rw [hthr, hl]
    obtain ⟨hm, rfl⟩ := Ctx.laneOf_some hl
    simp only [Ctx.counted, List.mem_map] at hm
    obtain ⟨l0, hm0, rfl⟩ := hm
    have := State.counted_thread_isSome h hm0
    obtain ⟨x, hx⟩ := Option.isSome_iff_exists.1 this
    simp [hx]
  · intro id hl
    rw [hthr, hl]
    have hne' : id ≠ c.elected.tid := fun e => Ctx.counted_laneOf_none hl _ (Ctx.elected_mem hne) e.symm
    simp [State.thread_counted_ne hne']
  · unfold State.aluDone
    simp only [Ctx.counted_team]
    split
    · simp [State.team, *]
    · simp [State.team, *, Team.orFlags]
  · intro k hk
    unfold State.aluDone
    simp only [Ctx.counted_team] at hk ⊢
    split
    · simp [State.team]
    · simp [State.team, hk]
  · have hpipe : ((s.counted c).pipe c.core c.p) = s.pipe c.core c.p := by simp [State.pipe]
    constructor
    · simp [State.aluDone, Ctx.pipeAt, hpr]
    · intro j hj
      unfold State.aluDone
      simp only [Ctx.counted_core, Ctx.counted_p] at hj ⊢
      split <;> simp [hj]
  · intro l hl hu
    have hlat : l.lat = mget [] l.lane (if 16 ≤ c.pr.run then [] else c.pr.latches) := by
      simp only [Ctx.counted, List.mem_map] at hl
      obtain ⟨l0, hm0, rfl⟩ := hl
      simpa using gather_lat hg l0 hm0
    have hp : (((s.counted c).aluDone c.counted len occ (c.counted.lns.map g)).pipe c.counted.core c.counted.p).latches =
        shiftLatch c.counted (c.counted.lns.map g) := by simp [State.aluDone]
    have hs := shiftLatch_get (g := g) (if 16 ≤ c.pr.run then [] else c.pr.latches) hu
    rw [hp]
    unfold shiftLatch
    rw [zip_map_self]
    cases hw : (g l).wr.latch with
    | none => exact (hs.2 hw).trans hlat.symm
    | some y => exact hs.1 y hw (.inl hl)
  · simp [State.aluDone, runAfter]

/-- An ALU instruction that issues does what its results say. -/
theorem State.alu_ready {o : Issue} {s : State} {c : Ctx} (h : Ready { o with alu := true } s c) (occ : Nat) (f : Ctx → List Res) :
    s.alu o occ f = .next ((s.counted c).aluEnd c.counted o.len occ (f c.counted)) := by
  unfold State.alu
  rw [State.issue_ready h]

/-- No cause among the results: the instruction completes (R222). -/
theorem State.aluEnd_clean {s : State} {c : Ctx} {len occ : Nat} {g : Ln → Res}
    (hb : ∀ l ∈ c.lns, (g l).bad = none) (hf : ∀ l ∈ c.lns, (g l).fail = none) (he : ∀ l ∈ c.lns, c.tm.enabled (g l).exc = 0) :
    s.aluEnd c len occ (c.lns.map g) = s.aluDone c len occ (c.lns.map g) := by
  have h1 : ∀ p : Res → Bool, (∀ l ∈ c.lns, p (g l) = false) → firstRes p (c.lns.zip (c.lns.map g)) = none := by
    intro p hp
    unfold firstRes
    rw [zip_map_self, find?_none_of, find?_none_of]
    · rfl
    all_goals
      intro x hx
      obtain ⟨l, hl, rfl⟩ := List.mem_map.1 hx
      simp [hp l hl]
  unfold State.aluEnd
  simp only
  rw [h1 (fun r => r.bad.isSome) fun l hl => by simp [hb l hl], h1 (fun r => r.fail.isSome) fun l hl => by simp [hf l hl],
    h1 (fun r => c.tm.enabled r.exc != 0) fun l hl => by simp [he l hl]]

/-- An instruction that computes a result per lane, issued, with no cause among its results: it completes so. -/
theorem State.perLane_completes {o : Issue} {s : State} {c : Ctx} (h : Ready { o with alu := true } s c) (occ : Nat) (f : Ctx → Ln → Res)
    (hb : ∀ l ∈ c.counted.lns, (f c.counted l).bad = none) (hf : ∀ l ∈ c.counted.lns, (f c.counted l).fail = none)
    (he : ∀ l ∈ c.counted.lns, c.tm.enabled (f c.counted l).exc = 0) :
    ∃ t, (s.alu o occ fun c => c.lns.map (f c)) = .next t ∧
      Completed s t c.counted o.len (orAllExc (c.counted.lns.map (f c.counted))) fun l =>
        { th := (f c.counted l).wr.apply l.th, lat := (f c.counted l).wr.latch } := by
  refine ⟨_, ?_, State.aluDone_completed h.raft o.len occ (f c.counted)⟩
  rw [State.alu_ready h, State.aluEnd_clean hb hf he]

theorem excOf_eq {ls : List Ln} {g : Ln → Res} {exc : Ln → BitVec 7} (h : ∀ l ∈ ls, (g l).exc = exc l) (e : BitVec 7) :
    (ls.map g).foldl (fun e r => e ||| r.exc) e = ls.foldl (fun e l => e ||| exc l) e := by
  induction ls generalizing e with
  | nil => rfl
  | cons a r ih =>
    simp only [List.map_cons, List.foldl_cons, h a (by simp)]
    exact ih (fun l hl => h l (by simp [hl])) _

theorem Ctx.orAllExc_map {c : Ctx} {g : Ln → Res} {exc : Ln → BitVec 7} (h : ∀ l ∈ c.lns, (g l).exc = exc l) :
    orAllExc (c.lns.map g) = c.excOf exc := excOf_eq h 0

theorem Completed.congr {s t : State} {c : Ctx} {len : Nat} {exc : BitVec 7} {w w' : Ln → LaneOut}
    (h : Completed s t c len exc w) (e : ∀ l ∈ c.lns, w l = w' l) : Completed s t c len exc w' :=
  { h with
    lanes := fun id l hl => by rw [← e l (Ctx.laneOf_some hl).1]; exact h.lanes id l hl
    latches := fun l hl hu => by rw [← e l hl]; exact h.latches l hl hu }

/-- To show what an ALU instruction computes, compare its results lane by lane. -/
theorem Computes.intro {i : Instr} {s : State} {c : Ctx} {o o' : Issue} {occ : Nat} {f : Ctx → Ln → Res} {fits : Ln → Prop}
    {exc : Ln → BitVec 7} {w : Ln → LaneOut} (hi : exec i s = s.alu o' occ fun c => c.lns.map (f c)) (ha : { o' with alu := true } = o)
    (hb : ∀ l ∈ c.counted.lns, fits l → (f c.counted l).bad = none)
    (hf : ∀ l ∈ c.counted.lns, fits l → (f c.counted l).fail = none)
    (he : ∀ l ∈ c.counted.lns, fits l → (f c.counted l).exc = exc l)
    (hw : ∀ l ∈ c.counted.lns, fits l → { th := (f c.counted l).wr.apply l.th, lat := (f c.counted l).wr.latch } = w l) : Computes i s c o fits exc w := by
  intro hr hfit htr
  subst ha
  obtain ⟨t, ht, hc⟩ := State.perLane_completes hr occ f (fun l hl => hb l hl (hfit l hl)) (fun l hl => hf l hl (hfit l hl))
    (fun l hl => by rw [he l hl (hfit l hl)]; exact htr l hl)
  refine ⟨t, hi.trans ht, ?_⟩
  rw [Ctx.orAllExc_map fun l hl => he l hl (hfit l hl)] at hc
  exact hc.congr fun l hl => hw l hl (hfit l hl)

-- Tags.

theorem Opd.fits_bad {o : Opd} {cls : BitVec 4 → Bool} (h : o.fits cls) : tagBad cls o.tag = false := by
  unfold tagBad
  cases ht : o.tag with
  | none => rfl
  | some t => rcases h t ht with h | h <;> simp [h]

theorem firstBad_none {k : Nat} {l : List (Opd × (BitVec 4 → Bool))} (h : ∀ x ∈ l, x.1.fits x.2) : firstBad k l = none := by
  induction l generalizing k with
  | nil => rfl
  | cons a r ih =>
    obtain ⟨o, cls⟩ := a
    have hb : tagBad cls o.tag = false := Opd.fits_bad (h (o, cls) (by simp))
    unfold firstBad
    rw [if_neg (by simp [hb])]
    exact ih fun x hx => h x (by simp [hx])

theorem Opd.fi_eq (o : Opd) (cls : BitVec 4 → Bool) : flag (tagFi cls o.tag) fFI = o.fi cls := by
  unfold flag Opd.fi tagFi
  cases o.tag with
  | none => simp
  | some t =>
    by_cases h : t = tNone
    · subst h; simp
    · simp [h]

/-- FI of some operands is the OR of each one's. -/
theorem flag_anyFi (l : List (Opd × (BitVec 4 → Bool))) : flag (anyFi l) fFI = l.foldr (fun x e => x.1.fi x.2 ||| e) 0 := by
  induction l with
  | nil => rfl
  | cons a r ih =>
    simp only [anyFi, List.any_cons, List.foldr_cons] at ih ⊢
    rw [← ih, ← Opd.fi_eq]
    cases tagFi a.2 a.1.tag <;> cases (r.any fun x => tagFi x.2 x.1.tag) <;> simp [flag, fFI]

-- Where they trap.

theorem find?_map_pair {α β : Type} (g : α → β) (p : α × β → Bool) (l : List α) :
    (l.map fun x => (x, g x)).find? p = (l.find? fun x => p (x, g x)).map fun x => (x, g x) := by
  induction l with
  | nil => rfl
  | cons a r ih => simp only [List.map_cons, List.find?_cons, ih]; split <;> rfl

/-- The result that is raised is that of the lane that raises. -/
theorem firstRes_eq (f : Res → Bool) (c : Ctx) (g : Ln → Res) :
    firstRes f (c.lns.zip (c.lns.map g)) = (c.raiser fun l => f (g l)).map fun l => (l, g l) := by
  unfold firstRes Ctx.raiser
  rw [zip_map_self, find?_map_pair, find?_map_pair]
  cases c.lns.find? fun x => f (g x) && x.th.sup <;> simp

theorem Ctx.raiser_congr {c : Ctx} {p q : Ln → Bool} (h : ∀ l ∈ c.lns, p l = q l) : c.raiser p = c.raiser q := by
  have find {a b : Ln → Bool} : ∀ l : List Ln, (∀ x ∈ l, a x = b x) → l.find? a = l.find? b := by
    intro l
    induction l with
    | nil => intro _; rfl
    | cons x r ih =>
      intro hx
      simp only [List.find?_cons, hx x (by simp), ih fun y hy => hx y (by simp [hy])]
  unfold Ctx.raiser
  rw [find _ fun l hl => by rw [h l hl], find _ h]

/-- To show where an ALU instruction traps, compare its results lane by lane: `bad` the tags, `own` its own cause, and, of a lane without either,
the exceptions. -/
theorem Traps.intro {i : Instr} {s : State} {c : Ctx} {o o' : Issue} {occ : Nat} {f : Ctx → Ln → Res} {bad : Ln → Option Nat}
    {own : Ln → Bool} {exc : Ln → BitVec 7} (hi : exec i s = s.alu o' occ fun c => c.lns.map (f c)) (ha : { o' with alu := true } = o)
    (hb : ∀ l ∈ c.counted.lns, (f c.counted l).bad = bad l)
    (hf : ∀ l ∈ c.counted.lns, (f c.counted l).fail = if own l then some 0x49 else none)
    (he : ∀ l ∈ c.counted.lns, bad l = none → own l = false → (f c.counted l).exc = exc l) : Traps i s c o bad own exc := by
  subst ha
  have run (hr : Ready { o' with alu := true } s c) : exec i s = .next ((s.counted c).aluEnd c.counted o'.len occ (c.counted.lns.map (f c.counted))) := by
    rw [hi, State.alu_ready hr]
  have r1 : firstRes (fun r => r.bad.isSome) (c.counted.lns.zip (c.counted.lns.map (f c.counted))) =
      (c.counted.raiser fun x => (bad x).isSome).map fun l => (l, f c.counted l) := by
    rw [firstRes_eq, Ctx.raiser_congr fun l hl => by rw [hb l hl]]
  have r2 : firstRes (fun r => r.fail.isSome) (c.counted.lns.zip (c.counted.lns.map (f c.counted))) =
      (c.counted.raiser own).map fun l => (l, f c.counted l) := by
    rw [firstRes_eq, Ctx.raiser_congr fun l hl => by rw [hf l hl]]
    congr 2
    funext x
    cases own x <;> rfl
  refine ⟨fun l k hr hl hk => ?_, fun l hr hn hl => ?_, fun l hr hn hl => ?_⟩
  · rw [run hr]
    simp only [State.aluEnd, r1, hl, Option.map_some, hb l (Ctx.raiser_some hl).1, hk, Option.getD_some]
  · have h1 : c.counted.raiser (fun x => (bad x).isSome) = none := Ctx.raiser_none fun x hx => by simp [hn x hx]
    rw [run hr]
    simp only [State.aluEnd, r1, r2, h1, hl, Option.map_some, Option.map_none, hf l (Ctx.raiser_some hl).1, (Ctx.raiser_some hl).2.1, if_true,
      Option.getD_some]
  · have h1 : c.counted.raiser (fun x => (bad x).isSome) = none := Ctx.raiser_none fun x hx => by simp [(hn x hx).1]
    have h2 : c.counted.raiser own = none := Ctx.raiser_none fun x hx => (hn x hx).2
    have hx : ∀ l ∈ c.counted.lns, (f c.counted l).exc = exc l := fun l hl => he l hl (hn l hl).1 (hn l hl).2
    have r3 : firstRes (fun r => c.tm.enabled r.exc != 0) (c.counted.lns.zip (c.counted.lns.map (f c.counted))) =
        (c.counted.raiser fun x => c.tm.enabled (exc x) != 0).map fun l => (l, f c.counted l) := by
      rw [firstRes_eq, Ctx.raiser_congr fun l hl => by rw [hx l hl]]
    rw [run hr]
    simp only [State.aluEnd, r1, r2, h1, h2, Option.map_none, Ctx.counted_tm, r3, hl, Option.map_some, Ctx.orAllExc_map hx]

/-- The position of the first operand out of class, counted from `k`. -/
theorem firstBad_eq (k : Nat) (l : List (Opd × (BitVec 4 → Bool))) :
    firstBad k l = (l.findIdx? fun x => tagBad x.2 x.1.tag).map (· + k) := by
  induction l generalizing k with
  | nil => rfl
  | cons a r ih =>
    obtain ⟨o, cls⟩ := a
    simp only [firstBad, List.findIdx?_cons]
    split
    · simp
    · rw [ih]
      cases r.findIdx? fun x => tagBad x.2 x.1.tag <;> simp; omega

theorem Reads.bad_eq (r : Reads) (l : Ln) : firstBad 1 (r.ops l) = r.bad l := firstBad_eq 1 _

-- Instructions that execute once.

/-- To show what an instruction that executes once does, compare what it makes of the team. -/
theorem ComputesOnce.intro {i : Instr} {s : State} {c : Ctx} {o o' : Issue} {f : Ctx → Ln → Option Nat × BitVec 7 × (Team → Team)}
    {fits : Prop} {exc : BitVec 7} {g : Team → Team} (hi : exec i s = s.aluOnce o' f) (ha : { o' with alu := true, once := true } = o)
    (hb : fits → (f c.counted c.counted.elected).1 = none) (he : fits → (f c.counted c.counted.elected).2.1 = exc)
    (hg : fits → ∀ x, (f c.counted c.counted.elected).2.2 x = g x) : ComputesOnce i s c o fits exc g := by
  intro hr hfit htr
  subst ha
  obtain ⟨-, hpr, -⟩ := State.ctx_some hr.raft
  rw [hi]
  unfold State.aluOnce
  rw [State.issue_ready hr]
  have hc : c.counted.tm.enabled exc = 0 := htr
  simp only [hb hfit, he hfit, hc, bne_self_eq_false, Bool.false_eq_true, if_false]
  refine ⟨_, rfl, ?_, congrArg Pipe.latches (State.pipe_setPipe_self _ _ _ _), congrArg Pipe.run (State.pipe_setPipe_self _ _ _ _)⟩
  constructor
  · unfold OnlyRegisters
    simp only [State.setPipe, State.updTeam]
    rw [State.counted_rest s c]
  · rfl
  · simp only [Ctx.counted_team]
    show ((s.counted c).updTeam c.team _).team c.team = _
    rw [State.team_updTeam_self]
    simp only [State.team, State.counted_teams]
    congr 1
    funext x
    split <;> simp [hg hfit, Team.orFlags]
  · intro k hk
    show ((s.counted c).updTeam c.team _).team k = _
    rw [State.team_updTeam_ne _ hk]
    simp [State.team]
  · constructor
    · simp [Ctx.pipeAt, hpr]
    · intro j hj
      simp [hj]

-- Holds: an instruction that cannot act yet keeps its pipe, and nothing else changes.

/-- The pipe of a raft that waits, in the next cycle's turn. -/
def State.heldPipe (s : State) (c : Ctx) : Pipe :=
  { c.pr with start := some (c.pr.start.getD s.now), ready := s.now + 1, fixed := false, cutAt := none }

theorem State.stall_pipe (s : State) (c : Ctx) : (s.stall c).pipe c.core c.p = s.heldPipe c := by
  simp [State.stall, State.heldPipe, State.pipe, State.setPipe]

/-- A raft of no injected thread that holds: only its pipe changes. -/
theorem State.hold_of_none {s : State} {c : Ctx} (h : c.injected = none) : s.hold c = s.stall c := by
  simp [State.hold, h]

theorem State.hold_pipe (s : State) (c : Ctx) : (s.hold c).pipe c.core c.p = s.heldPipe c := by
  unfold State.hold
  split <;> exact State.stall_pipe _ c

@[simp] theorem State.holdFor_none (s : State) (c : Ctx) : s.holdFor c none = s.hold c := rfl

@[simp] theorem State.holdFor_none_fixed (s : State) (c : Ctx) (b : Bool) : s.holdFor c none b = s.hold c := rfl

theorem State.holdFixed_pipe (s : State) (c : Ctx) : (s.holdFixed c).pipe c.core c.p = { s.heldPipe c with fixed := true } := by
  unfold State.holdFixed
  simp only [State.hold_pipe]
  simp [State.pipe, State.setPipe]

/-- What a hold for want of a link does: within its time the raft holds its pipe, from which forced filing takes it unless the hold follows issue
(`fixed`); after it the cause is raised. -/
theorem State.holdFor_some (s : State) (c : Ctx) (l : Ln) (f : Fail) (fixed : Bool) :
    (c.pr.cutAt.getD s.now + remoteLimit ≤ s.now → s.holdFor c (some (l, f)) fixed = s.raiseOnce c l f 4) ∧
    (s.now < c.pr.cutAt.getD s.now + remoteLimit →
      (s.holdFor c (some (l, f)) fixed).pipe c.core c.p = { s.heldPipe c with fixed := fixed, cutAt := some (c.pr.cutAt.getD s.now) }) := by
  constructor <;> intro h
  · simp [State.holdFor, State.cutHold, h]
  · have h' := Nat.not_le.mpr h
    cases fixed
    · have := State.hold_pipe s c
      simp only [State.holdFor, State.cutHold, if_neg h', State.pipe] at this ⊢
      simp [State.setPipe, this, State.heldPipe]
    · have := State.holdFixed_pipe s c
      simp only [State.holdFor, State.cutHold, if_neg h', State.pipe] at this ⊢
      simp [State.setPipe, this]

/-- An instruction that can block at some addresses, for a raft that may issue it there. -/
theorem State.issueOut_ready {o : Issue} {s : State} {c : Ctx} (h : Ready o s c) (ha : o.alu = false) {eas : Ctx → List VAddr}
    (hr : s.reachesOut c (eas c) = false) (k : State → Ctx → Out) : s.issueOut o eas k = k (s.counted c) c.counted := by
  have hc := h.raft
  rw [ha] at hc
  simp [State.issueOut, hc, hr, State.issue_ready h]

/-- A raft that is no injected thread may issue it anywhere. -/
theorem State.reachesOut_of_none {s : State} {c : Ctx} (h : c.injected = none) (eas : List VAddr) : s.reachesOut c eas = false := by
  simp [State.reachesOut, h]

-- What a release waits for.

@[simp] theorem State.relWait_none (s : State) (tids : List Nat) : s.relWait none tids = false := rfl

theorem State.relWait_some (s : State) (sc : Scope) (tids : List Nat) :
    s.relWait (some sc) tids = (s.unmerged tids || (scopeFar sc && s.sending tids)) := rfl

/-- With nothing on its way, no release waits. -/
theorem State.relWait_idle {s : State} (hp : s.posted = []) (hc : s.hub.contribs = []) (hr : s.repl = []) (rel : Option Scope)
    (tids : List Nat) : s.relWait rel tids = false := by
  cases rel <;> simp [State.relWait, State.unmerged, State.sending, State.unsent, hp, hc, hr]

/-- Below domain scope, nothing that the raft has sent to this package's memory being on its way is enough. -/
theorem State.relWait_near {s : State} {sc : Scope} (hs : scopeFar sc = false) {tids : List Nat} (hu : s.unmerged tids = false) :
    s.relWait (some sc) tids = false := by
  simp [State.relWait, hs, hu]

@[simp] theorem State.unmerged_of_empty {s : State} (hc : s.hub.contribs = []) (tids : List Nat) : s.unmerged tids = false := by
  simp [State.unmerged, hc]

-- What waits for a link.

/-- An event whose accesses some link carries, and that has not waited, becomes what it is to. -/
theorem State.orWait_linked {s t : State} {w : Waiter} (h : mfind w.key t.waits = none) : s.orWait w false t = .next t := by
  simp [State.orWait, State.linkDone, h]

/-- What waiting for a link does, in the order of time: it is noted; nothing until 80,000 cycles have passed; then the event takes place. -/
theorem State.orWait_cut (s t : State) (w : Waiter) :
    (mfind w.key s.waits = none → s.orWait w true t = .next { s with waits := mput w.key s.now s.waits }) ∧
    (∀ t0, mfind w.key s.waits = some t0 →
      (s.now < t0 + remoteLimit → s.orWait w true t = .fault .notDue) ∧
      (t0 + remoteLimit ≤ s.now → s.orWait w true t = .next (t.linkDone w))) := by
  refine ⟨fun h => by simp [State.orWait, State.linkWait, h], fun t0 h => ⟨fun hn => ?_, fun hn => ?_⟩⟩
  · simp [State.orWait, State.linkWait, h, hn]
  · simp [State.orWait, State.linkWait, h, Nat.not_lt.mpr hn]

end Sys2Proof.Machine
end

