-- ==== Sys2Proof/Laws/Filing.lean ====
section
/-!
SUPPORT. What filing does (R40, R47): to the threads filed, to the others, and to the rest of the state.
-/

namespace Sys2Proof.Machine

theorem Filed.unmoved {a b c : Thread} {pc : VAddr} (h : Filed a b pc) (u : Unmoved c a) : Filed c b pc := by
  rcases u with rfl | ⟨n, hn, rfl⟩
  · exact h
  · refine ⟨?_, n, .inl rfl⟩
    rw [h.same]

theorem Unmoved.trans {a b c : Thread} (h : Unmoved a b) (g : Unmoved b c) : Unmoved a c := by
  rcases h with rfl | ⟨n, hn, rfl⟩
  · exact g
  · rcases g with rfl | ⟨m, hm, rfl⟩
    · exact .inr ⟨n, hn, rfl⟩
    · cases hn

theorem OnlyFiling.trans {a b c : State} (h : OnlyFiling a b) (g : OnlyFiling b c) : OnlyFiling a c := by
  unfold OnlyFiling at *
  rw [g, h]

theorem OnlyFiling.refl (s : State) : OnlyFiling s s := rfl

-- One thread.

/-- Filing a thread: it waits at its address, and no other thread is touched. -/
theorem State.fileThread_spec (s : State) (core tid : Nat) (pc : VAddr) :
    OnlyFiling s (s.fileThread core tid pc) ∧ (s.fileThread core tid pc).pipes = s.pipes ∧
    (∀ id, id ≠ tid → (s.fileThread core tid pc).thread id = s.thread id) ∧
    (∀ b, s.thread tid = some b → ∃ a, (s.fileThread core tid pc).thread tid = some a ∧ Filed a b pc) := by
  unfold State.fileThread
  split
  · rename_i h
    exact ⟨rfl, rfl, fun _ _ => rfl, fun b hb => by simp [State.thread, h] at hb⟩
  · rename_i b h
    dsimp only
    split
    · refine ⟨rfl, rfl, fun id hid => by simp [State.thread, hid], fun b' hb => ?_⟩
      refine ⟨{ b' with pc := pc, place := .deck s.now }, ?_, rfl, s.now, .inl rfl⟩
      simp only [State.thread] at hb ⊢
      simp [hb]
    · refine ⟨rfl, rfl, fun id hid => by simp [State.thread, hid], fun b' hb => ?_⟩
      refine ⟨{ b' with pc := pc, place := .spill s.now }, ?_, rfl, s.now, .inr rfl⟩
      simp only [State.thread] at hb ⊢
      simp [hb]

/-- Filing keeps a thread in the machine. -/
theorem State.fileThread_isSome (s : State) (core tid : Nat) (pc : VAddr) (id : Nat) :
    ((s.fileThread core tid pc).thread id).isSome = (s.thread id).isSome := by
  obtain ⟨-, -, h, g⟩ := s.fileThread_spec core tid pc
  by_cases e : id = tid
  · subst e
    cases hb : s.thread id with
    | some b => obtain ⟨a, ha, -⟩ := g b hb; simp [ha]
    | none =>
      unfold State.fileThread
      simp only [State.thread] at hb
      rw [hb]
      simp [State.thread, hb]
  · rw [h id e]

-- Several.

/-- Filing several threads: what the last filing of each makes of it. -/
theorem State.fileMany_spec (core : Nat) (l : List (Nat × VAddr)) (s : State) :
    let t := l.foldl (fun s x => s.fileThread core x.1 x.2) s
    OnlyFiling s t ∧ t.pipes = s.pipes ∧
    (∀ id, l.reverse.find? (fun x => x.1 == id) = none → t.thread id = s.thread id) ∧
    (∀ id x b, l.reverse.find? (fun x => x.1 == id) = some x → s.thread id = some b → ∃ a, t.thread id = some a ∧ Filed a b x.2) := by
  induction l using List.reverseRecOn with
  | nil => exact ⟨rfl, rfl, fun _ _ => rfl, fun _ _ _ h => by simp at h⟩
  | append_singleton r y ih =>
    simp only [List.foldl_append, List.foldl_cons, List.foldl_nil, List.reverse_append, List.reverse_cons, List.reverse_nil,
      List.nil_append, List.cons_append, List.find?_cons] at ih ⊢
    obtain ⟨h1, h2, h3, h4⟩ := ih
    have hkeep : ∀ (l : List (Nat × VAddr)) (s : State) (k : Nat), (s.thread k).isSome = true →
        ((l.foldl (fun s x => s.fileThread core x.1 x.2) s).thread k).isSome = true := by
      intro l
      induction l with
      | nil => exact fun _ _ h => h
      | cons z q ihq => exact fun s k h => ihq _ k (by rw [State.fileThread_isSome]; exact h)
    have hs := hkeep r s
    generalize r.foldl (fun s x => s.fileThread core x.1 x.2) s = t at *
    obtain ⟨g1, g2, g3, g4⟩ := t.fileThread_spec core y.1 y.2
    refine ⟨h1.trans g1, g2.trans h2, fun id hid => ?_, fun id x b hx hb => ?_⟩
    · by_cases e : y.1 = id
      · simp [e] at hid
      · simp only [beq_eq_false_iff_ne.2 e] at hid
        rw [g3 id (Ne.symm e), h3 id hid]
    · by_cases e : y.1 = id
      · simp only [e, beq_self_eq_true] at hx
        cases hx
        subst e
        have hsome : (t.thread y.1).isSome = true := hs _ (by simp [hb])
        obtain ⟨b', hb'⟩ := Option.isSome_iff_exists.1 hsome
        obtain ⟨a, ha, hf⟩ := g4 b' hb'
        refine ⟨a, ha, ?_, hf.waits⟩
        have hbb : b' = { b with pc := b'.pc, place := b'.place } := by
          cases hr : r.reverse.find? (fun x => x.1 == y.1) with
          | none => rw [h3 _ hr, hb] at hb'; cases hb'; rfl
          | some z => obtain ⟨a', ha', hf'⟩ := h4 _ z b hr hb; rw [hb'] at ha'; cases ha'; rw [hf'.same]
        rw [hf.same, hbb]
      · simp only [beq_eq_false_iff_ne.2 e] at hx
        rw [g3 id (Ne.symm e)]
        exact h4 id x b hx hb

-- Decks freed take spilled threads.

/-- What the taking of threads from the spill list may do to a state: no thread comes, goes or changes, but for its place. -/
structure Settled (s t : State) : Prop where
  rest  : OnlyFiling s t
  pipes : t.pipes = s.pipes
  none  : ∀ id, s.thread id = none → t.thread id = none
  some  : ∀ id b, s.thread id = some b → ∃ a, t.thread id = some a ∧ Unmoved a b

theorem Settled.refl (s : State) : Settled s s := ⟨rfl, rfl, fun _ h => h, fun _ b hb => ⟨b, hb, .inl rfl⟩⟩

theorem Settled.trans {a b c : State} (h : Settled a b) (g : Settled b c) : Settled a c :=
  ⟨h.rest.trans g.rest, g.pipes.trans h.pipes, fun id e => g.none id (h.none id e), fun id x hx => by
    obtain ⟨y, hy, u⟩ := h.some id x hx
    obtain ⟨z, hz, v⟩ := g.some id y hy
    exact ⟨z, hz, v.trans u⟩⟩

theorem State.updCore_settled (s : State) (core : Nat) (f : Core → Core) : Settled s (s.updCore core f) :=
  ⟨rfl, rfl, fun _ h => h, fun _ b hb => ⟨b, hb, .inl rfl⟩⟩

theorem Thread.toDeck_unmoved (t : Thread) : Unmoved t.toDeck t := by
  unfold Thread.toDeck
  split
  · exact .inr ⟨_, ‹_›, rfl⟩
  · exact .inl rfl

theorem State.toDecks_settled (l : List Nat) (s : State) : Settled s (s.toDecks l) := by
  induction l generalizing s with
  | nil => exact Settled.refl s
  | cons y r ih =>
    have h1 : Settled s (s.updThread y Thread.toDeck) := by
      refine ⟨rfl, rfl, fun id h => ?_, fun id b hb => ?_⟩
      · by_cases e : id = y
        · subst e; simp only [State.thread] at h ⊢; simp [h]
        · simpa [State.thread, e] using h
      · by_cases e : id = y
        · subst e
          exact ⟨b.toDeck, by simp only [State.thread] at hb ⊢; simp [hb], b.toDeck_unmoved⟩
        · exact ⟨b, by simpa [State.thread, e] using hb, .inl rfl⟩
    exact h1.trans (ih _)

theorem State.unspill_settled (core n : Nat) (s : State) : Settled s (s.unspill core n) := by
  induction n generalizing s with
  | zero => exact Settled.refl s
  | succ n ih =>
    unfold State.unspill
    split
    · exact Settled.refl s
    · split
      · exact (s.updCore_settled core _).trans (ih _)
      · dsimp only
        split
        · exact ((State.toDecks_settled _ s).trans (State.updCore_settled _ core _)).trans (ih _)
        · exact Settled.refl s

theorem State.settle_settled (s : State) (core : Nat) : Settled s (s.settle core) := State.unspill_settled core _ s

-- The raft.

/-- Filing the raft: each thread waits at its own address, the pipe is free, and nothing else changes (R47, R44). -/
theorem State.fileRaft_filed {alu : Bool} {s : State} {c : Ctx} (h : s.ctx alu = some c) (target : Ln → VAddr) :
    FiledEach s ((s.counted c).fileRaft c.counted (c.counted.lns.map fun l => (l.tid, target l))) c.counted target := by
  obtain ⟨-, -, r, tm, -, -, -, -, -, hg, hne⟩ := State.ctx_some h
  set at_ := c.counted.lns.map fun l => (l.tid, target l) with hat
  set s0 := (s.counted c).freePipe c.core c.p with hs0
  obtain ⟨f1, f2, f3, f4⟩ := State.fileMany_spec c.core at_ s0
  set s1 := at_.foldl (fun s x => s.fileThread c.core x.1 x.2) s0 with hs1
  have hset := s1.settle_settled c.core
  have ht : (s.counted c).fileRaft c.counted at_ = s1.settle c.core := rfl
  have hfind : ∀ id, at_.reverse.find? (fun x => x.1 == id) = (c.counted.lastOf id).map fun l => (l.tid, target l) := by
    intro id
    rw [hat, ← List.map_reverse, List.find?_map]
    rfl
  have hthr : ∀ id, s0.thread id = (s.counted c).thread id := fun _ => rfl
  rw [ht]
  refine ⟨?_, ⟨?_, ?_, ?_, ?_⟩⟩
  · have h0 : OnlyFiling s s0 := by
      unfold OnlyFiling
      rw [hs0, State.counted_rest s c]
      rfl
    exact (h0.trans f1).trans hset.rest
  · intro id l hl
    have hmem : l ∈ c.counted.lns ∧ l.tid = id := by
      have := List.find?_some hl
      exact ⟨by simpa using List.mem_of_find?_eq_some hl, by simpa using this⟩
    obtain ⟨l0, hl0, hl0'⟩ : ∃ l0 ∈ c.lns, l0.tid = id := by
      obtain ⟨hm, rfl⟩ := hmem
      simp only [Ctx.counted, List.mem_map] at hm
      obtain ⟨l0, h0, rfl⟩ := hm
      exact ⟨l0, h0, rfl⟩
    obtain ⟨b, hb⟩ := Option.isSome_iff_exists.1 (State.counted_thread_isSome h hl0)
    rw [hl0'] at hb
    obtain ⟨a, ha, hf⟩ := f4 id (l.tid, target l) b (by rw [hfind, hl]; rfl) hb
    obtain ⟨a', ha', u⟩ := hset.some id a ha
    exact ⟨a', b, ha', by rw [State.counted_counted s hne]; exact hb, hf.unmoved u⟩
  · intro id hl b hb
    rw [State.counted_counted s hne] at hb
    have hne' : id ≠ c.elected.tid := by
      rintro rfl
      simp only [Ctx.lastOf, List.find?_eq_none, List.mem_reverse, Ctx.counted, List.mem_map, beq_iff_eq] at hl
      exact hl _ ⟨_, Ctx.elected_mem hne, rfl⟩ rfl
    have h1 := f3 id (by rw [hfind, hl]; rfl)
    rw [hthr, hb] at h1
    exact hset.some id b h1
  · rw [State.pipe, hset.pipes, f2]
    simp [hs0, State.freePipe]
  · intro k p hkp
    rw [State.pipe, hset.pipes, f2]
    have hkp' : 4 * k + p ≠ 4 * c.core + c.p := hkp
    simp [hs0, State.freePipe, hkp', State.pipe]

end Sys2Proof.Machine
end

