-- ==== Sys2Proof/Laws/Memory.lean ====
section
/-!
SUPPORT. What memory operations do: the canonical form is kept, bytes outside those written read as before, and a translation that is
noted (R117) changes nothing but the TLBs and table entries.
-/

namespace Sys2Proof.Machine

-- The canonical form.

/-- A state whose memories are those of another is in canonical form with it. -/
theorem State.Canon.of_eq {s t : State} (h : s.Canon) (hm : t.mem = s.mem) (h1 : t.spad = s.spad) (h2 : t.land = s.land)
    (h3 : t.acc = s.acc) (h4 : t.wbuf = s.wbuf) : t.Canon :=
  ⟨hm ▸ h.mem, h1 ▸ h.spad, h2 ▸ h.land, h3 ▸ h.acc, h4 ▸ h.wbuf⟩

theorem State.Canon.putHome {s : State} (h : s.Canon) (a : Nat) (bs : List Byte) : (s.putHome a bs).Canon :=
  { h with mem := mwf_mputs _ _ _ _ h.mem }
theorem State.Canon.putHomeNat {s : State} (h : s.Canon) (a n x : Nat) : (s.putHomeNat a n x).Canon := h.putHome _ _
theorem State.Canon.dieWrite {s : State} (h : s.Canon) (d a : Nat) (bs : List Byte) : (s.dieWrite d a bs).Canon :=
  { h with mem := mwf_mputs _ _ _ _ h.mem }
theorem State.Canon.putSpad {s : State} (h : s.Canon) (k : Nat) (bs : List Byte) : (s.putSpad k bs).Canon :=
  { h with spad := mwf_mputs _ _ _ _ h.spad }
theorem State.Canon.putLand {s : State} (h : s.Canon) (k : Nat) (bs : List Byte) : (s.putLand k bs).Canon :=
  { h with land := mwf_mputs _ _ _ _ h.land }
theorem State.Canon.putAcc {s : State} (h : s.Canon) (k : Nat) (bs : List Byte) : (s.putAcc k bs).Canon :=
  { h with acc := mwf_mputs _ _ _ _ h.acc }
theorem State.Canon.putWb {s : State} (h : s.Canon) (k : Nat) (bs : List Byte) : (s.putWb k bs).Canon :=
  { h with wbuf := mwf_mputs _ _ _ _ h.wbuf }
theorem State.Canon.applyLag {s : State} (h : s.Canon) (l : Lag) (r : List Lag) : (s.applyLag l r).Canon := h.of_eq rfl rfl rfl rfl rfl
theorem State.Canon.drain {s : State} (h : s.Canon) : s.drain.Canon := h.of_eq rfl rfl rfl rfl rfl
theorem State.Canon.catchUp {s : State} (h : s.Canon) (e : Nat) : (s.catchUp e).Canon := h.of_eq rfl rfl rfl rfl rfl

/-- All that settling writes in flight can do: it changes what the dies see, and nothing else. -/
theorem State.settleLag_frame (s : State) (v : List Nat) :
    ∃ stale lag vc, s.settleLag v = { s with stale := stale, lag := lag, vc := vc } := by
  unfold State.settleLag
  generalize s.lag.filter (fun l => l.within (s.past v)) = ls
  induction ls generalizing s with
  | nil => exact ⟨s.stale, s.lag, s.vc, rfl⟩
  | cons l r ih =>
    obtain ⟨a, b, c, h⟩ := ih (s.applyLag l (s.lag.erase l))
    exact ⟨a, b, c, h⟩

theorem State.Canon.settleLag {s : State} (h : s.Canon) (v : List Nat) : (s.settleLag v).Canon := by
  obtain ⟨a, b, c, e⟩ := s.settleLag_frame v
  rw [e]
  exact h.of_eq rfl rfl rfl rfl rfl

/-- All that a write which every die sees at once can do: memory takes its bytes and loses their poison; else only what the dies see
changes. -/
theorem State.putAll_frame (s : State) (v : List Nat) (a : Nat) (bs : List Byte) :
    ∃ stale lag vc, s.putAll v a bs = { s with
      mem := mputs unwritten a bs s.mem, psnMem := clearPsn 32 a bs.length s.psnMem, stale := stale, lag := lag, vc := vc } := by
  obtain ⟨x, y, z, e⟩ := s.settleLag_frame (s.raised v a bs.length)
  exact ⟨_, _, _, by rw [State.putAll, e]; rfl⟩

theorem State.Canon.putAll {s : State} (h : s.Canon) (v : List Nat) (a : Nat) (bs : List Byte) : (s.putAll v a bs).Canon :=
  (h.settleLag _).putHome _ _

theorem State.Canon.storeAt {s : State} (h : s.Canon) (d : Nat) (l : Loc) (bs : List Byte) (b : By) : (s.storeAt d l bs b).Canon := by
  unfold State.storeAt
  cases l with
  | mem pa mt =>
    dsimp only
    split
    · exact h.of_eq rfl rfl rfl rfl rfl
    · split
      · exact h.putAll _ _ _
      · exact h.dieWrite _ _ _
  | spad k => exact h.putSpad _ _
  | land k u off => exact h.putLand _ _
  | void u off => exact h

theorem State.Canon.storeHome {s : State} (h : s.Canon) (d : Nat) (l : Loc) (bs : List Byte) : (s.storeHome d l bs).Canon := by
  unfold State.storeHome
  cases l with
  | mem pa mt =>
    dsimp only
    split
    · exact h.putAll _ _ _
    · exact (h.catchUp _).dieWrite _ _ _
  | spad k => exact h.putSpad _ _
  | land k u off => exact h.putLand _ _
  | void u off => exact h

/-- What bringing lines in changes: the core's L1, and the last-level caches. -/
theorem State.fillLine_frame (s : State) (core pa mt x : Nat) :
    s.fillLine core pa mt x = { s with l1 := (s.fillLine core pa mt x).l1, llc := (s.fillLine core pa mt x).llc } ∧
    ∀ j, j ≠ core → mget [] j (s.fillLine core pa mt x).l1 = mget [] j s.l1 := by
  unfold State.fillLine
  simp only
  split
  · exact ⟨rfl, fun _ _ => rfl⟩
  · exact ⟨rfl, fun j hj => mget_mput_ne _ hj _ _⟩

theorem State.fillL1_frame (s : State) (core : Nat) (l : Loc) (n : Nat) :
    s.fillL1 core l n = { s with l1 := (s.fillL1 core l n).l1, llc := (s.fillL1 core l n).llc } ∧
    ∀ j, j ≠ core → mget [] j (s.fillL1 core l n).l1 = mget [] j s.l1 := by
  cases l with
  | mem pa mt =>
    simp only [State.fillL1]
    split
    · exact ⟨rfl, fun _ _ => rfl⟩
    · generalize (List.range _).map _ = xs
      induction xs generalizing s with
      | nil => exact ⟨rfl, fun _ _ => rfl⟩
      | cons x r ih =>
        have h1 := s.fillLine_frame core pa mt x
        have h2 := ih (s.fillLine core pa mt x)
        refine ⟨?_, fun j hj => (h2.2 j hj).trans (h1.2 j hj)⟩
        simp only [List.foldl_cons]
        rw [h2.1, h1.1]
  | spad k => exact ⟨rfl, fun _ _ => rfl⟩
  | land k u o => exact ⟨rfl, fun _ _ => rfl⟩
  | void u o => exact ⟨rfl, fun _ _ => rfl⟩

theorem State.Canon.orPte {s : State} (h : s.Canon) (a : Nat) (x y : Bool) : (s.orPte a x y).Canon := by
  unfold State.orPte
  split
  · exact h.putHome _ _
  · exact h

theorem State.Canon.orAll {s : State} (h : s.Canon) (l : List Tlb) : (s.orAll l).Canon := by
  unfold State.orAll
  induction l generalizing s with
  | nil => exact h
  | cons t r ih => exact ih (h.orPte _ _ _)

theorem State.Canon.touch {s : State} (h : s.Canon) (w : Who) (t : Tlb) (x : Bool) : (s.touch w t x).Canon := by
  unfold State.touch
  have h2 : ∀ l, State.Canon { s with tlb2 := l } := fun l => h.of_eq rfl rfl rfl rfl rfl
  dsimp only
  split
  · have hs : ∀ s' : State, s'.Canon → ∀ l, State.Canon { s' with tlb1 := l } := fun s' hs l => hs.of_eq rfl rfl rfl rfl rfl
    have : ∀ b : Bool, State.Canon (if b then s else
        ({ s with tlb2 := mput w.cluster (tlbAdd 8192 { t with a := false, d := false } (mget [] w.cluster s.tlb2)).1 s.tlb2 } : State).orAll
          (tlbAdd 8192 { t with a := false, d := false } (mget [] w.cluster s.tlb2)).2) := by
      intro b
      cases b
      · exact (h2 _).orAll _
      · exact h
    split
    · exact hs _ (this _) _
    · exact (hs _ (this _) _).orAll _
  · split
    · exact h2 _
    · exact (h2 _).orAll _

theorem State.reset_canon : State.reset.Canon := ⟨rfl, rfl, rfl, rfl, rfl⟩

-- Frames.

/-- Bytes outside those of a home write read as before. -/
theorem State.home_putHome_out (s : State) {a j : Nat} (bs : List Byte) (h : j < a ∨ a + bs.length ≤ j) :
    (s.putHome a bs).home j = s.home j := by
  simp [State.home, mget_mputs_out _ _ _ h]
theorem State.home_dieWrite_out (s : State) (d : Nat) {a j : Nat} (bs : List Byte) (h : j < a ∨ a + bs.length ≤ j) :
    (s.dieWrite d a bs).home j = s.home j := by
  simp [State.home, mget_mputs_out _ _ _ h]

theorem State.home_orPte (s : State) (a j : Nat) (x y : Bool) (h : j ≠ a) : (s.orPte a x y).home j = s.home j := by
  unfold State.orPte
  split
  · exact s.home_putHome_out _ (by simp; omega)
  · rfl

theorem State.home_orAll (s : State) (l : List Tlb) (j : Nat) (h : ∀ t ∈ l, j ≠ t.addr) : (s.orAll l).home j = s.home j := by
  unfold State.orAll
  induction l generalizing s with
  | nil => rfl
  | cons t r ih =>
    simp only [List.foldl_cons]
    rw [ih _ fun t ht => h t (by simp [ht]), State.home_orPte _ _ _ _ _ (h t (by simp))]

theorem OnlyMemory.refl (s : State) : OnlyMemory s s := rfl
theorem OnlyMemory.trans {a b c : State} (h : OnlyMemory a b) (g : OnlyMemory b c) : OnlyMemory a c := by
  unfold OnlyMemory at *
  rw [g, h]

theorem State.putHome_only (s : State) (a : Nat) (bs : List Byte) : OnlyMemory s (s.putHome a bs) := rfl
theorem State.dieWrite_only (s : State) (d a : Nat) (bs : List Byte) : OnlyMemory s (s.dieWrite d a bs) := rfl
theorem State.catchUp_only (s : State) (d : Nat) : OnlyMemory s (s.catchUp d) := rfl

theorem State.orPte_only (s : State) (a : Nat) (x y : Bool) : OnlyMemory s (s.orPte a x y) := by
  unfold State.orPte
  split <;> rfl

theorem State.orAll_only (s : State) (l : List Tlb) : OnlyMemory s (s.orAll l) := by
  unfold State.orAll
  induction l generalizing s with
  | nil => rfl
  | cons t r ih => exact (s.orPte_only _ _ _).trans (ih _)

theorem State.orPte_tlbs (s : State) (a : Nat) (x y : Bool) : (s.orPte a x y).tlb1 = s.tlb1 ∧ (s.orPte a x y).tlb2 = s.tlb2 := by
  unfold State.orPte
  split <;> exact ⟨rfl, rfl⟩

theorem State.orAll_tlbs (s : State) (l : List Tlb) : (s.orAll l).tlb1 = s.tlb1 ∧ (s.orAll l).tlb2 = s.tlb2 := by
  unfold State.orAll
  induction l generalizing s with
  | nil => exact ⟨rfl, rfl⟩
  | cons t r ih =>
    have h := ih (s.orPte t.addr t.a t.d)
    have g := s.orPte_tlbs t.addr t.a t.d
    exact ⟨h.1.trans g.1, h.2.trans g.2⟩

/-- Noting a translation changes the TLBs and memory only. -/
theorem State.touch_only (s : State) (w : Who) (t : Tlb) (x : Bool) : OnlyMemory s (s.touch w t x) := by
  unfold State.touch
  have h1 : ∀ (s : State) l, OnlyMemory s { s with tlb1 := l } := fun _ _ => rfl
  have h2 : ∀ (s : State) l, OnlyMemory s { s with tlb2 := l } := fun _ _ => rfl
  dsimp only
  split
  · have h3 : ∀ b : Bool, OnlyMemory s (if b then s else
        ({ s with tlb2 := mput w.cluster (tlbAdd 8192 { t with a := false, d := false } (mget [] w.cluster s.tlb2)).1 s.tlb2 } : State).orAll
          (tlbAdd 8192 { t with a := false, d := false } (mget [] w.cluster s.tlb2)).2) := by
      intro b
      cases b
      · exact (h2 s _).trans (State.orAll_only _ _)
      · exact OnlyMemory.refl s
    split
    · exact (h3 _).trans (h1 _ _)
    · exact ((h3 _).trans (h1 _ _)).trans (State.orAll_only _ _)
  · split
    · exact h2 s _
    · exact (h2 s _).trans (State.orAll_only _ _)

-- Entries of a table of lists.

theorem mem_flat_mput {α : Type} {k : Nat} {l : List α} {m : Map (List α)} {e : α}
    (h : e ∈ (mput k l m).flatMap (·.2)) : e ∈ l ∨ e ∈ m.flatMap (·.2) := by
  induction m with
  | nil => simp [mput] at h; exact .inl h
  | cons a r ih =>
    obtain ⟨j, y⟩ := a
    simp only [mput] at h
    split at h
    · simp only [List.flatMap_cons, List.mem_append] at h ⊢
      rcases h with h | h
      · exact .inl h
      · exact .inr (.inr h)
    · split at h
      · simp only [List.flatMap_cons, List.mem_append] at h ⊢
        rcases h with h | h | h
        · exact .inl h
        · exact .inr (.inl h)
        · exact .inr (.inr h)
      · simp only [List.flatMap_cons, List.mem_append] at h ⊢
        rcases h with h | h
        · exact .inr (.inl h)
        · rcases ih h with h | h
          · exact .inl h
          · exact .inr (.inr h)

theorem mem_flat_mget {α : Type} {k : Nat} {m : Map (List α)} {e : α} (h : e ∈ mget [] k m) : e ∈ m.flatMap (·.2) := by
  induction m with
  | nil => simp [mget] at h
  | cons a r ih =>
    obtain ⟨j, y⟩ := a
    simp only [mget, mfind_cons] at h ih
    simp only [List.flatMap_cons, List.mem_append]
    split at h
    · exact .inl h
    · exact .inr (ih h)

theorem tlbAdd_mem {cap : Nat} {t e : Tlb} {l : List Tlb} (h : e ∈ (tlbAdd cap t l).1 ∨ e ∈ (tlbAdd cap t l).2) : e = t ∨ e ∈ l := by
  unfold tlbAdd at h
  split at h
  · simp only [List.mem_append, List.mem_singleton, List.not_mem_nil, or_false] at h
    tauto
  · simp only [List.mem_append, List.mem_singleton] at h
    rcases h with (h | h) | h
    · exact .inr (List.mem_of_mem_tail h)
    · exact .inl h
    · exact .inr (List.mem_of_mem_take h)

/-- The bytes of table entries after a list of one core's, or one cluster's, entries has been put in. -/
theorem State.tableBytes_tlb1 {s : State} {k : Nat} {l : List Tlb} {a : Nat} {n : Nat}
    (hl : ∀ e ∈ l, e.addr = n ∨ e.addr ∈ s.tableBytes) (h : a ∈ ({ s with tlb1 := mput k l s.tlb1 } : State).tableBytes) :
    a = n ∨ a ∈ s.tableBytes := by
  simp only [State.tableBytes, State.tlbEntries, List.flatMap_append, List.map_append, List.mem_append, List.mem_map] at h hl ⊢
  rcases h with ⟨e, he, rfl⟩ | h
  · rcases mem_flat_mput he with he | he
    · exact hl e he
    · exact .inr (.inl ⟨e, he, rfl⟩)
  · exact .inr (.inr h)

theorem State.tableBytes_tlb2 {s : State} {k : Nat} {l : List Tlb} {a : Nat} {n : Nat}
    (hl : ∀ e ∈ l, e.addr = n ∨ e.addr ∈ s.tableBytes) (h : a ∈ ({ s with tlb2 := mput k l s.tlb2 } : State).tableBytes) :
    a = n ∨ a ∈ s.tableBytes := by
  simp only [State.tableBytes, State.tlbEntries, List.flatMap_append, List.map_append, List.mem_append, List.mem_map] at h hl ⊢
  rcases h with h | ⟨e, he, rfl⟩
  · exact .inr (.inl h)
  · rcases mem_flat_mput he with he | he
    · exact hl e he
    · exact .inr (.inr ⟨e, he, rfl⟩)

theorem State.mem_tableBytes1 {s : State} {k : Nat} {e : Tlb} (h : e ∈ mget [] k s.tlb1) : e.addr ∈ s.tableBytes := by
  simp only [State.tableBytes, State.tlbEntries, List.flatMap_append, List.map_append, List.mem_append, List.mem_map]
  exact .inl ⟨e, mem_flat_mget h, rfl⟩
theorem State.mem_tableBytes2 {s : State} {k : Nat} {e : Tlb} (h : e ∈ mget [] k s.tlb2) : e.addr ∈ s.tableBytes := by
  simp only [State.tableBytes, State.tlbEntries, List.flatMap_append, List.map_append, List.mem_append, List.mem_map]
  exact .inr ⟨e, mem_flat_mget h, rfl⟩

theorem State.orAll_tableBytes (s : State) (l : List Tlb) : (s.orAll l).tableBytes = s.tableBytes := by
  obtain ⟨h1, h2⟩ := s.orAll_tlbs l
  simp [State.tableBytes, State.tlbEntries, h1, h2]

/-- Noting a translation brings in no table entry but its own, and leaves every byte that is not a table entry's. -/
theorem State.touch_frame (s : State) (w : Who) (t : Tlb) (x : Bool) :
    (∀ a, a ∈ (s.touch w t x).tableBytes → a = t.addr ∨ a ∈ s.tableBytes) ∧
    (∀ a, a ≠ t.addr → a ∉ s.tableBytes → (s.touch w t x).home a = s.home a) := by
  unfold State.touch
  have hmark : ∀ (l : List Tlb) (e : Tlb),
      e ∈ l.map (fun x_1 => if x_1.asid = t.asid && x_1.vbase = t.vbase && x_1.log2 = t.log2 then { x_1 with a := true, d := x_1.d || x } else x_1) →
      ∃ e' ∈ l, e.addr = e'.addr := by
    intro l e he
    obtain ⟨e', he', rfl⟩ := List.mem_map.1 he
    exact ⟨e', he', by split <;> rfl⟩
  dsimp only
  split
  · rename_i k hk
    have h3 : ∀ b : Bool, ∀ s' : State, s' = (if b then s else
        ({ s with tlb2 := mput w.cluster (tlbAdd 8192 { t with a := false, d := false } (mget [] w.cluster s.tlb2)).1 s.tlb2 } : State).orAll
          (tlbAdd 8192 { t with a := false, d := false } (mget [] w.cluster s.tlb2)).2) →
        (∀ a, a ∈ s'.tableBytes → a = t.addr ∨ a ∈ s.tableBytes) ∧ (∀ a, a ≠ t.addr → a ∉ s.tableBytes → s'.home a = s.home a) ∧
          s'.tlb1 = s.tlb1 ∧ ∀ a ∈ s.tlb1.flatMap (·.2), a.addr ∈ s'.tableBytes := by
      intro b s' hs'
      subst hs'
      cases b
      · refine ⟨fun a ha => ?_, fun a h1 h2 => ?_, (State.orAll_tlbs _ _).1, fun a ha => ?_⟩
        · rw [if_neg (by simp), State.orAll_tableBytes] at ha
          refine State.tableBytes_tlb2 (fun e he => ?_) ha
          rcases tlbAdd_mem (.inl he) with rfl | he
          · exact .inl rfl
          · exact .inr (State.mem_tableBytes2 he)
        · rw [if_neg (by simp), State.home_orAll]
          · rfl
          · intro e he
            rcases tlbAdd_mem (.inr he) with rfl | he
            · exact h1
            · rintro rfl
              exact h2 (State.mem_tableBytes2 he)
        · rw [if_neg (by simp), State.orAll_tableBytes]
          simp only [State.tableBytes, State.tlbEntries, List.flatMap_append, List.map_append, List.mem_append, List.mem_map]
          exact .inl ⟨a, ha, rfl⟩
      · refine ⟨fun a ha => .inr ha, fun _ _ _ => rfl, rfl, fun a ha => ?_⟩
        simp only [if_true, State.tableBytes, State.tlbEntries, List.flatMap_append, List.map_append, List.mem_append, List.mem_map]
        exact .inl ⟨a, ha, rfl⟩
    obtain ⟨g1, g2, g3, g4⟩ := h3 _ _ rfl
    split
    · refine ⟨fun a ha => (State.tableBytes_tlb1 (n := t.addr) (fun e he => ?_) ha).elim .inl (g1 a), fun a h1 h2 => g2 a h1 h2⟩
      obtain ⟨e', he', hee⟩ := hmark _ _ he
      rw [hee]
      exact .inr (g4 e' (mem_flat_mget he'))
    · refine ⟨fun a ha => ?_, fun a h1 h2 => ?_⟩
      · rw [State.orAll_tableBytes] at ha
        refine (State.tableBytes_tlb1 (n := t.addr) (fun e he => ?_) ha).elim .inl (g1 a)
        rcases tlbAdd_mem (.inl he) with rfl | he
        · exact .inl rfl
        · exact .inr (g4 e (mem_flat_mget he))
      · rw [State.home_orAll]
        · exact g2 a h1 h2
        · intro e he
          rcases tlbAdd_mem (.inr he) with rfl | he
          · exact h1
          · rintro rfl
            exact h2 (State.mem_tableBytes1 he)
  · split
    · refine ⟨fun a ha => ?_, fun _ _ _ => rfl⟩
      refine State.tableBytes_tlb2 (n := t.addr) (fun e he => ?_) ha
      obtain ⟨e', he', hee⟩ := hmark _ _ he
      rw [hee]
      exact .inr (State.mem_tableBytes2 he')
    · refine ⟨fun a ha => ?_, fun a h1 h2 => ?_⟩
      · rw [State.orAll_tableBytes] at ha
        refine State.tableBytes_tlb2 (n := t.addr) (fun e he => ?_) ha
        rcases tlbAdd_mem (.inl he) with rfl | he
        · exact .inl rfl
        · exact .inr (State.mem_tableBytes2 he)
      · rw [State.home_orAll]
        · rfl
        · intro e he
          rcases tlbAdd_mem (.inr he) with rfl | he
          · exact h1
          · rintro rfl
            exact h2 (State.mem_tableBytes2 he)

end Sys2Proof.Machine
end

