-- ==== Sys2Proof/Laws/PerInstr.lean ====
section
/-!
SUPPORT. The round trip of the encoding, one lemma per constructor of `Instr`: each field coding undoes its encoder, the
formats' fields come back from the packed word, and the bytes of a word decode as the word.
-/

namespace Sys2Proof.Laws

/-- Decoding the bytes of the word of `i` gives `i` back and leaves what follows. -/
def RoundTrip.Statement (i : Instr) : Prop :=
  i.wf = true → ∀ w, encode i = some w → ∀ rest, decode (wordBytes w ++ rest) = .ok (i, rest)

-- Field codings.

@[simp] theorem src_enc (s : Src) (k : Src → Dec) : src (srcEnc s) k = k s := by
  have : srcOf (srcEnc s) = some s := by cases s <;> rename_i n <;> revert n <;> decide
  simp [src, this]
@[simp] theorem raw_enc {w : Nat} (f : BitVec w) (k : BitVec w → Dec) : raw f k = k f := rfl
@[simp] theorem zero_enc {w : Nat} (k : Dec) : zero 0#w k = k := by simp [zero]
@[simp] theorem dst_enc (d : Dst) (k : Dst → Dec) : dst (dstEnc d) k = k d := by
  have : ∀ s n, (⟨(dstEnc ⟨s, n⟩).getLsbD 6, (dstEnc ⟨s, n⟩).extractLsb' 0 6⟩ : Dst) = ⟨s, n⟩ := by decide
  exact congrArg k (this d.sup d.n)
@[simp] theorem pred_enc (p : BitVec 3) (k : BitVec 3 → Dec) : pred (predEnc p) k = k p := by
  have : ∀ p, (predEnc p).extractLsb' 3 4 = 0#4 ∧ (predEnc p).extractLsb' 0 3 = p := by decide
  simp [pred, this]
@[simp] theorem areg_enc (n : BitVec 4) (k : BitVec 4 → Dec) : areg (aregEnc n) k = k n := by
  have : ∀ n, (aregEnc n).extractLsb' 4 3 = 0#3 ∧ (aregEnc n).extractLsb' 0 4 = n := by decide
  simp [areg, this]
@[simp] theorem sreg_enc (n : BitVec 5) (k : BitVec 5 → Dec) : sreg (sregEnc n) k = k n := by
  have : ∀ n, (sregEnc n).extractLsb' 5 2 = 0#2 ∧ (sregEnc n).extractLsb' 0 5 = n := by decide
  simp [sreg, this]
@[simp] theorem vreg_enc (n : BitVec 6) (k : BitVec 6 → Dec) : vreg (vregEnc n) k = k n := by
  have : ∀ n, (vregEnc n).extractLsb' 6 1 = 0#1 ∧ (vregEnc n).extractLsb' 0 6 = n := by decide
  simp [vreg, this]
@[simp] theorem usrc_enc (n : BitVec 5) (k : BitVec 5 → Dec) : usrc (usrcEnc n) k = k n := by
  have : ∀ n, (usrcEnc n).extractLsb' 5 2 = 0b10#2 ∧ (usrcEnc n).extractLsb' 0 5 = n := by decide
  simp [usrc, this]
@[simp] theorem flag2_enc (lo hi : Bool) (k : Bool → Bool → Dec) : flag2 (flag2Enc lo hi) k = k lo hi := by
  cases lo <;> cases hi <;> rfl
@[simp] theorem flagLo_enc (b : Bool) (k : Bool → Dec) : flagLo (flagLoEnc b) k = k b := by cases b <;> rfl
@[simp] theorem flagHi_enc (b : Bool) (k : Bool → Dec) : flagHi (flagHiEnc b) k = k b := by cases b <;> rfl
@[simp] theorem rm_enc (m : Rm) (k : Rm → Dec) : rm (rmEnc m) k = k m := by cases m <;> rfl
@[simp] theorem dcmp_enc (t : DCmp) (k : DCmp → Dec) : dcmp (dcmpEnc t) k = k t := by cases t <;> rfl
@[simp] theorem shift_enc (n : BitVec 5) (k : BitVec 5 → Dec) : shift (shiftEnc n) k = k n := by
  have : ∀ n, (shiftEnc n).extractLsb' 5 4 = 0#4 ∧ (shiftEnc n).extractLsb' 0 5 = n := by decide
  simp [shift, this]
@[simp] theorem brp_enc (neg : Bool) (p : BitVec 3) (k : Bool → BitVec 3 → Dec) : brp (brpEnc neg p) k = k neg p := by
  have : ∀ neg p, (brpEnc neg p).extractLsb' 4 3 = 0#3 ∧ (brpEnc neg p).getLsbD 3 = neg ∧
    (brpEnc neg p).extractLsb' 0 3 = p := by decide
  simp only [brp, this, if_true]
@[simp] theorem memty_enc (t : MemTy) (k : MemTy → Dec) : memty (memtyEnc t) k = k t := by cases t <;> rfl
@[simp] theorem base_enc (n : BitVec 4) (k : BitVec 4 → Dec) : base (baseEnc n) k = k n := by
  have : ∀ n, (baseEnc n).extractLsb' 4 1 = 0#1 ∧ (baseEnc n).extractLsb' 0 4 = n := by decide
  simp [base, this]
@[simp] theorem flagBase_enc (h : Bool) (n : BitVec 4) (k : Bool → BitVec 4 → Dec) :
    flagBase (flagBaseEnc h n) k = k h n := by
  have : ∀ h n, (flagBaseEnc h n).getLsbD 4 = h ∧ (flagBaseEnc h n).extractLsb' 0 4 = n := by decide
  simp only [flagBase, this]
@[simp] theorem scope_enc (c : Scope) (k : Scope → Dec) : scope (scopeEnc c) k = k c := by cases c <;> rfl
@[simp] theorem aop_enc (o : AtomOp) (k : AtomOp → Dec) : aop (aopEnc o) k = k o := by cases o <;> rfl
@[simp] theorem fkind_enc (f : FenceKind) (k : FenceKind → Dec) : fkind (fkindEnc f) k = k f := by cases f <;> rfl
@[simp] theorem bit0_enc (b : Bool) (k : Bool → Dec) : bit0 (bit0Enc b) k = k b := by cases b <;> rfl
@[simp] theorem low3_enc (p : BitVec 3) (k : BitVec 3 → Dec) : low3 (low3Enc p) k = k p := by
  have : ∀ p, (low3Enc p).extractLsb' 3 1 = 0#1 ∧ (low3Enc p).extractLsb' 0 3 = p := by decide
  simp [low3, this]
@[simp] theorem space_enc (s : Space) (k : Space → Dec) : space (spaceEnc s) k = k s := by cases s <;> rfl
@[simp] theorem tmask_enc (m : TagMask) (k : TagMask → Dec) : tmask (tmaskEnc m) k = k m := by
  cases m with
  | pair n =>
    have : ∀ n : BitVec 5, (0b10#2 ++ n).extractLsb' 5 2 = 0b10#2 ∧ (0b10#2 ++ n).extractLsb' 0 5 = n := by decide
    simp only [tmask, tmaskEnc, this, if_true]
  | all => rfl
@[simp] theorem mmaA_enc (wb : Bool) (n : BitVec 5) (k : Bool → BitVec 5 → Dec) : mmaA (mmaAEnc wb n) k = k wb n := by
  have : ∀ wb n, (mmaAEnc wb n).getLsbD 5 = false ∧ (mmaAEnc wb n).getLsbD 6 = wb ∧
    (mmaAEnc wb n).extractLsb' 0 5 = n := by decide
  simp only [mmaA, this, Bool.false_eq_true, if_false]
@[simp] theorem csr_enc (n : BitVec 4) (k : BitVec 4 → Dec) : csr (csrEnc n) k = k n := by
  have : ∀ n, (csrEnc n).extractLsb' 4 3 = 0#3 ∧ (csrEnc n).extractLsb' 0 4 = n := by decide
  simp [csr, this]
@[simp] theorem cform_enc (f : CsrForm) (k : CsrForm → Dec) : cform (cformEnc f) k = k f := by cases f <;> rfl
@[simp] theorem info_enc (n : BitVec 2) (k : BitVec 2 → Dec) : info (infoEnc n) k = k n := by
  have : ∀ n, (infoEnc n).extractLsb' 2 5 = 0#5 ∧ (infoEnc n).extractLsb' 0 2 = n := by decide
  simp [info, this]
@[simp] theorem imm16_split (v : BitVec 16) : v.extractLsb' 7 9 ++ v.extractLsb' 0 7 = v := by
  ext i hi; simp; grind
@[simp] theorem off23_split (v : BitVec 23) :
    v.extractLsb' 14 9 ++ v.extractLsb' 7 7 ++ v.extractLsb' 0 7 = v := by
  ext i hi; simp; grind
theorem bfield_enc : (b : Src) → b.isC16 = true → bfieldOf (bfieldEnc b) = b
  | .v n, h => by revert n; decide
  | .y n, _ => by revert n; decide

-- The packed word.

theorem format_bits {n : Nat} (x : BitVec n) (l : BitVec 3) : (x ++ l).extractLsb' 1 2 = l.extractLsb' 1 2 := by
  ext i hi; simp; grind
theorem low_bit {n m : Nat} (x : BitVec n) (l : BitVec m) (h : 0 < m) : (x ++ l).getLsbD 0 = l.getLsbD 0 := by
  simp only [BitVec.getLsbD_append, h, if_true]

theorem unpack_r (m : BitVec 2) (b a d : BitVec 7) (op : BitVec 6) :
    unpack32 (m ++ b ++ a ++ d ++ op ++ 0b001#3) = .r m b a d op := by
  have h : (m ++ b ++ a ++ d ++ op ++ 0b001#3).extractLsb' 1 2 = 0#2 := format_bits _ _
  simp only [unpack32, h]
  refine congr (congr (congr (congr (congrArg Fields.r ?_) ?_) ?_) ?_) ?_ <;> (ext i hi; simp; grind)
theorem unpack_t (c : BitVec 6) (b a : BitVec 7) (d : BitVec 6) (op : BitVec 3) :
    unpack32 (c ++ b ++ a ++ d ++ op ++ 0b011#3) = .t c b a d op := by
  have h : (c ++ b ++ a ++ d ++ op ++ 0b011#3).extractLsb' 1 2 = 1#2 := format_bits _ _
  simp only [unpack32, h]
  refine congr (congr (congr (congr (congrArg Fields.t ?_) ?_) ?_) ?_) ?_ <;> (ext i hi; simp; grind)
theorem unpack_i (i : BitVec 9) (a d : BitVec 7) (op : BitVec 6) :
    unpack32 (i ++ a ++ d ++ op ++ 0b101#3) = .i i a d op := by
  have h : (i ++ a ++ d ++ op ++ 0b101#3).extractLsb' 1 2 = 2#2 := format_bits _ _
  simp only [unpack32, h]
  refine congr (congr (congr (congrArg Fields.i ?_) ?_) ?_) ?_ <;> (ext i hi; simp; grind)
theorem unpack_m (m : BitVec 4) (x : BitVec 5) (a d : BitVec 7) (op : BitVec 6) :
    unpack32 (m ++ x ++ a ++ d ++ op ++ 0b111#3) = .m m x a d op := by
  have h : (m ++ x ++ a ++ d ++ op ++ 0b111#3).extractLsb' 1 2 = 3#2 := format_bits _ _
  simp only [unpack32, h]
  refine congr (congr (congr (congr (congrArg Fields.m ?_) ?_) ?_) ?_) ?_ <;> (ext i hi; simp; grind)
theorem unpack_c (b : BitVec 5) (d : BitVec 6) (op : BitVec 4) :
    unpack16 (b ++ d ++ op ++ 0#1) = .c b d op := by
  refine congr (congr (congrArg Fields.c ?_) ?_) ?_ <;> (ext i hi; simp; grind)

theorem word32_bytes (w : BitVec 32) :
    w.extractLsb' 24 8 ++ w.extractLsb' 16 8 ++ w.extractLsb' 8 8 ++ w.extractLsb' 0 8 = w := by
  ext i hi; simp; grind
theorem word16_bytes (w : BitVec 16) : w.extractLsb' 8 8 ++ w.extractLsb' 0 8 = w := by
  ext i hi; simp; grind

theorem decode_word32 (w : BitVec 32) (h : w.getLsbD 0 = true) (rest : List Byte) :
    decode (wordBytes (.inr w) ++ rest) = (decode32 w).map (·, rest) := by
  have h0 : (w.extractLsb' 0 8).getLsbD 0 = true := by simpa using h
  simp only [wordBytes, List.cons_append, List.nil_append, decode, h0, if_true, word32_bytes]
theorem decode_word16 (w : BitVec 16) (h : w.getLsbD 0 = false) (rest : List Byte) :
    decode (wordBytes (.inl w) ++ rest) = (decode16 w).map (·, rest) := by
  have h0 : (w.extractLsb' 0 8).getLsbD 0 = false := by simpa using h
  simp only [wordBytes, List.cons_append, List.nil_append, decode, h0, word16_bytes, Bool.false_eq_true, if_false]

/-- Whether the fields are a 32-bit word's. -/
def wide : Fields → Bool
  | .c _ _ _ => false
  | _ => true

/-- A 32-bit word: its fields decode to `i`. -/
theorem ofWord {i : Instr} {f : Fields} (hf : fieldsOf i = some f) (hc : wide f = true)
    (hd : decodeFields f = .ok i) : RoundTrip.Statement i := by
  intro hw w he rest
  have hp : pack f = w := by simpa [encode, hf] using he
  subst hp
  cases f with
  | c b d op => cases hc
  | r m b a d op =>
    refine (decode_word32 _ (low_bit _ _ (by decide)) _).trans ?_; simp [decode32, unpack_r, decodeChecked, hd, hw, Except.map]
  | t c b a d op =>
    refine (decode_word32 _ (low_bit _ _ (by decide)) _).trans ?_; simp [decode32, unpack_t, decodeChecked, hd, hw, Except.map]
  | i i a d op =>
    refine (decode_word32 _ (low_bit _ _ (by decide)) _).trans ?_; simp [decode32, unpack_i, decodeChecked, hd, hw, Except.map]
  | m m x a d op =>
    refine (decode_word32 _ (low_bit _ _ (by decide)) _).trans ?_; simp [decode32, unpack_m, decodeChecked, hd, hw, Except.map]

/-- A C16 parcel, which is never the zero parcel. -/
theorem ofC {i : Instr} {b : Src} {d : BitVec 6} {op : BitVec 4} (hf : fieldsOf i = some (.c (bfieldEnc b) d op))
    (hb : i.wf = true → b.isC16 = true) (hd : ∀ b', bfieldOf b' = b → decodeC b' d op = .ok i)
    (hz : i.wf = true → bfieldEnc b ++ d ++ op ≠ 0#15) : RoundTrip.Statement i := by
  intro hw w he rest
  have hp : pack (.c (bfieldEnc b) d op) = w := by simpa [encode, hf] using he
  subst hp
  have hn : bfieldEnc b ++ d ++ op ++ 0#1 ≠ 0#16 := by
    intro h; apply hz hw
    have : (bfieldEnc b ++ d ++ op ++ 0#1).extractLsb' 1 15 = bfieldEnc b ++ d ++ op := by ext i hi; simp; grind
    rw [← this, h]; rfl
  refine (decode_word16 _ (low_bit _ _ (by decide)) _).trans ?_
  simp [decode16, unpack_c, decodeChecked, decodeFields, hd _ (bfield_enc b (hb hw)), hw, Except.map, hn]

theorem word_op {i : Instr} {n : Nat} (x : BitVec n) (op : BitVec 4) (h : op ≠ 0#4) :
    i.wf = true → x ++ op ≠ 0#(n + 4) := by
  intro _ hx; apply h
  have : (x ++ op).extractLsb' 0 4 = op := by ext i hi; simp; grind
  rw [← this, hx]; ext i hi; simp
theorem addC16_word (b : Src) (d : BitVec 6) (h : (Instr.addC16 b d).wf = true) : bfieldEnc b ++ d ++ 0#4 ≠ 0#15 := by
  intro hx
  simp only [Instr.wf, Bool.and_eq_true, Bool.not_eq_true', Bool.and_eq_false_iff, beq_eq_false_iff_ne] at h
  have hb : bfieldEnc b = 0#5 := by
    have : (bfieldEnc b ++ d ++ 0#4).extractLsb' 10 5 = bfieldEnc b := by ext i hi; simp; grind
    rw [← this, hx]; rfl
  have hd : d = 0#6 := by
    have : (bfieldEnc b ++ d ++ 0#4).extractLsb' 4 6 = d := by ext i hi; simp; grind
    rw [← this, hx]; rfl
  have hv : b = .v 0 := by rw [← bfield_enc b h.1, hb]; rfl
  rcases h.2 with h2 | h2
  · exact h2 hv
  · exact h2 hd

theorem group_bits (x : BitVec 1) (g : BitVec 3) : (0#1 ++ x ++ g).getLsbD 4 = false ∧
    (0#1 ++ x ++ g).extractLsb' 3 1 = x ∧ (0#1 ++ x ++ g).extractLsb' 0 3 = g := by revert x g; decide
theorem mask_split (m : BitVec 8) : m.extractLsb' 7 1 ++ m.extractLsb' 0 7 = m := by ext i hi; simp; grind

theorem noEncoding {i : Instr} (h : fieldsOf i = none) : RoundTrip.Statement i := by
  intro _ w he; simp [encode, h] at he

section
-- One lemma after the other: 259 proofs at once would each hold a thread's stack.
set_option Elab.async false

theorem RoundTrip.add (u sat : Bool) (a b : Src) (d : Dst) : RoundTrip.Statement (.add u sat a b d) :=
  ofWord rfl rfl (by simp [decodeFields, decodeR])
theorem RoundTrip.sub (u sat : Bool) (a b : Src) (d : Dst) : RoundTrip.Statement (.sub u sat a b d) :=
  ofWord rfl rfl (by simp [decodeFields, decodeR])
theorem RoundTrip.mul (u sat : Bool) (a b : Src) (d : Dst) : RoundTrip.Statement (.mul u sat a b d) :=
  ofWord rfl rfl (by simp [decodeFields, decodeR])
theorem RoundTrip.mulh (u : Bool) (a b : Src) (d : Dst) : RoundTrip.Statement (.mulh u a b d) :=
  ofWord rfl rfl (by simp [decodeFields, decodeR])
theorem RoundTrip.and (inv : Bool) (a b : Src) (d : Dst) : RoundTrip.Statement (.and inv a b d) :=
  ofWord rfl rfl (by simp [decodeFields, decodeR])
theorem RoundTrip.or (inv : Bool) (a b : Src) (d : Dst) : RoundTrip.Statement (.or inv a b d) :=
  ofWord rfl rfl (by simp [decodeFields, decodeR])
theorem RoundTrip.xor (inv : Bool) (a b : Src) (d : Dst) : RoundTrip.Statement (.xor inv a b d) :=
  ofWord rfl rfl (by simp [decodeFields, decodeR])
theorem RoundTrip.andn (inv : Bool) (a b : Src) (d : Dst) : RoundTrip.Statement (.andn inv a b d) :=
  ofWord rfl rfl (by simp [decodeFields, decodeR])
theorem RoundTrip.shl (a b : Src) (d : Dst) : RoundTrip.Statement (.shl a b d) :=
  ofWord rfl rfl (by simp [decodeFields, decodeR])
theorem RoundTrip.shr (a b : Src) (d : Dst) : RoundTrip.Statement (.shr a b d) :=
  ofWord rfl rfl (by simp [decodeFields, decodeR])
theorem RoundTrip.sar (a b : Src) (d : Dst) : RoundTrip.Statement (.sar a b d) :=
  ofWord rfl rfl (by simp [decodeFields, decodeR])
theorem RoundTrip.rot (a b : Src) (d : Dst) : RoundTrip.Statement (.rot a b d) :=
  ofWord rfl rfl (by simp [decodeFields, decodeR])
theorem RoundTrip.min (u : Bool) (a b : Src) (d : Dst) : RoundTrip.Statement (.min u a b d) :=
  ofWord rfl rfl (by simp [decodeFields, decodeR])
theorem RoundTrip.max (u : Bool) (a b : Src) (d : Dst) : RoundTrip.Statement (.max u a b d) :=
  ofWord rfl rfl (by simp [decodeFields, decodeR])
theorem RoundTrip.absd (u : Bool) (a b : Src) (d : Dst) : RoundTrip.Statement (.absd u a b d) :=
  ofWord rfl rfl (by simp [decodeFields, decodeR])
theorem RoundTrip.div (u : Bool) (a b : Src) (d : Dst) : RoundTrip.Statement (.div u a b d) :=
  ofWord rfl rfl (by simp [decodeFields, decodeR])
theorem RoundTrip.rem (u : Bool) (a b : Src) (d : Dst) : RoundTrip.Statement (.rem u a b d) :=
  ofWord rfl rfl (by simp [decodeFields, decodeR])
theorem RoundTrip.clz (a : Src) (d : Dst) : RoundTrip.Statement (.clz a d) :=
  ofWord rfl rfl (by simp [decodeFields, decodeR])
theorem RoundTrip.popc (a : Src) (d : Dst) : RoundTrip.Statement (.popc a d) :=
  ofWord rfl rfl (by simp [decodeFields, decodeR])
theorem RoundTrip.brev (a : Src) (d : Dst) : RoundTrip.Statement (.brev a d) :=
  ofWord rfl rfl (by simp [decodeFields, decodeR])
theorem RoundTrip.cmpeq (inv : Bool) (a b : Src) (p : BitVec 3) : RoundTrip.Statement (.cmpeq inv a b p) :=
  ofWord rfl rfl (by simp [decodeFields, decodeR])
theorem RoundTrip.cmplt (inv u : Bool) (a b : Src) (p : BitVec 3) : RoundTrip.Statement (.cmplt inv u a b p) :=
  ofWord rfl rfl (by simp [decodeFields, decodeR])
theorem RoundTrip.cmple (inv u : Bool) (a b : Src) (p : BitVec 3) : RoundTrip.Statement (.cmple inv u a b p) :=
  ofWord rfl rfl (by simp [decodeFields, decodeR])
theorem RoundTrip.sel (p : BitVec 2) (a b : Src) (d : Dst) : RoundTrip.Statement (.sel p a b d) :=
  ofWord rfl rfl (by simp [decodeFields, decodeR])
theorem RoundTrip.adda (b : Src) (aS aD : BitVec 4) : RoundTrip.Statement (.adda b aS aD) :=
  ofWord rfl rfl (by simp [decodeFields, decodeR])
theorem RoundTrip.mov (a : Src) (d : Dst) : RoundTrip.Statement (.mov a d) :=
  ofWord rfl rfl (by simp [decodeFields, decodeR])
theorem RoundTrip.bcst (a b : Src) (d : Dst) : RoundTrip.Statement (.bcst a b d) :=
  ofWord rfl rfl (by simp [decodeFields, decodeR])
theorem RoundTrip.shfl (a b : Src) (d : Dst) : RoundTrip.Statement (.shfl a b d) :=
  ofWord rfl rfl (by simp [decodeFields, decodeR])
theorem RoundTrip.voteAny (a : Src) (p : BitVec 3) : RoundTrip.Statement (.voteAny a p) :=
  ofWord rfl rfl (by simp [decodeFields, decodeR])
theorem RoundTrip.voteAll (a : Src) (p : BitVec 3) : RoundTrip.Statement (.voteAll a p) :=
  ofWord rfl rfl (by simp [decodeFields, decodeR])
theorem RoundTrip.voteBallot (a : Src) (d : Dst) : RoundTrip.Statement (.voteBallot a d) :=
  ofWord rfl rfl (by simp [decodeFields, decodeR])
theorem RoundTrip.prmt (a b : Src) (d : Dst) : RoundTrip.Statement (.prmt a b d) :=
  ofWord rfl rfl (by simp [decodeFields, decodeR])
theorem RoundTrip.fadd (rm : Rm) (a b : Src) (d : Dst) : RoundTrip.Statement (.fadd rm a b d) :=
  ofWord rfl rfl (by simp [decodeFields, decodeR])
theorem RoundTrip.fsub (rm : Rm) (a b : Src) (d : Dst) : RoundTrip.Statement (.fsub rm a b d) :=
  ofWord rfl rfl (by simp [decodeFields, decodeR])
theorem RoundTrip.fmul (rm : Rm) (a b : Src) (d : Dst) : RoundTrip.Statement (.fmul rm a b d) :=
  ofWord rfl rfl (by simp [decodeFields, decodeR])
theorem RoundTrip.fmin (a b : Src) (d : Dst) : RoundTrip.Statement (.fmin a b d) :=
  ofWord rfl rfl (by simp [decodeFields, decodeR])
theorem RoundTrip.fmax (a b : Src) (d : Dst) : RoundTrip.Statement (.fmax a b d) :=
  ofWord rfl rfl (by simp [decodeFields, decodeR])
theorem RoundTrip.fcmpeq (a b : Src) (p : BitVec 3) : RoundTrip.Statement (.fcmpeq a b p) :=
  ofWord rfl rfl (by simp [decodeFields, decodeR])
theorem RoundTrip.fcmplt (a b : Src) (p : BitVec 3) : RoundTrip.Statement (.fcmplt a b p) :=
  ofWord rfl rfl (by simp [decodeFields, decodeR])
theorem RoundTrip.fcmple (a b : Src) (p : BitVec 3) : RoundTrip.Statement (.fcmple a b p) :=
  ofWord rfl rfl (by simp [decodeFields, decodeR])
theorem RoundTrip.frcp (rm : Rm) (a : Src) (d : Dst) : RoundTrip.Statement (.frcp rm a d) :=
  ofWord rfl rfl (by simp [decodeFields, decodeR])
theorem RoundTrip.frsq (a : Src) (d : Dst) : RoundTrip.Statement (.frsq a d) :=
  ofWord rfl rfl (by simp [decodeFields, decodeR])
theorem RoundTrip.fsqrt (rm : Rm) (a : Src) (d : Dst) : RoundTrip.Statement (.fsqrt rm a d) :=
  ofWord rfl rfl (by simp [decodeFields, decodeR])
theorem RoundTrip.fex2 (a : Src) (d : Dst) : RoundTrip.Statement (.fex2 a d) :=
  ofWord rfl rfl (by simp [decodeFields, decodeR])
theorem RoundTrip.flg2 (a : Src) (d : Dst) : RoundTrip.Statement (.flg2 a d) :=
  ofWord rfl rfl (by simp [decodeFields, decodeR])
theorem RoundTrip.fsin (a : Src) (d : Dst) : RoundTrip.Statement (.fsin a d) :=
  ofWord rfl rfl (by simp [decodeFields, decodeR])
theorem RoundTrip.fcos (a : Src) (d : Dst) : RoundTrip.Statement (.fcos a d) :=
  ofWord rfl rfl (by simp [decodeFields, decodeR])
theorem RoundTrip.fclass (a : Src) (d : Dst) : RoundTrip.Statement (.fclass a d) :=
  ofWord rfl rfl (by simp [decodeFields, decodeR])
theorem RoundTrip.dadd (rm : Rm) (a b : Src) (d : Dst) : RoundTrip.Statement (.dadd rm a b d) :=
  ofWord rfl rfl (by simp [decodeFields, decodeR])
theorem RoundTrip.dsub (rm : Rm) (a b : Src) (d : Dst) : RoundTrip.Statement (.dsub rm a b d) :=
  ofWord rfl rfl (by simp [decodeFields, decodeR])
theorem RoundTrip.dmul (rm : Rm) (a b : Src) (d : Dst) : RoundTrip.Statement (.dmul rm a b d) :=
  ofWord rfl rfl (by simp [decodeFields, decodeR])
theorem RoundTrip.dmin (a b : Src) (d : Dst) : RoundTrip.Statement (.dmin a b d) :=
  ofWord rfl rfl (by simp [decodeFields, decodeR])
theorem RoundTrip.dmax (a b : Src) (d : Dst) : RoundTrip.Statement (.dmax a b d) :=
  ofWord rfl rfl (by simp [decodeFields, decodeR])
theorem RoundTrip.dcmp (t : DCmp) (a b : Src) (p : BitVec 3) : RoundTrip.Statement (.dcmp t a b p) :=
  ofWord rfl rfl (by simp [decodeFields, decodeR])
theorem RoundTrip.drcp (rm : Rm) (a : Src) (d : Dst) : RoundTrip.Statement (.drcp rm a d) :=
  ofWord rfl rfl (by simp [decodeFields, decodeR])
theorem RoundTrip.hadd2 (rm : Rm) (a b : Src) (d : Dst) : RoundTrip.Statement (.hadd2 rm a b d) :=
  ofWord rfl rfl (by simp [decodeFields, decodeR])
theorem RoundTrip.hmul2 (rm : Rm) (a b : Src) (d : Dst) : RoundTrip.Statement (.hmul2 rm a b d) :=
  ofWord rfl rfl (by simp [decodeFields, decodeR])
theorem RoundTrip.hmax2 (a b : Src) (d : Dst) : RoundTrip.Statement (.hmax2 a b d) :=
  ofWord rfl rfl (by simp [decodeFields, decodeR])
theorem RoundTrip.cvt (rm : Rm) (k : BitVec 7) (a : Src) (d : Dst) : RoundTrip.Statement (.cvt rm k a d) :=
  ofWord rfl rfl (by simp [decodeFields, decodeR])
theorem RoundTrip.ftag (k : BitVec 7) (a : Src) (d : Dst) : RoundTrip.Statement (.ftag k a d) :=
  ofWord rfl rfl (by simp [decodeFields, decodeR])
theorem RoundTrip.qnt4 (b : Src) (a : BitVec 6) (d : Dst) : RoundTrip.Statement (.qnt4 b a d) :=
  ofWord rfl rfl (by simp [decodeFields, decodeR])
theorem RoundTrip.dqnt4 (a b : Src) (d : Dst) : RoundTrip.Statement (.dqnt4 a b d) :=
  ofWord rfl rfl (by simp [decodeFields, decodeR])
theorem RoundTrip.getsr (k : BitVec 7) (d : Dst) : RoundTrip.Statement (.getsr k d) :=
  ofWord rfl rfl (by simp [decodeFields, decodeR])
theorem RoundTrip.ffma (a b : Src) (c d : BitVec 6) : RoundTrip.Statement (.ffma a b c d) :=
  ofWord rfl rfl (by simp [decodeFields, decodeT])
theorem RoundTrip.dfma (a b : Src) (c d : BitVec 6) : RoundTrip.Statement (.dfma a b c d) :=
  ofWord rfl rfl (by simp [decodeFields, decodeT])
theorem RoundTrip.hfma2 (a b : Src) (c d : BitVec 6) : RoundTrip.Statement (.hfma2 a b c d) :=
  ofWord rfl rfl (by simp [decodeFields, decodeT])
theorem RoundTrip.mad (a b : Src) (c d : BitVec 6) : RoundTrip.Statement (.mad a b c d) :=
  ofWord rfl rfl (by simp [decodeFields, decodeT])
theorem RoundTrip.bfi (a b : Src) (c d : BitVec 6) : RoundTrip.Statement (.bfi a b c d) :=
  ofWord rfl rfl (by simp [decodeFields, decodeT])
theorem RoundTrip.dot4 (a b : Src) (c d : BitVec 6) : RoundTrip.Statement (.dot4 a b c d) :=
  ofWord rfl rfl (by simp [decodeFields, decodeT])
theorem RoundTrip.dot2h (a b : Src) (c d : BitVec 6) : RoundTrip.Statement (.dot2h a b c d) :=
  ofWord rfl rfl (by simp [decodeFields, decodeT])
theorem RoundTrip.addi (imm : BitVec 9) (a : Src) (d : Dst) : RoundTrip.Statement (.addi imm a d) :=
  ofWord rfl rfl (by simp [decodeFields, decodeI])
theorem RoundTrip.andi (imm : BitVec 9) (a : Src) (d : Dst) : RoundTrip.Statement (.andi imm a d) :=
  ofWord rfl rfl (by simp [decodeFields, decodeI])
theorem RoundTrip.ori (imm : BitVec 9) (a : Src) (d : Dst) : RoundTrip.Statement (.ori imm a d) :=
  ofWord rfl rfl (by simp [decodeFields, decodeI])
theorem RoundTrip.xori (imm : BitVec 9) (a : Src) (d : Dst) : RoundTrip.Statement (.xori imm a d) :=
  ofWord rfl rfl (by simp [decodeFields, decodeI])
theorem RoundTrip.shli (sh : BitVec 5) (a : Src) (d : Dst) : RoundTrip.Statement (.shli sh a d) :=
  ofWord rfl rfl (by simp [decodeFields, decodeI])
theorem RoundTrip.shri (sh : BitVec 5) (a : Src) (d : Dst) : RoundTrip.Statement (.shri sh a d) :=
  ofWord rfl rfl (by simp [decodeFields, decodeI])
theorem RoundTrip.sari (sh : BitVec 5) (a : Src) (d : Dst) : RoundTrip.Statement (.sari sh a d) :=
  ofWord rfl rfl (by simp [decodeFields, decodeI])
theorem RoundTrip.cmpeqi (imm : BitVec 9) (a : Src) (p : BitVec 3) : RoundTrip.Statement (.cmpeqi imm a p) :=
  ofWord rfl rfl (by simp [decodeFields, decodeI])
theorem RoundTrip.cmplti (imm : BitVec 9) (a : Src) (p : BitVec 3) : RoundTrip.Statement (.cmplti imm a p) :=
  ofWord rfl rfl (by simp [decodeFields, decodeI])
theorem RoundTrip.cmplei (imm : BitVec 9) (a : Src) (p : BitVec 3) : RoundTrip.Statement (.cmplei imm a p) :=
  ofWord rfl rfl (by simp [decodeFields, decodeI])
theorem RoundTrip.movi (imm : BitVec 16) (d : Dst) : RoundTrip.Statement (.movi imm d) :=
  ofWord rfl rfl (by simp [decodeFields, decodeI])
theorem RoundTrip.movhi (imm : BitVec 16) (d : Dst) : RoundTrip.Statement (.movhi imm d) :=
  ofWord rfl rfl (by simp [decodeFields, decodeI])
theorem RoundTrip.movsi (imm : BitVec 16) (d : BitVec 5) : RoundTrip.Statement (.movsi imm d) :=
  ofWord rfl rfl (by simp [decodeFields, decodeI])
theorem RoundTrip.movhsi (imm : BitVec 16) (d : BitVec 5) : RoundTrip.Statement (.movhsi imm d) :=
  ofWord rfl rfl (by simp [decodeFields, decodeI])
theorem RoundTrip.addai (imm : BitVec 9) (aS aD : BitVec 4) : RoundTrip.Statement (.addai imm aS aD) :=
  ofWord rfl rfl (by simp [decodeFields, decodeI])
theorem RoundTrip.br (off : BitVec 23) : RoundTrip.Statement (.br off) :=
  ofWord rfl rfl (by simp [decodeFields, decodeI])
theorem RoundTrip.brp (off : BitVec 16) (neg : Bool) (p : BitVec 3) : RoundTrip.Statement (.brp off neg p) :=
  ofWord rfl rfl (by simp [decodeFields, decodeI])
theorem RoundTrip.call (off : BitVec 23) : RoundTrip.Statement (.call off) :=
  ofWord rfl rfl (by simp [decodeFields, decodeI])
theorem RoundTrip.ret (a : Src) : RoundTrip.Statement (.ret a) :=
  ofWord rfl rfl (by simp [decodeFields, decodeI])
theorem RoundTrip.jmpi (a : Src) : RoundTrip.Statement (.jmpi a) :=
  ofWord rfl rfl (by simp [decodeFields, decodeI])
theorem RoundTrip.reform : RoundTrip.Statement .reform :=
  ofWord rfl rfl (by simp [decodeFields, decodeI])
theorem RoundTrip.join : RoundTrip.Statement .join :=
  ofWord rfl rfl (by simp [decodeFields, decodeI])
theorem RoundTrip.yield : RoundTrip.Statement .yield :=
  ofWord rfl rfl (by simp [decodeFields, decodeI])
theorem RoundTrip.exit : RoundTrip.Statement .exit :=
  ofWord rfl rfl (by simp [decodeFields, decodeI])
theorem RoundTrip.trap (code : BitVec 16) : RoundTrip.Statement (.trap code) :=
  ofWord rfl rfl (by simp [decodeFields, decodeI])
theorem RoundTrip.nop : RoundTrip.Statement .nop :=
  ofWord rfl rfl (by simp [decodeFields, decodeI])
theorem RoundTrip.addC16 (b : Src) (d : BitVec 6) : RoundTrip.Statement (.addC16 b d) :=
  ofC rfl (fun h => (Bool.and_eq_true_iff.mp h).1) (fun _ h => by rw [← h]; rfl) (addC16_word _ _)
theorem RoundTrip.subC16 (b : Src) (d : BitVec 6) : RoundTrip.Statement (.subC16 b d) :=
  ofC rfl (fun h => h) (fun _ h => by rw [← h]; rfl) (word_op _ _ (by decide))
theorem RoundTrip.mulC16 (b : Src) (d : BitVec 6) : RoundTrip.Statement (.mulC16 b d) :=
  ofC rfl (fun h => h) (fun _ h => by rw [← h]; rfl) (word_op _ _ (by decide))
theorem RoundTrip.andC16 (b : Src) (d : BitVec 6) : RoundTrip.Statement (.andC16 b d) :=
  ofC rfl (fun h => h) (fun _ h => by rw [← h]; rfl) (word_op _ _ (by decide))
theorem RoundTrip.orC16 (b : Src) (d : BitVec 6) : RoundTrip.Statement (.orC16 b d) :=
  ofC rfl (fun h => h) (fun _ h => by rw [← h]; rfl) (word_op _ _ (by decide))
theorem RoundTrip.xorC16 (b : Src) (d : BitVec 6) : RoundTrip.Statement (.xorC16 b d) :=
  ofC rfl (fun h => h) (fun _ h => by rw [← h]; rfl) (word_op _ _ (by decide))
theorem RoundTrip.shlC16 (b : Src) (d : BitVec 6) : RoundTrip.Statement (.shlC16 b d) :=
  ofC rfl (fun h => h) (fun _ h => by rw [← h]; rfl) (word_op _ _ (by decide))
theorem RoundTrip.shrC16 (b : Src) (d : BitVec 6) : RoundTrip.Statement (.shrC16 b d) :=
  ofC rfl (fun h => h) (fun _ h => by rw [← h]; rfl) (word_op _ _ (by decide))
theorem RoundTrip.sarC16 (b : Src) (d : BitVec 6) : RoundTrip.Statement (.sarC16 b d) :=
  ofC rfl (fun h => h) (fun _ h => by rw [← h]; rfl) (word_op _ _ (by decide))
theorem RoundTrip.movC16 (b : Src) (d : BitVec 6) : RoundTrip.Statement (.movC16 b d) :=
  ofC rfl (fun h => h) (fun _ h => by rw [← h]; rfl) (word_op _ _ (by decide))
theorem RoundTrip.minC16 (b : Src) (d : BitVec 6) : RoundTrip.Statement (.minC16 b d) :=
  ofC rfl (fun h => h) (fun _ h => by rw [← h]; rfl) (word_op _ _ (by decide))
theorem RoundTrip.maxC16 (b : Src) (d : BitVec 6) : RoundTrip.Statement (.maxC16 b d) :=
  ofC rfl (fun h => h) (fun _ h => by rw [← h]; rfl) (word_op _ _ (by decide))
theorem RoundTrip.faddC16 (b : Src) (d : BitVec 6) : RoundTrip.Statement (.faddC16 b d) :=
  ofC rfl (fun h => h) (fun _ h => by rw [← h]; rfl) (word_op _ _ (by decide))
theorem RoundTrip.fsubC16 (b : Src) (d : BitVec 6) : RoundTrip.Statement (.fsubC16 b d) :=
  ofC rfl (fun h => h) (fun _ h => by rw [← h]; rfl) (word_op _ _ (by decide))
theorem RoundTrip.fmulC16 (b : Src) (d : BitVec 6) : RoundTrip.Statement (.fmulC16 b d) :=
  ofC rfl (fun h => h) (fun _ h => by rw [← h]; rfl) (word_op _ _ (by decide))
theorem RoundTrip.fmaxC16 (b : Src) (d : BitVec 6) : RoundTrip.Statement (.fmaxC16 b d) :=
  ofC rfl (fun h => h) (fun _ h => by rw [← h]; rfl) (word_op _ _ (by decide))
theorem RoundTrip.ld (t : MemTy) (n : BitVec 4) (o : Src) (d : BitVec 6) : RoundTrip.Statement (.ld t n o d) :=
  ofWord rfl rfl (by simp [decodeFields, decodeM])
theorem RoundTrip.st (t : MemTy) (n : BitVec 4) (o b : Src) : RoundTrip.Statement (.st t n o b) :=
  ofWord rfl rfl (by simp [decodeFields, decodeM])
theorem RoundTrip.ldu (t : MemTy) (n : BitVec 4) (o : Src) (d : BitVec 5) : RoundTrip.Statement (.ldu t n o d) :=
  ofWord rfl rfl (by simp [decodeFields, decodeM])
theorem RoundTrip.lds (t : MemTy) (h : Bool) (n : BitVec 4) (o : Src) (d : BitVec 6) : RoundTrip.Statement (.lds t h n o d) :=
  ofWord rfl rfl (by simp [decodeFields, decodeM])
theorem RoundTrip.sts (t : MemTy) (h : Bool) (n : BitVec 4) (o b : Src) : RoundTrip.Statement (.sts t h n o b) :=
  ofWord rfl rfl (by simp [decodeFields, decodeM])
theorem RoundTrip.ldbmv (t : MemTy) (n : BitVec 4) (p : BitVec 5) : RoundTrip.Statement (.ldbmv t n p) :=
  ofWord rfl rfl (by simp [decodeFields, decodeM])
theorem RoundTrip.stbmv (t : MemTy) (n : BitVec 4) (p : BitVec 5) : RoundTrip.Statement (.stbmv t n p) :=
  ofWord rfl rfl (by simp [decodeFields, decodeM])
theorem RoundTrip.ldacq (sc : Scope) (b64 : Bool) (n : BitVec 4) (o : Src) (d : BitVec 6) : RoundTrip.Statement (.ldacq sc b64 n o d) :=
  ofWord rfl rfl (by simp [decodeFields, decodeM])
theorem RoundTrip.strel (sc : Scope) (b64 : Bool) (n : BitVec 4) (o b : Src) : RoundTrip.Statement (.strel sc b64 n o b) :=
  ofWord rfl rfl (by simp [decodeFields, decodeM])
theorem RoundTrip.atom (op : AtomOp) (near : Bool) (n : BitVec 4) (b : Src) (d : BitVec 6) : RoundTrip.Statement (.atom op near n b d) :=
  ofWord rfl rfl (by simp [decodeFields, decodeM])
theorem RoundTrip.atomu (op : AtomOp) (far : Bool) (n : BitVec 4) (b o : Src) : RoundTrip.Statement (.atomu op far n b o) :=
  ofWord rfl rfl (by simp [decodeFields, decodeM])
theorem RoundTrip.fence (sc : Scope) (k : FenceKind) : RoundTrip.Statement (.fence sc k) :=
  ofWord rfl rfl (by simp [decodeFields, decodeM])
theorem RoundTrip.pref (l2 : Bool) (n : BitVec 4) (o : Src) : RoundTrip.Statement (.pref l2 n o) :=
  ofWord rfl rfl (by simp [decodeFields, decodeM])
theorem RoundTrip.taglk (n : BitVec 4) (o : Src) (d : BitVec 6) : RoundTrip.Statement (.taglk n o d) :=
  ofWord rfl rfl (by simp [decodeFields, decodeM])
theorem RoundTrip.tagset (n : BitVec 4) (o b : Src) : RoundTrip.Statement (.tagset n o b) :=
  ofWord rfl rfl (by simp [decodeFields, decodeM])
theorem RoundTrip.tagclr (b : Src) : RoundTrip.Statement (.tagclr b) :=
  ofWord rfl rfl (by simp [decodeFields, decodeM])
theorem RoundTrip.barinit (sp : Space) (n : BitVec 4) (b c : Src) : RoundTrip.Statement (.barinit sp n b c) :=
  ofWord rfl rfl (by simp [decodeFields, decodeM])
theorem RoundTrip.bararv (sp : Space) (n : BitVec 4) : RoundTrip.Statement (.bararv sp n) :=
  ofWord rfl rfl (by simp [decodeFields, decodeM])
theorem RoundTrip.barexp (sp : Space) (n : BitVec 4) (b : Src) : RoundTrip.Statement (.barexp sp n b) :=
  ofWord rfl rfl (by simp [decodeFields, decodeM])
theorem RoundTrip.barwait (sp : Space) (n : BitVec 4) (k : Src) : RoundTrip.Statement (.barwait sp n k) :=
  ofWord rfl rfl (by simp [decodeFields, decodeM])
theorem RoundTrip.cpy (n : BitVec 4) (t : BitVec 6) : RoundTrip.Statement (.cpy n t) :=
  ofWord rfl rfl (by simp [decodeFields, decodeM])
theorem RoundTrip.cpyx (n : BitVec 4) (t : BitVec 6) : RoundTrip.Statement (.cpyx n t) :=
  ofWord rfl rfl (by simp [decodeFields, decodeM])
theorem RoundTrip.cpymma (n : BitVec 4) (t : BitVec 6) : RoundTrip.Statement (.cpymma n t) :=
  ofWord rfl rfl (by simp [decodeFields, decodeM])
theorem RoundTrip.ctwaitGroup (all : Bool) (mask : BitVec 8) (g : BitVec 3) : RoundTrip.Statement (.ctwaitGroup all mask g) :=
  ofWord rfl rfl (by
    simp only [decodeFields, decodeM, BitVec.toNat_ofNat, Nat.reduceMod, Nat.reducePow, group_bits]; simp [mask_split])
theorem RoundTrip.ctwaitMask (all : Bool) (m : TagMask) : RoundTrip.Statement (.ctwaitMask all m) :=
  ofWord rfl rfl (by simp [decodeFields, decodeM])
theorem RoundTrip.ctfind (m : TagMask) (d : BitVec 5) : RoundTrip.Statement (.ctfind m d) :=
  ofWord rfl rfl (by simp [decodeFields, decodeM])
theorem RoundTrip.xfer (spad : Bool) (n : BitVec 4) : RoundTrip.Statement (.xfer spad n) :=
  ofWord rfl rfl (by simp [decodeFields, decodeM])
theorem RoundTrip.lease (spad : Bool) (n : BitVec 4) : RoundTrip.Statement (.lease spad n) :=
  ofWord rfl rfl (by simp [decodeFields, decodeM])
theorem RoundTrip.unlease (b : Src) : RoundTrip.Statement (.unlease b) :=
  ofWord rfl rfl (by simp [decodeFields, decodeM])
theorem RoundTrip.surr (b c : Src) : RoundTrip.Statement (.surr b c) :=
  ofWord rfl rfl (by simp [decodeFields, decodeM])
theorem RoundTrip.qres (k : BitVec 3) (n : BitVec 4) (d : BitVec 6) : RoundTrip.Statement (.qres k n d) :=
  ofWord rfl rfl (by simp [decodeFields, decodeM])
theorem RoundTrip.qpub (n : BitVec 4) (b : Src) : RoundTrip.Statement (.qpub n b) :=
  ofWord rfl rfl (by simp [decodeFields, decodeM])
theorem RoundTrip.qtake (n : BitVec 4) (d : BitVec 6) : RoundTrip.Statement (.qtake n d) :=
  ofWord rfl rfl (by simp [decodeFields, decodeM])
theorem RoundTrip.spawnT (try_ : Bool) (g : BitVec 4) (b : Src) (k : BitVec 3) : RoundTrip.Statement (.spawnT try_ g b k) :=
  ofWord rfl rfl (by cases try_ <;> simp [decodeFields, decodeM])
theorem RoundTrip.spawnK (try_ : Bool) (n : BitVec 4) (k : BitVec 3) : RoundTrip.Statement (.spawnK try_ n k) :=
  ofWord rfl rfl (by cases try_ <;> simp [decodeFields, decodeM])
theorem RoundTrip.cins (n : BitVec 4) (a d : BitVec 6) : RoundTrip.Statement (.cins n a d) :=
  ofWord rfl rfl (by simp [decodeFields, decodeM])
theorem RoundTrip.cdel (n : BitVec 4) (a d : BitVec 6) : RoundTrip.Statement (.cdel n a d) :=
  ofWord rfl rfl (by simp [decodeFields, decodeM])
theorem RoundTrip.crel (n : BitVec 4) (a d : BitVec 6) : RoundTrip.Statement (.crel n a d) :=
  ofWord rfl rfl (by simp [decodeFields, decodeM])
theorem RoundTrip.copen (settled : Bool) (n : BitVec 4) (a d : BitVec 6) : RoundTrip.Statement (.copen settled n a d) :=
  ofWord rfl rfl (by simp [decodeFields, decodeM])
theorem RoundTrip.cnext (c : Src) (d : BitVec 6) : RoundTrip.Statement (.cnext c d) :=
  ofWord rfl rfl (by simp [decodeFields, decodeM])
theorem RoundTrip.cclose (c : Src) : RoundTrip.Statement (.cclose c) :=
  ofWord rfl rfl (by simp [decodeFields, decodeM])
theorem RoundTrip.cstep (n : BitVec 4) (d : BitVec 5) : RoundTrip.Statement (.cstep n d) :=
  ofWord rfl rfl (by simp [decodeFields, decodeM])
theorem RoundTrip.ccnt (n : BitVec 4) (a d : BitVec 6) : RoundTrip.Statement (.ccnt n a d) :=
  ofWord rfl rfl (by simp [decodeFields, decodeM])
theorem RoundTrip.mma (ty : BitVec 4) (shape : BitVec 5) (wb : Bool) (n : BitVec 5) (tile : BitVec 7) : RoundTrip.Statement (.mma ty shape wb n tile) :=
  ofWord rfl rfl (by simp [decodeFields, decodeM])
theorem RoundTrip.mmas (ty : BitVec 4) (shape : BitVec 5) (wb : Bool) (n : BitVec 5) (tile : BitVec 7) : RoundTrip.Statement (.mmas ty shape wb n tile) :=
  ofWord rfl rfl (by simp [decodeFields, decodeM])
theorem RoundTrip.mzero (ty : BitVec 4) (n tile : BitVec 7) : RoundTrip.Statement (.mzero ty n tile) :=
  ofWord rfl rfl (by simp [decodeFields, decodeM])
theorem RoundTrip.mldw (ty : BitVec 4) (n : BitVec 4) (b : Src) (region : BitVec 6) : RoundTrip.Statement (.mldw ty n b region) :=
  ofWord rfl rfl (by simp [decodeFields, decodeM])
theorem RoundTrip.macld (ty : BitVec 4) (n : BitVec 4) (cnt tile : BitVec 7) : RoundTrip.Statement (.macld ty n cnt tile) :=
  ofWord rfl rfl (by simp [decodeFields, decodeM])
theorem RoundTrip.macst (n : BitVec 4) (cnt tile : BitVec 7) : RoundTrip.Statement (.macst n cnt tile) :=
  ofWord rfl rfl (by simp [decodeFields, decodeM])
theorem RoundTrip.mwait (wb : Bool) (cnt tile : BitVec 7) : RoundTrip.Statement (.mwait wb cnt tile) :=
  ofWord rfl rfl (by simp [decodeFields, decodeM])
theorem RoundTrip.tray (m n : BitVec 4) (o : Src) (d : BitVec 6) : RoundTrip.Statement (.tray m n o d) :=
  ofWord rfl rfl (by simp [decodeFields, decodeM])
theorem RoundTrip.tnext (b : Src) : RoundTrip.Statement (.tnext b) :=
  ofWord rfl rfl (by simp [decodeFields, decodeM])
theorem RoundTrip.twait (b : Src) (d : BitVec 6) : RoundTrip.Statement (.twait b d) :=
  ofWord rfl rfl (by simp [decodeFields, decodeM])
theorem RoundTrip.tres (b : Src) : RoundTrip.Statement (.tres b) :=
  ofWord rfl rfl (by simp [decodeFields, decodeM])
theorem RoundTrip.rast (k : BitVec 3) (v : BitVec 5) (d : BitVec 6) : RoundTrip.Statement (.rast k v d) :=
  ofWord rfl rfl (by simp [decodeFields, decodeM])
theorem RoundTrip.tsig (n : BitVec 4) (t : BitVec 6) : RoundTrip.Statement (.tsig n t) :=
  ofWord rfl rfl (by simp [decodeFields, decodeM])
theorem RoundTrip.csrr (csr : BitVec 4) (d : BitVec 5) : RoundTrip.Statement (.csrr csr d) :=
  ofWord rfl rfl (by simp [decodeFields, decodeM])
theorem RoundTrip.csrw (form : CsrForm) (b : Src) (csr : BitVec 4) : RoundTrip.Statement (.csrw form b csr) :=
  ofWord rfl rfl (by simp [decodeFields, decodeM])
theorem RoundTrip.eret (skip : Bool) : RoundTrip.Statement (.eret skip) :=
  ofWord rfl rfl (by simp [decodeFields, decodeM])
theorem RoundTrip.tlbiPage (n : BitVec 4) (b : Src) : RoundTrip.Statement (.tlbiPage n b) :=
  ofWord rfl rfl (by simp [decodeFields, decodeM])
theorem RoundTrip.tlbiAsid (b : Src) : RoundTrip.Statement (.tlbiAsid b) :=
  ofWord rfl rfl (by simp [decodeFields, decodeM])
theorem RoundTrip.tlbiAll : RoundTrip.Statement .tlbiAll :=
  ofWord rfl rfl (by simp [decodeFields, decodeM])
theorem RoundTrip.harvAsid (b : Src) : RoundTrip.Statement (.harvAsid b) :=
  ofWord rfl rfl (by simp [decodeFields, decodeM])
theorem RoundTrip.harvAll : RoundTrip.Statement .harvAll :=
  ofWord rfl rfl (by simp [decodeFields, decodeM])
theorem RoundTrip.sysMsg (b : Src) : RoundTrip.Statement (.sysMsg b) :=
  ofWord rfl rfl (by simp [decodeFields, decodeM])
theorem RoundTrip.sysInfo (k : BitVec 2) (d : BitVec 5) : RoundTrip.Statement (.sysInfo k d) :=
  ofWord rfl rfl (by simp [decodeFields, decodeM])
theorem RoundTrip.deckAged (core : Nat) : RoundTrip.Statement (.deckAged core) := noEncoding rfl
theorem RoundTrip.raftFormation (core pipe : Nat) : RoundTrip.Statement (.raftFormation core pipe) := noEncoding rfl
theorem RoundTrip.forcedFiling (core pipe : Nat) : RoundTrip.Statement (.forcedFiling core pipe) := noEncoding rfl
theorem RoundTrip.threadWake (thread : Nat) : RoundTrip.Statement (.threadWake thread) := noEncoding rfl
theorem RoundTrip.clockGate (core : Nat) : RoundTrip.Statement (.clockGate core) := noEncoding rfl
theorem RoundTrip.clockWake (core : Nat) : RoundTrip.Statement (.clockWake core) := noEncoding rfl
theorem RoundTrip.lotteryDraw (slice : Nat) : RoundTrip.Statement (.lotteryDraw slice) := noEncoding rfl
theorem RoundTrip.teamSave (team : Nat) : RoundTrip.Statement (.teamSave team) := noEncoding rfl
theorem RoundTrip.teamRestore (saved : Nat) : RoundTrip.Statement (.teamRestore saved) := noEncoding rfl
theorem RoundTrip.watchdogExpiry (team : Nat) : RoundTrip.Statement (.watchdogExpiry team) := noEncoding rfl
theorem RoundTrip.teamEnd (team : Nat) : RoundTrip.Statement (.teamEnd team) := noEncoding rfl
theorem RoundTrip.faultRecordPost (slice : Nat) : RoundTrip.Statement (.faultRecordPost slice) := noEncoding rfl
theorem RoundTrip.faultReplyRetry (slice : Nat) (w : BitVec 64) : RoundTrip.Statement (.faultReplyRetry slice w) := noEncoding rfl
theorem RoundTrip.faultReplyDeliver (slice : Nat) (w : BitVec 64) : RoundTrip.Statement (.faultReplyDeliver slice w) := noEncoding rfl
theorem RoundTrip.faultReplyEnd (slice : Nat) (w : BitVec 64) : RoundTrip.Statement (.faultReplyEnd slice w) := noEncoding rfl
theorem RoundTrip.remoteTimeout (thread : Nat) : RoundTrip.Statement (.remoteTimeout thread) := noEncoding rfl
theorem RoundTrip.postedAckTimeout (index : Nat) : RoundTrip.Statement (.postedAckTimeout index) := noEncoding rfl
theorem RoundTrip.leaseSettlement (cluster : Nat) : RoundTrip.Statement (.leaseSettlement cluster) := noEncoding rfl
theorem RoundTrip.surrenderInjection (cluster index : Nat) : RoundTrip.Statement (.surrenderInjection cluster index) := noEncoding rfl
theorem RoundTrip.surrenderOutcome (cluster index : Nat) : RoundTrip.Statement (.surrenderOutcome cluster index) := noEncoding rfl
theorem RoundTrip.refusalHoldoffExpiry (cluster index : Nat) : RoundTrip.Statement (.refusalHoldoffExpiry cluster index) := noEncoding rfl
theorem RoundTrip.looseReclaim (cluster index : Nat) : RoundTrip.Statement (.looseReclaim cluster index) := noEncoding rfl
theorem RoundTrip.yarderJobStart (job : Nat) : RoundTrip.Statement (.yarderJobStart job) := noEncoding rfl
theorem RoundTrip.jobLanding (job landing : Nat) : RoundTrip.Statement (.jobLanding job landing) := noEncoding rfl
theorem RoundTrip.jobCompletion (job : Nat) : RoundTrip.Statement (.jobCompletion job) := noEncoding rfl
theorem RoundTrip.matrixRunStart (core : Nat) : RoundTrip.Statement (.matrixRunStart core) := noEncoding rfl
theorem RoundTrip.matrixRunEnd (core : Nat) : RoundTrip.Statement (.matrixRunEnd core) := noEncoding rfl
theorem RoundTrip.matrixCommandComplete (core : Nat) : RoundTrip.Statement (.matrixCommandComplete core) := noEncoding rfl
theorem RoundTrip.sawyerCommit (cluster : Nat) : RoundTrip.Statement (.sawyerCommit cluster) := noEncoding rfl
theorem RoundTrip.passStart (cluster : Nat) : RoundTrip.Statement (.passStart cluster) := noEncoding rfl
theorem RoundTrip.passEnd (cluster : Nat) : RoundTrip.Statement (.passEnd cluster) := noEncoding rfl
theorem RoundTrip.frameBoundary (pipeline : Nat) : RoundTrip.Statement (.frameBoundary pipeline) := noEncoding rfl
theorem RoundTrip.fenceArrival (pipeline : Nat) : RoundTrip.Statement (.fenceArrival pipeline) := noEncoding rfl
theorem RoundTrip.encoderFrame (encoder : Nat) : RoundTrip.Statement (.encoderFrame encoder) := noEncoding rfl
theorem RoundTrip.flip (pipeline : Nat) : RoundTrip.Statement (.flip pipeline) := noEncoding rfl
theorem RoundTrip.keyreq (encoder : Nat) : RoundTrip.Statement (.keyreq encoder) := noEncoding rfl
theorem RoundTrip.registerWrite (off : Nat) (w : BitVec 64) : RoundTrip.Statement (.registerWrite off w) := noEncoding rfl
theorem RoundTrip.retrainPort (trained : Bool) : RoundTrip.Statement (.retrainPort trained) := noEncoding rfl
theorem RoundTrip.remoteWriteApply (die : Nat) : RoundTrip.Statement (.remoteWriteApply die) := noEncoding rfl
theorem RoundTrip.remoteAccess (req : LinkReq) : RoundTrip.Statement (.remoteAccess req) := noEncoding rfl
theorem RoundTrip.switchForwardTimeout (index : Nat) : RoundTrip.Statement (.switchForwardTimeout index) := noEncoding rfl
theorem RoundTrip.cxlMemRead (pa n : Nat) : RoundTrip.Statement (.cxlMemRead pa n) := noEncoding rfl
theorem RoundTrip.eccError (site : EccSite) (double : Bool) : RoundTrip.Statement (.eccError site double) := noEncoding rfl
theorem RoundTrip.flitReplay (port : Nat) : RoundTrip.Statement (.flitReplay port) := noEncoding rfl
theorem RoundTrip.portDown (port : Nat) : RoundTrip.Statement (.portDown port) := noEncoding rfl
theorem RoundTrip.portRetrained (port : Nat) (hardpan : Bool) : RoundTrip.Statement (.portRetrained port hardpan) := noEncoding rfl
theorem RoundTrip.portRetrainExpiry (port : Nat) : RoundTrip.Statement (.portRetrainExpiry port) := noEncoding rfl
theorem RoundTrip.cxlLinkRetrained (hardpan : Bool) : RoundTrip.Statement (.cxlLinkRetrained hardpan) := noEncoding rfl
theorem RoundTrip.deviceReset (primary secondary : FwImage) (minVersion : Nat) : RoundTrip.Statement (.deviceReset primary secondary minVersion) := noEncoding rfl
theorem RoundTrip.heartbeatMiss (mcore : Nat) (image : FwImage) : RoundTrip.Statement (.heartbeatMiss mcore image) := noEncoding rfl
theorem RoundTrip.firewallViolation (mcore : Nat) (image : FwImage) : RoundTrip.Statement (.firewallViolation mcore image) := noEncoding rfl
theorem RoundTrip.unassignedEncoding (len : Nat) : RoundTrip.Statement (.unassignedEncoding len) := noEncoding rfl
theorem RoundTrip.loadDataWritten (thread : Nat) : RoundTrip.Statement (.loadDataWritten thread) := noEncoding rfl
theorem RoundTrip.cxlMemWrite (pa : Nat) (bytes : List (BitVec 8)) : RoundTrip.Statement (.cxlMemWrite pa bytes) := noEncoding rfl
theorem RoundTrip.replicatedStoreCommit (index : Nat) : RoundTrip.Statement (.replicatedStoreCommit index) := noEncoding rfl
theorem RoundTrip.messageRecordAppend (slice : Nat) : RoundTrip.Statement (.messageRecordAppend slice) := noEncoding rfl
theorem RoundTrip.class0BoundRestored (port : Nat) : RoundTrip.Statement (.class0BoundRestored port) := noEncoding rfl
theorem RoundTrip.version : RoundTrip.Statement .version := noEncoding rfl
theorem RoundTrip.acceptFeatures : RoundTrip.Statement .acceptFeatures := noEncoding rfl
theorem RoundTrip.createSlice : RoundTrip.Statement .createSlice := noEncoding rfl
theorem RoundTrip.resetSlice : RoundTrip.Statement .resetSlice := noEncoding rfl
theorem RoundTrip.faultQueue : RoundTrip.Statement .faultQueue := noEncoding rfl
theorem RoundTrip.setContext : RoundTrip.Statement .setContext := noEncoding rfl
theorem RoundTrip.preEmpt : RoundTrip.Statement .preEmpt := noEncoding rfl
theorem RoundTrip.restore : RoundTrip.Statement .restore := noEncoding rfl
theorem RoundTrip.endTeams : RoundTrip.Statement .endTeams := noEncoding rfl
theorem RoundTrip.invalidate : RoundTrip.Statement .invalidate := noEncoding rfl
theorem RoundTrip.harvest : RoundTrip.Statement .harvest := noEncoding rfl
theorem RoundTrip.setWindow : RoundTrip.Statement .setWindow := noEncoding rfl
theorem RoundTrip.domain : RoundTrip.Statement .domain := noEncoding rfl
theorem RoundTrip.mailboxReservedOp : RoundTrip.Statement .mailboxReservedOp := noEncoding rfl
theorem RoundTrip.mailboxCompletion : RoundTrip.Statement .mailboxCompletion := noEncoding rfl
theorem RoundTrip.adSweep : RoundTrip.Statement .adSweep := noEncoding rfl
theorem RoundTrip.scrub : RoundTrip.Statement .scrub := noEncoding rfl
theorem RoundTrip.cxlLinkDown : RoundTrip.Statement .cxlLinkDown := noEncoding rfl
theorem RoundTrip.spdmVersion : RoundTrip.Statement .spdmVersion := noEncoding rfl
theorem RoundTrip.spdmCapabilities : RoundTrip.Statement .spdmCapabilities := noEncoding rfl
theorem RoundTrip.spdmCertificates : RoundTrip.Statement .spdmCertificates := noEncoding rfl
theorem RoundTrip.spdmMeasurements : RoundTrip.Statement .spdmMeasurements := noEncoding rfl
theorem RoundTrip.spdmChallenge : RoundTrip.Statement .spdmChallenge := noEncoding rfl
theorem RoundTrip.cxlFlitRetry : RoundTrip.Statement .cxlFlitRetry := noEncoding rfl

end

end Sys2Proof.Laws
end

