-- ==== Sys2Proof/Tests/Slice0.lean ====
section
/-!
SUPPORT. Tests: ill-formed terms that the checks refuse, words that the spec writes out and what they decode to, for each statement a state
and operands that meet its hypotheses, and single steps of the spec's worked examples.
-/

namespace Sys2Proof.Tests

open Sys2Proof.Machine

-- Well-formedness: for each check an ill-formed term that it refuses.

/-- Terms that the checks refuse. -/
def ill (l : List Instr) : Bool := l.all fun i => !i.wf

/-- R239: A of `bcst` and `shfl` names a vector register or a latch. R252: pairs start at even registers. -/
theorem test_wf_operands : ill [.bcst (.s 0) (.c 3) ⟨false, 1⟩, .shfl (.c 0) (.v 0) ⟨false, 1⟩, .dadd .rne (.v 1) (.v 2) ⟨false, 4⟩,
    .dadd .rne (.v 2) (.s 3) ⟨false, 4⟩, .dadd .rne (.v 2) (.v 2) ⟨false, 5⟩, .dsub .rne (.v 1) (.v 2) ⟨false, 4⟩,
    .dsub .rne (.v 2) (.v 1) ⟨false, 4⟩, .dsub .rne (.v 2) (.v 2) ⟨false, 5⟩, .dmul .rne (.v 1) (.v 2) ⟨false, 4⟩,
    .dmul .rne (.v 2) (.v 1) ⟨false, 4⟩, .dmul .rne (.v 2) (.v 2) ⟨false, 5⟩, .dmin (.v 1) (.v 2) ⟨false, 4⟩, .dmin (.v 2) (.v 1) ⟨false, 4⟩,
    .dmin (.v 2) (.v 2) ⟨false, 5⟩, .dmax (.v 1) (.v 2) ⟨false, 4⟩, .dmax (.v 2) (.v 1) ⟨false, 4⟩, .dmax (.v 2) (.v 2) ⟨false, 5⟩,
    .dcmp .lt (.v 1) (.v 2) 0, .dcmp .lt (.v 2) (.v 1) 0, .drcp .rne (.v 1) ⟨false, 2⟩, .drcp .rne (.v 2) ⟨false, 1⟩,
    .dfma (.v 1) (.v 2) 4 6, .dfma (.v 2) (.v 1) 4 6, .dfma (.v 2) (.v 4) 5 6, .dfma (.v 2) (.v 4) 6 7] = true := by decide

/-- R265 to R271, R242: literals not listed, pairs and groups not aligned. -/
theorem test_wf_literals : ill [.cvt .rne 0x0C (.v 0) ⟨false, 0⟩, .cvt .rne 0x18 (.v 0) ⟨false, 0⟩, .cvt .rne 0x2F (.v 0) ⟨false, 0⟩,
    .cvt .rne 0x06 (.v 0) ⟨false, 1⟩, .cvt .rne 0x04 (.v 1) ⟨false, 0⟩, .cvt .rne 0x14 (.v 1) ⟨false, 0⟩, .cvt .rne 0x14 (.s 2) ⟨false, 0⟩,
    .cvt .rne 0x2C (.v 2) ⟨false, 0⟩, .ftag 12 (.v 0) ⟨false, 0⟩, .ftag 4 (.v 1) ⟨false, 0⟩, .ftag 11 (.v 0) ⟨false, 1⟩,
    .qnt4 (.s 6) 3 ⟨false, 0⟩, .dqnt4 (.v 0) (.s 6) ⟨false, 1⟩, .getsr 19 ⟨false, 0⟩, .getsr 27 ⟨false, 0⟩, .getsr 34 ⟨false, 0⟩] = true := by
  decide

/-- R205, R212: a C16 parcel names v0 to v27 or a latch, and is not zero. -/
theorem test_wf_compact : ill [.addC16 (.v 28) 1, .addC16 (.v 0) 0, .subC16 (.s 0) 1, .mulC16 (.c 0) 1, .andC16 (.v 28) 1, .orC16 (.v 28) 1,
    .xorC16 (.v 28) 1, .shlC16 (.v 28) 1, .shrC16 (.v 28) 1, .sarC16 (.v 28) 1, .movC16 (.v 28) 1, .minC16 (.v 28) 1, .maxC16 (.v 28) 1,
    .faddC16 (.v 28) 1, .fsubC16 (.v 28) 1, .fmulC16 (.v 28) 1, .fmaxC16 (.v 28) 1] = true := by decide

/-- R278 to R288, R298, R305: blocks of registers, stream types, operations of `atomu`, mask pairs. -/
theorem test_wf_memory : ill [.ld .f64 0 (.c 0) 1, .ld .b128 0 (.c 0) 2, .lds .key64 false 0 (.c 0) 1, .ldu .b128 0 (.c 0) 2,
    .st .f64 0 (.c 0) (.v 1), .st .b128 0 (.c 0) (.s 4), .sts .b128 false 0 (.c 0) (.v 2), .ldbmv .z8 0 0, .ldbmv .i32 0 2, .stbmv .n4p 0 0,
    .stbmv .i32 0 1, .ldacq .team true 0 (.c 0) 1, .strel .team true 0 (.c 0) (.v 1), .atom .add64 false 0 (.v 1) 2,
    .atom .add64 false 0 (.v 2) 1, .atomu .exch false 0 (.v 0) (.c 0), .atomu .add64 false 0 (.v 1) (.c 0), .ctwaitMask true (.pair 1),
    .ctfind (.pair 3) 0, .qtake 0 2] = true := by decide

/-- R310 to R330: blocks of collections within v63, matrix types and shapes, `rast`, CSRs, pairs. -/
theorem test_wf_units : ill [.cins 0 1 0, .cdel 0 1 0, .cdel 0 62 0, .crel 0 1 0, .crel 0 60 0, .copen false 0 1 0,
    .copen false 0 62 0, .cnext (.v 0) 1, .ccnt 0 1 0, .ccnt 0 62 0, .ccnt 0 0 1, .mma 12 0 false 0 0, .mma 5 0 false 31 0,
    .mmas 12 0 false 0 0, .mmas 5 0 false 31 0, .mzero 0 0 0, .mldw 1 0 (.c 0) 0, .macld 2 0 0 0, .rast 0 23 0, .rast 0 0 61, .csrr 11 0, .csrr 0 1,
    .csrw .write (.v 0) 11, .csrw .write (.v 1) 0, .sysMsg (.v 1), .sysInfo 0 1] = true := by decide

/-- The ranges of what an event row names. -/
theorem test_wf_events : ill [.deckAged 640, .raftFormation 640 0, .raftFormation 0 4, .forcedFiling 640 0, .forcedFiling 0 4, .clockGate 640,
    .clockWake 640, .lotteryDraw 8, .faultRecordPost 8, .faultReplyRetry 8 0, .faultReplyDeliver 8 0, .faultReplyEnd 8 0,
    .leaseSettlement 80, .surrenderInjection 80 0, .surrenderInjection 0 128, .surrenderOutcome 80 0, .surrenderOutcome 0 128,
    .refusalHoldoffExpiry 80 0, .refusalHoldoffExpiry 0 128, .looseReclaim 80 0, .looseReclaim 0 128, .matrixRunStart 640,
    .matrixRunEnd 640, .matrixCommandComplete 640, .sawyerCommit 80, .passStart 80, .passEnd 80, .frameBoundary 8, .fenceArrival 8,
    .encoderFrame 16, .flip 8, .keyreq 16, .registerWrite 0x10000 0, .registerWrite 4 0, .remoteWriteApply 4, .flitReplay 18, .portDown 18,
    .portRetrained 18 false, .portRetrainExpiry 18, .heartbeatMiss 4 ⟨true, 0, 0⟩, .firewallViolation 4 ⟨true, 0, 0⟩, .unassignedEncoding 3,
    .messageRecordAppend 8, .class0BoundRestored 18] = true := by decide

-- Decoding: words that the spec writes out, and what they stand for (R203 to R220 and the examples of chapters 10 to 14).

/-- The decoder reads each word as the instruction beside it. -/
def reads (l : List (Nat × Instr)) : Bool := l.all fun x => decodeTableWord 32 x.1 == some x.2

theorem test_decode_integer : reads [(0x01018601, .add false false (.v 1) (.v 2) ⟨true, 3⟩), (0x30600811, .mul false false (.y 0) (.y 0) ⟨false, 4⟩),
    (0x34E10A09, .sub false false (.y 1) (.c 1) ⟨false, 5⟩), (0xE18B1401, .add true true (.v 11) (.s 3) ⟨false, 10⟩),
    (0xF68106A9, .cmplt true true (.v 1) (.c 5) 3), (0x428404B9, .sel 1 (.v 4) (.v 5) ⟨false, 2⟩), (0x050212D9, .shfl (.v 2) (.v 10) ⟨false, 9⟩),
    (0x800910E1, .voteBallot (.v 9) ⟨false, 8⟩), (0x03000DF1, .getsr 6 ⟨false, 6⟩)] = true := by decide
theorem test_decode_float : reads [(0x35028711, .fmul .rne (.v 2) (.c 2) ⟨true, 3⟩), (0x41010901, .fadd .rz (.v 1) (.v 2) ⟨false, 4⟩),
    (0x04060981, .dadd .rne (.v 6) (.v 8) ⟨false, 4⟩), (0x34020331, .fcmplt (.v 2) (.c 0) 1), (0x430405A9, .dcmp .lt (.v 4) (.v 6) 2),
    (0x40010541, .frcp .rz (.v 1) ⟨false, 2⟩), (0x00050D79, .fclass (.v 5) ⟨false, 6⟩), (0x0A020BD1, .cvt .rne 0x14 (.v 2) ⟨false, 5⟩),
    (0x018109D9, .ftag 3 (.v 1) ⟨false, 4⟩), (0x230229E1, .qnt4 (.s 6) 2 ⟨false, 20⟩), (0x231411E9, .dqnt4 (.v 20) (.s 6) ⟨false, 8⟩)] = true := by
  decide
theorem test_decode_three_operand : reads [(0x262011C3, .ffma (.v 1) (.s 4) 9 7), (0x1820228B, .dfma (.v 2) (.v 4) 6 10),
    (0x0C101153, .hfma2 (.v 1) (.v 2) 3 5), (0x101010DB, .mad (.v 1) (.v 2) 4 3), (0x101010EB, .dot4 (.v 1) (.v 2) 4 3)] = true := by decide
theorem test_decode_immediate : reads [(0x01000225, .shli 2 (.v 0) ⟨false, 1⟩), (0x08040245, .cmplti 16 (.v 4) 1), (0x00010855, .movi 1 ⟨false, 4⟩),
    (0x3FC0085D, .movhi 0x3FC0 ⟨false, 4⟩), (0xE0030675, .addai (-64) 3 3)] = true := by decide
theorem test_decode_control : reads [(0x0006148D, .brp 6 true 2), (0x0000FC95, .call 0x7E), (0x003F009D, .ret (.v 63)), (0x000700A5, .jmpi (.v 7)),
    (0x000000AD, .reform), (0x000000B5, .join), (0x000000BD, .yield), (0x000000C5, .exit), (0x123400CD, .trap 0x1234), (0x000000D5, .nop)] = true := by
  decide
theorem test_decode_compact : decodeTableWord 16 0x105A = some (.fsubC16 (.v 2) 2) ∧ decodeTableWord 16 0x103E = some (.fmaxC16 (.v 2) 1) := by decide
theorem test_decode_memory : reads [(0x40810407, .ld .i32 1 (.v 1) 2), (0x40E80A0F, .st .i32 1 (.c 0) (.v 5)),
    (0x51010427, .sts .f32 false 2 (.v 1) (.v 2)), (0x31E80847, .strel .die false 3 (.c 0) (.v 4)), (0x8201064F, .atom .exch false 4 (.v 1) 3),
    (0x4000045F, .fence .package .acq)] = true := by decide
theorem test_decode_sync : reads [(0x0280008F, .bararv .glob 5), (0x02E8009F, .barwait .glob 5 (.c 0)), (0x020006A7, .cpy 4 3),
    (0x100010BF, .ctwaitGroup true 8 0), (0x0042D2E7, .surr (.s 2) (.c 1)), (0x13000AEF, .qres 1 6 5), (0x20C305B7, .spawnT true 1 (.s 3) 2)] = true := by
  decide
theorem test_decode_units : reads [(0x01841507, .cins 3 4 10), (0x118C0D1F, .copen true 3 12 6), (0x00022927, .cnext (.v 2) 20),
    (0x54860947, .mma 5 9 false 6 4), (0x50460147, .mma 5 0 true 6 0), (0x00000177, .mwait false 0 0), (0x51011187, .tray 5 2 (.v 1) 8),
    (0x00081397, .twait (.v 8) 9), (0x304A19A7, .rast 3 10 12), (0x020005AF, .tsig 4 2)] = true := by decide
theorem test_decode_system : reads [(0x000009BF, .csrr 0 4), (0x206E01C7, .csrw .clr (.c 6) 0), (0x000001CF, .eret false), (0x100001CF, .eret true)] = true := by
  decide
/-- R212, R204, R209: what is no instruction. -/
theorem test_decode_refuses : decode [0, 0] = .error .zeroParcel ∧ decode [0x01] = .error .truncated ∧
    decodeTableWord 32 0x02000225 = some (.shli 4 (.v 0) ⟨false, 1⟩) ∧ decode (wordBytes (.inr 0x10000225#32)) = .error .shiftRange := by decide

-- Witnesses: for each statement with hypotheses, states and operands that meet them.

/-- One thread (identity 2, user mode) of one team (identity 1) on pipe 0 of core 0, about to issue at CODEBASE 0x100000; its thread and
its team changed by `f` and `g`. -/
def seed (f : Thread → Thread) (g : Team → Team) : State :=
  ((State.reset.withFetchWord 32 0xD5).updThread 2 f).updTeam 1 fun t => (g t).latch
def plain : State := seed id id

/-- A second thread (identity 3, P(0) set) in lane 1 of the same raft. -/
def pair (s : State) : State :=
  let t : State := { s with threads := s.threads ++ [(3, { team := 1, tnum := 1, pc := 0x100000, p := 1 })], fresh := 4 }
  t.setPipe 0 0 { raft := some { team := 1, pc := 0x100000, lanes := [(0, 2), (1, 3)] } }

/-- A page of data at 0x200000 of memory type `mt` (3: in package 1), its table entry at 0x300000 with A and D set. -/
def paged (mt : Nat) (s : State) : State :=
  { s with tlb1 := mupd 0 (fun l =>
      { asid := 0, vbase := 0x200, log2 := 12, pte := BitVec.ofNat 64 (0x2000D9 + 0x400 * mt + if mt = 3 then 2 ^ 46 else 0), addr := 0x300000, a := true, d := true } :: l) s.tlb1 }

/-- The raft in turn. -/
def raftOf (alu : Bool) (s : State) : Ctx :=
  (s.ctx alu).getD { core := 0, p := 0, pr := {}, team := 0, tm := fetchTeam, pc := 0, lns := [] }

def readyB (o : Issue) (c : Ctx) : Bool :=
  c.injected.isNone && (!o.priv || c.lns.all (·.th.sup)) && (c.lns.all fun l => o.y.all fun n => decide (n < l.lat.length)) &&
    ((o.lanes c).all fun l => !o.busy l) && (o.lanes c).all fun l => (o.poisoned c.tm l).isNone

theorem ready_of {o : Issue} {s : State} {c : Ctx} (h : s.ctx o.alu = some c) (b : readyB o c = true) : Ready o s c := by
  simp only [readyB, Bool.and_eq_true, Bool.or_eq_true, Bool.not_eq_true', List.all_eq_true, Option.isNone_iff_eq_none,
    decide_eq_true_eq] at b
  obtain ⟨⟨⟨⟨hi, hp⟩, hy⟩, hb⟩, hq⟩ := b
  refine ⟨h, fun i hi' => ?_, fun hp' => ?_, hy, hb, hq⟩
  · rw [hi] at hi'; cases hi'
  · exact hp.resolve_left (by simp [hp'])

/-- The raft of `s` may issue an instruction of needs `o`. -/
def canIssue (o : Issue) (s : State) : Prop := Ready o s (raftOf o.alu s)

theorem fits_of {o : Opd} {cls : BitVec 4 → Bool} (h : (o.tag.all fun t => cls t || t == tNone) = true) : o.fits cls := by
  intro t ht
  simpa [ht] using h

theorem witness_vector_alu : canIssue (two (.v 1) (.v 2)) plain ∧ canIssue (one (.v 1)) plain ∧ canIssue (three (.v 1) (.v 2) 3) plain ∧
    canIssue { two (.v 1) (.v 2) with pr := true } plain ∧ canIssue { alu := true } plain ∧ canIssue { alu := true, vr := [1] } plain ∧
    canIssue { two (.v 1) (.v 2) with len := 2 } plain ∧ canIssue (wide2 (.v 2) (.s 4)) plain ∧
    canIssue { alu := true, wide := [.v 2, .v 4, .v 6] } plain ∧ canIssue { alu := true, srcs := [.v 2, .v 3, .s 6] } plain ∧
    canIssue (cvtNeeds 0x14 (.v 2)) plain := by
  refine ⟨?_, ?_, ?_, ?_, ?_, ?_, ?_, ?_, ?_, ?_, ?_⟩ <;> exact ready_of rfl rfl

/-- What holds of the one lane of a raft holds of all. -/
theorem one_lane {c : Ctx} {P : Ln → Prop} (h : c.lns = [c.elected]) (p : P c.elected) : ∀ l ∈ c.lns, P l := by
  rw [h]; simpa using p

/-- Tags NONE fit every class, and set FI, which no trap is enabled for; an operand out of its class. -/
theorem witness_tags : (∀ l ∈ (raftOf true plain).counted.lns, (src32 .int (raftOf true plain).tm l (.v 1)).fits clsInt ∧
      (src32 .f32 (raftOf true plain).tm l (.v 1)).fits cF32 ∧ (src64 .f64 (raftOf true plain).tm l (.v 2)).fits cF64) ∧
    (raftOf true plain).tm.enabled fFI = 0 :=
  ⟨one_lane rfl ⟨fits_of rfl, fits_of rfl, fits_of rfl⟩, rfl⟩

/-- A lane whose divisor is not zero, one whose divisor is zero, one whose operand is F32 and should be an integer. -/
theorem witness_division :
    let s (x : Word) (t : BitVec 4) : State := seed (fun th => th.setReg 2 x t) id
    canIssue (two (.v 1) (.v 2)) (s 7 tI32) ∧
    (∀ l ∈ (raftOf true (s 7 tI32)).counted.lns, (src32 .int (raftOf true (s 7 tI32)).tm l (.v 2)).w ≠ 0) ∧
    ((raftOf true (s 0 tI32)).counted.lns.find? fun x => (src32 .int (raftOf true (s 0 tI32)).tm x (.v 2)).w == 0).isSome = true ∧
    ((raftOf true (s 7 tF32)).counted.lns.find? fun x => tagBad clsInt (src32 .int (raftOf true (s 7 tF32)).tm x (.v 2)).tag).isSome = true :=
  ⟨ready_of rfl rfl, one_lane rfl (by decide), rfl, rfl⟩

/-- Where arithmetic traps: v2 out of its class; a zero divisor with every tag in its class; an exception that TRAPEN enables. The same of
`adda`. -/
theorem witness_arithmetic_traps :
    let s (y : Word) (t : BitVec 4) (en : DWord) : State := seed (fun th => (th.setReg 1 0x7F7FFFFF t).setReg 2 y t) fun tm => tm.setCsr cTRAPEN en
    let o : Issue := two (.v 1) (.v 2)
    let c (s : State) : Ctx := raftOf true s
    let int (s : State) : Reads := reads32 .int (c s) clsInt [.v 1, .v 2]
    let sum (s : State) (l : Ln) : BitVec 7 := (Fmt.f32.add .rne (c s).tm.ftz (val32 (c s) l (.v 1)) (val32 (c s) l (.v 2))).exc
    let zero (s : State) (l : Ln) : Bool := (src32 .int (c s).tm l (.v 2)).w == 0
    let fi (s : State) : BitVec 7 := (c s).tm.enabled ((src32 .int (c s).tm (c s).counted.elected (.v 2)).fi clsInt)
    let fits (s : State) : Prop := ((c s).counted.lns.all fun l => ((int s).bad l).isNone) = true
    let once : Issue := { alu := true, once := true, srcs := [.v 2], ar := [0] }
    (canIssue o (s 7 tF32 0) ∧ ((c (s 7 tF32 0)).counted.raiser fun l => ((int (s 7 tF32 0)).bad l).isSome).map
      (fun l => (int (s 7 tF32 0)).bad l) = some (some 1)) ∧
    (canIssue o (s 0 tI32 0) ∧ fits (s 0 tI32 0) ∧ ((c (s 0 tI32 0)).counted.raiser (zero (s 0 tI32 0))).isSome = true) ∧
    (let x := s 0x7F7FFFFF tF32 0x7F
     canIssue o x ∧ ((c x).counted.lns.all fun l => ((reads32 .f32 (c x) cF32 [.v 1, .v 2]).bad l).isNone) = true ∧
       ((c x).counted.raiser fun l => (c x).tm.enabled (sum x l ||| (reads32 .f32 (c x) cF32 [.v 1, .v 2]).fi l) != 0).isSome = true) ∧
    (let x := s 7 tF32 0
     canIssue once x ∧ tagBad clsInt (src32 .int (c x).tm (c x).counted.elected (.v 2)).tag = true) ∧
    (let x := s 7 tNone 0x7F
     canIssue once x ∧ (src32 .int (c x).tm (c x).counted.elected (.v 2)).fits clsInt ∧ fi x ≠ 0) := by
  refine ⟨⟨ready_of rfl rfl, ?_⟩, ⟨ready_of rfl rfl, ?_, ?_⟩, ⟨ready_of rfl rfl, ?_, ?_⟩, ⟨ready_of rfl rfl, rfl⟩, ready_of rfl rfl, fits_of rfl, ?_⟩ <;>
    decide +kernel

/-- The operands of packed and fused forms whose tags fix BF16; a scale that `qnt4` accepts. -/
theorem witness_packed :
    let s : State := seed (fun th => th.setReg 1 0x3F803F80 tBF16) fun t => t.setS 6 0x3F800000
    canIssue (three (.v 1) (.v 2) 3) s ∧
    (∀ l ∈ (raftOf true s).counted.lns, packedFmt [src32 .bf16 (raftOf true s).tm l (.v 1), src32 .bf16 (raftOf true s).tm l (.v 2)] = Fmt.bf16) ∧
    canIssue { alu := true, srcs := [.v 2, .v 3, .s 6] } s ∧
    goodScale (Fmt.bf16.decode (scaleBits (raftOf true s).tm.ftz (src32 .f32 (raftOf true s).tm (raftOf true s).counted.elected (.s 6)))) = true :=
  ⟨ready_of rfl rfl, one_lane rfl rfl, ready_of rfl rfl, rfl⟩

/-- Round: the largest F32 number is below 2^32 and no NaN; a divisor is positive. -/
theorem witness_round : 0x7F7FFFFF < 2 * Fmt.f32.signBit ∧ (Fmt.f32.decode 0x7F7FFFFF).isNan = false ∧ 0 < 1 := by decide

/-- Team registers: a once-only instruction. -/
theorem witness_team_registers : canIssue { alu := true, once := true } plain ∧ canIssue { alu := true, once := true, sr := [31] } plain ∧
    canIssue { alu := true, once := true, srcs := [.v 1], ar := [15] } plain :=
  ⟨ready_of rfl rfl, ready_of rfl rfl, ready_of rfl rfl⟩

/-- Control: one lane agrees with itself, at an even target; two lanes differ at a `brp` and at a `jmpi`; a target is odd. -/
theorem witness_control :
    let two : State := pair (seed (fun th => th.setReg 1 2 tI32) id)
    let c : Ctx := raftOf false two
    let taken (l : Ln) : Bool := l.th.p.getLsbD 0 != false
    let target (l : Ln) : VAddr := c.tm.codebase + (src32 .int c.tm l (.v 1)).w.setWidth 57
    canIssue {} plain ∧ canIssue { pr := true } plain ∧ canIssue { srcs := [.v 1] } plain ∧
    ((raftOf false plain).tm.codebase + (src32 .int (raftOf false plain).tm (raftOf false plain).counted.elected (.v 1)).w.setWidth 57).getLsbD 0
      = false ∧
    let odd : State := seed (fun th => th.setReg 1 3 tI32) id
    let co : Ctx := raftOf false odd
    canIssue { pr := true } two ∧ canIssue { srcs := [.v 1] } two ∧ (∃ l ∈ c.counted.lns, taken l ≠ taken c.counted.elected) ∧
    (∃ l ∈ c.counted.lns, target l ≠ target c.counted.elected) ∧ (∀ l ∈ c.counted.lns, (target l).getLsbD 0 = false) ∧
    canIssue { srcs := [.v 1] } odd ∧
    (co.counted.raiser fun l => (co.tm.codebase + (src32 .int co.tm l (.v 1)).w.setWidth 57).getLsbD 0).isSome = true := by
  refine ⟨ready_of rfl rfl, ready_of rfl rfl, ready_of rfl rfl, rfl, ready_of rfl rfl, ready_of rfl rfl, ?_, ?_, ?_, ready_of rfl rfl, ?_⟩ <;> decide

/-- Causes: a handler and no trap in service; no handler; a trap in service; all with the state's identities in order. -/
theorem witness_traps :
    let calm : State := seed id fun t => t.setCsr cTRAPV 0x100001
    let busy : State := seed id fun t => { t.setCsr cTRAPV 0x100001 with inService := true }
    let l (s : State) : Ln := (raftOf false s).counted.elected
    canIssue {} calm ∧ (l calm).th.inj = none ∧ (l calm).th.sup = false ∧ ((raftOf false calm).tm.csrv cTRAPV).extractLsb' 1 56 ≠ 0 ∧
    (raftOf false calm).tm.inService = false ∧
    canIssue {} plain ∧ plain.Keyed ∧ ((raftOf false plain).tm.csrv cTRAPV).extractLsb' 1 56 = 0 ∧
    canIssue {} busy ∧ (raftOf false busy).tm.inService = true ∧ (busy.team 1).isSome = true :=
  ⟨ready_of rfl rfl, rfl, rfl, by decide, rfl, ready_of rfl rfl, ⟨rfl, rfl, by decide, by decide⟩, rfl, ready_of rfl rfl, rfl, rfl⟩

/-- A handler's raft returns: no thread is left in the handler and none is held; one deck is held, its thread in place or evicted; another
thread stays in the handler. -/
theorem witness_trap_return :
    let sup (g : Team → Team) : State := seed (fun th => { th with sup := true }) fun t => g { t with inService := true }
    let deck (p : Place) : State :=
      let s : State := sup fun t => { t with heldQ := [{ threads := [3], pc := 0x100010, lane := 0, cause := 0x50, detail := 0, len := 4 }] }
      { s with threads := s.threads ++ [(3, { team := 1, tnum := 1, place := p })] }
    let held : State := deck .held
    let gone : State := deck (.evicted none)
    let stays (s : State) : Bool := (s.threadsOf 1).any fun y => y.2.sup && ((raftOf false s).lastOf y.1).isNone
    let more : State := { sup id with threads := (sup id).threads ++ [(3, { team := 1, tnum := 1, sup := true, place := .deck 0 })] }
    canIssue { priv := true } (sup id) ∧ stays (sup id) = false ∧ canIssue { priv := true } held ∧ stays held = false ∧
    (∀ y ∈ held.threadsOf 1, y.1 ∈ [3] → y.2.isEvicted = false) ∧
    canIssue { priv := true } gone ∧ stays gone = false ∧
    (∃ y ∈ gone.threadsOf 1, y.1 ∈ [3] ∧ (raftOf false gone).laneOf y.1 = none ∧ y.2.isEvicted = true) ∧
    canIssue { priv := true } more ∧ stays more = true :=
  ⟨ready_of rfl rfl, rfl, ready_of rfl rfl, rfl, by decide, ready_of rfl rfl, rfl, ⟨_, List.mem_cons_of_mem _ (List.mem_singleton.mpr rfl), by decide⟩,
    ready_of rfl rfl, rfl⟩

/-- `exit` in user mode and by a handler with a deck held, and the supervisor-only instructions in user mode and in supervisor mode. -/
theorem witness_exit_and_modes :
    let sup : State := seed (fun th => { th with sup := true }) id
    let held : State := seed (fun th => { th with sup := true }) fun t => { t with
      inService := true, heldQ := [{ threads := [3], pc := 0x100010, lane := 0, cause := 0x50, detail := 0, len := 4 }] }
    let held : State := { held with threads := held.threads ++ [(3, { team := 1, tnum := 1, place := .held })] }
    (canIssue {} held ∧ (∃ x, held.team 1 = some x ∧ x.core = 0 ∧ x.inService = true ∧ x.heldQ ≠ []) ∧
      (∀ l ∈ (raftOf false held).lns, l.th.team = (raftOf false held).team ∧ l.th.inj = none) ∧
      ∀ y ∈ held.threadsOf 1, ((raftOf false held).laneOf y.1).isNone → y.2.sup = false ∧ (y.1 ∈ [3] → y.2.isEvicted = false)) ∧
    canIssue {} plain ∧ (∀ l ∈ (raftOf false plain).lns, l.th.team = (raftOf false plain).team ∧ l.th.inj = none) ∧
    ((raftOf false plain).lns.find? fun x => !x.th.sup).isSome = true ∧ (raftOf false plain).injected = none ∧ (plain.ctx false).isSome = true ∧
    canIssue { priv := true, once := true, srcs := [.v 1], ar := [0] } sup ∧ sup.inTransit (.page 0 0) = false ∧
    sup.inTransit (.asid 0) = false ∧ sup.inTransit .all = false ∧ canIssue { wide := [.v 2], once := true, priv := true } sup :=
  ⟨⟨ready_of rfl rfl, ⟨_, rfl, rfl, rfl, by decide⟩, one_lane rfl ⟨rfl, rfl⟩, by decide⟩, ready_of rfl rfl, one_lane rfl ⟨rfl, rfl⟩, rfl, rfl, rfl,
    ready_of rfl rfl, rfl, rfl, rfl, ready_of rfl rfl⟩

/-- `sys.msg`: a queue of 16 records at 0x400000 with its control line at 0x401000, one that is full, and a raft whose store is still on
its way. -/
theorem witness_message :
    let q : State := plain.updSlice 0 fun x => { x with mqBase := 0x400000, mqCtl := 0x401000, mqLog2 := 4 }
    let full : State := q.putHome 0x401004 [16, 0, 0, 0]
    let on : State := { q with repl := [{ page := 0x200, addr := 0x200040, bytes := [7], tid := 2, asid := 0, va := 0x200040, stamp := [] }] }
    canIssue { wide := [.v 2], once := true } on ∧ on.sending (raftOf false on).tids = true ∧ q.sending (raftOf false q).tids = false ∧
    canIssue { wide := [.v 2], once := true } q ∧ q.msgFull 0 = false ∧ (q.slice 0).mqBase + 16 * 16 ≤ (q.slice 0).mqCtl + 4 ∧
    canIssue { wide := [.v 2], once := true } full ∧ full.msgFull 0 = true :=
  ⟨ready_of rfl rfl, by decide, by decide, ready_of rfl rfl, by decide, by decide, ready_of rfl rfl, by decide⟩

/-- A page of data named by a1: local, replicated, on another package with its links up, and cut off from it. -/
def data (mt : Nat) : State := paged mt (seed id fun t => (t.setA 1 0x200040).setS 6 5)

/-- The links of every port down. -/
def unlinked (s : State) : State := { s with hub := { s.hub with ports := (List.range 18).map fun k => (k, { up := false }) } }

/-- A second page of data, at 0x400000, in another package that no link reaches; every access of the engines finds it as well. -/
def parted (s : State) : State :=
  let s : State := unlinked { s with tlb1 := mupd 0 (fun l =>
    { asid := 0, vbase := 0x400, log2 := 12, pte := BitVec.ofNat 64 (0x400CD9 + 2 ^ 46), addr := 0x300008, a := true, d := true } :: l) s.tlb1 }
  { s with tlb2 := s.tlb1 }

/-- A contribution of the raft's thread to this package's memory that the switches hold. -/
def merging (s : State) : State :=
  { s with hub := { s.hub with contribs := [{ pa := 0x40, op := .add, b := 1, issued := 0, va := 0x40, tid := 2, slice := 0 }] } }

/-- Loads, stores and atomics of 4 bytes at 0x200040, by lanes and once. -/
theorem witness_accesses :
    let cut : State := unlinked (data 3)
    let c (s : State) : Ctx := raftOf false s
    let acc (s : State) (w : Bool) : Except Fail (GAcc × VAddr) := ((s.counted (c s)).laneGlob (c s).counted (c s).counted.elected 0x200040 0 4 w [])
    let goes (s : State) (w : Bool) (far cut : Bool) : Prop := ∃ x, acc s w = .ok x ∧ isRemote x.1.loc = far ∧ s.cutOff x.1.loc = cut ∧
      s.lockedAt x.1.loc = false ∧ (s.counted (c s)).mustWait (c s).counted 4 w [((c s).counted.elected, x)] = false
    canIssue { srcs := [.c 0], ar := [1] } (data 0) ∧ canIssue (storeIssue 4 (.v 5) (.c 0) 1) (data 0) ∧
    canIssue { srcs := [.v 5, .c 0], ar := [1] } (data 0) ∧ canIssue { srcs := [.v 5], vr := [2], ar := [1] } (data 0) ∧
    goes (data 0) false false false ∧ goes (data 0) true false false ∧ goes (data 1) true false false ∧ goes (data 3) false true false ∧
    goes cut true true true ∧ goes cut false true true ∧ canIssue { srcs := [.c 0], ar := [1], once := true } (data 3) ∧
    (∀ sc, (data 0).relWait (some sc) (c (data 0)).tids = false ∧ (merging (data 0)).relWait (some sc) (c (data 0)).tids = true) ∧
    canIssue (storeIssue 4 (.v 5) (.c 0) 1) (merging (data 0)) ∧ goes (merging (data 0)) true false false :=
  ⟨ready_of rfl rfl, ready_of rfl rfl, ready_of rfl rfl, ready_of rfl rfl, ⟨_, rfl, rfl, rfl, rfl, rfl⟩, ⟨_, rfl, rfl, rfl, rfl, rfl⟩,
    ⟨_, rfl, rfl, rfl, rfl, rfl⟩, ⟨_, rfl, rfl, rfl, rfl, rfl⟩, ⟨_, rfl, rfl, rfl, rfl, rfl⟩, ⟨_, rfl, rfl, rfl, rfl, rfl⟩,
    ready_of rfl rfl, fun sc => by cases sc <;> exact ⟨rfl, rfl⟩, ready_of rfl rfl, ⟨_, rfl, rfl, rfl, rfl, rfl⟩⟩

theorem ok_err {α : Type} {e : Except Fail α} (h : e.isOk = false) : ∃ f, e = .error f := by
  cases e with
  | ok x => cases h
  | error f => exact ⟨f, rfl⟩

theorem err_sat {α : Type} {e : Except Fail α} {P : Fail → Prop} [DecidablePred P]
    (h : (match e with
      | .ok _ => false
      | .error f => decide (P f)) = true) : ∃ f, e = .error f ∧ P f := by
  cases e with
  | ok x => cases h
  | error f => exact ⟨f, rfl, of_decide_eq_true h⟩

theorem ok_sat {α : Type} {e : Except Fail α} {P : α → Prop} [DecidablePred P]
    (h : (match e with
      | .ok x => decide (P x)
      | .error _ => false) = true) : ∃ x, e = .ok x ∧ P x := by
  cases e with
  | ok x => exact ⟨x, rfl, of_decide_eq_true h⟩
  | error f => cases h

/-- A lease held by the team (index 0, two tiles) and one being recalled, whose surrender thread issues. -/
def leased (f : Lease → Lease) (s : State) : State :=
  s.updCluster 0 fun k => { k with
    leases := [(0, f { gen := 1, team := some 1, loose := false, tiles := [5, 6], held := 2, blk := { space := .glob, a := 0x200040 } })] }

/-- Of two lanes the lower one meets a cause that parks, and the other none. -/
theorem part_of {c : Ctx} {check : Ln → Except Fail (GAcc × VAddr)} {a b : Ln} {f : Fail} {x : GAcc × VAddr} (h : c.lns = [a, b])
    (below : a.lane < b.lane) (ha : check a = .error f) (park : f.park = true) (user : a.th.sup = false) (own : a.th.inj = none)
    (hb : check b = .ok x) : ∃ bad acc, PartBad c check bad acc a f ∧ acc b = x ∧ (c.lns.filter fun l => (bad l).isNone) = [b] := by
  have apart : b.lane ≠ a.lane := by omega
  refine ⟨fun l => if l.lane = a.lane then some f else none, fun _ => x, ⟨?_, ?_, ⟨[], ?_, by simp⟩, by simp⟩, rfl, by simp [h, apart]⟩
  · rintro l hl g hg
    rw [h] at hl
    simp only [List.mem_cons, List.not_mem_nil, or_false] at hl
    obtain rfl | rfl := hl
    · simp only [if_true, Option.some.injEq] at hg
      exact ⟨hg ▸ ha, hg ▸ park, user, own⟩
    · simp [apart] at hg
  · rintro l hl hg
    rw [h] at hl
    simp only [List.mem_cons, List.not_mem_nil, or_false] at hl
    obtain rfl | rfl := hl
    · simp at hg
    · exact hb
  · simp [h, apart]

/-- Two lanes whose offsets lead to a page that is not present, and to one that is: loads, stores and a load made once. -/
theorem witness_parking :
    let s : State := pair ((data 0).updThread 2 fun th => th.setReg 3 0x700000 tU32)
    let c := raftOf false s
    let k := c.counted
    let a := k.elected
    let b : Ln := k.lns.getD 1 a
    let check (w : Bool) (l : Ln) : Except Fail (GAcc × VAddr) := (s.counted c).laneGlob k l (c.tm.areg 1) (src32 .int c.tm l (.v 3)).w 4 w []
    let part (w : Bool) : Prop := ∃ f bad acc, PartBad k (check w) bad acc a f ∧
      (s.counted c).mustWait k 4 w ((k.lns.filter fun l => (bad l).isNone).map fun l => (l, acc l)) = false ∧
      ∀ l ∈ k.lns.filter fun l => (bad l).isNone, (acc l).1.loc.mt ≠ 1 ∧ s.cutOff (acc l).1.loc = false
    canIssue { srcs := [.v 3], ar := [1] } s ∧ canIssue { srcs := [.v 3], ar := [1], once := true } s ∧ canIssue (storeIssue 4 (.v 5) (.v 3) 1) s ∧
    c.injected = none ∧ (s.slice c.tm.slice).fqWait.length < 16 ∧ k.lns = [a, b] ∧ part false ∧ part true ∧
    (∃ f, check false a = .error f ∧ f.park = true) := by
  intro s c k a b check part
  have two : k.lns = [a, b] := rfl
  have parts (w : Bool) : part w := by
    have bad : ∃ f, check w a = .error f ∧ f.park = true := by cases w <;> exact err_sat (by decide +kernel)
    have good : ∃ x, check w b = .ok x ∧ (x.1.loc.mt ≠ 1 ∧ s.cutOff x.1.loc = false ∧ (s.counted c).mustWait k 4 w [(b, x)] = false) := by
      cases w <;> exact ok_sat (by decide +kernel)
    obtain ⟨f, hf, park⟩ := bad
    obtain ⟨x, hx, mt, cut, wait⟩ := good
    obtain ⟨bd, acc, hp, hb, hn⟩ := part_of two (by decide) hf park rfl rfl hx
    exact ⟨f, bd, acc, hp, by rw [hn]; simpa [hb] using wait, by rw [hn]; simpa [hb] using ⟨mt, cut⟩⟩
  exact ⟨ready_of rfl rfl, ready_of rfl rfl, ready_of rfl rfl, rfl, by decide, two, parts false, parts true, err_sat (by decide +kernel)⟩

/-- The checks of an access to scratchpad or landing: an offset that is misaligned; in own form a granule transferred out, an end past the
allocation and at it; a buffer whose handle is stale, that another team holds, whose end is passed and reached; pinned tiles, a lease that is
not held, one that is reclaimed, and offsets in the last tile and past it. -/
theorem witness_local_checks :
    let b (h : Nat) : Buf := { core := 0, first := (raftOf false plain).tm.spad0, count := 1, gen := 1, orig := 1, holder := h }
    let s (h : Nat) : State := leased id (plain.updCluster 0 fun k => { k with bufs := [b h] })
    let gone (h : Nat) : Bool := ((s h).cluster 0).bufs.any fun x => x.core == 0 && x.orig == 1 && x.holder != 1 &&
      decide (x.first ≤ (raftOf false plain).tm.spad0) && decide ((raftOf false plain).tm.spad0 < x.first + x.count)
    let dead : State := leased (fun l => { l with dead := true, tiles := [] }) plain
    let pinned : Team := { fetchTeam with pinned := [3] }
    (6 % 4 ≠ 0 ∧ 0xFFC % 4 = 0) ∧ gone 5 = true ∧ gone 1 = false ∧ 1 * 0x1000 < 0x1000 + 4 ∧ 0xFFC + 4 ≤ 1 * 0x1000 ∧
    (2 ^ 31 ≤ bufHandle (b 1) ∧ (s 1).bufBy 0 (bufHandle (b 1)) = some (b 1) ∧ (s 5).bufBy 0 (bufHandle (b 1)) = some (b 5) ∧
      (s 1).bufBy 0 (bufHandle (b 1) + 1) = none) ∧
    (pinned.pinned[0xFFFC / 0x10000]? = some 3 ∧ pinned.pinned.length ≤ 0x10000 / 0x10000 ∧ (0x40000000 : Nat) < 2 ^ 31) ∧
    ((s 1).heldLease 0 1 (leaseHandle 3 1) = none ∧ ((s 1).heldLease 0 1 (leaseHandle 0 1)).map (fun x => x.2.dead) = some false ∧
      (dead.heldLease 0 1 (leaseHandle 0 1)).map (fun x => x.2.dead) = some true ∧
      ((s 1).heldLease 0 1 (leaseHandle 0 1)).map (fun x => (x.2.reach (s 1).now)[0x1FFFC / 0x10000]?) = some (some 6) ∧
      ((s 1).heldLease 0 1 (leaseHandle 0 1)).map (fun x => decide ((x.2.reach (s 1).now).length ≤ 0x20000 / 0x10000)) = some true) := by
  refine ⟨by decide, ?_, ?_, by decide, by decide, ?_, by decide, ?_⟩ <;> decide +kernel

/-- A fence that waits for a replicated store, for a contribution of its raft, for what no link has delivered, and one that does not wait. -/
theorem witness_fences :
    let r : State := { plain with repl := [{ page := 0x200, addr := 0x200040, bytes := [7] }] }
    let p : State := { plain with posted := [{ pa := 2 ^ 52, va := 0x200040, issued := 0, team := 1, slice := 0, bytes := [1] }] }
    let tids := (raftOf false plain).tids
    canIssue {} r ∧ canIssue {} p ∧ canIssue {} (merging plain) ∧ r.repl ≠ [] ∧ (merging plain).unmerged tids = true ∧ p.posted ≠ [] ∧
    (plain.repl = [] ∧ plain.unmerged tids = false ∧ plain.posted = [] ∧ plain.hub.contribs = []) ∧
    ¬ (Scope.die = .package ∨ Scope.die = .domain ∨ Scope.die = .system) ∧ FenceKind.rel ≠ .acq :=
  ⟨ready_of rfl rfl, ready_of rfl rfl, ready_of rfl rfl, by decide, by decide, by decide, by decide, by decide, by decide⟩

/-- The checks of an access: no entry for the ASID, a base that is not canonical, a page that is not mapped, one that refuses a write
(supervisor only), a misaligned address, and one with none of them. -/
theorem witness_access_checks :
    let s := data 0
    mfind 5 s.hub.asids = none ∧ (mfind 0 s.hub.asids).isSome = true ∧
    (0x0100000000000000 : DWord) ≠ ((0x0100000000000000 : DWord).setWidth 57).signExtend 64 ∧
    (0x200040 : DWord) = ((0x200040 : DWord).setWidth 57).signExtend 64 ∧
    (∃ f, s.xlate (coreWho 0) 0 0x900000 0 = .error f) ∧
    (∃ t, s.xlate (coreWho 0) 0 0x200041 0 = .ok t ∧ t.pte.toNat.testBit 4 = true ∧ t.pte.toNat.testBit 5 = false ∧
      t.pte.toNat.testBit 9 = false ∧ (0x200041 : Nat) % 4 ≠ 0 ∧ (0x200040 : Nat) % 4 = 0) :=
  ⟨rfl, rfl, by decide, by decide, ⟨_, rfl⟩, ⟨_, rfl, by decide⟩⟩

/-- A dense vector of three words, one zero, at scratchpad 0x10, and its stream (8 + 8 + 8 bytes) in memory at 0x200040. -/
theorem witness_streams :
    let es : List (List Byte) := [[1, 0, 0, 0], [0, 0, 0, 0], [3, 0, 0, 0]]
    let g (t : Team) : Team :=
      { ((((t.setA 1 0x200040).setS 0 0x10).setS 1 3).setS 2 24) with spadN := 1 }
    let s : State := (paged 0 (seed id g)).putSpad 0x10 es.flatten
    let d : State := s.putHome 0x200040 (bmvStream 4 3 es)
    let c := raftOf false s
    (MemTy.i32).bmvSize = some 4 ∧ canIssue { ar := [1], sr := [0, 1, 2], once := true } s ∧ canIssue { ar := [1], sr := [0, 1], once := true } d ∧
    (∀ e ∈ es, e.length = 4) ∧ mgets 0 s.spad (spadKey 0 0x10) 12 = es.flatten ∧ round8 (8 + maskLen 3 + 2 * 4) ≤ 24 ∧
    s.transferredIn c 0x10 12 = false ∧ hasPsn 8 (spadKey 0 0x10) 12 s.psnSpad = false ∧
    (∃ ps, (s.counted c).range c.counted.who 0 0x200040 0x200040 (round8 (8 + maskLen 3 + 2 * 4)) (c.counted.elected.use true) [] = .ok ps ∧
      (∀ q ∈ ps, s.shut q.loc = false) ∧ ∃ q, ps = [q] ∧ q.loc.mt = 0) ∧
    (∃ ps, (d.counted c).range c.counted.who 0 0x200040 0x200040 (8 + maskLen 3 + 2 * 4) (c.counted.elected.use false) [] = .ok ps ∧
      d.poisonIn ps = none ∧ (∀ q ∈ ps, d.shut q.loc = false) ∧ d.readPieces 0 ps = (bmvStream 4 3 es).take (8 + maskLen 3 + 2 * 4)) ∧
    (∃ ps, (d.counted c).range c.counted.who 0 0x200040 0x200040 8 (c.counted.elected.use false) [] = .ok ps ∧
      d.poisonIn ps = none ∧ (∀ q ∈ ps, d.shut q.loc = false) ∧ d.readPieces 0 ps = (bmvStream 4 3 es).take 8) ∧
    s.conflict 0 (gRng 0 0x200040 (round8 (8 + maskLen 3 + 2 * 4)) true :: (Loc.spad (spadKey 0 0x10)).rng 12 false) = false := by
  refine ⟨rfl, ready_of rfl rfl, ready_of rfl rfl, by decide, by decide, by decide, by decide, rfl,
    ⟨_, rfl, by decide +kernel, _, rfl, rfl⟩, ⟨_, rfl, rfl, by decide +kernel, by decide +kernel⟩, ⟨_, rfl, rfl, by decide +kernel, by decide +kernel⟩,
    rfl⟩

/-- A tag table of one granule: slot 15 is in range. -/
theorem witness_tag_table :
    let s : State := seed (fun th => th.setReg 2 15 tU32) fun t => { t.setA 1 0x200040 with spadN := 1 }
    canIssue { srcs := [.v 1, .v 2], ar := [1] } s ∧ canIssue { srcs := [.v 1], ar := [1] } s ∧ canIssue { srcs := [.v 2] } s ∧
    (∀ l ∈ (raftOf false s).counted.lns, (src32 .int (raftOf false s).tm l (.v 2)).w.toNat < (raftOf false s).tm.spadN * 16) ∧
    (∀ j, j < 16 → 0 * 1024 + 0 + j ∉ s.psnTag) :=
  ⟨ready_of rfl rfl, ready_of rfl rfl, ready_of rfl rfl, one_lane rfl (by decide), by decide⟩

/-- A barrier object of one expected arrival in memory at 0x200040 (arrivals make it complete); the phase a wait names is over, or not. -/
theorem witness_barriers :
    let s : State := (data 0).putHome 0x200040 (BarObj.bytes { phase := false, arr := 1, arrExp := 1, byt := 0, bytExp := 0 })
    let c := raftOf false s
    let r : Ref := { space := .glob, a := 0x200040 }
    canIssue { srcs := [.v 1, .v 2], ar := [1], once := true } s ∧ canIssue { ar := [1] } s ∧ canIssue { srcs := [.v 2], ar := [1], once := true } s ∧
    canIssue { srcs := [.v 2], ar := [1], noInj := true } s ∧
    canIssue { ar := [1] } (merging s) ∧
    (∀ sc, s.relWait (some sc) c.tids = false ∧ (merging s).relWait (some sc) c.tids = true) ∧
    (∃ x, ((merging s).counted c).objectRead c.core c.team c.tm false r 16 16 true [1, 2] = .ok x ∧ (merging s).cutOff x.1 = false) ∧
    (∃ x, (s.counted c).objectRead c.core c.team c.tm false r 16 16 true [1, 2] = .ok x ∧ s.cutOff x.1 = false ∧ x.1.isMem = true ∧ x.1.at = 0x200040 ∧
      (s.barAt x.1).arr = c.counted.lns.length ∧ (∀ j, j < 16 → x.1.at + j ∉ s.tableBytes) ∧
      ∀ j, j < 16 → ∀ e ∈ x.2, x.1.at + j ≠ e.addr) ∧
    (∃ x, (s.counted c).objectRead c.core c.team c.tm false r 16 16 false [1, 2] = .ok x ∧ s.cutOff x.1 = false ∧ (s.barAt x.1).phase = false) :=
  ⟨ready_of rfl rfl, ready_of rfl rfl, ready_of rfl rfl, ready_of rfl rfl, ready_of rfl rfl, fun sc => by cases sc <;> exact ⟨rfl, rfl⟩,
    ⟨_, rfl, rfl⟩, ⟨_, rfl, rfl, rfl, rfl, by decide, by decide, by decide⟩, ⟨_, rfl, rfl, by decide⟩⟩

/-- Copy tags: tag 3 not ready and the others ready, so that a mask of tags 3 and 4 is met by `.any` and not by `.all`. -/
theorem witness_copy_tags :
    let s : State := seed id fun t => t.setTag 3 { ready := false, count := 1 }
    (s.team 1).isSome = true ∧ canIssue { sr := [0, 1], once := true } s ∧ canIssue { noInj := true } s ∧ canIssue { sr := [0, 1], noInj := true } s ∧
    (∀ x, s.team 1 = some x → (x.ctag 3).ready = false ∧ (x.ctag 4).ready = true) := by
  refine ⟨rfl, ready_of rfl rfl, ready_of rfl rfl, ready_of rfl rfl, fun x h => ?_⟩
  cases h
  exact ⟨rfl, rfl⟩

/-- What `span` finds: one piece of a global access by the queue operations of a raft. -/
def pieceAt (s : State) (a n : Nat) (write : Bool) : Piece :=
  match s.qspan (raftOf false s).counted.qwho ((BitVec.ofNat 57 a).signExtend 64) a n write with
  | .ok [x] => x
  | _ => { va := 0, n := 0, loc := .mem 0 0, tlb := { asid := 0, vbase := 0, log2 := 0, pte := 0, addr := 0, a := false, d := false } }

/-- The raft of `s` reaches `n` bytes at `a` in one piece, which nothing bars and whose table bytes and the first one's lie elsewhere. -/
def reachesAt (s : State) (a n : Nat) (write wr : Bool) : Bool :=
  let x := pieceAt s a n write
  s.qspan (raftOf false s).counted.qwho ((BitVec.ofNat 57 a).signExtend 64) a n write == .ok [x] && !s.shut x.loc &&
    !s.conflict 0 [gRng 0 x.va x.n wr] && (wr || (s.poisonIn [x]).isNone) && x.loc == .mem a 0 && x.tlb.addr == 0x300000 && x.n == n

/-- A queue of 2 entries of 4 bytes at 0x200080, its descriptor at 0x200040, the state bytes `st` of its entries at 0x200088: with room
and full for `qres`; with entry 0 reserved, and not, for `qpub`; empty and with entry 0 published for `qtake`. -/
theorem witness_queues :
    let q (resv pubf take free : Nat) (st : Byte) : State := ((data 0).putHome 0x200040
      (natLe 8 0x200080 ++ natLe 8 1 ++ natLe 4 resv ++ natLe 4 pubf ++ natLe 4 take ++ natLe 4 free)).putHome 0x200088 [st, 0]
    let c := raftOf false (q 0 0 0 0 0)
    let all : List State := [q 0 0 0 0 0, q 2 0 0 0 0, q 1 0 0 0 1, q 1 1 0 0 2]
    let qu (s : State) : Queue := let ps := [pieceAt s 0x200040 64 true]; queueOf ps (s.homePieces ps)
    (∀ s ∈ all, reachesAt s 0x200040 64 true true = true ∧ s.poisonIn [pieceAt s 0x200040 64 true] = none ∧
      reachesAt (s.touchAll c.who [pieceAt s 0x200040 64 true] true) 0x200088 1 true true = true ∧
      reachesAt (s.touchAll c.who [pieceAt s 0x200040 64 true] true) 0x200088 1 true false = true ∧
      reachesAt (s.touchAll c.who [pieceAt s 0x200040 64 true] true) 0x200080 4 false false = true ∧
      (∀ v ∈ [2, 3], ∀ wr, reachesAt ((s.touchAll c.who [pieceAt s 0x200040 64 true] true).putPieces 0 [pieceAt s 0x200088 1 true] [v])
        0x200088 1 true wr = true) ∧
      (∀ j, j < 12 → 0x200080 + j ∉ s.tableBytes) ∧
      (qu s).cap = 2 ∧ (qu s).size = 4 ∧ (qu s).stateVa 0 = 0x200088 ∧ (qu s).entryVa 0 = 0x200080) ∧
    canIssue { ar := [1] } (q 0 0 0 0 0) ∧ canIssue { srcs := [.v 2], ar := [1] } (q 0 0 0 0 0) ∧ canIssue { ar := [1], noInj := true } (q 0 0 0 0 0) ∧
    c.counted.lns = [c.counted.elected] ∧ (qu (q 2 0 0 0 0)).cap ≤ ((qu (q 2 0 0 0 0)).resv - (qu (q 2 0 0 0 0)).free).toNat ∧
    ((qu (q 1 0 0 0 1)).resv - (qu (q 1 0 0 0 1)).free).toNat < (qu (q 1 0 0 0 1)).cap ∧
    before (qu (q 0 0 0 0 0)).take (qu (q 0 0 0 0 0)).pubf = false ∧ (qu (q 0 0 0 0 0)).resv = (qu (q 0 0 0 0 0)).pubf ∧
    ((qu (q 1 0 0 0 1)).resv = (qu (q 1 0 0 0 1)).pubf + 1 ∧ (q 1 0 0 0 1).home 0x200088 = 1) ∧
    (let x := qu (q 1 1 0 0 2)
     before x.take x.pubf = true ∧ x.free = x.take ∧ x.pubf = x.take + 1) ∧
    (src32 .int c.tm c.counted.elected (.v 2)).w = (qu (q 1 0 0 0 1)).pubf ∧
    (∀ s ∈ all, s.relWait (some .domain) c.tids = false) ∧ canIssue { srcs := [.v 2], ar := [1] } (merging (q 1 0 0 0 1)) ∧
    (merging (q 1 0 0 0 1)).relWait (some .domain) c.tids = true ∧ reachesAt (merging (q 1 0 0 0 1)) 0x200040 64 true true = true ∧
    (merging (q 1 0 0 0 1)).poisonIn [pieceAt (merging (q 1 0 0 0 1)) 0x200040 64 true] = none := by
  refine ⟨by decide +kernel, ready_of rfl rfl, ready_of rfl rfl, ready_of rfl rfl, rfl, ?_, ?_, ?_, ?_, ?_, ?_, ?_, ?_, ready_of rfl rfl, ?_, ?_, ?_⟩ <;>
    decide +kernel

/-- Spawning: room for threads; a team of 1,024 threads; a header in memory and a pending-launch store with room; feature 5 refused. -/
theorem witness_spawn :
    let g : List Nat := [4, 5, 6, 7]
    let crowd : State := { plain with
      threads := plain.threads ++ (List.range 1023).map fun k => (k + 3, { team := 1, tnum := k + 1, place := .deck 0 })
      fresh := 1026 }
    let base : State := paged 0 (seed id fun t => t.setA 1 0x200080)
    let five : State := { base with hub := { base.hub with accepted := 0x20 } }
    canIssue { srcs := [.v 1], vr := g, noInj := true } plain ∧ plain.Keyed ∧ plain.slotsUsed 0 + 1 ≤ 2032 ∧ plain.teamCount 1 + 1 ≤ 1024 ∧
    crowd.teamCount 1 = 1024 ∧ canIssue { ar := [1], noInj := true } five ∧ five.hub.accepted.getLsbD 5 = true ∧ five.Keyed ∧
    (∃ x, five.laneGlob (raftOf false five).counted (raftOf false five).counted.elected ((raftOf false five).tm.areg 1) 0 128 false [] = .ok x ∧
      five.shut x.1.loc = false) ∧ five.sending (raftOf false five).counted.tids = false ∧
    five.conflict 0 [gRng 0 0x200080 128 false] = false ∧ (five.slice 0).store.length < 256 ∧
    (plain.ctx false).isSome = true ∧ plain.hub.accepted.getLsbD 5 = false :=
  ⟨ready_of rfl rfl, ⟨rfl, rfl, by decide, by decide⟩, by decide, by decide, by decide +kernel, ready_of rfl rfl, rfl, ⟨rfl, rfl, by decide, by decide⟩,
    ⟨_, rfl, rfl⟩, rfl, rfl, by decide, rfl, rfl⟩

/-- A plain card of 512 bytes from 0x200200 to 0x200400 at 0x200040, cards that extract a scratchpad vector and that feed the array, and a
signature block: each passes its checks. -/
theorem witness_jobs :
    let card (kind fsp : Nat) (src dst xop x1 len : Nat) : List Byte :=
      natLe 8 src ++ natLe 8 dst ++ natLe 8 0 ++ natLe 8 0 ++ natLe 4 (kind + 64 * fsp + 4096 * xop) ++ natLe 4 len ++ natLe 8 0 ++ natLe 8 0 ++
        natLe 8 x1
    let s : State := (data 0).putHome 0x200040 (card 1 0 0x200200 0x200400 0 0 512)
    let c := raftOf false s
    let x : State := (data 0).putHome 0x200040 (card 2 0 0x200200 0x200400 1 0 512)
    let sig : List Byte := natLe 8 0x200800 ++ natLe 8 0x200100 ++ natLe 4 0 ++ natLe 4 128 ++ natLe 2 0 ++ natLe 2 0 ++ natLe 4 0
    let q := sigOf sig
    canIssue { ar := [1], once := true } s ∧
    (∃ g, s.global c.who 0 0x200040 ((0x200040 : DWord).setWidth 57) 64 (c.counted.elected.use false) [] = .ok g ∧ s.poisonAt g.loc 64 = false ∧
      s.shut g.loc = false ∧
      ∃ p, (s.counted c).cardCheck c.counted false 1 (s.readAt 0 g.loc 64) (cardOf (s.readAt 0 g.loc 64)) = .ok p ∧
      ∃ p, (x.counted c).cardCheck c.counted false 2 (x.readAt 0 g.loc 64) (cardOf (x.readAt 0 g.loc 64)) = .ok p) ∧
    (s.relWait (some .cluster) c.tids = false ∧ (merging s).relWait (some .cluster) c.tids = true ∧ canIssue { ar := [1], once := true } (merging s) ∧
      ∃ g, (merging s).global c.who 0 0x200040 ((0x200040 : DWord).setWidth 57) 64 (c.counted.elected.use false) [] = .ok g ∧
        (merging s).cutOff g.loc = false) ∧
    s.conflict 0 [gRng 0 0x200040 64 false] = false ∧ (c.tm.ctag 3).count ≠ 255 ∧ s.entries 0 < 256 ∧ s.mPlaces 0 < 8 ∧
    leNat (sig.drop 0x1C) = 0 ∧ q.pitch ≠ 0 ∧ q.pitch % 128 = 0 ∧ q.entry.toNat % 16 = 0 ∧ q.surf.toNat % 128 = 0 ∧
    q.src + 4096 ≤ 1 * 0x1000 := by
  refine ⟨ready_of rfl rfl, ⟨_, rfl, rfl, rfl, _, rfl, _, rfl⟩, ⟨rfl, rfl, ready_of rfl rfl, _, rfl, rfl⟩, rfl, by decide, by decide, by decide, ?_⟩
  decide

/-- Jobs of a cluster: the oldest may start, a started one has landings to make or none left; a landing reads and writes its line. -/
theorem witness_job_events :
    let q : Card := { src := 0x200200, dst := 0x200400, fmap := 0, tmap := 0, kind := 1, fsp := 0, tsp := 0, bsp := 0, xop := 0, len := 4,
                      bar := 0, x0 := 0, x1 := 0 }
    let j : Job := { cluster := 0, core := 0, team := 1, asid := 0, tag := 3, work := .card q, foot := [] }
    let running : Job := { j with started := true, total := 1, todo := [0] }
    let s (j : Job) : State := { data 0 with jobs := [(7, j)], fresh := 8, tlb2 := (data 0).tlb1 }
    (mfind 7 (s j).jobs = some j ∧ j.started = false ∧ (∀ x ∈ (s j).jobs, x.2.cluster = 0 → x.1 < 7 → x.2.started = true) ∧
      (s j).conflictBefore 0 7 j.foot = false) ∧
    (mfind 7 (s running).jobs = some running ∧ 0 ∈ running.todo ∧ ∃ s1, (s running).jobRead running 0 0x200200 0 4 = .ok (s1, [0, 0, 0, 0]) ∧
      ∃ s2, s1.jobWrite running 0 0x200400 0 [0, 0, 0, 0] = .ok s2) ∧
    (∃ f, (s running).jobRead running 0 0x900000 0 4 = .error f ∧ f.remote = false ∧ f.cause ≠ 0) ∧
    (let qb : Card := { q with bar := 0x200500 }
     let b : Job := { running with work := .card qb }
     ∃ s1, (s b).jobRead b 0 0x200200 0 4 = .ok (s1, [0, 0, 0, 0]) ∧ ∃ s2, s1.jobWrite b 0 0x200400 0 [0, 0, 0, 0] = .ok s2 ∧
       ∃ x, s2.anyTeam 1 = some x ∧ ∃ o, (s2.asIssued 0).objectRead 0 1 x false qb.barRef 16 16 true [1, 2] = .ok o ∧
         o.1.isMem = true ∧ o.1.at = 0x200500 ∧ (∀ i, i < 16 → o.1.at + i ∉ s2.tableBytes ∧ ∀ y, o.2 = some y → o.1.at + i ≠ y.addr) ∧
         b.barDead = false) ∧
    ({ running with todo := [] }.todo = [] ∧ ((s running).team 1).isSome = true) := by
  refine ⟨⟨rfl, rfl, by decide, rfl⟩, ⟨rfl, by decide, ?_⟩, ⟨_, rfl, rfl, by decide⟩, ?_, rfl, rfl⟩
  · refine ⟨_, rfl, ?_⟩
    exact ⟨_, rfl⟩
  · exact ⟨_, rfl, _, rfl, _, rfl, _, rfl, rfl, rfl, by decide +kernel, rfl⟩

theorem witness_lease_instructions :
    let blk (n : Nat) : List Byte := List.replicate 0x10 0 ++ natLe 4 (n + 256) ++ natLe 4 0 ++ natLe 4 0 ++ natLe 4 0
    let s : State := (data 0).putHome 0x200040 (blk 128)
    let out : State := s.updTeam 1 fun t => { t with reqOut := true }
    let r : Ref := { space := .glob, a := 0x200040 }
    let inj : State := leased id (seed (fun th =>
      { ((th.setReg 1 1 tU32).setReg 2 0x1 tU32).setReg 3 2 tU32 with inj := some { lease := 0, gen := 1, count := 0 } }) id)
    let c (s : State) : Ctx := raftOf false s
    let named (s : State) : Prop := ∃ x, (s.counted (c s)).objectRead 0 1 (c s).tm false r 32 32 true [1, 2] = .ok x ∧
      bits (s.wordAt 0 x.1 0x10) 0 8 = 128 ∧ bits (s.wordAt 0 x.1 0x10) 8 2 = 1 ∧ x.1.isMem = true ∧ s.shut x.1 = false ∧
      s.conflict 0 (r.rngs 0 x.1 32 true) = false ∧ (((s.counted (c s)).touchOpt (c s).who x.2 true).blockLoc 1 r).isSome = true
    let w (n : BitVec 6) : Nat := (src32 .int (c inj).tm (c inj).counted.elected (.v n)).w.toNat
    named s ∧ named out ∧
    canIssue { ar := [1], once := true, noInj := true } s ∧ (c s).tm.reqOut = false ∧ 128 ≤ 128 - (s.pinnedTiles 0).length ∧
    (c out).tm.reqOut = true ∧
    (leased id plain).heldLease 0 1 (leaseHandle 0 1) ≠ none ∧ canIssue { srcs := [.v 1], once := true, noInj := true } (leased id plain) ∧
    (∀ keep ∈ [0, 1], (leased (fun l => { l with giveUp := some { keep := keep, status := 5, report := true, since := 0 } }) plain).heldLease 0 1 (leaseHandle 0 1) ≠ none) ∧
    (c inj).counted.elected.th.inj = some { lease := 0, gen := 1, count := 1 } ∧
    (∃ x y, inj.leaseOf 0 { lease := 0, gen := 1, count := 1 } = some x ∧ x.giveUp = none ∧ x.refusals < 2 ∧ x.held = 2 ∧
      inj.team 1 = some y ∧ y.core = 0) ∧
    (w 0 = 0 ∧ w 1 = 1 ∧ w 2 = 1 ∧ w 3 = 2) ∧
    Ready { srcs := [.v 1, .v 2], once := true } inj (c inj) ∧ canIssue { srcs := [.v 1, .v 2], once := true } plain := by
  refine ⟨⟨_, rfl, by decide, by decide, rfl, rfl, rfl, rfl⟩, ⟨_, rfl, by decide, by decide, rfl, rfl, rfl, rfl⟩, ready_of rfl rfl, rfl, by decide,
    rfl, by decide, ready_of rfl rfl, by decide +kernel, rfl, ⟨_, _, rfl, rfl, by decide, rfl, rfl, rfl⟩, by decide, ⟨rfl, ?_, ?_, ?_, ?_, ?_⟩, ready_of rfl rfl⟩
  · intro i hi; cases hi; decide
  all_goals decide

/-- A transfer block at 0x200040 that names the team's granule 0, its own slot as receiver, the new handle's place and a barrier; a job
that covers the granule; a buffer that the team holds. -/
theorem witness_buffer_transfer :
    let blk : List Byte := natLe 4 0 ++ natLe 8 0 ++ natLe 4 0 ++ natLe 8 0x200100 ++ natLe 8 0x200200
    let s : State := ((data 0).putHome 0x200040 blk).updTeam 1 fun t => { t with spadN := 64 }
    let s : State := s.putHome 0x200200 (BarObj.bytes { phase := false, arr := 1, arrExp := 1, byt := 0, bytExp := 0 })
    let c := raftOf false s
    let k := c.counted
    let r : Ref := { space := .glob, a := 0x200040 }
    let g : Rng := { space := 1, unit := 0, lo := c.tm.spad0 * 0x1000, n := 0x1000, write := true }
    let q : Card := { src := 0x200200, dst := 0x200400, fmap := 0, tmap := 0, kind := 1, fsp := 0, tsp := 0, bsp := 0, xop := 0, len := 4,
                      bar := 0, x0 := 0, x1 := 0 }
    let busy : State := { s with jobs := [(7, { cluster := 0, core := 0, team := 1, asid := 0, tag := 3, work := .card q, foot := [g] })] }
    let b : Buf := { core := 0, first := 0, count := 1, gen := 1, orig := 1, holder := 1 }
    let cut : State := unlinked { s.putHome 0x200050 (natLe 8 0x400100) with tlb1 := mupd 0 (fun l => { asid := 0, vbase := 0x400, log2 := 12, pte := BitVec.ofNat 64 (0x400CD9 + 2 ^ 46), addr := 0x300008, a := true, d := true } :: l) s.tlb1 }
    let late : State := { cut with now := 80000, pipes := mupd 0 (fun p => { p with cutAt := some 0 }) cut.pipes }
    let cuts (s : State) : Prop := canIssue { ar := [1], once := true } s ∧
      ∃ loc tlb, (s.counted (raftOf false s)).objectRead 0 1 c.tm false r 32 32 true [1, 2] = .ok (loc, tlb) ∧ s.shut loc = false ∧
        s.conflict 0 (r.rngs 0 loc 32 true) = false ∧
        ∃ hl ht, (s.counted (raftOf false s)).object 0 1 c.tm false { space := .glob, a := 0x400100 } 4 4 true [2] = .ok (hl, ht) ∧ s.cutOff hl = true ∧
        s.wordAt 0 loc 0x10 = 0x400100 ∧
        ∃ bl bt, (s.counted (raftOf false s)).objectRead 0 1 c.tm false { space := .glob, a := 0x200200 } 16 16 true [1, 2] = .ok (bl, bt)
    (cuts cut ∧ cut.now < (raftOf false cut).pr.cutAt.getD cut.now + 80000) ∧
    (cuts late ∧ (raftOf false late).pr.cutAt.getD late.now + 80000 ≤ late.now) ∧
    canIssue { ar := [1], once := true } s ∧ canIssue { ar := [1], once := true } busy ∧ s.relWait (some .domain) c.tids = false ∧
    (∃ loc tlb, (s.counted c).objectRead 0 1 c.tm false r 32 32 true [1, 2] = .ok (loc, tlb) ∧ s.shut loc = false ∧
      s.conflict 0 (r.rngs 0 loc 32 true) = false ∧ busy.conflict 0 (r.rngs 0 loc 32 true) = false ∧ s.wordAt 0 loc 0 = 0 ∧ s.wordAt 0 loc 0x0C = 0 ∧
      s.wordAt 0 loc 0x10 = 0x200100 ∧ s.wordAt 0 loc 0x18 = 0x200200) ∧
    c.tm.spadN ≥ 1 ∧ s.transferred 0 0 1 c.tm.spad0 = false ∧ (∃ x, s.teamAt 0 0 = some (1, x) ∧ x.asid = c.tm.asid) ∧
    (∃ hl ht, (s.counted c).object 0 1 c.tm k.elected.th.sup { space := .glob, a := 0x200100 } 4 4 true [2] = .ok (hl, ht) ∧ hl.mt ≠ 1 ∧
      hl.at = 0x200100 ∧ s.cutOff hl = false ∧ s.lockedAt hl = false ∧
      s.conflict 0 (g :: ({ space := .glob, a := 0x200100 } : Ref).rngs 0 hl 4 true) = false ∧
      busy.conflict 0 (g :: ({ space := .glob, a := 0x200100 } : Ref).rngs 0 hl 4 true) = true) ∧
    (∃ bl bt, (s.counted c).objectRead 0 1 c.tm k.elected.th.sup { space := .glob, a := 0x200200 } 16 16 true [1, 2] = .ok (bl, bt) ∧
      bl.at = 0x200200 ∧ s.cutOff bl = false ∧ (s.barAt bl).arr = 1 ∧ ∀ j, j < 16 → bl.at + j ∉ s.tableBytes) ∧
    ((s.updCluster 0 fun k => { k with bufs := [b] }).bufBy 0 (bufHandle b) = some b ∧ (bufHandle b).testBit 31 = true ∧ bits (bufHandle b) 8 6 + 1 = 1) := by
  refine ⟨⟨⟨ready_of rfl rfl, _, _, rfl, rfl, rfl, _, _, rfl, by decide +kernel, by decide +kernel, _, _, rfl⟩, by decide⟩,
    ⟨⟨ready_of rfl rfl, _, _, rfl, rfl, rfl, _, _, rfl, by decide +kernel, by decide +kernel, _, _, rfl⟩, by decide⟩,
    ready_of rfl rfl, ready_of rfl rfl, rfl, ⟨_, _, rfl, rfl, rfl, rfl, by decide, by decide, by decide, by decide⟩, by decide, rfl, ⟨_, rfl, rfl⟩,
    ⟨_, _, rfl, by decide, by decide, rfl, rfl, by decide +kernel, by decide +kernel⟩, ⟨_, _, rfl, by decide, rfl, by decide +kernel, by decide +kernel⟩,
    by decide +kernel⟩

/-- Requests of the team and of the traversal engine that free tiles cover and do not, no request, a loose lease to reclaim, an outcome
due, a refusal, leases of a team and of the traversal engine whose recall is due. -/
theorem witness_lease_manager :
    let ask (n : Nat) (team : Option Nat) : LeaseReq := { count := n, team := team, blk := { space := .glob, a := 0x200040 } }
    let k (l : Option Lease) (q : List LeaseReq) : State := plain.updCluster 0 fun k => { k with
      reqs := q, leases := (l.map fun x => (0, x)).toList }
    let all : Lease := { gen := 1, team := some 1, loose := false, tiles := List.range 128, held := 128, blk := { space := .glob, a := 0x200040 } }
    let named (s : State) (n : Nat) : Prop := ∃ l, mfind 0 (s.cluster 0).leases = some l ∧ l.held = n
    let got (s : State) : Nat := ((s.freeTiles 0).take 128).length
    (got (k none [ask 128 none]) = 128 ∧ (k none [ask 128 none]).freeLease 0 = some 0) ∧
    (got (k none [ask 128 (some 1)]) = 128) ∧
    (let s := k none [{ ask 128 (some 1) with pinned := true }]
     got s = 128 ∧ (s.team 1).isSome = true ∧ s.Keyed ∧ (s.threadsOf 1).length = 1) ∧
    (got (k (some { all with tiles := [0], held := 1 }) [ask 128 none]) = 127) ∧ (plain.cluster 0).reqs = [] ∧
    (let s := k (some { all with loose := true }) [ask 1 none]
     youngestLoose (s.cluster 0).leases = some (0, { all with loose := true }) ∧ s.lacking 0 = 1 ∧ s.jobCovers 0 0 0 = false) ∧
    (named (k (some { all with giveUp := some { keep := 0, status := 6, report := true, since := 0 } }) []) 128) ∧
    (named (k (some { all with refusedAt := some 0 }) []) 128) ∧
    (let s := k (some all) [ask 1 none]
     s.recallDue 0 0 = true ∧ named s 128 ∧ (s.team 1).isSome = true ∧ s.lacking 0 - s.coming 0 = 1) ∧
    (let s := k (some { all with team := none }) [ask 128 (some 1)]
     s.recallDue 0 0 = true ∧ named s 128 ∧ s.lacking 0 - s.coming 0 = 128) := by
  refine ⟨⟨by decide +kernel, by decide +kernel⟩, by decide +kernel, ⟨by decide +kernel, rfl, ⟨rfl, rfl, by decide, by decide⟩, rfl⟩,
    by decide +kernel, rfl, ⟨rfl, by decide +kernel, rfl⟩, ⟨_, rfl, rfl⟩,
    ⟨_, rfl, rfl⟩, ⟨by decide +kernel, ⟨_, rfl, rfl⟩, rfl, by decide +kernel⟩, by decide +kernel, ⟨_, rfl, rfl⟩, by decide +kernel⟩

theorem ok_of {α : Type} {e : Except Fail α} (h : e.isOk = true) : ∃ x, e = .ok x := by
  cases e with
  | ok x => exact ⟨x, rfl⟩
  | error f => cases h

/-- A team with two tiles, four regions and its 64 granules; s4 and s5 name operands of a 32 x 32 x 128 product, a2 scratchpad offset
0x2000, v1 a length of 64. -/
def arrayed : State := seed (fun th => th.setReg 1 64 tU32) fun t =>
  (((({ t with accN := 2, wbN := 4, spadN := 64 } : Team).setS 4 0).setS 5 0x1000).setA 2 0x2000)

/-- Every matrix instruction passes its checks at the last tile or region that fits, and `mzero` past it does not. -/
theorem witness_matrix_issue :
    let c := raftOf false arrayed
    let full : State := arrayed.updCore 0 fun k => { k with mq := List.replicate 8 { id := 5, team := 1, op := .mzero 0 1, reads := [], cfoot := [] } }
    canIssue { sr := [4, 5], once := true } arrayed ∧ canIssue { ar := [2], once := true } arrayed ∧
    canIssue { srcs := [.v 1], ar := [2], once := true } arrayed ∧ canIssue { once := true } arrayed ∧
    arrayed.mPlaces 0 < 8 ∧ arrayed.entries 0 < 256 ∧ 8 ≤ full.mPlaces 0 ∧ canIssue { once := true } full ∧
    (∃ x, arrayed.mmaCheck 0 c.tm false 9 0 false 1 (c.tm.sreg 4).toNat (c.tm.sreg 5).toNat = .ok x) ∧
    (∃ x, arrayed.mmaCheck 0 c.tm true 9 0 false 1 (c.tm.sreg 4).toNat (c.tm.sreg 5).toNat = .ok x) ∧
    1 + 1 ≤ c.tm.accN ∧ c.tm.accN < 2 + 1 ∧ (src32 .int c.tm c.counted.elected (.v 1)).w.toNat = 64 ∧
    3 + (64 + 0x3FFF) / 0x4000 ≤ c.tm.wbN ∧ ((c.tm.areg 2).setWidth 32).toNat = 0x2000 ∧ 0x2000 + 0x1000 ≤ c.tm.spadN * 0x1000 := by
  refine ⟨ready_of rfl rfl, ready_of rfl rfl, ready_of rfl rfl, ready_of rfl rfl, by decide, by decide, by decide, ready_of rfl rfl, ok_of (by decide +kernel),
    ok_of (by decide +kernel), by decide, by decide, by decide, by decide, by decide, by decide⟩

/-- A state with a queue of commands and with completion records. -/
def queued (mq : List MCmd) (mrec : List MRec) : State :=
  { arrayed.updCore 0 fun k => { k with mq := mq, mrec := mrec } with now := 100, fresh := 9 }

/-- `mwait` with nothing outstanding, with work outstanding, with a failure recorded; commands that may start, that have run their last
cycle (of each kind), and that may complete; a product. -/
theorem witness_matrix_work :
    let m (op : MOp) : MCmd := { id := 5, team := 1, op := op, reads := [], cfoot := [] }
    let failed : MRec := { team := 1, id := 4, wb := false, first := 0, n := 1, flags := 0, cause := 0x13 }
    let running (op : MOp) : State := queued [{ m op with running := true, last := 100 }] []
    let due (op : MOp) : Prop := ((running op).core 0).mq.find? (fun m => m.running && !m.ran) = some { m op with running := true, last := 100 } ∧
      ((running op).anyTeam 1).isSome = true
    canIssue { noInj := true } (queued [] []) ∧ canIssue { noInj := true } (queued [m (.mzero 0 1)] []) ∧
    canIssue { noInj := true } (queued [] [failed]) ∧ 0 + 1 ≤ (raftOf false arrayed).tm.accN ∧
    (queued [] []).mBusy 0 1 false 0 1 = false ∧ (queued [m (.mzero 0 1)] []).mBusy 0 1 false 0 1 = true ∧
    (queued [] [failed]).mBusy 0 1 false 0 1 = false ∧ failed.covered 1 false 0 1 = true ∧ failed.cause ≠ 0 ∧ failed.cause ≠ 0x61 ∧
    (∀ on : Bool,
      let s : State := (queued [] [failed]).updTeam 1 fun t => ({ t.setCsr cTRAPV 0x100001 with inService := on }).latch
      canIssue { noInj := true } s ∧ ((raftOf false s).tm.csrv cTRAPV).extractLsb' 1 56 ≠ 0 ∧ (raftOf false s).counted.elected.th.sup = false) ∧
    ((queued [m (.mzero 0 1)] []).core 0).mq.find? (fun m => !m.running) = some (m (.mzero 0 1)) ∧
    (queued [m (.mzero 0 1)] []).startable 0 (m (.mzero 0 1)) = true ∧
    due (.mzero 0 1) ∧ due (.mldw 0x2000 64 0) ∧ due (.macld 0x2000 0 1) ∧ due (.macst 0x2000 0 1) ∧
    due (.mma false 9 9 false 0 0 0 0x1000 0 0) ∧
    (let y : MCmd := { m (.mzero 0 1) with running := true, ran := true, last := 94 }
     (∀ z ∈ [(4, 4), (3, 3), (5, 5), (7, 8), (9, 9), (10, 10), (5, 10), (7, 10)], (comboOf z.1 z.2).isSome = true) ∧
     (9 ∈ [5, 6, 7, 8, 9]) ∧
     (∀ sparse wb : Bool, let w : MCmd := { m (.mma sparse 9 9 wb 10 0 0 0 0 0) with running := true, last := 100 }
       (queued [w] []).runPoison 0 ((queued [w] []).anyTeam 1 |>.getD fetchTeam) w = false ∧ ((queued [w] []).anyTeam 1).isSome = true) ∧
     (let one : Term := (Fmt.f32.decode 0x3F800000, false)
      one.2 = false ∧ one.1.finite) ∧
     ((queued [y] []).core 0).mq.find? (·.ran) = some y ∧ (queued [y] []).jobs = [] ∧ (raftOf false (queued [y] [])).tm.ending = false) := by
  refine ⟨ready_of rfl rfl, ready_of rfl rfl, ready_of rfl rfl, by decide, rfl, rfl, rfl, rfl,
    by decide, by decide, fun on => ?_, rfl, by decide, ⟨rfl, rfl⟩, ⟨rfl, rfl⟩,
    ⟨rfl, rfl⟩, ⟨rfl, rfl⟩, ⟨rfl, rfl⟩, by decide, by decide, by decide +kernel, ⟨rfl, trivial⟩, rfl, rfl, rfl⟩
  cases on <;> exact ⟨ready_of rfl rfl, by decide +kernel, rfl⟩

/-- A collection of one block and one element (key 5) at 0x200040, its index at 0x200000 and its pool at 0x200100; v10 holds key 5 and
v12 key 6. -/
def held : Coll :=
  { cluster := 0, ident := 3, cellexp := 0, q := 0, pw := 0, sen := false, nblk := 2, nextUid := 1, image := natLe 16 1, index := natLe 16 7,
    chain := [{ blk := 0, hstep := 1, elems := [{ key := 5, off := 0, serial := 0, uid := 0, stamp := 1, rel := false, pay := [] }] }] }
def gathered : State :=
  let keys (th : Thread) : Thread := ((th.setReg 10 5 tKEY).setReg 12 6 tKEY).setReg 1 0x100 tU32
  let desc : List Byte := natLe 8 0x200000 ++ natLe 8 0x200100 ++ natLe 4 2 ++ natLe 4 0 ++ natLe 8 1 ++ natLe 8 1 ++ natLe 8 1 ++ natLe 16 1
  let s : State := ((((data 0).updThread 2 keys).putHome 0x200040 desc).putHome 0x200000 held.index).putHome 0x200100
    (held.chain.flatMap fun b => held.encode b endOfChain)
  let z : Cursor := { gen := 1, thread := 2, va := 0x200040, coll := 0x200040, ident := 3, settled := false, lo := 5, hi := 6 }
  { s.updCluster 0 fun k => { k with cursors := [(0, z)] } with colls := [(0x200040, held)], tlb2 := s.tlb1 }

/-- Each instruction may issue to an idle Sawyer, and each lane operation meets its conditions
(a commit without a cause is a pair of a state and none). -/
theorem witness_collections :
    let c := raftOf false gathered
    let l := c.counted.elected
    canIssue { vr := regsFrom 10 3, ar := [1] } gathered ∧ canIssue { vr := regsFrom 10 6, ar := [1] } gathered ∧
    canIssue { vr := regsFrom 10 4, ar := [1] } gathered ∧ canIssue { srcs := [.v 1] } gathered ∧ canIssue { ar := [1], once := true } gathered ∧
    (gathered.cluster 0).sawyerQ = [] ∧ payBusy 10 1 (gathered.counted c) c.counted = false ∧
    l.key 10 = 5 ∧ l.key 12 = 6 ∧ mfind 0x200040 gathered.colls = some held ∧ held.image.all (· == 0) = false ∧
    (held.select 5 0).isSome = true ∧ held.select 6 0 = none ∧ gathered.cursorOf 0 2 0x100 ≠ none ∧
    ((gathered.cluster 0).cursors.map (·.1)).contains 1 = false ∧
    gathered.staleCursor { gen := 1, thread := 2, va := 0x200040, coll := 0x200040, ident := 3, settled := false, lo := 5, hi := 6 } = false ∧
    gathered.staleCursor { gen := 1, thread := 2, va := 0x200040, coll := 0x200040, ident := 2, settled := false, lo := 5, hi := 6 } = true ∧
    (∃ f, gathered.desc (c.counted.saw l) 0x900000 true = .error f) ∧
    ∃ q, gathered.desc (c.counted.saw l) (c.tm.areg 1) = .ok q ∧ gathered.desc (c.counted.saw l) (c.tm.areg 1) true = .ok q ∧ q.pa = 0x200040 ∧ q.own = held.image ∧
      [held.cellexp, held.q, held.pw, held.nblk] = [q.cellexp, q.q, q.pw, q.nblk] ∧ held.sen = q.sen ∧ (q.step + 1) % 65536 ≠ 0 ∧ q.serial ≠ 0 ∧ q.own.all (· == 0) = false ∧
      (let done (lo hi : Nat) (y : Change) : Prop := (gathered.commit (c.counted.saw l) q held false lo hi y id).2 = none
       let y : Elem := { key := 5, off := 0, serial := 0, uid := 1, stamp := 1, rel := false, pay := [] }
       let ch := held.insert 1 0 [0] y held.chain
       done 5 6 (held.same q) ∧ done 1 0 (held.same q) ∧ done 1 0 { held.same q with step := q.step + 1, writes := true } ∧
         done 5 5 { held.same q with chain := [], count := 0, writes := true } ∧ ch.isSome = true ∧
         done 5 5 { chain := ch.getD [], nextUid := 2, step := 1, serial := 1, count := 2 } ∧
         (let mv : Elem := { y with key := 6, uid := 1, rel := true }
          let ch := held.insert 1 0 [] mv []
          ch.isSome = true ∧ done 5 6 { held.same q with chain := ch.getD [], nextUid := 2, writes := true })) := by
  refine ⟨ready_of rfl rfl, ready_of rfl rfl, ready_of rfl rfl, ready_of rfl rfl, ready_of rfl rfl, rfl, by decide +kernel, by decide +kernel,
    by decide +kernel, rfl, rfl, rfl, rfl, by decide +kernel, rfl, by decide +kernel, by decide +kernel, ok_err (by decide +kernel), ok_sat ?_⟩
  decide +kernel

/-- The Sawyer's queue with a raft that is gone, one that waits, a rewrite (whose blocks take it, whose page is gone, and of which no link
reaches a block), and nothing. -/
theorem witness_sawyer_queue :
    let s (q : List SawyerOp) : State := gathered.updCluster 0 fun k => { k with sawyerQ := q }
    let waits : State := (s [.arrived 0 0]).setPipe 0 0 { (s []).pipe 0 0 with fixed := true }
    ((s [.arrived 0 1]).cluster 0).sawyerQ = [.arrived 0 1] ∧ ((s []).pipe 0 1).raft = none ∧ (waits.pipe 0 0).fixed = true ∧
    (waits.pipe 0 0).raft ≠ none ∧ ((s [.rewrite 0x200040 0 false]).cluster 0).sawyerQ = [.rewrite 0x200040 0 false] ∧
    (mfind 0x200040 (s []).colls).isSome = true ∧ mfind 0x200080 (s []).colls = none ∧ ((s []).cluster 0).sawyerQ = [] ∧
    (let u : SawWho := { cluster := 0, asid := 0, sup := false }
     let page (s : State) (b : Drift) : Except Fail GAcc := s.sawAt u (s.homeNat (0x200040 + 8) 8 + 256 * b.blk) true
     let gone : State := (s []).putHome 0x200048 (natLe 8 0x900000)
     let far : State := parted ((s []).putHome 0x200048 (natLe 8 0x400000))
     let fails (s : State) (remote : Bool) : Bool := held.chain.all fun b => match page s b with
       | .error f => f.remote == remote
       | .ok _ => false
     (∀ b ∈ held.chain, (page (s []) b).isOk = true) ∧ fails gone false = true ∧ fails far true = true ∧
       mfind 0x200040 far.colls = some held) := by
  refine ⟨rfl, rfl, rfl, ?_, rfl, rfl, rfl, rfl, ?_⟩ <;> decide +kernel

/-- A scene at 0x200200 with one subtree, whose image of 64 bytes stands at 0x200300 (a1 and a2 name a slot at 0x200400 and the scene);
the slot holds a ray from the origin along x, PMASK 1, K 1, and LAST in its hit record. -/
def traced (th : Thread → Thread) : State :=
  let sc : List Byte := natLe 8 0x200280 ++ natLe 4 1 ++ natLe 4 0 ++ natLe 8 0x200800 ++ natLe 4 16
  let ray : List Byte := List.replicate 0x10 0 ++ natLe 4 0x3F800000 ++ natLe 8 0 ++ natLe 4 0x7F800000 ++ natLe 4 0x101
  let s : State := (seed th fun t => (t.setA 1 0x200400).setA 2 0x200200)
  let s : State := ((((paged 0 s).putHome 0x200200 sc).putHome 0x200280 (natLe 8 0x200300 ++ natLe 4 64)).putHome 0x200400 ray).putHome 0x200440 (natLe 4 0x10000)
  { s with tlb2 := s.tlb1 }

/-- The same scene, its table in the page that no link reaches. -/
def partedScene (s : State) : State := parted (s.putHome 0x200200 (natLe 8 0x400280))

/-- Whether the trial start of the round on the slot at 0x200400 with the scene at 0x200200 finds no link; none where a check fails. -/
def trialCut (s : State) (f : State → Ctx → GAcc → GAcc → Scene → State) : Option Bool :=
  let c := raftOf false s
  let s0 := s.counted c
  match s0.slotSpot c.counted.who 0 false 0x200400 0x200400, s0.sceneSpot c.counted.who 0 false 0x200200 with
  | .ok g, .ok sg => match s0.sceneRead 0 sg 0x200200 with
    | .ok sc => some (s0.startCut c.counted (f s0 c.counted g sg sc))
    | .error _ => none
  | _, _ => none

/-- The trial of `tray` that takes ticket 0, and of `tnext` on the ticket `x`. -/
def trayTrial (s : State) : Option Bool := trialCut s fun s0 k g sg sc =>
  (((s0.takeTickets 0 1 []).1.clearCut 0).touch k.who sg.tlb false).openTicket k k.elected 0 g 0x200400 0x200200 sc 8
def tnextTrial (x : Ticket) (s : State) : Option Bool := trialCut s fun s0 k g sg sc =>
  (s0.clearCut 0).nextRound k { idx := 0, t := x, ray := s0.readAt 0 g.loc 64, sc := sc, slot := g, desc := sg }

/-- `tray` at a free ticket; a finished round of ticket 0 for `tnext`, whose hit record has LAST set or not, `twait`, `tres`; a running one
for `twait`, and one in the pass. -/
theorem witness_rays :
    let s := traced id
    let c := raftOf false s
    let t0 : Ticket := { gen := 1, team := 1, asid := 0, sup := false, slot := 0x200400, slotPa := 0x200400, scene := 0x200200, active := false }
    let waits (t0 : Ticket) : State := (traced fun th => th.setReg 1 0x1000 tU32).updCluster 0 fun k => { k with tickets := [(0, t0)] }
    let more : State := (waits t0).putHome 0x200440 (natLe 4 0)
    let cf := raftOf false (waits t0)
    let named (s : State) (x : Ticket) : Prop := s.ticketOf 0 1 (src32 .int cf.tm cf.counted.elected (.v 1)).w = some (0, x)
    let slot (s : State) : Prop := ∃ g, (s.counted (raftOf false s)).slotSpot (raftOf false s).who 0 false 0x200400 0x200400 = .ok g ∧
      (s.slotFault 0 g 0x200400 = none ∧ s.slotWait (raftOf false s).counted g 0x200400 = false ∧ s.slotBusy 0 g.loc.pa = false)
    let scene (s : State) : Prop := ∃ g, (s.counted (raftOf false s)).sceneSpot (raftOf false s).who 0 false 0x200200 = .ok g ∧
      (s.sceneWait (raftOf false s).counted g 0x200200 = false ∧ (s.sceneRead 0 g 0x200200).map (·.root) = .ok 0)
    let last (s : State) : Bool := (s.slotWord 0 t0 0x40).getLsbD 16
    (∃ l, c.lns = [l]) ∧
    (canIssue { srcs := [.c 0], ar := [1, 2] } s ∧ scene s ∧ slot s ∧ s.entries 0 < 256 ∧ c.pr.tickets = [] ∧
      lowestFree (s.usedTickets 0) 0 4096 < 4096 ∧ (s.cluster 0).skHeld = [] ∧ (s.cluster 0).subqs = []) ∧
    (s.relWait (some .cluster) c.tids = false ∧ (merging s).relWait (some .cluster) c.tids = true ∧
      canIssue { srcs := [.c 0], ar := [1, 2] } (merging s) ∧ scene (merging s)) ∧
    (trayTrial s = some false ∧ canIssue { srcs := [.c 0], ar := [1, 2] } (partedScene s) ∧ scene (partedScene s) ∧ slot (partedScene s) ∧
      trayTrial (partedScene s) = some true ∧ tnextTrial t0 (waits t0) = some false ∧ tnextTrial t0 more = some false ∧
      canIssue { srcs := [.v 1] } (partedScene more) ∧ named (partedScene more) t0 ∧ scene (partedScene more) ∧ slot (partedScene more) ∧
      tnextTrial t0 (partedScene more) = some true) ∧
    (canIssue { srcs := [.v 1] } (waits t0) ∧ canIssue { srcs := [.v 1], noInj := true } (waits t0) ∧ named (waits t0) t0 ∧
      ((waits t0).cluster 0).inPass 0 = false ∧ slot (waits t0) ∧ scene (waits t0) ∧ last (waits t0) = true ∧
      ((waits t0).ticketResult 0 1 0x1000).isSome = true) ∧
    (named more t0 ∧ slot more ∧ scene more ∧ last more = false) ∧
    (let t1 : Ticket := { t0 with active := true }
     let p : Pass := { asid := 0, sup := false, scene := 0x200200, sub := 0, lease := some 0, started := true, rays := [(0, none)] }
     named (waits t1) t1 ∧ (waits t1).ticketResult 0 1 0x1000 = none ∧ ({ (waits t1).cluster 0 with pass := some p }).inPass 0 = true) := by
  refine ⟨⟨_, rfl⟩, ⟨ready_of rfl rfl, ok_sat ?_, ok_sat ?_, ?_, rfl, ?_, rfl, rfl⟩, ⟨rfl, rfl, ready_of rfl rfl, ok_sat ?_⟩,
    ⟨?_, ready_of rfl rfl, ok_sat ?_, ok_sat ?_, ?_, ?_, ?_, ready_of rfl rfl, ?_, ok_sat ?_, ok_sat ?_, ?_⟩,
    ⟨ready_of rfl rfl, ready_of rfl rfl, ?_, rfl, ok_sat ?_, ok_sat ?_, ?_, ?_⟩, ⟨?_, ok_sat ?_, ok_sat ?_, ?_⟩, ?_⟩ <;> decide +kernel

/-- A queue with a ray that may be chosen, a pass whose tiles are granted, and one that has no ray left. -/
theorem witness_passes :
    let t : Ticket := { gen := 1, team := 1, asid := 0, sup := false, slot := 0x200400, slotPa := 0x200400, scene := 0x200200 }
    let q : SubQ := { asid := 0, scene := 0x200200, sub := 0, head := true, rays := [{ ticket := 0, since := 0, starts := 0 }] }
    let p : Pass := { asid := 0, sup := false, scene := 0x200200, sub := 0, lease := some 0 }
    let s (qs : List SubQ) (p : Option Pass) : State := (traced id).updCluster 0 fun k => { k with tickets := [(0, t)], subqs := qs, pass := p }
    (s [q] none).chooseQ 0 = some q ∧
    (∃ x, (s [q] none).imageOf 0 { p with lease := none } = .ok x ∧ x.2.2.2 = 64) ∧
    (((s [q] (some p)).cluster 0).pass = some p ∧ p.started = false ∧ p.ended = false ∧ p.lease ≠ none) ∧
    (let e : Pass := { p with started := true }
     ((s [] (some e)).cluster 0).pass = some e ∧ e.fails = [] ∧ e.rec_ = none ∧ ((s [] (some e)).cluster 0).subqs = [] ∧
       (s [] (some e)).saved = []) ∧
    (((s [q] (some p)).beginPass 0 p).cluster 0).passCut = false ∧
    (let far : State := partedScene (s [q] (some p))
     (far.cluster 0).pass = some p ∧ ((far.beginPass 0 p).cluster 0).passCut = true ∧ mfind (Waiter.passStart 0).key far.waits = none) ∧
    ∀ x ∈ (s [] none).teams, x.2.preempt = none := by
  refine ⟨by decide +kernel, ok_sat (by decide +kernel), by decide +kernel, by decide +kernel, by decide +kernel, by decide +kernel, by decide +kernel⟩

/-- `rast` may issue; a walk may start anywhere in its grid, the end included; a coordinate that cannot be snapped; a triangle of
more than two samples from its first position and past its end, for two lanes and for 32; one of no area. -/
theorem witness_raster :
    let t : Tri := { x := [0, 4096, 0], y := [0, 0, 4096], z := [0, 0, 0] }
    let one := 0x3F800000
    let two := 0x40000000
    let four := 0x40800000
    let snaps (vs : List Nat) : Bool := [0, 1, 3, 4, 6, 7].all fun k => (snap (vs.getD k 0)).isSome
    let tri (vs : List Nat) : Tri :=
      let c (k : Nat) : Int := (snap (vs.getD k 0)).getD 0
      { x := [c 0, c 3, c 6], y := [c 1, c 4, c 7], z := [0, 0, 0] }
    let good : List Nat := [0, 0, 0, four, 0, 0, 0, four, 0]
    let left : Nat := ((List.range (tri good).grid.size).filter fun l => (tri good).covers ((tri good).grid.pixel l).1 ((tri good).grid.pixel l).2).length
    canIssue { sr := (List.range 10).map (0 + ·) } plain ∧ 0 ≤ t.grid.size ∧ t.grid.size ≤ t.grid.size ∧
    snap 0x7F800000 = none ∧ snaps good = true ∧ (tri good).area ≠ 0 ∧ 1 - 1 < (tri good).grid.size ∧ (tri good).grid.size ≤ 100 - 1 ∧
    (2 < left ∧ left ≤ 32) ∧ (let flat := [0, 0, 0, one, 0, 0, two, 0, 0]; snaps flat = true ∧ (tri flat).area = 0) := by
  refine ⟨ready_of rfl rfl, Nat.zero_le _, Nat.le_refl _, ?_, ?_, ?_, ?_, ?_, ?_, ?_⟩ <;> decide +kernel

/-- The thread waiting in a place, no raft formed, at cycle 100. -/
def waiting (p : Place) (f : Thread → Thread) : State :=
  let s : State := (seed (fun th => { f th with place := p }) id).setPipe 0 0 {}
  { s with now := 100 }

/-- A deck not aged at its limit, one aged and chosen, a raft past its limit while another deck is aged, threads whose wait is met, a
thread awaiting a load, an idle core, and one that is gated with work. -/
theorem witness_scheduling :
    let b (n : Nat) : Bin := { team := 1, slot := 0, age := 64, pc := 0x100000, inj := false, spilled := false, mem := [(n, 0, 2)] }
    let past : State :=
      let s := pair plain
      let s := (s.updThread 3 fun th => { th with place := .deck 0 }).setPipe 0 0
        { raft := some { team := 1, pc := 0x100000, lanes := [(0, 2)] }, ready := 100, start := some 84 }
      { s with now := 100 }
    let met (w : Wake) (ok : Bool) : State := waiting (.blocked w ok) id
    let is (w : Wake) (ok : Bool) : Prop := ((met w ok).thread 2).map (·.place) = some (.blocked w ok) ∧ ((met w ok).team 1).isSome = true
    let far (op : RemoteOp) : Wake := .remote op 0x200040 0x200040 0 0 2
    let ops : List RemoteOp := [.load .i32 4, .atom .add 1 0 4, .ldu .i32 4]
    (waiting (.deck 36) id).bins 0 = [b 36] ∧ (100 : Nat) ≤ (b 36).oldest + (b 36).age ∧
    (waiting (.deck 35) id).chooseBin 0 0 = some (b 35) ∧ (waiting (.deck 35) id).needsRaft 0 0 = true ∧
    (waiting (.deck 35) id).lowerFirst 0 0 = false ∧
    (past.ctx false).isSome = true ∧ past.forcedDue 0 0 = true ∧
    is (.bar { space := .glob, a := 0x200040 } true) true ∧ is (.ticket 0x1000 4) true ∧ is (.tags true 1) true ∧
    (∀ op ∈ ops, is (far op) false ∧ (met (far op) false).remoteGroup 2 = [(0, 2, op)] ∧ (met (far op) false).cutPa 0x200040 = false ∧
      hasPsn 32 0x200040 op.size (met (far op) false).psnMem = false) ∧
    is (.bar { space := .glob, a := 0x200040 } true) false ∧
    (∃ th, (waiting .raft fun th => { th with busyV := [4] }).thread 2 = some th ∧ th.busyV ≠ []) ∧
    (let s (g : Bool) (p : Place) : State := (waiting p id).updCore 0 fun k => { k with gated := g }
     let idle : State := (s false .parked).updCore 0 fun k => { k with idle := true }
     (idle.core 0).gated = false ∧ (idle.core 0).idle = true ∧ idle.asleep 0 = true ∧
       ((s true (.deck 0)).core 0).gated = true ∧ (s true (.deck 0)).asleep 0 = false) := by
  refine ⟨rfl, by decide, rfl, rfl, rfl, rfl, rfl, ⟨rfl, rfl⟩, ⟨rfl, rfl⟩, ⟨rfl, rfl⟩, by decide +kernel, ⟨rfl, rfl⟩,
    ⟨_, rfl, by decide⟩, rfl, rfl, by decide +kernel, rfl, by decide +kernel⟩

/-- Writes in flight, a replicated store, links up, sites of errors, a poisoned granule not yet found by the scrub; the host link down. -/
theorem witness_memory_events :
    let l : Lag := { src := 1, dst := 0, stamp := [0, 1, 0, 0], cells := [(0x200040, 7)] }
    let r : Repl := { page := 0x200, addr := 0x200040, bytes := [7] }
    let free : State := { data 1 with psnMem := [3] }
    let s : State := { data 1 with lag := [l], repl := [r], psnMem := [3] }
    let down : State := { s with hub := { s.hub with cxlUp := false } }
    s.firstLag 0 s.lag = some (l, []) ∧ plain.lag = [] ∧ s.repl[0]? = some r ∧ s.hub.contribs = [] ∧ s.hub.cxlUp = true ∧
    0x200040 + 8 ≤ 2 ^ 52 ∧ s.linkUp = true ∧ (Config.hbmBytes - 16 + 16 ≤ Config.hbmBytes ∧ free.linkUp = true ∧
      free.pageLocked (Config.hbmBytes - 16) = false ∧ free.pageLocked (Config.hbmBytes - 16 + 16 - 1) = false) ∧
    (Config.hbmBytes - 16) % 16 = 0 ∧ hasPsn 32 (Config.hbmBytes - 16) 8 free.psnMem = false ∧ down.hub.cxlUp = false ∧
    s.siteOk (.mem (Config.hbmBytes / 32 - 1)) = true ∧ ({ s with llc := [(3, [1])] } : State).siteOk (.llc 15) = true ∧
    ({ s with l1 := [(0, [(0, 0)])] } : State).siteOk (.l1 0 7) = true ∧
    (s.thread 2).isSome = true ∧ plain.psnMem = [] ∧ s.psnMem.find? (fun g => !s.hub.scrubbed.contains g && decide (32 * g < Config.hbmBytes)) = some 3 := by
  refine ⟨rfl, rfl, rfl, rfl, rfl, by decide, rfl, ⟨by decide, rfl, by decide, by decide⟩, by decide, by decide, rfl, by decide, by decide, by decide, rfl,
    rfl, rfl⟩

/-- A record of 64 bytes and a message of 16 bytes waiting at slice 0, its rings at 0x400000 and 0x500000; full where `n` entries of a
ring of 16 stand in it. -/
def ringed (n : Nat) (fq : List (List Byte)) (mq : List (Nat × List Byte)) : State :=
  let s : State := plain.updSlice 0 fun x => { x with
    fq := true, fqRing := 0x400000, fqCtl := 0x401000, fqLog2 := 4, fqWait := fq, mqBase := 0x500000, mqCtl := 0x501000, mqLog2 := 4, mqWait := mq }
  (s.putHomeNat 0x401004 4 n).putHomeNat 0x501004 4 n

/-- The thread parked in the deck of SEQ 5. -/
def refused : State :=
  let p : Parked := { seq := 5, rec_ := { kind := 0, cause := 0x10, pc := 0x100000, addr := 0x200040 } }
  let s := seed (fun th => { th with place := .parked }) fun t => { t.setCsr cTRAPV 0x200001 with parkedQ := [p] }
  s.setPipe 0 0 {}

/-- Records and messages with room and without; the three replies to a parked deck, and a reply with a reserved bit; what the links have
not delivered, locally reduced and not, and a thread that waits at an address cut off. -/
theorem witness_fault_events :
    let r : List Byte := List.replicate 64 1
    let m : List Byte := List.replicate 16 1
    let w (v : Nat) : BitVec 64 := BitVec.ofNat 64 (5 + 0x10 * 2 ^ 48 + v * 2 ^ 56)
    let p : Posted := { pa := 2 ^ 52, va := 0x200040, issued := 0, team := 1, slice := 0, bytes := [1, 2, 3, 4] }
    let c (pa : Nat) : Contrib := { pa := pa, op := .add, b := 1, issued := 0, va := 0x200040, slice := 0 }
    let sent : State := { plain with posted := [p], hub := { plain.hub with contribs := [c 0x40, c (2 ^ 52)] } }
    let off := unlinked
    let op : RemoteOp := .load .i32 4
    let cut (sup : Bool) : State :=
      off (seed (fun th => { th with sup := sup, place := .blocked (.remote op (2 ^ 52) 0x200040 0 0 2) false }) id)
    (((ringed 15 [r] []).slice 0).fqWait = [r] ∧ r.length = 64 ∧ ((ringed 15 [r] []).slice 0).fq = true ∧
      (ringed 15 [r] []).ringFull 0x401000 4 = false ∧ (∀ x ∈ (ringed 15 [r] []).pipes, x.2.hold = none) ∧ (plain.slice 0).fqWait = []) ∧
    (((ringed 16 [] [(3, m)]).slice 0).mqWait = [(3, m)] ∧ (ringed 16 [] [(3, m)]).msgFull 0 = true ∧ (ringed 15 [] [(3, m)]).msgFull 0 = false) ∧
    (refused.hub.cxlUp = true ∧ (∀ v, v < 3 → replyOk (w v) = true ∧ ((w v).extractLsb' 56 2).toNat = v) ∧ replyOk (w 4) = false ∧
      (∃ x, refused.parkedOf 0 5 = some x ∧ x.1 = 1 ∧ x.2.2.pc = 0x100000) ∧ (∀ t, refused.team 1 = some t → refused.deckEvicted 1 t 0x100000 = false) ∧
      refused.parkedAt 1 0x100000 = [2] ∧ (∃ t, refused.team 1 = some t ∧ (t.csrv cTRAPV).extractLsb' 1 56 ≠ 0 ∧ t.inService = false)) ∧
    (sent.posted[0]? = some p ∧ p.reported = false ∧ sent.hub.contribs[0]? = some (c 0x40) ∧ sent.hub.contribs[1]? = some (c (2 ^ 52)) ∧
      (c 0x40).reported = false ∧ sent.linkUp = true ∧ sent.lockedAt (.mem 0x40 3) = false ∧ (off sent).linkUp = false ∧
      sent.hub.contribs.filter (fun x => x.pa == 0x40) = [c 0x40]) ∧
    (∀ sup, ((cut sup).thread 2).map (·.place) = some (.blocked (.remote op (2 ^ 52) 0x200040 0 0 2) false) ∧
      (cut sup).remoteGroup 2 = [(0, 2, op)] ∧ ((cut sup).slice 0).fqWait.length < 16 ∧ ((cut sup).thread 2).map (·.sup) = some sup ∧
      ((cut sup).team 1).isSome = true) := by
  refine ⟨⟨rfl, rfl, rfl, by decide +kernel, by decide +kernel, rfl⟩, ⟨rfl, by decide +kernel, by decide +kernel⟩,
    ⟨rfl, by decide, by decide, ⟨_, rfl, rfl, rfl⟩, fun t h => ?_, rfl, ⟨_, rfl, by decide, rfl⟩⟩,
    ⟨rfl, rfl, rfl, rfl, rfl, rfl, by decide +kernel, by decide +kernel, by decide +kernel⟩, ?_⟩
  · cases h; rfl
  · decide +kernel

/-- The first GiB of ASID 0's space, by a page of the tables at 0, in another package that no link reaches. -/
def farRoot (s : State) : State :=
  unlinked { (s.putHome 0 (natLe 8 0x1001)).putHome 0x1000 (natLe 8 (0xC19 + 2 ^ 46)) with hub := { s.hub with asids := [(0, 0)], npkg := 2 } }

/-- Slice 0 with ASID 0, a queue table at 0x600000 whose queue 0 has three tickets and one record, and a launch of two one-thread teams
from it; no team has been admitted. -/
def drawing (hdr : List Byte) : State :=
  let s : State := State.reset.updSlice 0 fun x => { x with created := true, asids := [0], qtable := 0x600000, x := 1, mayDraw := true }
  let s := s.putHome 0x600000 (natLe 8 0x700000 ++ natLe 4 0 ++ natLe 4 0x304 ++ natLe 4 1 ++ natLe 4 0)
  { s with
    fresh := 9, hub := { s.hub with mcores := [(0, { running := true })], asids := [(0, 0)] }
    launches := [(7, { slice := 0, queue := 0, asid := 0, store := false, addr := 0x700000, hdr := hdr, regs := [], place := [], teams := 2 })] }

/-- A draw that starts and one in progress; a launch whose next team fits, pins tiles, or does not fit; a record that passes its checks (its
header and places in a page of 1 GiB) and one that fails them. -/
theorem witness_lottery :
    let s := drawing (List.replicate 128 0)
    let big := drawing (List.replicate 0x30 0 ++ natLe 4 0x80000 ++ List.replicate 76 0)
    let set := [(0, 3)]
    let on : State := s.updSlice 0 fun x => { x with draw := some set, drawn := [0] }
    let pin : List Byte := List.replicate 0x34 0 ++ [5] ++ List.replicate 75 0
    let hdr : List Byte := [0, 0, 1, 0] ++ List.replicate 0x24 0 ++ natLe 8 (2 ^ 48) ++ List.replicate 80 0
    let new : State := { (((drawing []).putHome 0 (natLe 8 0x1001)).putHome 0x1000 (natLe 8 9)).putHome 0x700000 hdr with launches := [] }
    let bare : State := { drawing [] with launches := [] }
    let cut : State := farRoot bare
    let record (s : State) : Except Fail (State × Launch) :=
      (s.updSlice 0 fun y => { y with x := xorshift (s.slice 0).x, draw := some set, drawn := [0] }).checkRecord 0 0 0 false 0x700000 none
    let won (s : State) : State := s.updSlice 0 fun y => { y with winner := some 0, draw := some set }
    let fails (s : State) (remote : Bool) : Prop := s.drawStarts 0 = some set ∧ s.nextRecord 0 0 = some (false, 0x700000, none) ∧
      ∃ f, record s = .error f ∧ f.remote = remote
    (on.slice 0).draw = some set ∧ on.nextRecord 0 0 = some (false, 0x700000, none) ∧
    (mfind 7 (drawing pin).launches).map (fun l => (((drawing pin).placeTeam l).isSome, hdrPin l.hdr)) = some (true, 5) ∧
    (new.drawStarts 0 = some set ∧ new.nextRecord 0 0 = some (false, 0x700000, none) ∧ hdr.length = 128 ∧ (match record new with
      | .ok (s2, l) => (s2.placeTeam l).isSome
      | .error _ => false) = true) ∧
    (bare.drawStarts 0 = some set ∧ bare.nextRecord 0 0 = some (false, 0x700000, none) ∧ (record bare).isOk = false ∧
      (bare.slice 0).fqWait.length < 16 ∧ bare.physCut (bare.slice 0).qtable = false) ∧
    (fails bare false ∧ fails cut true ∧ mfind (Waiter.draw 0).key cut.waits = none ∧ cut.physCut (cut.slice 0).qtable = false ∧
      fails { cut with waits := [((Waiter.draw 0).key, 0)], now := 80000 } true) ∧
    (((won bare).slice 0).winner = some 0 ∧ (won bare).nextRecord 0 0 = some (false, 0x700000, none) ∧ (won bare).launches = [] ∧
      ((won bare).checkRecord 0 0 ((won bare).qEntry 0 0).asid false 0x700000 none).isOk = false) ∧
    (s.slice 0).created = true ∧ s.schedulerRuns = true ∧ (∀ j, j < 64 → (s.qEntry 0 j).full = false) ∧ (s.slice 0).winner = none ∧
    (s.slice 0).draw = none ∧ s.drawStarts 0 = some set ∧ pickQueue ((xorshift (s.slice 0).x).toNat % totalTickets set) set = 0 ∧
    s.nextRecord 0 0 = some (false, 0x700000, none) ∧ (mfind 7 s.launches).map (fun l => ((s.placeTeam l).isSome, hdrPin l.hdr)) = some (true, 0) ∧
    big.drawStarts 0 = some set ∧ (mfind 7 big.launches).map (fun l => big.placeTeam l) = some none ∧ 2 < totalTickets set := by
  refine ⟨rfl, by decide +kernel, by decide +kernel, by decide +kernel, by decide +kernel,
    ⟨⟨by decide +kernel, by decide +kernel, err_sat (by decide +kernel)⟩, ⟨by decide +kernel, by decide +kernel, err_sat (by decide +kernel)⟩, rfl, rfl,
      by decide +kernel, by decide +kernel, err_sat (by decide +kernel)⟩,
    ⟨rfl, by decide +kernel, rfl, by decide +kernel⟩, rfl, rfl, by decide +kernel, rfl, rfl, by decide +kernel,
    by decide +kernel, by decide +kernel, by decide +kernel, by decide +kernel, by decide +kernel, by decide⟩

/-- The thread in a place, its team changed, the ASID's context slots at 0x10000000. -/
def teamed (p : Place) (g : Team → Team) : State :=
  let s : State := (seed (fun th => { th with place := p }) g).setPipe 0 0 {}
  { s with hub := { s.hub with ctx := [(0, 0x10000000)] } }

theorem keyed_of {s : State} (a : msorted 0 s.threads = true) (b : msorted 0 s.teams = true)
    (c : s.threads.all (fun x => decide (x.1 < s.fresh)) = true)
    (d : s.saved.all (fun x => x.2.threads.all fun y => decide (y.1 < s.fresh)) = true) : s.Keyed :=
  ⟨a, b, by simpa using c, by simpa using d⟩

/-- A pre-empted team with a thread to evict, one whose threads are all evicted, one whose save has begun; a saved team that fits; a save
past its time; an ending team that nothing holds. -/
theorem witness_teams :
    let pre (p : Place) (at_ : Option Nat) : State := teamed p fun t => { t with preempt := some 9, saveAt := at_ }
    let due (s : State) : Prop := s.Keyed ∧ (∃ x, s.team 1 = some x ∧ x.preempt.isSome = true ∧ x.ending = false ∧ s.slotGone x = false ∧
      s.spadBusy 1 x = false ∧ s.lentOut 1 x = false ∧ s.naming x [6] = [] ∧ x.spadN ≤ 64) ∧ s.ctxSlot 0 0 0 = some 0x10000000
    let tm : Team := { fetchTeam with preempt := some 9 }
    let y : Saved := { team := tm, id := 1, threads := [(2, { team := 1, tnum := 0, pc := 0x100000, place := .evicted none })], restoring := [9] }
    let back : State := { teamed .parked id with threads := [], teams := [], saved := [(0, y)] }
    let torn : State := { back with psnMem := [(0x10000000 + 0x40000) / 32] }
    let gone : State := { back with saved := [(0, { y with restoring := [], discard := [9] })] }
    let rounds : State := (teamed .parked fun t => { t with ending := true }).updCluster 0 fun k => { k with
      tickets := [(0, { gen := 1, team := 1, asid := 0, sup := false, slot := 0x200400, slotPa := 0x200400, scene := 0x200200 })] }
    (torn.restoreFails y = some 0x60 ∧ torn.Keyed ∧ torn.ownersBack 1 tm = true ∧ (torn.refit 0 y).isSome = true) ∧
    (back.team 1 = none ∧ back.saved.find? (fun x => x.2.id == 1) = some (0, y)) ∧
    (gone.team 1 = none ∧ (gone.saved.find? fun x => x.2.id == 1 && !x.2.discard.isEmpty).isSome = true ∧ gone.teamQuiet 1 tm = true) ∧
    (∃ x, rounds.team 1 = some x ∧ x.ending = true ∧ (rounds.cluster 0).tickets.any (fun y => y.2.team == 1 && !y.2.withdrawn) = true) ∧
    due (pre .parked none) ∧ ((pre .parked none).threadsOf 1).any (·.2.evictable) = true ∧
    due (pre (.evicted none) none) ∧ ((pre (.evicted none) none).threadsOf 1).all (·.2.isEvicted) = true ∧ due (pre (.evicted none) (some 0)) ∧
    (back.Keyed ∧ mfind 0 back.saved = some y ∧ back.ownersBack 1 tm = true ∧ (back.refit 0 y).isSome = true ∧ back.restoreFails y = none ∧
      (back.cluster 0).skHeld = [] ∧ y.discard = [] ∧ y.team.verdicts = [] ∧ y.team.heldQ = [] ∧ y.team.inService = false) ∧
    (((pre .parked (some 0)).threadsOf 1).all (fun z => !z.2.isEvicted) = true ∧
      ((pre .parked (some 0)).team 1).map (·.saveAt) = some (some 0)) ∧
    (let s : State := { teamed .parked (fun t => { t with ending := true, launch := 7 }) with
       threads := [], launches := (drawing (List.replicate 128 0)).launches }
     ∃ x, s.team 1 = some x ∧ x.ending = true ∧ s.teamQuiet 1 x = true ∧ s.naming x [6] = [] ∧ s.naming x [8] = [] ∧ x.launch = 7 ∧
       s.doneCut x = false ∧
       (mfind 7 s.launches).map (fun l => (recField l.hdr 0x20 8, decide (l.ended + 1 < l.teams))) = some (0, true)) ∧
    (let tells : List Byte := List.replicate 0x20 0 ++ natLe 8 0x200040 ++ List.replicate 0x58 0
     let told (s : State) : State := farRoot { s with threads := [], launches := (drawing tells).launches }
     let s : State := told (teamed .parked (fun t => { t with ending := true, launch := 7 }))
     let kept : State := told { gone with saved := [(0, { y with team := { tm with launch := 7 }, restoring := [], discard := [9] })] }
     (∃ x, s.team 1 = some x ∧ x.ending = true ∧ s.teamQuiet 1 x = true ∧ s.doneCut x = true ∧ mfind (Waiter.teamEnd 1).key s.waits = none) ∧
     kept.team 1 = none ∧ kept.teamQuiet 1 { tm with launch := 7 } = true ∧ kept.doneCut { tm with launch := 7 } = true ∧
       gone.doneCut tm = false) ∧
    -- Three saved teams, each holding the next one's buffer: one step restores all.
    (let one (k : Nat) : Saved := { y with id := k, team := { tm with slot := k, spad0 := 8 * k, spadN := 1 }, threads := [] }
     let buf (k holder : Nat) : Buf := { core := 0, first := 8 * k, count := 1, gen := 1, orig := k, holder := holder }
     let round : State := { back with saved := [(1, one 1), (2, one 2), (3, one 3)] }.updCluster 0 fun k =>
       { k with bufs := [buf 2 1, buf 3 2, buf 1 3] }
     round.mates 0 1 = [2, 3] ∧ back.mates 0 1 = [] ∧ (match exec (.teamRestore 1) round with
       | .next t => t.saved.isEmpty && [1, 2, 3].all fun k => (t.team k).isSome
       | _ => false) = true ∧ mfind 1 round.saved = some (one 1) ∧ round.Keyed) := by
  refine ⟨⟨by decide +kernel, keyed_of rfl rfl rfl rfl, by decide +kernel, by decide +kernel⟩, ⟨rfl, rfl⟩, ⟨rfl, rfl, by decide +kernel⟩, ⟨_, rfl, rfl, rfl⟩,
    ⟨keyed_of rfl rfl rfl rfl, ⟨_, rfl, rfl, rfl, rfl, rfl, rfl, rfl, by decide⟩, rfl⟩, rfl, ⟨keyed_of rfl rfl rfl rfl, ⟨_, rfl, rfl, rfl, rfl, rfl, rfl, rfl, by decide⟩, rfl⟩, rfl,
    ⟨keyed_of rfl rfl rfl rfl, ⟨_, rfl, rfl, rfl, rfl, rfl, rfl, rfl, by decide⟩, rfl⟩, ⟨keyed_of rfl rfl rfl rfl, rfl, by decide +kernel, by decide +kernel,
    by decide +kernel, rfl, rfl, rfl, rfl, rfl⟩, ⟨rfl, rfl⟩, ⟨_, rfl, rfl, by decide +kernel, rfl, rfl, rfl, rfl, by decide +kernel⟩,
    ⟨⟨_, rfl, rfl, by decide +kernel, by decide +kernel, rfl⟩, rfl, by decide +kernel, by decide +kernel, by decide +kernel⟩,
    by decide +kernel, by decide +kernel, by decide +kernel, by decide +kernel, keyed_of rfl rfl rfl rfl⟩

/-- A pipeline at work, a fence to arrive, a frame to be coded, register writes with the host link up and down; firmware images; an
unassigned encoding. -/
theorem witness_hub_events :
    let run : State := { State.reset with hub := { State.reset.hub with mcores := [(3, { running := true })] } }
    let on : State := run.setHreg 0x2000 1
    let fence : State := run.setDisp 0 { fence := some 0x200040 }
    let frame : State := run.setEnc 15 { todo := some ([], [], false) }
    let down : State := { run with hub := { run.hub with cxlUp := false } }
    ((on.hreg 0x2000).getLsbD 0 = true ∧ on.displayRuns = true ∧ (on.disp 0).fence = none ∧ (on.enc 0).todo = none ∧ (on.enc 1).todo = none) ∧
    (fence.disp 0).fence = some 0x200040 ∧ (frame.enc 15).todo = some ([], [], false) ∧ frame.displayRuns = true ∧
    run.hub.cxlUp = true ∧ run.hub.mail = none ∧ down.hub.cxlUp = false ∧ (mget {} 3 run.hub.mcores).running = true ∧
    (let s1 := on.advance ((on.disp 0).at_ + 800000000 / (on.disp 0).cur.rate)
     s1.anyLocked (s1.entrySpan (on.disp 0).cur) = false ∧ s1.anyCut (s1.entrySpan (on.disp 0).cur) = false) ∧
    (let shown : Frame := { (on.disp 0).cur with width := 64, height := 64, sigt := 0x200000 }
     let far : State := farRoot (on.setDisp 0 { on.disp 0 with cur := shown })
     far.anyLocked (far.entrySpan shown) = false ∧ far.anyCut (far.entrySpan shown) = true ∧ mfind (Waiter.frame 0).key far.waits = none) ∧
    (let waits (s : State) : Bool := s.anyCut (s.hubSpan 0 0x200040 0 16 true)
     waits fence = false ∧ waits (farRoot fence) = true ∧ ((farRoot fence).disp 0).fence = some 0x200040) ∧
    (let x : Map DWord × List Bool × Bool := ([], [], false)
     let k (s : State) : Coding := s.coding 15 (s.enc 15) x
     let cut (s : State) : Bool := s.anyCut ((k s).out ++ (k s).src)
     frame.anyLocked (k frame).out = false ∧ cut frame = false ∧ (farRoot frame).anyLocked (k (farRoot frame)).out = false ∧
       cut (farRoot frame) = true) ∧
    (∃ a b : FwImage, (a.sigValid = true ∧ 2 ≤ a.version) ∧ ¬ (b.sigValid = true ∧ 2 ≤ b.version)) ∧
    (plain.ctx false).isSome = true :=
  ⟨⟨rfl, rfl, rfl, rfl, rfl⟩, rfl, rfl, rfl, rfl, rfl, rfl, rfl, by decide +kernel, by decide +kernel, by decide +kernel, by decide +kernel,
    ⟨{ version := 2, sigValid := true, digest := 7 }, { version := 1, sigValid := true, digest := 7 }, by decide, by decide⟩, rfl⟩

/-- The last port up with eight replays and with seven, with its class 0 bound, down for the whole of its time, and the host link down. -/
theorem witness_link_events :
    let s (p : Port) : State := { plain with hub := { plain.hub with ports := [(17, p)] } }
    let down : State := { s { up := false, downAt := 0 } with now := 8000000 }
    let off : State := { plain with hub := { plain.hub with cxlUp := false } }
    ((s { up := true, replays := 8 }).port 17).up = true ∧ 8 ≤ ((s { up := true, replays := 8 }).port 17).replays ∧
    ((s { up := true, replays := 7 }).port 17).replays < 8 ∧ ((s { up := true, bound0 := true }).port 17).bound0 = true ∧
    ((down.port 17).up = false ∧ (down.port 17).failed = false ∧ down.now ≤ (down.port 17).downAt + 8000000) ∧ plain.hub.cxlUp = true ∧
    off.hub.cxlUp = false :=
  ⟨rfl, by decide, by decide, rfl, ⟨rfl, rfl, by decide⟩, rfl, rfl⟩

/-- A command of the mailbox with its argument and block. -/
def mailed (op arg : Nat) (blk : List Byte) : Mail := { op := op, hdr := 0x800000, arg := arg, blk := blk }

/-- Blocks that keep their tables, and those that do not; a slice with teams and one without; links that train and not. -/
theorem witness_mailbox :
    let idle (m : Mail) : State := { State.reset with hub := { State.reset.hub with mail := some m, mcores := [(0, { running := true })] } }
    let f (m : Mail) (o n : Nat) : Nat := leNat ((m.blk.drop o).take n)
    let slice := mailed 2 0x20 (natLe 8 7 ++ natLe 8 0x600000 ++ natLe 8 0x700000 ++ natLe 8 0x701000 ++ natLe 4 1 ++ natLe 4 12 ++ List.replicate 56 0xFF)
    let ctx := mailed 5 0x20 (natLe 8 0x1FF ++ natLe 8 0x200000 ++ natLe 8 0x1000 ++ natLe 8 0)
    let team := mailed 6 0x10 (List.replicate 0x10 0 ++ [1] ++ List.replicate 159 0)
    let fault := mailed 4 0x20 (natLe 8 0xC07 ++ natLe 8 0x600040 ++ natLe 8 0x700008 ++ natLe 8 0)
    let win := mailed 11 0x20 (natLe 8 0x3F ++ natLe 8 0x10000 ++ natLe 8 0x1000 ++ natLe 8 0)
    let dom := mailed 12 0x20 (natLe 8 0x3F3F ++ natLe 8 0)
    let live : State := { plain with hub := { plain.hub with mail := some team } }
    (idle slice).hub.mail = some slice ∧ slice.status = none ∧
    (f slice 0 8 = 7 ∧ f slice 0x24 4 = 12 ∧ f slice 0x20 4 = 1 ∧ f slice 0x18 8 % 8 = 0 ∧ f slice 0x10 8 % 16 = 0 ∧ f slice 8 8 % 32 = 0) ∧
    (f { slice with blk := natLe 16 1 } 0 16 = 1 ∧ (1 : BitVec 128) &&& ~~~(idle slice).hub.offered = 0 ∧
      (0x100 : BitVec 128) &&& ~~~(idle slice).hub.offered ≠ 0) ∧
    (idle slice).sliceBusy 7 = false ∧ plain.sliceBusy 0 = true ∧ (idle slice).schedulerRuns = true ∧
    (bits (f ctx 0 8) 9 55 = 0 ∧ f ctx 8 8 % 0x200000 = 0 ∧ f ctx 0x10 8 % 0x1000 = 0 ∧ f ctx 0x18 8 = 0) ∧
    (bits (f fault 0 8) 12 52 = 0 ∧ bits (f fault 0 8) 3 5 = 0 ∧ bits (f fault 0 8) 8 4 = 12 ∧ f fault 8 8 % 64 = 0 ∧ f fault 0x10 8 % 8 = 0) ∧
    (∃ b, teamBlk team = some b ∧ b.names = [0] ∧ b.byAsid = false ∧ (live.liveAt b 0).isSome = true) ∧ live.hub.mail = some team ∧
      live.Keyed ∧ live.inTransit .all = false ∧
    ((idle slice).physCut slice.arg = false ∧ (idle slice).physCut slice.hdr = false) ∧
    (bits (f win 0 8) 6 2 = 0 ∧ windowOp (bits (f win 0 8) 8 4) = true ∧ f win 8 8 % 0x1000 = 0 ∧ f win 0x10 8 ≠ 0) ∧
    ({ plain with hub := { plain.hub with didAccept := true, accepted := 0xFF } } : State).feature 2 = true ∧
    (bits (f dom 0 8) 6 2 = 0 ∧ bits (f dom 0 8) 14 50 = 0 ∧ bits (f dom 0 8) 0 6 ≤ bits (f dom 0 8) 8 6 ∧ (idle dom).hub.everSlice = false) := by
  refine ⟨rfl, rfl, by decide, by decide, rfl, by decide +kernel, rfl, by decide, by decide, ?_, rfl, keyed_of rfl rfl rfl rfl, rfl, by decide, by decide,
    by decide⟩
  exact ⟨_, rfl, by decide +kernel, by decide +kernel, by decide +kernel⟩

/-- Fetches of four bytes and of two that decode, of bytes that do not, from an address without translation, from host memory with its link
down, from a poisoned granule and from a page of replicas that a store has locked. -/
theorem witness_step :
    let at_ (s : State) (pc : VAddr) : Except Fail GAcc :=
      s.global (raftOf false s).who (raftOf false s).tm.asid (pc.signExtend 64) pc 1 { fetch := true, sup := (raftOf false s).elected.th.sup } []
    let fetches (s : State) : Prop := s.agenda = [] ∧ (s.ctx false).isSome = true ∧ (raftOf false s).pr.hold = none ∧ s.forcedDue 0 0 = false ∧
      (raftOf false s).pr.ready ≤ s.now
    let w (nbits w : Nat) : State := State.reset.withFetchWord nbits w
    let reads (s : State) (pc : VAddr) (b : List Byte) : Prop :=
      ∃ g, at_ s pc = .ok g ∧ (s.cutOff g.loc = false ∧ s.poisonAt g.loc 2 = false ∧ s.lockedAt g.loc = false ∧ s.readAt 0 g.loc 2 = b)
    let lost : State := { (w 16 0).setPipe 0 0 { raft := some { team := 1, pc := 0x900000, lanes := [(0, 2)] } } with mem := [] }
    let typed (mt : Nat) : State := { w 32 0xD5 with
      tlb1 := mupd 0 (fun l => l.map fun (e : Tlb) => { e with pte := e.pte + BitVec.ofNat 64 (0x400 * mt) }) (w 32 0xD5).tlb1 }
    let cut : State := { typed 2 with hub := { (typed 2).hub with cxlUp := false } }
    let late : State := { cut with now := 80000, pipes := mupd 0 (fun p => { p with cutAt := some 0 }) cut.pipes }
    let bad : State := { w 32 0xD5 with psnMem := [0x100000 / 32] }
    let locked : State := { typed 1 with repl := [{ page := 0x100, addr := 0x100000, bytes := [7] }] }
    let caught (s : State) (a b c : Bool) : Prop :=
      ∃ g, at_ s 0x100000 = .ok g ∧ (s.cutOff g.loc = a ∧ s.poisonAt g.loc 2 = b ∧ s.lockedAt g.loc = c)
    (raftOf false cut).pr.cutAt.getD cut.now + 80000 > cut.now ∧ (raftOf false late).pr.cutAt.getD late.now + 80000 ≤ late.now ∧
    (fetches late ∧ caught late true false false) ∧
    fetches (w 32 0xD5) ∧ reads (w 32 0xD5) 0x100000 [0xD5, 0] ∧ reads (w 32 0xD5) 0x100002 [0, 0] ∧ decode [0xD5, 0, 0, 0] = .ok (.nop, []) ∧
    fetches (w 16 0) ∧ reads (w 16 0) 0x100000 [0, 0] ∧ decode [0, 0] = .error .zeroParcel ∧ fetches lost ∧ (∃ f, at_ lost 0x900000 = .error f) ∧
    isEvent .scrub = true ∧ (fetches cut ∧ caught cut true false false) ∧ (fetches bad ∧ caught bad false true false) ∧
    (fetches locked ∧ caught locked false false true) := by
  refine ⟨by decide, by decide, ⟨⟨rfl, rfl, rfl, rfl, by decide⟩, ok_sat ?_⟩, ⟨rfl, rfl, rfl, rfl, by decide⟩, ok_sat ?_, ok_sat ?_, rfl, ⟨rfl, rfl, rfl, rfl, by decide⟩, ok_sat ?_, rfl, ⟨rfl, rfl, rfl, rfl, by decide⟩,
    ⟨_, rfl⟩, rfl, ⟨⟨rfl, rfl, rfl, rfl, by decide⟩, ok_sat ?_⟩, ⟨⟨rfl, rfl, rfl, rfl, by decide⟩, ok_sat ?_⟩,
    ⟨rfl, rfl, rfl, rfl, by decide⟩, ok_sat ?_⟩ <;> decide +kernel

/-- Instructions of four and of two bytes that the encoder encodes. -/
theorem witness_encode : (Instr.nop).wf = true ∧ encode .nop = some (.inr 0xD5) ∧ (Instr.cpy 4 3).wf = true ∧ encode (.cpy 4 3) = some (.inr 0x020006A7) ∧
    (Instr.fsubC16 (.v 2) 2).wf = true ∧ encode (.fsubC16 (.v 2) 2) = some (.inl 0x105A) :=
  ⟨rfl, rfl, rfl, rfl, rfl, rfl⟩

/-- The state after reset has the form, and a step from it after an instruction is placed answers a next state. -/
theorem witness_form : State.reset.Canon ∧ State.reset.Keyed ∧ plain.Canon ∧ plain.Keyed ∧
    (match step plain with
      | .next _ => true
      | _ => false) = true :=
  ⟨⟨rfl, rfl, rfl, rfl, rfl⟩, keyed_of rfl rfl rfl rfl, ⟨by decide +kernel, rfl, rfl, rfl, rfl⟩, keyed_of rfl rfl rfl rfl, by decide +kernel⟩

-- Single steps, their results from the worked examples of the spec.

/-- A fact about the thread and the team after an instruction of the plain raft. -/
def after (i : Instr) (s : State) (p : Thread → Team → Bool) : Bool :=
  match exec i s with
  | .next t => match t.thread 2, t.team 1 with
    | some th, some tm => p th tm.latch
    | _, _ => false
  | _ => false

def regs (l : List (Nat × Word)) (tag : BitVec 4) (g : Team → Team) : State := seed (fun th => l.foldl (fun th x => th.setReg x.1 x.2 tag) th) g

/-- The example after R228. -/
theorem test_add_saturates :
    let s := regs [(11, 0xFFFFFFF0)] tU32 fun t => t.setS 3 0x20
    after (.add true true (.v 11) (.s 3) ⟨false, 10⟩) s (fun th tm => th.reg 10 == ⟨0xFFFFFFFF, tU32⟩ && (tm.csrv cFLAGS == fSAT.setWidth 64)) = true ∧
    after (.add true false (.v 11) (.s 3) ⟨false, 10⟩) s (fun th tm => th.reg 10 == ⟨0x10, tU32⟩ && (tm.csrv cFLAGS == 0)) = true := by
  constructor <;> decide +kernel

/-- The examples of R232 and R241. -/
theorem test_bit_fields : bfiOf 0xF 0x0000041E 0 = 0xC0000000 ∧ prmtOf 0x88442211 0x40800003 = 0x00001188 := by decide

/-- The example of R233: `movi v1, 0` and then `movhi v1, 0x3FC0`, whose source is the destination. -/
theorem test_movhi : after (.movhi 0x3FC0 ⟨false, 1⟩) (regs [(1, 0)] tI32 id) (fun th _ => th.reg 1 == ⟨0x3FC00000, tI32⟩) = true := by
  decide +kernel

/-- The example of R83: 1.5 * 2^127 + 2^127 under RU and RZ. -/
theorem test_fadd_overflow :
    let s := regs [(1, 0x7F400000), (2, 0x7F000000)] tF32 id
    after (.fadd .ru (.v 1) (.v 2) ⟨false, 4⟩) s (fun th tm => th.reg 4 == ⟨0x7F800000, tF32⟩ && (tm.csrv cFLAGS == (fOF ||| fNX).setWidth 64)) = true ∧
    after (.fadd .rz (.v 1) (.v 2) ⟨false, 4⟩) s (fun th _ => th.reg 4 == ⟨0x7F7FFFFF, tF32⟩) = true := by
  constructor <;> decide +kernel

/-- The example of R267: four values into E4M3. -/
theorem test_cvt_e4m3 :
    after (.cvt .rne 0x2C (.v 4) ⟨false, 9⟩) (regs [(4, 0x3F800000), (5, 0x3E99999A), (6, 0x43FA0000), (7, 0xBA83126F)] tF32 id)
      (fun th tm => th.reg 9 == ⟨0x817E2A38, tE4M3⟩ && (tm.csrv cFLAGS == (fNX ||| fUF ||| fOF ||| fSAT).setWidth 64)) = true := by
  decide +kernel

/-- R178 and R180: the example's tile in MODE 2; the check value of R161; the example of R37. -/
theorem test_formats :
    (let t := compress ((List.range 64).flatMap fun i => natLe 4 (0x40000000 + 2 * i))
     t.map = 0x49 ∧ t.rec_ = natLe 4 0x02480100 ++ natLe 4 0x40000000 ++ (List.range 64).map fun i => BitVec.ofNat 8 (2 * i)) ∧
    crc64 ([0x31, 0x32, 0x33, 0x34, 0x35, 0x36, 0x37, 0x38, 0x39] : List Byte) = 0x6C40DF5F0B497347 ∧
    widOf [(5, 7), (3, 2), (3, 5), (4, 9)] = 0x4D47 := by
  refine ⟨by decide +kernel, by decide +kernel, by decide⟩

/-- R250: `trap` without a handler ends the team with 0x50 in the record; with one the raft enters it. -/
theorem test_trap :
    after (.trap 0x1234) (regs [] tI32 fun t => t.setCsr cTRAPV 0x200001)
      (fun th tm => th.sup && th.pc == 0x200000 && tm.csrv cTRAPCAUSE == 0x50 && tm.csrv cTRAPPC == 0x100000 && tm.csrv cTRAPADDR == 0) = true := by
  decide +kernel

/-- The example of R259, and the pairs of the example after R90. -/
theorem test_dot2h_and_qnt4 :
    let s (c : Word) : State := regs [(3, c)] tF32 fun t => t
    let a (s : State) : State := s.updThread 2 fun th => (th.setReg 1 0x3B803F80 tBF16).setReg 2 0x3F803F80 tBF16
    let f (x : Nat) : FVal := Fmt.f32.decode x
    after (.dot2h (.v 1) (.v 2) 3 5) (a (s 0xBF800000)) (fun th tm => th.reg 5 == ⟨0x3B800000, tF32⟩ && (tm.csrv cFLAGS == 0)) = true ∧
    after (.dot2h (.v 1) (.v 2) 3 5) (a (s 0x4B800000)) (fun th tm => th.reg 5 == ⟨0x4B800001, tF32⟩ && (tm.csrv cFLAGS == fNX.setWidth 64)) = true ∧
    (qntPair (f 0x3F000000) (f 0x3F800000) (f 0xC0266666)).1 = (2, 0xB) ∧ (qntPair (f 0x3F000000) (f 0x41A00000) (f 0x3E99999A)).1 = (8, 6) := by
  refine ⟨?_, ?_, ?_, ?_⟩ <;> decide +kernel

end Sys2Proof.Tests
end

section
/-!
SUPPORT and PROOFS. Control transfer and filing (R47, R55, R245 to R251): what going on at an address does, what filing and `yield`'s
ranking leave of the pipes, what each of these instructions answers once it issues, and the two statements about them.
-/

namespace Sys2Proof.Machine

-- The raft that has issued.

@[simp] theorem State.pipe_counted (s : State) (c : Ctx) (k p : Nat) : (s.counted c).pipe k p = s.pipe k p := by
  simp [State.pipe]

theorem Ctx.counted_elected_mem {c : Ctx} (h : c.lns ≠ []) : c.counted.elected ∈ c.counted.lns :=
  Ctx.elected_mem (by simpa [Ctx.counted] using h)

theorem Ctx.counted_injected_isSome {c : Ctx} (h : c.lns ≠ []) : c.counted.injected.isSome = c.injected.isSome := by
  unfold Ctx.injected Ctx.elected Ctx.counted
  cases hl : c.lns with
  | nil => exact absurd hl h
  | cons a r => simp

theorem Ready.lns_ne_nil {o : Issue} {s : State} {c : Ctx} (h : Ready o s c) : c.lns ≠ [] := by
  obtain ⟨-, -, r, tm, -, -, -, -, -, -, hne⟩ := State.ctx_some h.raft
  exact hne

theorem Ready.pr_eq {o : Issue} {s : State} {c : Ctx} (h : Ready o s c) : c.pr = s.pipe c.core c.p :=
  (State.ctx_some h.raft).2.1

-- Going on.

/-- Going on ends the run (R214) and touches no other pipe, whatever has become of the rest of the state meanwhile. -/
theorem State.goOn_goesOn {o : Issue} {s u : State} {c : Ctx} (h : Ready o s c) (hu : u.pipes = s.pipes) (pc : VAddr) (occ : Nat) :
    GoesOn s (u.goOn c.counted pc occ) c pc := by
  have hp : (u.goOn c.counted pc occ).pipe c.core c.p = { c.counted.pipeAt u.now pc occ with latches := [], run := 0 } :=
    State.pipe_setPipe_self _ _ _ _
  refine ⟨⟨?_, fun j hj => ?_⟩, congrArg Pipe.latches hp, congrArg Pipe.run hp⟩
  · rw [hp]
    simp [Ctx.pipeAt, h.pr_eq]
  · simp [State.goOn, State.setPipe, hj, hu]

/-- A raft that goes on right after it has issued has jumped, with nothing else changed. -/
theorem State.goOn_jumped {o : Issue} {s : State} {c : Ctx} (h : Ready o s c) (pc : VAddr) (occ : Nat) :
    Jumped s ((s.counted c).goOn c.counted pc occ) c pc :=
  ⟨rfl, State.goOn_goesOn h (s.counted_pipes c) pc occ⟩

/-- Write a thread for each lane of a raft. -/
def State.putLanes (s : State) (c : Ctx) (w : Ln → Thread) : State :=
  { s with threads := putThreads (c.lns.map fun l => (l.tid, w l)) s.threads }

@[simp] theorem State.pipes_putLanes (s : State) (c : Ctx) (w : Ln → Thread) : (s.putLanes c w).pipes = s.pipes := rfl
@[simp] theorem State.teams_putLanes (s : State) (c : Ctx) (w : Ln → Thread) : (s.putLanes c w).teams = s.teams := rfl

theorem State.thread_putLanes (s : State) (c : Ctx) (w : Ln → Thread) (id : Nat) :
    (s.putLanes c w).thread id = (s.thread id).map fun t => ((c.laneOf id).map w).getD t := by
  unfold State.putLanes State.thread putThreads
  rw [mfind_mmap, mfind_zip_map]
  rfl

/-- Of a raft that has issued, a thread is what was written of its lane. -/
theorem State.thread_putLanes_of_lane {o : Issue} {s : State} {c : Ctx} (h : Ready o s c) (w : Ln → Thread) {id : Nat} {l : Ln}
    (hl : c.counted.laneOf id = some l) : ((s.counted c).putLanes c.counted w).thread id = some (w l) := by
  have hin : ((s.counted c).thread id).isSome = true := by
    obtain ⟨hm, rfl⟩ := Ctx.laneOf_some hl
    obtain ⟨l0, hm0, rfl⟩ := List.mem_map.1 hm
    exact State.counted_thread_isSome (l := l0) h.raft hm0
  obtain ⟨b, hb⟩ := Option.isSome_iff_exists.1 hin
  rw [State.thread_putLanes, hb, hl]
  rfl

/-- A thread of no lane is as it was before the instruction. -/
theorem State.thread_putLanes_of_none {o : Issue} {s : State} {c : Ctx} (h : Ready o s c) (w : Ln → Thread) {id : Nat}
    (hn : c.counted.laneOf id = none) : ((s.counted c).putLanes c.counted w).thread id = s.thread id := by
  have hne : id ≠ c.elected.tid := fun e => Ctx.counted_laneOf_none hn _ (Ctx.elected_mem h.lns_ne_nil) e.symm
  rw [State.thread_putLanes, hn, State.thread_counted_ne hne]
  exact Option.map_id'

/-- A target per lane, the outcome `f` being one in every lane: the raft goes on. -/
theorem State.jumpEach_of_agree {β : Type} [DecidableEq β] (s : State) {c : Ctx} {f : Ln → β} (h : ∀ l ∈ c.lns, f l = f c.elected)
    (target : Ln → VAddr) : s.jumpEach c (c.lns.all fun l => f l == f c.elected) target = s.jump c (target c.elected) :=
  if_pos (by simpa using h)

/-- A target per lane, the outcome `f` differing among the lanes: the raft is filed (R47). -/
theorem State.jumpEach_of_differ {β : Type} [DecidableEq β] (s : State) {c : Ctx} {f : Ln → β} (h : ∃ l ∈ c.lns, f l ≠ f c.elected)
    (target : Ln → VAddr) :
    s.jumpEach c (c.lns.all fun l => f l == f c.elected) target = s.fileRaft c (c.lns.map fun l => (l.tid, target l)) :=
  if_neg (by simpa using h)

-- Decks passed over by `yield`.

theorem mem_insertNew {α : Type} [DecidableEq α] {x y : α} {l : List α} : y ∈ insertNew x l ↔ y = x ∨ y ∈ l := by
  unfold insertNew
  split
  · exact ⟨.inr, fun h => h.elim (fun e => e ▸ ‹x ∈ l›) fun h => h⟩
  · exact List.mem_cons

/-- What `yield` does to one pipe: it passes over the deck `e` at its next formation (R42, R55). -/
def State.passOver (s : State) (core : Nat) (e : Nat × VAddr × Bool) (p : Nat) : State :=
  s.setPipe core p { s.pipe core p with pass := insertNew e (s.pipe core p).pass }

theorem State.rankLast_eq (s : State) (core team : Nat) (pc : VAddr) (inj : Bool) :
    s.rankLast core team pc inj = (List.range 4).foldl (fun s p => s.passOver core (team, pc, inj) p) s := rfl

theorem State.raft_passOver (s : State) (core : Nat) (e : Nat × VAddr × Bool) (p k q : Nat) :
    ((s.passOver core e p).pipe k q).raft = (s.pipe k q).raft := by
  by_cases h : 4 * k + q = 4 * core + p
  · simp [State.passOver, State.setPipe, State.pipe, h]
  · rw [State.passOver, State.pipe_setPipe_ne _ h]

theorem State.mem_pass_passOver (s : State) (core : Nat) (e : Nat × VAddr × Bool) (p q : Nat) (x : Nat × VAddr × Bool) :
    x ∈ ((s.passOver core e p).pipe core q).pass ↔ (q = p ∧ x = e) ∨ x ∈ (s.pipe core q).pass := by
  by_cases h : q = p
  · subst h
    simp [State.passOver, mem_insertNew]
  · rw [State.passOver, State.pipe_setPipe_ne _ (by omega)]
    simp [h]

/-- What several pipes' passing over does: only pipes change, no raft comes or goes, and each of those pipes gains the one deck. -/
theorem State.foldl_passOver_spec (core : Nat) (e : Nat × VAddr × Bool) (ps : List Nat) (s : State) :
    let t := ps.foldl (fun s p => s.passOver core e p) s
    OnlyPipes s t ∧ (∀ k q, (t.pipe k q).raft = (s.pipe k q).raft) ∧
    ∀ q x, x ∈ (t.pipe core q).pass ↔ (q ∈ ps ∧ x = e) ∨ x ∈ (s.pipe core q).pass := by
  induction ps generalizing s with
  | nil => exact ⟨rfl, fun _ _ => rfl, fun q x => by simp⟩
  | cons p r ih =>
    obtain ⟨h1, h2, h3⟩ := ih (s.passOver core e p)
    refine ⟨h1, fun k q => (h2 k q).trans (s.raft_passOver core e p k q), fun q x => ?_⟩
    rw [List.foldl_cons, h3, State.mem_pass_passOver, List.mem_cons]
    tauto

theorem OnlyPipes.thread_eq {s t : State} (h : OnlyPipes s t) (id : Nat) : t.thread id = s.thread id := by
  unfold OnlyPipes at h
  rw [h]
  rfl

theorem OnlyPipes.onlyFiling {s t : State} (h : OnlyPipes s t) : OnlyFiling s t := by
  unfold OnlyPipes at h
  unfold OnlyFiling
  rw [h]

/-- A raft filed stays so in a state that differs in pipes only, and in no pipe's raft. -/
theorem FiledEach.of_onlyPipes {s t u : State} {c : Ctx} {target : Ln → VAddr} (h : FiledEach s t c target) (hp : OnlyPipes t u)
    (hr : ∀ k q, (u.pipe k q).raft = (t.pipe k q).raft) : FiledEach s u c target := by
  refine ⟨h.rest.trans hp.onlyFiling, ?_, ?_, ?_, ?_⟩
  · simpa only [hp.thread_eq] using h.filed.lanes
  · simpa only [hp.thread_eq] using h.filed.others
  · exact (hr _ _).trans h.filed.free
  · exact fun k p hkp => (hr k p).trans (h.filed.rafts k p hkp)

/-- A raft filed stays so when its deck is ranked last. -/
theorem FiledEach.rankLast {s t : State} {c : Ctx} {target : Ln → VAddr} (h : FiledEach s t c target) (core team : Nat) (pc : VAddr)
    (inj : Bool) : FiledEach s (t.rankLast core team pc inj) c target := by
  obtain ⟨hp, hr, -⟩ := t.foldl_passOver_spec core (team, pc, inj) (List.range 4)
  exact h.of_onlyPipes hp hr

/-- Filing the raft frees its pipe, and does nothing else to pipes. -/
theorem State.pipes_fileRaft (s : State) (c : Ctx) (at_ : List (Nat × VAddr)) :
    (s.fileRaft c at_).pipes = (s.freePipe c.core c.p).pipes := by
  obtain ⟨-, hp, -⟩ := State.fileMany_spec c.core at_ (s.freePipe c.core c.p)
  exact (State.settle_settled _ c.core).pipes.trans hp

/-- The decks that a pipe has still to pass over stay when the raft is filed. -/
theorem State.pass_fileRaft (s : State) (c : Ctx) (at_ : List (Nat × VAddr)) (k q : Nat) :
    ((s.fileRaft c at_).pipe k q).pass = (s.pipe k q).pass := by
  rw [State.pipe, State.pipes_fileRaft]
  by_cases h : 4 * k + q = 4 * c.core + c.p
  · simp [State.freePipe, State.setPipe, State.pipe, h]
  · exact congrArg Pipe.pass (State.pipe_setPipe_ne s h _)

/-- After the filing of `yield`, each pipe of the core passes over the raft's own deck, and no other that it did not before. -/
theorem State.mem_pass_rankLast (s : State) (core team : Nat) (pc : VAddr) (inj : Bool) {q : Nat} (hq : q < 4)
    (x : Nat × VAddr × Bool) :
    x ∈ ((s.rankLast core team pc inj).pipe core q).pass ↔ x = (team, pc, inj) ∨ x ∈ (s.pipe core q).pass := by
  obtain ⟨-, -, hm⟩ := s.foldl_passOver_spec core (team, pc, inj) (List.range 4)
  rw [State.rankLast_eq, hm]
  simp [hq]

-- What each instruction answers, once it issues.

section
variable {s : State} {c : Ctx}

theorem exec_br_ready (off : BitVec 23) (h : Ready {} s c) :
    exec (.br off) s = .next ((s.counted c).jump c.counted (c.pc + halfwords off)) := by
  change execBr off s = _
  unfold execBr
  exact State.issue_ready h _

theorem exec_nop_ready (h : Ready {} s c) : exec .nop s = .next ((s.counted c).goOn c.counted (c.after 4) 1) := by
  change execNop s = _
  unfold execNop
  exact State.issue_ready h _

theorem exec_reform_ready (h : Ready {} s c) : exec .reform s = .next ((s.counted c).fileNext c.counted) := by
  change execReform s = _
  unfold execReform
  exact State.issue_ready h _

theorem exec_join_ready (h : Ready {} s c) : exec .join s = .next ((s.counted c).fileNext c.counted) := by
  change execJoin s = _
  unfold execJoin
  exact State.issue_ready h _

theorem exec_yield_ready (h : Ready {} s c) :
    exec .yield s = .next (((s.counted c).fileNext c.counted).rankLast c.core c.team (c.after 4) c.injected.isSome) := by
  rw [← Ctx.counted_injected_isSome h.lns_ne_nil]
  change execYield s = _
  unfold execYield
  exact State.issue_ready h _

/-- The return offset that `call` leaves (R246). -/
def Ctx.link (c : Ctx) : Word := (c.after 4 - c.tm.codebase).setWidth 32

theorem exec_call_ready (off : BitVec 23) (h : Ready {} s c) :
    exec (.call off) s = .next
      (((s.counted c).putLanes c.counted fun l => l.th.setReg 63 c.link tU32).jump c.counted (c.pc + halfwords off)) := by
  change execCall off s = _
  unfold execCall
  exact State.issue_ready h _

/-- Where a lane goes from a `brp` (R245). -/
def Ctx.brpTarget (c : Ctx) (off : BitVec 16) (neg : Bool) (p : BitVec 3) (l : Ln) : VAddr :=
  if l.th.pred p != neg then c.pc + halfwords off else c.after 4

theorem exec_brp_ready (off : BitVec 16) (neg : Bool) (p : BitVec 3) (h : Ready { pr := true } s c) :
    exec (.brp off neg p) s = .next ((s.counted c).jumpEach c.counted
      (c.counted.lns.all fun l => l.th.pred p == c.counted.elected.th.pred p) (c.brpTarget off neg p)) := by
  change execBrp off neg p s = _
  unfold execBrp
  exact State.issue_ready h _

/-- `ret` and `jmpi` have one meaning. -/
theorem exec_ret_eq (a : Src) (s : State) : exec (.ret a) s = s.jumpIndirect a := rfl
theorem exec_jmpi_eq (a : Src) (s : State) : exec (.jmpi a) s = s.jumpIndirect a := rfl

@[simp] theorem targetOf_counted (c : Ctx) (a : Src) : targetOf c.counted a = targetOf c a := rfl

/-- With an odd target, the lane that raises meets 0x06 (R247, R426). -/
theorem State.jumpIndirect_odd {a : Src} {l : Ln} (h : Ready { srcs := [a] } s c)
    (hl : c.counted.raiser (fun x => (targetOf c a x).getLsbD 0) = some l) :
    s.jumpIndirect a = .next ((s.counted c).raise c.counted l { cause := 0x06 } 4) := by
  unfold State.jumpIndirect
  rw [State.issue_ready h]
  simp only [targetOf_counted, hl]

/-- With every target even, the raft goes on at the common one or is filed. -/
theorem State.jumpIndirect_even {a : Src} (h : Ready { srcs := [a] } s c)
    (he : ∀ l ∈ c.counted.lns, (targetOf c a l).getLsbD 0 = false) :
    s.jumpIndirect a = .next ((s.counted c).jumpEach c.counted
      (c.counted.lns.all fun l => targetOf c a l == targetOf c a c.counted.elected) (targetOf c a)) := by
  unfold State.jumpIndirect
  rw [State.issue_ready h]
  simp only [targetOf_counted, Ctx.raiser_none he]

-- From the answers to what the statements say of them.

theorem exec_brp_agree (off : BitVec 16) (neg : Bool) (p : BitVec 3) (h : Ready { pr := true } s c)
    (ha : ∀ l ∈ c.counted.lns, l.th.pred p = c.counted.elected.th.pred p) :
    ∃ t, exec (.brp off neg p) s = .next t ∧ Jumped s t c (c.brpTarget off neg p c.counted.elected) := by
  rw [exec_brp_ready off neg p h, State.jumpEach_of_agree _ ha]
  exact ⟨_, rfl, State.goOn_jumped h _ 2⟩

theorem exec_brp_differ (off : BitVec 16) (neg : Bool) (p : BitVec 3) (h : Ready { pr := true } s c)
    (hd : ∃ l ∈ c.counted.lns, l.th.pred p ≠ c.counted.elected.th.pred p) :
    ∃ t, exec (.brp off neg p) s = .next t ∧ FiledEach s t c.counted (c.brpTarget off neg p) := by
  rw [exec_brp_ready off neg p h, State.jumpEach_of_differ _ hd]
  exact ⟨_, rfl, State.fileRaft_filed h.raft _⟩

theorem State.jumpIndirect_agree {a : Src} {pc : VAddr} (h : Ready { srcs := [a] } s c)
    (ha : ∀ l ∈ c.counted.lns, targetOf c a l = pc) (he : pc.getLsbD 0 = false) :
    ∃ t, s.jumpIndirect a = .next t ∧ Jumped s t c pc := by
  have hel := ha _ (Ctx.counted_elected_mem h.lns_ne_nil)
  rw [State.jumpIndirect_even h fun l hl => (ha l hl).symm ▸ he,
    State.jumpEach_of_agree (f := targetOf c a) _ fun l hl => (ha l hl).trans hel.symm, hel]
  exact ⟨_, rfl, State.goOn_jumped h _ 2⟩

theorem State.jumpIndirect_differ {a : Src} (h : Ready { srcs := [a] } s c)
    (hd : ∃ l ∈ c.counted.lns, targetOf c a l ≠ targetOf c a c.counted.elected)
    (he : ∀ l ∈ c.counted.lns, (targetOf c a l).getLsbD 0 = false) :
    ∃ t, s.jumpIndirect a = .next t ∧ FiledEach s t c.counted (targetOf c a) := by
  rw [State.jumpIndirect_even h he, State.jumpEach_of_differ (f := targetOf c a) _ hd]
  exact ⟨_, rfl, State.fileRaft_filed h.raft _⟩

theorem exec_call_goesOn (off : BitVec 23) (h : Ready {} s c) :
    ∃ t, exec (.call off) s = .next t ∧ OnlyRegisters s t ∧ t.teams = s.teams ∧ GoesOn s t c (c.pc + halfwords off) ∧
      (∀ id l, c.counted.laneOf id = some l → t.thread id = some (l.th.setReg 63 c.link tU32)) ∧
      ∀ id, c.counted.laneOf id = none → t.thread id = s.thread id := by
  refine ⟨_, exec_call_ready off h, ?_, s.counted_teams c, State.goOn_goesOn h (by simp) _ 2,
    fun _ _ => State.thread_putLanes_of_lane h _, fun _ => State.thread_putLanes_of_none h _⟩
  unfold OnlyRegisters
  rw [State.counted_rest s c]
  rfl

theorem State.fileNext_filed {o : Issue} (h : Ready o s c) :
    FiledEach s ((s.counted c).fileNext c.counted) c.counted fun _ => c.after 4 :=
  State.fileRaft_filed h.raft _

theorem exec_yield_files (h : Ready {} s c) :
    ∃ t, exec .yield s = .next t ∧ FiledEach s t c.counted (fun _ => c.after 4) ∧
      ∀ q, q < 4 → ∀ x, x ∈ (t.pipe c.core q).pass ↔ x = (c.team, c.after 4, c.injected.isSome) ∨ x ∈ (s.pipe c.core q).pass := by
  refine ⟨_, exec_yield_ready h, (State.fileNext_filed h).rankLast _ _ _ _, fun q hq x => ?_⟩
  rw [State.mem_pass_rankLast _ _ _ _ _ hq, State.fileNext, State.pass_fileRaft, State.pipe_counted]

end

/-- Taking a branch is the same of two lanes exactly where the predicate is. -/
theorem Thread.taken_eq_iff {a b : Thread} {neg : Bool} {p : BitVec 3} :
    (a.p.getLsbD p.toNat != neg) = (b.p.getLsbD p.toNat != neg) ↔ a.pred p = b.pred p := Bool.bne_left_inj

/-- Settles O17: a raft that files itself does so through `fileRaft`, whose law says what filing does; `yield` then touches only the lists of
decks that pipes pass over. -/
theorem filingInstructions : Obligations.FilingInstructions := by
  unfold Obligations.FilingInstructions
  intro s c off neg p a
  refine ⟨fun h => ⟨_, exec_reform_ready h, State.fileNext_filed h⟩, fun h => ⟨_, exec_join_ready h, State.fileNext_filed h⟩, fun h => ?_,
    fun h ⟨l, hl, hd⟩ => ?_, fun h hd he => ?_⟩
  · obtain ⟨t, ht, hf, hp⟩ := exec_yield_files h
    exact ⟨t, ht, hf, fun q hq => ⟨(hp q hq _).2 (.inl rfl), fun x hx => (hp q hq x).1 hx⟩⟩
  · exact exec_brp_differ off neg p h ⟨l, hl, fun e => hd (Thread.taken_eq_iff.2 e)⟩
  · rw [exec_ret_eq, exec_jmpi_eq]
    exact ⟨State.jumpIndirect_differ h hd he, State.jumpIndirect_differ h hd he⟩

/-- Settles O16: each of these instructions goes on through `goOn`, at the target that its lanes share; `call` writes its lanes' threads first. -/
theorem controlTransfer : Obligations.ControlTransfer := by
  unfold Obligations.ControlTransfer
  intro s c off off16 neg p a
  refine ⟨fun h => ⟨_, exec_br_ready off h, State.goOn_jumped h _ 2⟩, fun h => ⟨_, exec_nop_ready h, State.goOn_jumped h _ 1⟩,
    fun h ha => ?_, fun pc h ha he => ?_, fun l h hl => ?_, exec_call_goesOn off, fun rest => rfl⟩
  · exact exec_brp_agree off16 neg p h fun l hl => Thread.taken_eq_iff.1 (ha l hl)
  · rw [exec_ret_eq, exec_jmpi_eq]
    exact ⟨State.jumpIndirect_agree h ha he, State.jumpIndirect_agree h ha he⟩
  · rw [exec_ret_eq, exec_jmpi_eq]
    exact ⟨State.jumpIndirect_odd h hl, State.jumpIndirect_odd h hl⟩

end Sys2Proof.Machine
end
